-- ==== Sys2Proof/Word.lean ====
section
/-! DEFINITION. The word types of the archive link and the scan lanes, and their plainest arithmetic. -/

namespace Sys2Proof

/-- One byte of a parcel (chapter 10). -/
abbrev Byte := BitVec 8

/-- A 16-bit code: a sample, a knot, a CRC, an enable mask. -/
abbrev Word16 := BitVec 16

/-- A 32-bit field of a parcel. -/
abbrev Word32 := BitVec 32

/-- A film position: a 32-bit running count of ticks (00_scope section 4). -/
abbrev FilmPos := BitVec 32

/-- A scan line number, 28 bits (section 2.2). -/
abbrev LineNo := BitVec 28

/-- A reel id, 1..2^32-1; 0 is never a reel id (R194). -/
abbrev ReelId := BitVec 32

/-- Decks, deck channels, scan lanes and registration units are numbered 0 to 3 (00_scope section 4). -/
abbrev DeckId := Fin 4

/-- The difference of two film positions, modulo 2^32, read as a signed value (00_scope section 4). -/
def filmDiff (a b : FilmPos) : Int := (a - b).toInt

/-- The difference of two line numbers, modulo 2^28, read as a signed value (section 2.2, R45). -/
def lineDiff (a b : LineNo) : Int := (a - b).toInt

end Sys2Proof
end

