-- ==== Sys2Proof/Syntax.lean ====
section
/-! DEFINITION. The commands of the part: one constructor of `Instr` for each row of spec/opcode_table.json, and the types
of their operands. -/

namespace Sys2Proof

/-- The ten slot commands (R2). -/
inductive SlotCommand where
  | lockGate | unlockGate | powerOn | powerOff | run | pause | stop | indicatorOff | indicatorOn | indicatorBlink
  deriving DecidableEq, Repr, Inhabited

/-- The four sensor levels of a deck (section 1.1). -/
structure Sensors where
  present : Bool
  gateClosed : Bool
  attention : Bool
  powerFault : Bool
  deriving DecidableEq, Repr, Inhabited

/-- What power-on reset finds on its inputs: the sensor levels it samples (R27), the lanes with signal (R31) and whether
the archive link has signal (R193). -/
structure ResetPins where
  sensors : Vector Sensors 4
  laneSignal : Vector Bool 4
  linkSignal : Bool
  deriving DecidableEq, Repr

/-- The commands. A request row is the take of the control parcel at the head of the input buffer (R178): its operands are
the bytes of that parcel. -/
inductive Instr where
  -- takes of the Control Decoder
  | bindReel
  | unbindReel
  | startScan
  | endScan
  | abortDeck
  | releaseReel
  | deckCommand
  | setDeckEvents
  | retrainLane
  | readContext
  | loadProfile
  | loadComparator
  | loadRule
  | loadGrade
  | loadCurve
  | loadPolicy
  | loadShelf
  | addCue
  | dropCue
  | bindGrade
  | setDefaultGrade
  | trim
  | shelved
  | releasePosition
  | cancelDirective
  | readShots
  | readDefectMap
  | readShelf
  | readQueue
  | softReset
  | unknownRequest
  -- the archive link, downstream: the bytes that arrive, flow symbols removed (R174)
  | controlParcelReceived (bytes : List Byte)
  | overlongHeader (bytes : List Byte)
  | halt
  | go
  | linkSignalFound
  | linkTrained
  | linkSignalLost
  -- the archive link, upstream
  | readoutJoin
  | reportSend
  | grant
  | pictureParcelSent
  | fullTrailerSent
  | overrunTrailerSent
  | abortedTrailerSent
  -- the deck lines
  | presentChange (deck : DeckId) (level : Bool)
  | gateClosedChange (deck : DeckId) (level : Bool)
  | powerFaultRise (deck : DeckId)
  | powerFaultFall (deck : DeckId)
  | attentionPress (deck : DeckId)
  | attentionFall (deck : DeckId)
  | deckAnswerDone (deck : DeckId) (command : SlotCommand)
  | deckAnswerFault (deck : DeckId) (command : SlotCommand)
  | commandTimeout (deck : DeckId)
  -- the scan lanes; a parcel row brings bytes and is named after what they complete, in whatever pieces they arrive (R199)
  | laneSignalFound (lane : DeckId)
  | laneTrained (lane : DeckId)
  | laneSignalLost (lane : DeckId)
  | sighting (lane : DeckId) (bytes : List Byte)
  | band (lane : DeckId) (bytes : List Byte)
  | leader (lane : DeckId) (bytes : List Byte)
  | tail (lane : DeckId) (bytes : List Byte)
  | overlongLaneHeader (lane : DeckId) (kind reserved : Byte) (length : Word32)
  -- the engines
  | analysisStart
  | analysisComplete
  | decision
  | repairEnd
  -- reset, and the rows the reader's table lists last
  | powerOnReset (pins : ResetPins)
  | reportParcelSent
  | discardedLaneParcel (lane : DeckId) (bytes : List Byte)
  deriving DecidableEq, Repr

end Sys2Proof
end

