-- ==== Sys2Proof/Decode.lean ====
section
/-! DEFINITION. No row of spec/opcode_table.json gives bits (all 69 have an empty "fields" and no fixed bits), so no word spells a command.
How the bytes of a wire are read into parcels and requests is in Machine/Bytes.lean, Operands.lean, Link.lean and Lanes.lean. -/

namespace Sys2Proof

/-- The command that a word spells by the table's bits: none, since the table gives no row bits. -/
def decodeTableWord (_nbits _w : Nat) : Option Instr := none

end Sys2Proof
end

