-- ==== Sys2Proof/Config.lean ====
section
/-! DEFINITION. The sizes the manual fixes. The manual leaves no value of an operation open, so there is no free value here. -/

namespace Sys2Proof.Config

/-- The top of every 24-bit range: frame numbers, counters, limits. -/
def max24 : Nat := 16777215

/-- A frame record queue holds up to 12 records (R56). -/
def recordRoom : Nat := 12

/-- A frame has at most 4096 lines (R52). -/
def maxLines : Nat := 4096

/-- Lines of one band and of one full picture parcel (R51, R188). -/
def bandLines : Nat := 16

/-- The pause mark of section 3.6. -/
def pauseMark : Nat := 2

/-- The resume mark of section 3.6. -/
def resumeMark : Nat := 5

/-- Shots of one shot table (R72). -/
def shotRoom : Nat := 256

/-- Cues of one cue list (R81). -/
def cueRoom : Nat := 16

/-- Runs of one defect map (R127). -/
def runRoom : Nat := 512

/-- The greatest count of one run (R126). -/
def runCountMax : Nat := 65535

/-- Directives of the return queue (R162). -/
def directiveRoom : Nat := 16

/-- Positions of the shelf map (section 8.3). -/
def shelfSize : Nat := 2048

/-- Positions of one shelf page (R159). -/
def pageSize : Nat := 64

/-- Control parcels of the input buffer (R177). -/
def inputRoom : Nat := 8

/-- The number held at which the part sends HALT upstream (R177). -/
def inputHaltMark : Nat := 6

/-- The number held at which the part sends GO upstream (R177). -/
def inputGoMark : Nat := 2

/-- Entries of the report queue (R182). -/
def reportRoom : Nat := 32

/-- Entries of the report queue that may be notices (R183). -/
def noticeRoom : Nat := 24

/-- The greatest repeat count of a notice (R184). -/
def repeatMax : Nat := 255

/-- The longest downstream payload (R174). -/
def maxPayload : Nat := 1024

/-- The longest lane payload: a band of 8192 samples (R199). -/
def maxLanePayload : Nat := 1048584

/-- Readouts of one kind that one read request gives at most (R87, R129). -/
def readoutRun : Nat := 16

end Sys2Proof.Config
end

