-- ==== Sys2Proof/Machine/DeckTypes.lean ====
section
/-! DEFINITION. What the part holds for each deck: the slot command channel and reel context (chapter 1), the lane and the Registration
Unit (chapter 2), slots and frame records (chapter 3), shots and cues (chapter 4), the defect map (section 6.7). -/

namespace Sys2Proof.Machine

/-! ### Chapter 1: the deck slot controller -/

/-- Where a slot command comes from (section 1.2). -/
inductive Origin where
  | workstation | context | flow
  deriving DecidableEq, Repr, Inhabited

/-- The context state a release unlock was made from (R3, R21, R25). -/
inductive ReleaseFrom where
  | finished | aborted
  deriving DecidableEq, Repr, Inhabited

/-- A slot command in one of the two places of a channel (R3). -/
structure Command where
  cmd : SlotCommand
  origin : Origin
  release : Option ReleaseFrom
  deriving DecidableEq, Repr, Inhabited

/-- The command on the deck lines, with the timeout setting its timer was started with (R3). -/
structure Outstanding where
  command : Command
  timer : Fin 4
  deriving DecidableEq, Repr, Inhabited

/-- How an outstanding command ends (R4). -/
inductive CommandResult where
  | done | fault | failed
  deriving DecidableEq, Repr, Inhabited

/-- The motion mirror (R9). -/
inductive Motion where
  | stopped | paused | running
  deriving DecidableEq, Repr, Inhabited

/-- The names of the four sensors, as a SLOT_EVENT notice gives them (R1). -/
inductive Sensor where
  | present | gateClosed | attention | powerFault
  deriving DecidableEq, Repr, Inhabited

/-- One deck channel of the DSC (sections 1.1 to 1.3). `waiting` is the pending command of R3. -/
structure Channel where
  sensors : Sensors
  outstanding : Option Outstanding
  waiting : Option Command
  motion : Motion
  timeout : Fin 4
  mask : Word16
  deriving DecidableEq, Repr, Inhabited

/-- The reel context states (section 1.5). -/
inductive ContextState where
  | empty | loaded | bound | scanning | draining | finished | released | aborted
  deriving DecidableEq, Repr, Inhabited

/-- The reel context (section 1.5). `hasDirective` is its reference to a return queue entry: the ON_DECK directive whose source
deck is this deck. DESIGN CHOICE (log 17), safe: the reference is looked up, not stored a second time. -/
structure ReelContext where
  state : ContextState
  reel : Option ReelId
  profile : Option (Fin 8)
  defaultGrade : Option (Fin 64)
  gateLocked : Bool
  powerOn : Bool
  interrupted : Bool
  nextFrame : Nat
  framesDecided : Nat
  splices : Nat
  perfFrames : Nat
  concealedTemporal : Nat
  concealedSpatial : Nat
  heldFrames : Nat
  markedFrames : Nat
  overrunFrames : Nat
  maxShrink : Nat
  score : Option Nat
  storageClass : Option (Fin 8)
  hasDirective : Bool
  planPending : Bool
  deriving DecidableEq, Repr, Inhabited

/-- The ten fields of a deck profile (section 1.4). -/
structure Profile where
  perfsPerFrame : Nat
  nominalPitch : Nat
  pitchTolerance : Nat
  lockCount : Nat
  coastLimit : Nat
  frameLineOffset : Nat
  lineWidth : Nat
  irLimit : Nat
  tileFlagLimit : Nat
  blotchLimit : Nat
  deriving DecidableEq, Repr, Inhabited

/-! ### Chapter 2: the lane and the Registration Unit -/

/-- The state of a scan lane (section 2.1). -/
inductive LaneState where
  | down | training | up
  deriving DecidableEq, Repr, Inhabited

/-- The cause in a LANE_STATE notice (R28). -/
inductive LaneCause where
  | signalFound | trained | signalLost | retrain
  deriving DecidableEq, Repr, Inhabited

/-- The lock state of a Registration Unit (section 2.3). -/
inductive LockState where
  | idle | acquire | locked | coast
  deriving DecidableEq, Repr, Inhabited

/-- What a boundary declares to the Shot Table (R45, R49). -/
inductive Declaration where
  | start | relock | splice | none
  deriving DecidableEq, Repr, Inhabited

/-- A pending boundary record (R45). `shrink` is present on a LOCKED boundary. -/
structure Boundary where
  position : FilmPos
  line : LineNo
  declaration : Declaration
  offset : Int
  deviation : Nat
  coasted : Bool
  spurious : Bool
  shrink : Option Nat
  deriving DecidableEq, Repr, Inhabited

/-- The frame that is receiving bands (section 2.3). -/
structure CurrentFrame where
  number : Nat
  first : LineNo
  mark : Option LineNo
  deriving DecidableEq, Repr, Inhabited

/-- A Registration Unit (section 2.3). -/
structure Rgu where
  lock : LockState
  chain : Nat
  prev : Option FilmPos
  prevAccepted : Bool
  avg : Option Nat
  index : Nat
  misses : Nat
  candidate : Option FilmPos
  firstLock : Bool
  relockPending : Bool
  numbersExhausted : Bool
  boundary : Option Boundary
  current : Option CurrentFrame
  deriving DecidableEq, Repr, Inhabited

/-- The event of a REGISTRATION notice (R44). -/
inductive RegistrationEvent where
  | lock | loss | splice
  deriving DecidableEq, Repr, Inhabited

/-- The loss cause of a REGISTRATION notice; `none` for LOCK and SPLICE (R44, R197). -/
inductive LossCause where
  | none | coast | lane | numbers
  deriving DecidableEq, Repr, Inhabited

/-! ### Chapter 3: the frame store -/

/-- One scanned sample in the four channels (section 4 of the scope). -/
structure Sample where
  r : Word16
  g : Word16
  b : Word16
  ir : Word16
  deriving DecidableEq, Repr, Inhabited

/-- One picture line. -/
abbrev Line := List Sample

/-- The content of a slot: lines by line index, strictly rising, none of them all zero; a line that is not listed reads 0 in
all four channels (R55). -/
abbrev SlotMem := List (Nat × Line)

/-- One frame slot (R54, R55): HELD or FREE, its content, and the written-line record of a CAPTURING frame. -/
structure Slot where
  held : Bool
  mem : SlotMem
  written : List Nat
  deriving DecidableEq, Repr, Inhabited

/-- The phase of a frame record (R57). -/
inductive Phase where
  | capturing | captured | analyzed | repairing | ready | emitting | emitted | overrun
  deriving DecidableEq, Repr, Inhabited

/-- The fate of the most recently consumed number, and the predecessor field of a record (R60). -/
inductive Fate where
  | none | slotted | overrun | unrecorded | discarded
  deriving DecidableEq, Repr, Inhabited

/-- Transport flow state (R69). -/
inductive FlowState where
  | clear | pauseAsked
  deriving DecidableEq, Repr, Inhabited

/-- The flags of a frame record (section 3.2). -/
structure FrameFlags where
  coasted : Bool
  spurious : Bool
  truncated : Bool
  missingLines : Bool
  aborted : Bool
  deriving DecidableEq, Repr, Inhabited

/-- A set of damage classes (section 5.4). -/
structure ClassSet where
  dust : Bool
  scratch : Bool
  blotch : Bool
  perf : Bool
  splice : Bool
  gap : Bool
  deriving DecidableEq, Repr, Inhabited

/-- The eight measures of an analysis (section 5.3). -/
structure Measures where
  totalArea : Nat
  maxTile : Nat
  scratchRun : Nat
  flaggedTiles : Nat
  offsetMag : Nat
  pitchDev : Nat
  coasted : Nat
  shotPos : Nat
  deriving DecidableEq, Repr, Inhabited

/-- An applied action (section 3.2). The first five are the actions a repair rule may choose (section 6.2). -/
inductive Action where
  | pass | concealTemporal | concealSpatial | holdPrevious | mark | lost
  deriving DecidableEq, Repr, Inhabited

/-- A frame record (section 3.2). Bit k of `codes` is condition code cck. -/
structure FrameRecord where
  number : Nat
  phase : Phase
  slot : Option (Fin 8)
  predecessor : Fate
  shot : Nat
  boundary : FilmPos
  lines : Nat
  offset : Int
  deviation : Nat
  flags : FrameFlags
  measures : Option Measures
  codes : Option Byte
  classes : ClassSet
  rule : Option (Fin 32)
  action : Option Action
  clipHigh : Nat
  clipLow : Nat
  deriving DecidableEq, Repr, Inhabited

/-- What the Frame Store Controller holds for one deck. `lastConsumed` is the most recently consumed frame number, which R60,
R66, R72 and R77 speak of. DEDUCED (log 16), safe. -/
structure DeckStore where
  slots : Vector Slot 8
  records : List FrameRecord
  fate : Fate
  lastConsumed : Option Nat
  flow : FlowState
  deriving DecidableEq, Repr

/-! ### Chapter 4: shots and cues -/

/-- What opened a shot (section 4.1). -/
inductive ShotOrigin where
  | start | splice | relock | cue
  deriving DecidableEq, Repr, Inhabited

/-- The state of a shot (sections 4.2, 4.3). -/
inductive ShotState where
  | opened | closed | complete
  deriving DecidableEq, Repr, Inhabited

/-- A shot; its index is its place in the table (section 4.1). -/
structure Shot where
  first : Nat
  last : Option Nat
  origin : ShotOrigin
  state : ShotState
  binding : Option (Fin 64)
  excursion : Int
  emitted : Nat
  deriving DecidableEq, Repr, Inhabited

/-- A cue (section 4.5). -/
structure Cue where
  frame : Nat
  grade : Option (Fin 64)
  deriving DecidableEq, Repr, Inhabited

/-- What the Shot Table holds for one deck (R72, R81). -/
structure ShotTable where
  shots : List Shot
  fullNotice : Bool
  cues : List Cue
  deriving DecidableEq, Repr, Inhabited

/-! ### Section 6.7: the defect map -/

/-- A run of a defect map. -/
structure Run where
  first : Nat
  count : Nat
  classes : ClassSet
  action : Action
  deriving DecidableEq, Repr, Inhabited

/-- A deck's defect map (R125 to R128). -/
structure DefectMap where
  reel : Option ReelId
  runs : List Run
  full : Bool
  deriving DecidableEq, Repr, Inhabited

/-! ### One deck -/

/-- Everything the part holds for one deck. `intake` is what has arrived on the lane and is not yet cut into parcels: the lane parcel intake of
R199. -/
structure Deck where
  chan : Channel
  ctx : ReelContext
  lane : LaneState
  intake : List Byte
  rgu : Rgu
  store : DeckStore
  table : ShotTable
  map : DefectMap
  deriving DecidableEq, Repr

end Sys2Proof.Machine
end

