-- ==== Sys2Proof/Machine/EngineTypes.lean ====
section
/-! DEFINITION. What the engines shared by the decks hold: Damage Analyzer (chapter 5), Repair Engine (chapter 6), Grade Engine
(chapter 7), Shelf Planner (chapter 8). -/

namespace Sys2Proof.Machine

/-- A frame record as the queues of DAN and RPE name it (R88, R108). -/
structure FrameRef where
  deck : DeckId
  frame : Nat
  deriving DecidableEq, Repr, Inhabited

/-! ### Damage Analyzer -/

/-- The measure a comparator compares (section 5.5). -/
inductive Measure where
  | totalArea | maxTile | scratchRun | flaggedTiles | offsetMag | pitchDev | coasted | shotPos
  deriving DecidableEq, Repr, Inhabited

/-- The relation of a comparator (section 5.5). -/
inductive Relation where
  | atLeast | below
  deriving DecidableEq, Repr, Inhabited

/-- One comparator (section 5.5). -/
structure Comparator where
  enabled : Bool
  measure : Measure
  relation : Relation
  limit : Nat
  deriving DecidableEq, Repr, Inhabited

/-- The Damage Analyzer (R88, R103). -/
structure Dan where
  queue : List FrameRef
  active : Option FrameRef
  comparators : Vector Comparator 8
  deriving DecidableEq, Repr

/-! ### Repair Engine -/

/-- The test of a repair rule: a condition code and whether it must be set (section 6.2). -/
structure RuleTest where
  code : Fin 8
  set : Bool
  deriving DecidableEq, Repr, Inhabited

/-- One entry of the repair rule table (section 6.2). -/
structure Rule where
  enabled : Bool
  required : ClassSet
  test : Option RuleTest
  passAction : Action
  failAction : Option Action
  fallback : Action
  deriving DecidableEq, Repr, Inhabited

/-- The Repair Engine (R108, R109, R110). -/
structure Rpe where
  queue : List FrameRef
  active : Option FrameRef
  rules : Vector Rule 32
  deriving DecidableEq, Repr

/-! ### Grade Engine -/

/-- The fields of one channel of a grade record (section 7.1). -/
structure ChannelGrade where
  mantissa : Nat
  mode : Nat
  lift : Int
  liftTrim : Nat
  gainTrim : Nat
  deriving DecidableEq, Repr, Inhabited

/-- A grade record (section 7.1). -/
structure GradeRecord where
  r : ChannelGrade
  g : ChannelGrade
  b : ChannelGrade
  curve : Option (Fin 16)
  clipLimit : Nat
  deriving DecidableEq, Repr, Inhabited

/-- A curve table: 33 knots (section 7.2). -/
abbrev Curve := Vector Word16 33

/-- A HELD snapshot (section 7.3). -/
structure Snapshot where
  deck : DeckId
  frame : Nat
  index : Fin 64
  record : GradeRecord
  curve : Option Curve
  high : Nat
  low : Nat
  deriving DecidableEq, Repr

/-- The Grade Engine (R130, R132, R134); `snapshot = none` is EMPTY. -/
structure Gre where
  grades : Vector GradeRecord 64
  curves : Vector Curve 16
  snapshot : Option Snapshot
  deriving DecidableEq, Repr

/-! ### Shelf Planner -/

/-- A row of the storage policy table (section 8.2). -/
structure PolicyRow where
  enabled : Bool
  minScore : Nat
  maxShrink : Nat
  storageClass : Fin 8
  deriving DecidableEq, Repr, Inhabited

/-- The state of a shelf position (section 8.3). -/
inductive PositionState where
  | unavailable | free | reserved | occupied
  deriving DecidableEq, Repr, Inhabited

/-- A shelf position (section 8.3). -/
structure ShelfPosition where
  storageClass : Fin 8
  state : PositionState
  occupant : Option ReelId
  deriving DecidableEq, Repr, Inhabited

/-- The phase of a directive (section 8.4). -/
inductive DirectivePhase where
  | onDeck | inTransit
  deriving DecidableEq, Repr, Inhabited

/-- A directive (section 8.4). `reel` is present only while IN_TRANSIT: an ON_DECK directive holds no reel id of its own (R162). -/
structure Directive where
  reel : Option ReelId
  source : DeckId
  storageClass : Fin 8
  position : Option (Fin 2048)
  score : Nat
  maxShrink : Nat
  interrupted : Bool
  phase : DirectivePhase
  deriving DecidableEq, Repr, Inhabited

/-- The event of a DIRECTIVE notice (R166). -/
inductive DirectiveEvent where
  | created | positioned | inTransit | shelved | cancelled
  deriving DecidableEq, Repr, Inhabited

/-- The Shelf Planner (R156, R158, R162, R165). -/
structure Shp where
  policies : Vector PolicyRow 8
  shelf : Vector ShelfPosition 2048
  directives : List Directive
  waiting : List DeckId
  deriving DecidableEq, Repr

end Sys2Proof.Machine
end

