-- ==== Sys2Proof/Machine/LinkTypes.lean ====
section
/-! DEFINITION. What the Archive Link Interface holds (chapter 9), with the reports and parcels of chapter 10 as named fields. -/

namespace Sys2Proof.Machine

/-- The state of the archive link (R176). -/
inductive LinkState where
  | down | training | up
  deriving DecidableEq, Repr, Inhabited

/-- A control parcel of the input buffer: header fields and payload (section 10.2). -/
structure ControlParcel where
  deck : Byte
  tag : Byte
  code : Byte
  body : List Byte
  deriving DecidableEq, Repr, Inhabited

/-- The status of a reply (section 9.5). -/
inductive Status where
  | ok | busy | badState | range | duplicate | full | late | inUse | noPosition | laneDown | unknown
  deriving DecidableEq, Repr, Inhabited

/-- The values of a reply (R181). -/
inductive ReplyValues where
  | none
  | count (n : Nat)
  | skipped (n : Nat)
  | trims (rLift rGain gLift gGain bLift bGain : Nat)
  deriving DecidableEq, Repr, Inhabited

/-- The cause of a LINK_ERROR notice, with the tag it carries (R185); LINK_LOST carries none (R197). -/
inductive LinkErrorCause where
  | crc (tag : Byte)
  | length (tag : Byte)
  | kind (tag : Byte)
  | overflow (tag : Byte)
  | linkLost
  deriving DecidableEq, Repr, Inhabited

/-- The content of a notice, by kind (section 9.6, notice bodies of section 10.4). The deck stands in the entry. -/
inductive NoticeBody where
  | slotEvent (sensor : Sensor) (level : Bool)
  | slotCommandDone (cmd : SlotCommand) (origin : Origin) (result : CommandResult)
  | contextState (state : ContextState) (reel : Option ReelId)
  | laneState (state : LaneState) (cause : LaneCause)
  | registration (event : RegistrationEvent) (cause : LossCause) (position : Option FilmPos) (nextFrame : Nat)
  | shotClosed (index : Nat) (shot : Shot) (reel : Option ReelId)
  | shotTableFull (opening : ShotOrigin) (frame : Nat)
  | overrun (recorded : Bool) (frame : Nat) (overrunFrames : Nat)
  | directive (event : DirectiveEvent) (directive : Directive) (reel : Option ReelId)
  | linkError (cause : LinkErrorCause)
  deriving DecidableEq, Repr

/-- A notice entry of the report queue (section 9.6); `deck` is absent for LINK_ERROR. -/
structure Notice where
  deck : Option DeckId
  body : NoticeBody
  repeats : Nat
  droppedBefore : Bool
  deriving DecidableEq, Repr

/-- A reply (R179, R197). -/
structure Reply where
  deck : Byte
  tag : Byte
  code : Byte
  status : Status
  values : ReplyValues
  deriving DecidableEq, Repr, Inhabited

/-- What a CONTEXT readout fixes (R26). `place` is the directive's place in the return queue. -/
structure ContextReadout where
  ctx : ReelContext
  sensors : Sensors
  motion : Motion
  outstanding : Option Command
  waiting : Option Command
  place : Option Nat
  timeout : Fin 4
  mask : Word16
  deriving DecidableEq, Repr, Inhabited

/-- A position as a SHELF readout gives it (R161). -/
structure ShelfEntry where
  storageClass : Fin 8
  state : PositionState
  reel : Option ReelId
  deriving DecidableEq, Repr, Inhabited

/-- A waiting context as the QUEUE readout gives it (R172). -/
structure WaitingEntry where
  deck : DeckId
  score : Option Nat
  reel : Option ReelId
  deriving DecidableEq, Repr, Inhabited

/-- The body of a readout (section 10.4). -/
inductive ReadoutBody where
  | context (c : ContextReadout)
  | shotList (shots : Nat) (fullNotice : Bool) (cues : List Cue)
  | shot (index : Nat) (shot : Shot)
  | map (reel : Option ReelId) (runs : Nat) (full : Bool)
  | run (index : Nat) (run : Run)
  | shelf (first : Nat) (entries : List ShelfEntry)
  | queue (directives : Nat) (waiting : List WaitingEntry)
  | directive (place : Nat) (directive : Directive) (reel : Option ReelId)
  deriving DecidableEq, Repr

/-- A readout with its header fields (R197). -/
structure Readout where
  deck : Byte
  tag : Byte
  sequence : Nat
  body : ReadoutBody
  deriving DecidableEq, Repr

/-- An entry of the report queue (section 9.6). -/
inductive Report where
  | reply (r : Reply)
  | notice (n : Notice)
  | readout (r : Readout)
  deriving DecidableEq, Repr

/-- One graded sample in the three emitted channels (R188). -/
structure Rgb where
  r : Word16
  g : Word16
  b : Word16
  deriving DecidableEq, Repr, Inhabited

/-- A picture parcel (section 10.5). -/
structure Picture where
  deck : DeckId
  frame : Nat
  firstLine : Nat
  lines : List (List Rgb)
  deriving DecidableEq, Repr, Inhabited

/-- A trailer, with the fields its kind carries (R189, R190, R191). -/
inductive Trailer where
  | full (deck : DeckId) (reel : Option ReelId) (record : FrameRecord) (grade : Fin 64)
  | overrun (deck : DeckId) (reel : Option ReelId) (record : FrameRecord)
  | aborted (deck : DeckId) (reel : Option ReelId) (record : FrameRecord) (linesSent : Nat)
  deriving DecidableEq, Repr

/-- A parcel on the upstream wire. -/
inductive UpParcel where
  | report (r : Report)
  | picture (p : Picture)
  | trailer (t : Trailer)
  deriving DecidableEq, Repr

/-- A flow symbol (section 9.1). -/
inductive FlowSymbol where
  | halt | go
  deriving DecidableEq, Repr, Inhabited

/-- What has left on the upstream wire. -/
inductive Sent where
  | symbol (f : FlowSymbol)
  | parcel (p : UpParcel)
  deriving DecidableEq, Repr

/-- The frame being emitted (R186, R188). `overrun` says which kind of record was granted; `lines` is the lines field at the
grant; `next` is the next picture parcel to form; `linesSent` counts the lines of completed picture parcels; `sending` says
that a parcel of this emission is on the wire; `voided` that an abort took its record while its trailer was being sent (R191). -/
structure Emission where
  deck : DeckId
  frame : Nat
  overrun : Bool
  lines : Nat
  next : Nat
  linesSent : Nat
  sending : Bool
  voided : Bool
  deriving DecidableEq, Repr, Inhabited

/-- An aborted trailer that waits to be sent (R191). `inFlight` is the number of lines of the frame's picture parcel that is
still being sent, absent when none is: those lines count as sent when the parcel completes (R198). -/
structure AbortedWait where
  deck : DeckId
  reel : Option ReelId
  record : FrameRecord
  linesSent : Nat
  inFlight : Option Nat
  deriving DecidableEq, Repr, Inhabited

/-- The Archive Link Interface (chapter 9). `sent` is the model's own record of what left upstream, newest first.
DESIGN CHOICE (log 18), safe. -/
structure Ali where
  link : LinkState
  rx : List Byte
  input : List ControlParcel
  upstreamHalt : Bool
  workstationHalt : Bool
  queue : List Report
  dropFlag : Bool
  readouts : List Readout
  wire : Option UpParcel
  emission : Option Emission
  aborted : Option AbortedWait
  lastGranted : DeckId
  sent : List Sent
  deriving DecidableEq, Repr

end Sys2Proof.Machine
end

