-- ==== Sys2Proof/Machine/ResetValues.lean ====
section
/-! DEFINITION. The values that power-on reset and soft reset give each block. -/

namespace Sys2Proof.Machine

/-- The mask that admits every deck-scoped kind: bits 0 to 8 (R8, R27). -/
def fullMask : Word16 := 0x01FF#16

/-- The deck channel after reset: UNLOCK_GATE outstanding and POWER_OFF pending, both of CONTEXT origin, timeout setting 2,
motion STOPPED (R27). -/
def channelInitial (levels : Sensors) : Channel where
  sensors := levels
  outstanding := some ⟨⟨.unlockGate, .context, none⟩, 2⟩
  waiting := some ⟨.powerOff, .context, none⟩
  motion := .stopped
  timeout := 2
  mask := fullMask

/-- A cleared reel context in the given state, with the given gate and power mirrors (R22, R27). -/
def contextCleared (state : ContextState) (gateLocked powerOn : Bool) : ReelContext where
  state := state
  reel := none
  profile := none
  defaultGrade := none
  gateLocked := gateLocked
  powerOn := powerOn
  interrupted := false
  nextFrame := 0
  framesDecided := 0
  splices := 0
  perfFrames := 0
  concealedTemporal := 0
  concealedSpatial := 0
  heldFrames := 0
  markedFrames := 0
  overrunFrames := 0
  maxShrink := 0
  score := none
  storageClass := none
  hasDirective := false
  planPending := false

/-- The context after reset: LOADED if present and gateClosed are both true, else EMPTY (R27). -/
def contextInitial (levels : Sensors) : ReelContext :=
  contextCleared (if levels.present && levels.gateClosed then .loaded else .empty) false false

/-- A Registration Unit after reset (R34). DESIGN CHOICE (log 8), unsafe: the manual gives prevAccepted, firstLock and
relockPending no reset value; the model takes no. -/
def rguInitial : Rgu where
  lock := .idle
  chain := 0
  prev := none
  prevAccepted := false
  avg := none
  index := 0
  misses := 0
  candidate := none
  firstLock := false
  relockPending := false
  numbersExhausted := false
  boundary := none
  current := none

/-- A FREE slot; a line that no band has written reads 0 (R55, R71). -/
def slotFree : Slot := ⟨false, [], []⟩

/-- The Frame Store Controller's part of a deck after reset (R71). -/
def storeInitial : DeckStore where
  slots := Vector.replicate 8 slotFree
  records := []
  fate := .none
  lastConsumed := none
  flow := .clear

/-- An empty shot table and cue list (R72, R81). -/
def tableEmpty : ShotTable := ⟨[], false, []⟩

/-- A cleared defect map for the given reel, absent at reset (R128). -/
def mapCleared (reel : Option ReelId) : DefectMap := ⟨reel, [], false⟩

/-- A lane after power-on reset: TRAINING with signal, DOWN without (R31). -/
def laneInitial (signal : Bool) : LaneState := if signal then .training else .down

/-- A deck after reset, with the levels sampled and the lane state it is left in; no byte of a lane parcel has been received. -/
def deckInitial (levels : Sensors) (lane : LaneState) : Deck where
  chan := channelInitial levels
  ctx := contextInitial levels
  lane := lane
  intake := []
  rgu := rguInitial
  store := storeInitial
  table := tableEmpty
  map := mapCleared none

/-- The Damage Analyzer after reset (R92, R103). -/
def danInitial : Dan where
  queue := []
  active := none
  comparators := Vector.replicate 8 ⟨false, .totalArea, .atLeast, 0⟩

/-- The empty class set. -/
def noClasses : ClassSet := ⟨false, false, false, false, false, false⟩

/-- The Repair Engine after reset (R108, R110, R124). -/
def rpeInitial : Rpe where
  queue := []
  active := none
  rules := Vector.replicate 32 ⟨false, noClasses, none, .pass, none, .pass⟩

/-- A channel of a grade record after reset (R130). -/
def channelGradeInitial : ChannelGrade := ⟨1024, 2, 0, 8, 8⟩

/-- A grade record after reset (R130). -/
def gradeInitial : GradeRecord :=
  ⟨channelGradeInitial, channelGradeInitial, channelGradeInitial, none, 0⟩

/-- A curve table after reset: knot k = min(k * 2048, 65535) (R132). -/
def curveInitial : Curve := Vector.ofFn fun k : Fin 33 => BitVec.ofNat 16 (min (k.val * 2048) 65535)

/-- The Grade Engine after reset (R154). -/
def greInitial : Gre where
  grades := Vector.replicate 64 gradeInitial
  curves := Vector.replicate 16 curveInitial
  snapshot := none

/-- The Shelf Planner after reset (R156, R158, R173). -/
def shpInitial : Shp where
  policies := Vector.replicate 8 ⟨false, 0, 0, 0⟩
  shelf := Vector.replicate 2048 ⟨0, .unavailable, none⟩
  directives := []
  waiting := []

/-- The archive link after power-on reset: TRAINING with signal, DOWN without (R193). -/
def linkInitial (signal : Bool) : LinkState := if signal then .training else .down

/-- The Archive Link Interface after power-on reset (R193). -/
def aliInitial (signal : Bool) : Ali where
  link := linkInitial signal
  rx := []
  input := []
  upstreamHalt := false
  workstationHalt := false
  queue := []
  dropFlag := false
  readouts := []
  wire := none
  emission := none
  aborted := none
  lastGranted := 3
  sent := []

end Sys2Proof.Machine
end

