-- ==== Sys2Proof/Machine/State.lean ====
section
/-! DEFINITION. The state of the part, the reasons a step can stop, and the state after power-on reset. -/

namespace Sys2Proof.Machine

/-- The state of the Morajo 4400: what it holds per deck, the deck profiles (R11), the shared engines, the archive link, and
the queue of commands waiting, first in, first out. Plain data. -/
structure State where
  decks : Vector Deck 4
  profiles : Vector (Option Profile) 8
  dan : Dan
  rpe : Rpe
  gre : Gre
  shp : Shp
  ali : Ali
  pending : List Instr
  deriving DecidableEq, Repr

/-- The manual gives the part no state in which it stops, so there is no fault. -/
inductive Fault where
  deriving DecidableEq, Repr

/-- Reasons to refuse a command. -/
inductive Refusal where
  /-- Raised by exec for a command that has no meaning yet; none is left. Safe: the machine stops. -/
  | notModelled (mnemonic : String)
  deriving DecidableEq, Repr

/-- The sensor levels that State.reset takes as sampled. DESIGN CHOICE (log 5), unsafe: the manual says the levels are as
sampled; the model's reset finds every level false. -/
def resetLevels : Sensors := ⟨false, false, false, false⟩

/-- The part right after power-on reset (R27, R31, R34, R71, R72, R92, R103, R110, R124, R128, R130, R132, R154, R156, R158,
R173, R193), with no sensor level true and no signal on the link or a lane (DESIGN CHOICE, log 5, unsafe). -/
def State.reset : State where
  decks := Vector.replicate 4 (deckInitial resetLevels (laneInitial false))
  profiles := Vector.replicate 8 none
  dan := danInitial
  rpe := rpeInitial
  gre := greInitial
  shp := shpInitial
  ali := aliInitial false
  pending := []

end Sys2Proof.Machine
end

