-- ==== Sys2Proof/Machine/Flags.lean ====
section
/-! DEFINITION. Flags and codes: damage class sets, frame flags, condition codes, the clip findings and the rounding and saturation
rules they rest on. -/

namespace Sys2Proof.Machine

/-- A 24-bit counter raised by 1, saturating (00_scope section 4). -/
def inc24 (n : Nat) : Nat := min (n + 1) Config.max24

/-- Floor division, toward minus infinity, by a positive divisor (00_scope section 4). -/
def floorDiv (a : Int) (b : Nat) : Int := Int.fdiv a b

/-- Division truncated toward zero (00_scope section 4). -/
def truncDiv (a : Int) (b : Nat) : Int := Int.tdiv a b

/-- Division rounded to nearest, halves upward (00_scope section 4). -/
def roundHalfUp (a : Int) (b : Nat) : Int := floorDiv (2 * a + b) (2 * b)

/-- An integer held between two ends. -/
def clampInt (lo hi v : Int) : Int := max lo (min hi v)

/-- A class set that holds nothing. -/
def ClassSet.isEmpty (c : ClassSet) : Bool := c == noClasses

/-- Every class of the first set is in the second (R112). -/
def ClassSet.subset (a b : ClassSet) : Bool :=
  (!a.dust || b.dust) && (!a.scratch || b.scratch) && (!a.blotch || b.blotch)
  && (!a.perf || b.perf) && (!a.splice || b.splice) && (!a.gap || b.gap)

/-- The class set {GAP} of an OVERRUN record (R61). -/
def gapOnly : ClassSet := { noClasses with gap := true }

/-- The value of a measure (section 5.3). -/
def Measures.value (m : Measures) : Measure → Nat
  | .totalArea => m.totalArea
  | .maxTile => m.maxTile
  | .scratchRun => m.scratchRun
  | .flaggedTiles => m.flaggedTiles
  | .offsetMag => m.offsetMag
  | .pitchDev => m.pitchDev
  | .coasted => m.coasted
  | .shotPos => m.shotPos

/-- The answer of a comparator (R105). -/
def Comparator.answer (c : Comparator) (m : Measures) : Bool :=
  c.enabled && match c.relation with
    | .atLeast => decide (c.limit ≤ m.value c.measure)
    | .below => decide (m.value c.measure < c.limit)

/-- The eight condition codes, bit k the answer of comparator k (R105). -/
def conditionCodes (cs : Vector Comparator 8) (m : Measures) : Byte :=
  BitVec.ofBoolListLE (cs.toList.map fun c => c.answer m) |>.setWidth 8

/-- The class set the Damage Analyzer sets (R98 to R101): `first` says that the frame is the first of its shot, `spliced` that the
shot's origin is SPLICE. -/
def analysisClasses (p : Profile) (m : Measures) (flags : FrameFlags) (predecessor : Fate) (first spliced : Bool) :
    ClassSet :=
  let scratch := decide (3 ≤ m.scratchRun)
  let blotch := decide (p.blotchLimit ≤ m.maxTile)
  { dust := decide (1 ≤ m.flaggedTiles) && !scratch && !blotch
    scratch := scratch
    blotch := blotch
    perf := flags.coasted || flags.spurious || decide (p.pitchTolerance / 2 < m.offsetMag)
    splice := first && spliced
    gap := (predecessor == .overrun || predecessor == .unrecorded || predecessor == .discarded) && !first }

/-- Whether a rule's test passes for the frame's condition codes; a rule without a test passes (R112). -/
def Rule.testPasses (r : Rule) (codes : Byte) : Bool :=
  match r.test with
  | none => true
  | some t => codes.getLsbD t.code.val == t.set

/-- The rule matches the frame: enabled, its classes present, and not nullified (R112, R113). -/
def Rule.matchesFrame (r : Rule) (classes : ClassSet) (codes : Byte) : Bool :=
  r.enabled && r.required.subset classes && (r.testPasses codes || r.failAction.isSome)

/-- The action a matching rule chooses (R112). -/
def Rule.chosen (r : Rule) (codes : Byte) : Action :=
  if r.testPasses codes then r.passAction else r.failAction.getD r.passAction

end Sys2Proof.Machine
end

