-- ==== Sys2Proof/Machine/Bytes.lean ====
section
/-! DEFINITION. Bytes of the wires: little-endian fields (R194), the CRC-16 (R174) and the hunt for a sync word (R174, R199). -/

namespace Sys2Proof.Machine

/-- The byte at an offset of a body; callers check the length first (R196 step 2). -/
def byteAt (body : List Byte) (i : Nat) : Nat := (body.getD i 0).toNat

/-- The two-byte little-endian field at an offset (R194). -/
def le16 (body : List Byte) (i : Nat) : Nat := byteAt body i + 256 * byteAt body (i + 1)

/-- The four-byte little-endian field at an offset (R194). -/
def le32 (body : List Byte) (i : Nat) : Nat := le16 body i + 65536 * le16 body (i + 2)

/-- One byte of a number, the n-th from the least significant. -/
def nthByte (v n : Nat) : Byte := BitVec.ofNat 8 (v / 256 ^ n)

/-- A number as two bytes, little-endian (R194). -/
def put16 (v : Nat) : List Byte := [nthByte v 0, nthByte v 1]

/-- A number as four bytes, little-endian (R194). -/
def put32 (v : Nat) : List Byte := [nthByte v 0, nthByte v 1, nthByte v 2, nthByte v 3]

/-- A number as one byte. -/
def put8 (v : Nat) : List Byte := [nthByte v 0]

/-- A Boolean as one byte, 1 for yes (section 10.3). -/
def putFlag (b : Bool) : List Byte := put8 b.toNat

/-- A two's-complement value of the given width, as the unsigned number its bytes carry (R194). -/
def twosComplement (width : Nat) (v : Int) : Nat := (BitVec.ofInt width v).toNat

/-- One bit of the CRC division by x^16 + x^12 + x^5 + 1, most significant bit first (R174). -/
def crcShift (c : Word16) : Word16 :=
  if c.msb then (c <<< 1) ^^^ 0x1021#16 else c <<< 1

/-- One byte taken into the CRC, most significant bit first, not reflected (R174). -/
def crcByte (c : Word16) (b : Byte) : Word16 :=
  crcShift (crcShift (crcShift (crcShift (crcShift (crcShift (crcShift (crcShift
    (c ^^^ (b.setWidth 16 <<< 8)))))))))

/-- The CRC-16 of a list of bytes: initial value all ones, no final inversion (R174). -/
def crc16 (bytes : List Byte) : Word16 := bytes.foldl crcByte 0xFFFF#16

/-- The byte stream from the next sync word x, y on; what cannot belong to one is skipped (R174, R199). -/
def hunt (x y : Byte) : List Byte → List Byte
  | a :: b :: rest => if a = x ∧ b = y then a :: b :: rest else hunt x y (b :: rest)
  | [a] => if a = x then [a] else []
  | [] => []

end Sys2Proof.Machine
end

