-- ==== Sys2Proof/Machine/Operands.lean ====
section
/-! DEFINITION. The operands of the control requests: the request table of section 10.3, the checks at the take that do not need
the owning block (R196), and the reading of each load body. -/

namespace Sys2Proof.Machine

/-- A request of the table of section 10.3: its scope, its body length and the check that its reserved bytes and bits are
zero (R196 step 4). -/
structure RequestForm where
  deckScoped : Bool
  length : Nat
  reservedZero : List Byte → Bool

/-- All bytes at the given offsets are zero. -/
def zeroAt (offsets : List Nat) (body : List Byte) : Bool := offsets.all fun i => byteAt body i == 0

/-- The reserved bytes of LOAD_GRADE: offsets 2 and 3, and in each channel offsets 3, 6 and 7 of its eight bytes. -/
def gradeReserved : List Nat := [2, 3, 11, 14, 15, 19, 22, 23, 27, 30, 31]

/-- The request table of section 10.3. A code that is not listed names no request (R179). -/
def requestForm (code : Byte) : Option RequestForm :=
  match code.toNat with
  | 0x01 => some ⟨true, 8, zeroAt [6, 7]⟩
  | 0x02 => some ⟨true, 0, zeroAt []⟩
  | 0x03 => some ⟨true, 0, zeroAt []⟩
  | 0x04 => some ⟨true, 0, zeroAt []⟩
  | 0x05 => some ⟨true, 0, zeroAt []⟩
  | 0x06 => some ⟨true, 0, zeroAt []⟩
  | 0x07 => some ⟨true, 4, zeroAt [1, 2, 3]⟩
  | 0x08 => some ⟨true, 4, fun b => zeroAt [3] b && le16 b 0 / 512 == 0⟩
  | 0x09 => some ⟨true, 0, zeroAt []⟩
  | 0x0A => some ⟨true, 0, zeroAt []⟩
  | 0x10 => some ⟨false, 20, zeroAt [7, 18, 19]⟩
  | 0x11 => some ⟨false, 8, zeroAt []⟩
  | 0x12 => some ⟨false, 8, fun b => zeroAt [7] b && (128 ≤ byteAt b 3 || byteAt b 3 == 0)⟩
  | 0x13 => some ⟨false, 32, zeroAt gradeReserved⟩
  | 0x14 => some ⟨false, 68, zeroAt [1]⟩
  | 0x15 => some ⟨false, 8, zeroAt [6, 7]⟩
  | 0x16 => some ⟨false, 66, fun b => zeroAt [1] b && (List.range 64).all fun i => byteAt b (2 + i) / 8 % 16 == 0⟩
  | 0x20 => some ⟨true, 8, zeroAt [5, 6, 7]⟩
  | 0x21 => some ⟨true, 4, zeroAt []⟩
  | 0x22 => some ⟨true, 4, zeroAt [2, 3]⟩
  | 0x23 => some ⟨true, 4, zeroAt [1, 2, 3]⟩
  | 0x24 => some ⟨false, 4, fun b => zeroAt [3] b && byteAt b 1 / 8 == 0 && byteAt b 2 / 16 == 0⟩
  | 0x30 => some ⟨false, 4, zeroAt []⟩
  | 0x31 => some ⟨false, 4, zeroAt [2, 3]⟩
  | 0x32 => some ⟨false, 4, zeroAt []⟩
  | 0x40 => some ⟨true, 4, zeroAt [1, 2, 3]⟩
  | 0x41 => some ⟨true, 4, zeroAt [2, 3]⟩
  | 0x42 => some ⟨false, 4, zeroAt [1, 2, 3]⟩
  | 0x43 => some ⟨false, 0, zeroAt []⟩
  | 0x7F => some ⟨false, 0, zeroAt []⟩
  | _ => none

/-- A number as an index of a table of n entries, absent when it is out of range. -/
def asIndex (n v : Nat) : Option (Fin n) := if h : v < n then some ⟨v, h⟩ else none

/-- The deck or lane that the header's deck field names (R196 step 3). -/
def parcelDeck (p : ControlParcel) : Option DeckId := asIndex 4 p.deck.toNat

/-- Steps 2 to 4 of R196: the first status that applies, absent when the request is delivered. -/
def takeChecks (form : RequestForm) (p : ControlParcel) : Option Status :=
  if p.body.length ≠ form.length then some .range
  else if form.deckScoped && (parcelDeck p).isNone then some .range
  else if !form.reservedZero p.body then some .range
  else none

/-- A one-byte flag: 1 for yes, 0 for no; any other value is out of range. DEDUCED (log 21), safe: section 10.3 gives two values. -/
def readFlag (v : Nat) : Option Bool :=
  match v with
  | 0 => some false
  | 1 => some true
  | _ => none

/-- The slot command of a code (section 10.1). -/
def readSlotCommand (v : Nat) : Option SlotCommand :=
  match v with
  | 0 => some .lockGate
  | 1 => some .unlockGate
  | 2 => some .powerOn
  | 3 => some .powerOff
  | 4 => some .run
  | 5 => some .pause
  | 6 => some .stop
  | 7 => some .indicatorOff
  | 8 => some .indicatorOn
  | 9 => some .indicatorBlink
  | _ => none

/-- The measure of a code (section 10.1). -/
def readMeasure (v : Nat) : Option Measure :=
  match v with
  | 0 => some .totalArea
  | 1 => some .maxTile
  | 2 => some .scratchRun
  | 3 => some .flaggedTiles
  | 4 => some .offsetMag
  | 5 => some .pitchDev
  | 6 => some .coasted
  | 7 => some .shotPos
  | _ => none

/-- The relation of a code (section 10.1). -/
def readRelation (v : Nat) : Option Relation :=
  match v with
  | 0 => some .atLeast
  | 1 => some .below
  | _ => none

/-- The action of a code that a rule may choose; LOST is none of them (R111). -/
def readAction (v : Nat) : Option Action :=
  match v with
  | 0 => some .pass
  | 1 => some .concealTemporal
  | 2 => some .concealSpatial
  | 3 => some .holdPrevious
  | 4 => some .mark
  | _ => none

/-- The fallback of a code: PASS, CONCEAL_SPATIAL or MARK (R111). -/
def readFallback (v : Nat) : Option Action :=
  match v with
  | 0 => some .pass
  | 2 => some .concealSpatial
  | 4 => some .mark
  | _ => none

/-- A set of classes from its bits; bits 6 and 7 name no class (R111). -/
def readClasses (v : Nat) : Option ClassSet :=
  if 64 ≤ v then none
  else some ⟨v.testBit 0, v.testBit 1, v.testBit 2, v.testBit 3, v.testBit 4, v.testBit 5⟩

/-- The test byte of LOAD_RULE: bit 7 present, bit 6 the sense (CLEAR 1), bits 0 to 5 the code. The outer absence is a code
above 7 (R111). -/
def readTest (v : Nat) : Option (Option RuleTest) :=
  if v < 128 then some none
  else (asIndex 8 (v % 64)).map fun c => some ⟨c, !v.testBit 6⟩

/-- An optional grade record: 0xFF for none, else 0..63 (section 10.3). -/
def readGrade (v : Nat) : Option (Option (Fin 64)) :=
  if v = 255 then some none else (asIndex 64 v).map some

/-- The ten fields of LOAD_PROFILE (section 10.3). -/
def readProfile (b : List Byte) : Profile where
  perfsPerFrame := byteAt b 1
  nominalPitch := le16 b 4
  pitchTolerance := byteAt b 6
  lockCount := byteAt b 2
  coastLimit := byteAt b 3
  frameLineOffset := le16 b 8
  lineWidth := le16 b 10
  irLimit := le16 b 12
  tileFlagLimit := le16 b 14
  blotchLimit := le16 b 16

/-- The ranges of section 1.4 and the product bound of R11. -/
def Profile.inRange (p : Profile) : Bool :=
  1 ≤ p.perfsPerFrame && p.perfsPerFrame ≤ 8
  && 256 ≤ p.nominalPitch && p.nominalPitch ≤ 16383
  && 1 ≤ p.pitchTolerance && p.pitchTolerance ≤ 255
  && 2 ≤ p.lockCount && p.lockCount ≤ 15
  && p.coastLimit ≤ 7
  && p.frameLineOffset ≤ 65535
  && 1024 ≤ p.lineWidth && p.lineWidth ≤ 8192 && p.lineWidth % 64 == 0
  && 1 ≤ p.irLimit && p.irLimit ≤ 65535
  && 1 ≤ p.tileFlagLimit && p.tileFlagLimit ≤ 65535
  && 1 ≤ p.blotchLimit && p.blotchLimit ≤ 65535
  && (p.nominalPitch + p.pitchTolerance) * p.perfsPerFrame ≤ 65536

/-- The index and comparator of LOAD_COMPARATOR, absent when R104 refuses it. -/
def readComparator (b : List Byte) : Option (Fin 8 × Comparator) := do
  let index ← asIndex 8 (byteAt b 0)
  let enabled ← readFlag (byteAt b 1)
  let measure ← readMeasure (byteAt b 2)
  let relation ← readRelation (byteAt b 3)
  let limit ← asIndex (Config.max24 + 1) (le32 b 4)
  some (index, ⟨enabled, measure, relation, limit.val⟩)

/-- The index and entry of LOAD_RULE, absent when R111 refuses it. -/
def readRule (b : List Byte) : Option (Fin 32 × Rule) := do
  let index ← asIndex 32 (byteAt b 0)
  let enabled ← readFlag (byteAt b 1)
  let required ← readClasses (byteAt b 2)
  let test ← readTest (byteAt b 3)
  let passAction ← readAction (byteAt b 4)
  let failAction ← if byteAt b 5 = 255 then some none else (readAction (byteAt b 5)).map some
  let fallback ← readFallback (byteAt b 6)
  if test.isNone && failAction.isSome then none
  else some (index, ⟨enabled, required, test, passAction, failAction, fallback⟩)

/-- One channel of LOAD_GRADE at its offset; trims become 8 (R131). -/
def readChannel (b : List Byte) (base : Nat) : Option ChannelGrade :=
  let lift := (BitVec.ofNat 16 (le16 b (base + 4))).toInt
  if le16 b base ≤ 4095 ∧ byteAt b (base + 2) ≤ 7 ∧ -16384 ≤ lift ∧ lift ≤ 16383 then
    some ⟨le16 b base, byteAt b (base + 2), lift, 8, 8⟩
  else none

/-- The index and record of LOAD_GRADE, absent when R131 refuses it. -/
def readGradeRecord (b : List Byte) : Option (Fin 64 × GradeRecord) := do
  let index ← asIndex 64 (byteAt b 0)
  let curve ← if byteAt b 1 = 255 then some none else (asIndex 16 (byteAt b 1)).map some
  let clipLimit ← asIndex (Config.max24 + 1) (le32 b 4)
  let r ← readChannel b 8
  let g ← readChannel b 16
  let bl ← readChannel b 24
  some (index, ⟨r, g, bl, curve, clipLimit.val⟩)

/-- The 33 knots of LOAD_CURVE (section 10.3). -/
def readCurve (b : List Byte) : Curve := Vector.ofFn fun k : Fin 33 => BitVec.ofNat 16 (le16 b (2 + 2 * k.val))

/-- The row and policy of LOAD_POLICY, absent when R156 refuses it. -/
def readPolicy (b : List Byte) : Option (Fin 8 × PolicyRow) := do
  let index ← asIndex 8 (byteAt b 0)
  let enabled ← readFlag (byteAt b 1)
  let minScore ← asIndex 1001 (le16 b 2)
  let maxShrink ← asIndex 100 (byteAt b 4)
  let storageClass ← asIndex 7 (byteAt b 5)
  some (index, ⟨enabled, minScore.val, maxShrink.val, storageClass.castSucc⟩)

/-- Entry i of LOAD_SHELF: class in bits 0 to 2, FREE in bit 7 (section 10.3). -/
def readShelfEntry (b : List Byte) (i : Nat) : Fin 8 × PositionState :=
  let v := byteAt b (2 + i)
  (⟨v % 8, Nat.mod_lt _ (by decide)⟩, if 128 ≤ v then .free else .unavailable)

/-- The channel set and the four symbols of TRIM (section 10.3): s3 is bit 0 of the code, s2 bit 1, s1 bit 2, s0 bit 3. -/
structure TrimOperands where
  r : Bool
  g : Bool
  b : Bool
  s0 : Bool
  s1 : Bool
  s2 : Bool
  s3 : Bool
  deriving DecidableEq, Repr

/-- The record index and operands of TRIM, absent when R151 refuses it. -/
def readTrim (b : List Byte) : Option (Fin 64 × TrimOperands) := do
  let index ← asIndex 64 (byteAt b 0)
  let set := byteAt b 1
  let code := byteAt b 2
  let ops : TrimOperands :=
    ⟨set.testBit 0, set.testBit 1, set.testBit 2, code.testBit 3, code.testBit 2, code.testBit 1, code.testBit 0⟩
  if set = 0 || (ops.s2 && ops.s3) || (ops.s0 && ops.s1) then none else some (index, ops)

end Sys2Proof.Machine
end

