-- ==== Sys2Proof/Machine/Ops.lean ====
section
/-! DEFINITION. The shared operations: access to a deck and a block, the report queue, the slot command channel, the context state,
transport flow, and the take of a control parcel. -/

namespace Sys2Proof.Machine

/-- What a step answers. -/
abbrev StepResult := Host.Outcome State Fault Refusal

/-! ### Access -/

/-- Deck d. -/
def State.deck (s : State) (d : DeckId) : Deck := s.decks[d]

/-- Deck d replaced. -/
def State.setDeck (s : State) (d : DeckId) (k : Deck) : State := { s with decks := s.decks.set d.val k d.isLt }

/-- Deck d changed. -/
def State.modDeck (s : State) (d : DeckId) (f : Deck → Deck) : State := s.setDeck d (f (s.deck d))

/-- The channel of deck d changed. -/
def State.modChan (s : State) (d : DeckId) (f : Channel → Channel) : State :=
  s.modDeck d fun k => { k with chan := f k.chan }

/-- The reel context of deck d changed. -/
def State.modCtx (s : State) (d : DeckId) (f : ReelContext → ReelContext) : State :=
  s.modDeck d fun k => { k with ctx := f k.ctx }

/-- The Registration Unit of deck d changed. -/
def State.modRgu (s : State) (d : DeckId) (f : Rgu → Rgu) : State :=
  s.modDeck d fun k => { k with rgu := f k.rgu }

/-- The slots and records of deck d changed. -/
def State.modStore (s : State) (d : DeckId) (f : DeckStore → DeckStore) : State :=
  s.modDeck d fun k => { k with store := f k.store }

/-- The shot table and cues of deck d changed. -/
def State.modTable (s : State) (d : DeckId) (f : ShotTable → ShotTable) : State :=
  s.modDeck d fun k => { k with table := f k.table }

/-- The defect map of deck d changed. -/
def State.modMap (s : State) (d : DeckId) (f : DefectMap → DefectMap) : State :=
  s.modDeck d fun k => { k with map := f k.map }

/-- The Damage Analyzer changed. -/
def State.modDan (s : State) (f : Dan → Dan) : State := { s with dan := f s.dan }

/-- The Repair Engine changed. -/
def State.modRpe (s : State) (f : Rpe → Rpe) : State := { s with rpe := f s.rpe }

/-- The Grade Engine changed. -/
def State.modGre (s : State) (f : Gre → Gre) : State := { s with gre := f s.gre }

/-- The Shelf Planner changed. -/
def State.modShp (s : State) (f : Shp → Shp) : State := { s with shp := f s.shp }

/-- The Archive Link Interface changed. -/
def State.modAli (s : State) (f : Ali → Ali) : State := { s with ali := f s.ali }

/-- The deck profile bound to deck d's context (section 1.4). -/
def State.profileOf (s : State) (d : DeckId) : Option Profile :=
  (s.deck d).ctx.profile.bind fun i => s.profiles[i]

/-! ### The report queue (section 9.6) -/

/-- The notice code of a kind (section 10.4). -/
def NoticeBody.kind : NoticeBody → Nat
  | .slotEvent _ _ => 1
  | .slotCommandDone _ _ _ => 2
  | .contextState _ _ => 3
  | .laneState _ _ => 4
  | .registration _ _ _ _ => 5
  | .shotClosed _ _ _ => 6
  | .shotTableFull _ _ => 7
  | .overrun _ _ _ => 8
  | .directive _ _ _ => 9
  | .linkError _ => 10

/-- Bit k of the mask admits the deck-scoped kind of code k + 1 (R8). -/
def admits (mask : Word16) (kind : Nat) : Bool := mask.getLsbD (kind - 1)

/-- The entry is a notice. -/
def Report.isNotice : Report → Bool
  | .notice _ => true
  | _ => false

/-- The number of notices in the queue (R183). -/
def noticeCount (q : List Report) : Nat := q.countP Report.isNotice

/-- The queued entry is a notice of this kind and deck (R184). -/
def Report.sameKind (deck : Option DeckId) (kind : Nat) : Report → Bool
  | .notice n => n.deck == deck && n.body.kind == kind
  | _ => false

/-- The queued entry with the new content and one more repeat (R184). -/
def Report.takeIn (body : NoticeBody) : Report → Report
  | .notice n => .notice { n with body := body, repeats := min (n.repeats + 1) Config.repeatMax }
  | r => r

/-- The youngest notice of the same kind and deck takes the new content in; absent when there is none (R184). -/
def coalesce (deck : Option DeckId) (body : NoticeBody) : List Report → Option (List Report)
  | [] => none
  | r :: rest =>
    match coalesce deck body rest with
    | some rest' => some (r :: rest')
    | none => if r.sameKind deck body.kind then some (r.takeIn body :: rest) else none

/-- An admitted notice joins, coalesces or is dropped (R183, R184). -/
def Ali.join (a : Ali) (deck : Option DeckId) (body : NoticeBody) : Ali :=
  if noticeCount a.queue < Config.noticeRoom ∧ a.queue.length < Config.reportRoom then
    { a with queue := a.queue ++ [.notice ⟨deck, body, 1, a.dropFlag⟩], dropFlag := false }
  else
    match coalesce deck body a.queue with
    | some q => { a with queue := q }
    | none => { a with dropFlag := true }

/-- A deck-scoped notice, under its deck's enable mask (R183). -/
def State.notify (s : State) (d : DeckId) (body : NoticeBody) : State :=
  if admits (s.deck d).chan.mask body.kind then s.modAli fun a => a.join (some d) body else s

/-- A LINK_ERROR notice, always admitted (R183, R185). -/
def State.linkError (s : State) (cause : LinkErrorCause) : State :=
  s.modAli fun a => a.join none (.linkError cause)

/-- The reply to a taken parcel, placed in the free entry that the take found (R179, R197). -/
def State.reply (s : State) (p : ControlParcel) (status : Status) (values : ReplyValues) : State :=
  s.modAli fun a => { a with queue := a.queue ++ [.reply ⟨p.deck, p.tag, p.code, status, values⟩] }

/-- Reply OK without values (R181). -/
def State.replyOk (s : State) (p : ControlParcel) : State := s.reply p .ok .none

/-- A refusal: the status alone, and nothing changed (R181). -/
def State.refuse (s : State) (p : ControlParcel) (status : Status) : State := s.reply p status .none

/-- Numbers readouts from a place on (R197). -/
def numberReadouts (tag : Byte) : Nat → List (Byte × ReadoutBody) → List Readout
  | _, [] => []
  | n, (deck, body) :: rest => ⟨deck, tag, n, body⟩ :: numberReadouts tag (n + 1) rest

/-- Reply OK with the count of readouts, and fix their content (R180). Each body comes with the deck field of its header. -/
def State.replyReadouts (s : State) (p : ControlParcel) (bodies : List (Byte × ReadoutBody)) : State :=
  (s.reply p .ok (.count bodies.length)).modAli fun a => { a with readouts := numberReadouts p.tag 0 bodies }

/-! ### The slot command channel (section 1.2) -/

/-- A command is sent on the deck lines: it becomes outstanding, and its timer starts with the deck's setting (R3). -/
def Channel.issue (c : Channel) (cmd : Command) : Channel := { c with outstanding := some ⟨cmd, c.timeout⟩ }

/-- A command of CONTEXT origin (R5). -/
def Channel.sendContext (c : Channel) (cmd : SlotCommand) (release : Option ReleaseFrom) : Channel :=
  match c.outstanding with
  | none => c.issue ⟨cmd, .context, release⟩
  | some _ => { c with waiting := some ⟨cmd, .context, release⟩ }

/-- A command of FLOW origin (R6). -/
def Channel.sendFlow (c : Channel) (cmd : SlotCommand) : Channel :=
  match c.outstanding, c.waiting with
  | none, _ => c.issue ⟨cmd, .flow, none⟩
  | some _, none => { c with waiting := some ⟨cmd, .flow, none⟩ }
  | some _, some _ => c

/-- A pending command of one of the given kinds is withdrawn (R6, R14, R15). -/
def Channel.withdraw (c : Channel) (kinds : List SlotCommand) : Channel :=
  match c.waiting with
  | some w => if w.cmd ∈ kinds then { c with waiting := none } else c
  | none => c

/-- The pending command is issued when no command is outstanding (R3, R4 step 4). -/
def Channel.issueWaiting (c : Channel) : Channel :=
  match c.outstanding, c.waiting with
  | none, some w => { c.issue w with waiting := none }
  | _, _ => c

/-- The command on the deck lines is of this kind. -/
def Channel.outstandingIs (c : Channel) (cmd : SlotCommand) : Bool :=
  match c.outstanding with
  | some o => o.command.cmd == cmd
  | none => false

/-- A release unlock is outstanding or pending, or the pending command is of CONTEXT origin: the BUSY check of R21. -/
def Channel.releaseBusy (c : Channel) : Bool :=
  (match c.waiting with
    | some w => w.origin == .context || w.release.isSome
    | none => false)
  || match c.outstanding with
    | some o => o.command.release.isSome
    | none => false

/-! ### The context state (R12) -/

/-- The context takes a new state and its CONTEXT_STATE notice is produced, with the reel id the context then holds (R12). -/
def State.moveContext (s : State) (d : DeckId) (state : ContextState) : State :=
  let s := s.modCtx d fun c => { c with state := state }
  s.notify d (.contextState state (s.deck d).ctx.reel)

/-! ### Frame records and transport flow -/

/-- The record for a frame number, if the queue holds one (R58). -/
def DeckStore.find (k : DeckStore) (n : Nat) : Option FrameRecord := k.records.find? fun r => r.number == n

/-- The record for a frame number changed; nothing when it is gone (R58). -/
def DeckStore.update (k : DeckStore) (n : Nat) (f : FrameRecord → FrameRecord) : DeckStore :=
  { k with records := k.records.map fun r => if r.number == n then f r else r }

/-- The free-slot count of a deck (R54). -/
def DeckStore.freeCount (k : DeckStore) : Nat := k.slots.toList.countP fun s => !s.held

/-- The lowest-numbered FREE slot (R54). -/
def DeckStore.lowestFree (k : DeckStore) : Option (Fin 8) := (List.finRange 8).find? fun i => !k.slots[i].held

/-- Number n has been consumed (R47): it is not above the most recently consumed number. -/
def DeckStore.consumed (k : DeckStore) (n : Nat) : Bool :=
  match k.lastConsumed with
  | some f => n ≤ f
  | none => false

/-- A slot changed. -/
def DeckStore.modSlot (k : DeckStore) (i : Fin 8) (f : Slot → Slot) : DeckStore :=
  { k with slots := k.slots.set i.val (f k.slots[i]) i.isLt }

/-- A FLOW request of the Frame Store Controller, made only while the context is SCANNING (R69). -/
def State.flowRequest (s : State) (d : DeckId) (cmd : SlotCommand) (flow : FlowState) : State :=
  (s.modChan d fun c => c.sendFlow cmd).modStore d fun k => { k with flow := flow }

/-! ### The take of a control parcel (section 9.4, R196) -/

/-- The Control Decoder may take the head of the input buffer (R178). -/
def Ali.canTake (a : Ali) : Bool := a.queue.length < Config.reportRoom && a.readouts.isEmpty

/-- A symbol leaves on the upstream wire. -/
def Ali.sendSymbol (a : Ali) (f : FlowSymbol) : Ali := { a with sent := .symbol f :: a.sent }

/-- The input buffer after a take: GO is sent when it comes down to 2 while the upstream halt is yes (R177). A symbol is sent only
while the link is UP (R176); the flag changes all the same. DEDUCED (log 29), safe. -/
def Ali.afterTake (a : Ali) (rest : List ControlParcel) : Ali :=
  if rest.length ≤ Config.inputGoMark ∧ a.upstreamHalt then
    let a := { a with input := rest, upstreamHalt := false }
    if a.link = .up then a.sendSymbol .go else a
  else { a with input := rest }

/-- The take of the parcel at the head of the input buffer when its code is the row's (R178, R179): the checks of R196, then the owning
block's rule. Where the row's take is not possible, nothing changes (log 2, log 3). -/
def takeRequest (code : Byte) (deliver : ControlParcel → State → State) (s : State) : StepResult :=
  match s.ali.input with
  | [] => .next s
  | p :: rest =>
    if p.code = code ∧ s.ali.canTake then
      let s := s.modAli fun a => a.afterTake rest
      match requestForm code with
      | none => .next (s.refuse p .unknown)
      | some form =>
        match takeChecks form p with
        | some status => .next (s.refuse p status)
        | none => .next (deliver p s)
    else .next s

/-- The take of a deck-scoped request: the deck is the header's (section 10.3). -/
def takeDeckRequest (code : Byte) (deliver : DeckId → ControlParcel → State → State) (s : State) : StepResult :=
  takeRequest code (fun p s =>
    match parcelDeck p with
    | some d => deliver d p s
    | none => s.refuse p .range) s

end Sys2Proof.Machine
end

