-- ==== Sys2Proof/Machine/Shelf.lean ====
section
/-! DEFINITION. The Shelf Planner (chapter 8): scoring, planning, assignment passes, the leave of a directive, and the meanings of its
requests LOAD_POLICY, LOAD_SHELF, SHELVED, RELEASE_POSITION and CANCEL_DIRECTIVE. -/

namespace Sys2Proof.Machine

/-- The shelf map. -/
abbrev Shelf := Vector ShelfPosition 2048

/-- The lowest-numbered FREE position of a class (R163, R164). -/
def lowestFreePosition (storageClass : Fin 8) (shelf : Shelf) : Option (Fin 2048) :=
  (List.finRange 2048).find? fun i => shelf[i].state == .free && shelf[i].storageClass == storageClass

/-- A position with a new state and occupant; its class is kept (R158). -/
def Shelf.put (shelf : Shelf) (i : Fin 2048) (state : PositionState) (occupant : Option ReelId) : Shelf :=
  shelf.set i.val { shelf[i] with state := state, occupant := occupant } i.isLt

/-- The reel of a directive: the source context's reel id while ON_DECK, its own while IN_TRANSIT (R162). -/
def State.directiveReel (s : State) (dir : Directive) : Option ReelId :=
  match dir.phase with
  | .onDeck => (s.deck dir.source).ctx.reel
  | .inTransit => dir.reel

/-- A DIRECTIVE notice, under the mask of the source deck (R166). -/
def State.notifyDirective (s : State) (event : DirectiveEvent) (dir : Directive) (reel : Option ReelId) : State :=
  s.notify dir.source (.directive event dir reel)

/-- The place of the directive that has a reel (R162, R168). -/
def State.findDirective (s : State) (reel : ReelId) : Option Nat :=
  s.shp.directives.findIdx? fun dir => s.directiveReel dir == some reel

/-- A directive is the ON_DECK directive of deck d, the one its context names (R162). -/
def Directive.isOnDeck (d : DeckId) (dir : Directive) : Bool := dir.phase == .onDeck && dir.source == d

/-- The place in the return queue of the directive that deck d's context names (R162), counted from 0. DESIGN CHOICE (log 37), unsafe: the
manual gives the count no base. -/
def State.directivePlace (s : State) (d : DeckId) : Option Nat :=
  if (s.deck d).ctx.hasDirective then s.shp.directives.findIdx? (Directive.isOnDeck d) else none

/-- The result of an assignment pass: the queue, the map, and the directives that gained a position, in queue order. -/
structure Assignment where
  directives : List Directive
  shelf : Shelf
  gained : List Directive

/-- The position that a directive gains: an awaiting one takes the lowest-numbered FREE position of its class (R163). -/
def Directive.gains (dir : Directive) (shelf : Shelf) : Option (Fin 2048) :=
  if dir.position.isNone then lowestFreePosition dir.storageClass shelf else none

/-- The directives that await a position take, in queue order, the lowest-numbered FREE position of their class (R163). -/
def assign : List Directive → Shelf → Assignment
  | [], shelf => ⟨[], shelf, []⟩
  | dir :: rest, shelf =>
    match dir.gains shelf with
    | some p =>
      let dir' := { dir with position := some p }
      let a := assign rest (Shelf.put shelf p .reserved none)
      ⟨dir' :: a.directives, a.shelf, dir' :: a.gained⟩
    | none =>
      let a := assign rest shelf
      ⟨dir :: a.directives, a.shelf, a.gained⟩

/-- An assignment pass with its POSITIONED notices (R163). -/
def State.assignmentPass (s : State) : State :=
  let a := assign s.shp.directives s.shp.shelf
  let s := s.modShp fun p => { p with directives := a.directives, shelf := a.shelf }
  a.gained.foldl (fun s dir => s.notifyDirective .positioned dir (s.directiveReel dir)) s

/-- The condition score of a reel's counters (R155). -/
def conditionScore (c : ReelContext) : Nat :=
  let points := 4 * c.splices + 2 * c.perfFrames + c.concealedTemporal + c.concealedSpatial + 3 * c.heldFrames
    + 8 * c.markedFrames
  1000 - min (points * 10000 / max c.framesDecided 1) 1000

/-- A policy row admits a reel (R157). -/
def PolicyRow.admits (r : PolicyRow) (score maxShrink : Nat) : Bool :=
  r.enabled && decide (r.minScore ≤ score) && decide (maxShrink ≤ r.maxShrink)

/-- The storage class of a reel: the first admitting row's, else the quarantine class 7 (R157). -/
def chooseClass (policies : Vector PolicyRow 8) (score maxShrink : Nat) : Fin 8 :=
  match policies.toList.find? fun r => r.admits score maxShrink with
  | some r => r.storageClass
  | none => 7

/-- The planning of deck d's reel, steps 1 to 5 of R164. -/
def State.plan (s : State) (d : DeckId) : State :=
  let c := (s.deck d).ctx
  let score := c.score.getD 0
  let cls := chooseClass s.shp.policies score c.maxShrink
  let position := lowestFreePosition cls s.shp.shelf
  let dir : Directive := ⟨none, d, cls, position, score, c.maxShrink, c.interrupted, .onDeck⟩
  let s := s.modShp fun p =>
    { p with
      directives := p.directives ++ [dir]
      shelf := match position with
        | some i => Shelf.put p.shelf i .reserved none
        | none => p.shelf }
  let s := s.modCtx d fun c => { c with storageClass := some cls, hasDirective := true, planPending := false }
  s.notifyDirective .created dir (s.directiveReel dir)

/-- A context that has entered FINISHED is handed to the Shelf Planner: scored, then planned or placed in the waiting list
(R155, R164, R165). -/
def State.planFinished (s : State) (d : DeckId) : State :=
  let s := s.modCtx d fun c => { c with score := some (conditionScore c) }
  if s.shp.directives.length < Config.directiveRoom then s.plan d
  else
    (s.modCtx d fun c => { c with planPending := true }).modShp fun p => { p with waiting := p.waiting ++ [d] }

/-- The context at the head of the plan waiting list leaves it and is planned (R165). -/
def State.planHead (s : State) : State :=
  match s.shp.waiting with
  | [] => s
  | d :: rest => (s.modShp fun p => { p with waiting := rest }).plan d

/-- The position that a leaving directive names becomes OCCUPIED by the reel or FREE (R170 step 1). -/
def vacate (shelf : Shelf) (dir : Directive) (occupant : Option ReelId) : Shelf :=
  match dir.position with
  | none => shelf
  | some i =>
    match occupant with
    | some reel => Shelf.put shelf i .occupied (some reel)
    | none => Shelf.put shelf i .free none

/-- A directive leaves the return queue, steps 1 to 5 of R170. With `occupant` the reel is shelved; without, the directive is cancelled.
The notice shows the directive as it left. DEDUCED (log 19), unsafe in the position of a CANCELLED notice. -/
def State.leaveQueue (s : State) (place : Nat) (dir : Directive) (occupant : Option ReelId) (event : DirectiveEvent) :
    State :=
  let reel := s.directiveReel dir
  let s := s.modShp fun p =>
    { p with shelf := vacate p.shelf dir occupant, directives := p.directives.eraseIdx place }
  let s := if dir.position.isSome && occupant.isNone then s.assignmentPass else s
  (s.notifyDirective event dir reel).planHead

/-- What the Shelf Planner does for a context that enters ABORTED (R171). -/
def State.abortPlan (s : State) (d : DeckId) : State :=
  let s :=
    if (s.deck d).ctx.hasDirective then
      let s' :=
        match s.shp.directives.findIdx? (Directive.isOnDeck d) with
        | some i =>
          match s.shp.directives[i]? with
          | some dir => s.leaveQueue i dir none .cancelled
          | none => s
        | none => s
      s'.modCtx d fun c => { c with hasDirective := false }
    else s
  if d ∈ s.shp.waiting then
    (s.modShp fun p => { p with waiting := p.waiting.filter fun e => e != d }).modCtx d fun c =>
      { c with planPending := false }
  else s

/-- The reel of a RELEASED context with a directive leaves its deck: its ON_DECK directive takes the reel id and becomes IN_TRANSIT
(R167). Called with the reel id that the context held. -/
def State.directiveDeparts (s : State) (d : DeckId) (reel : Option ReelId) : State :=
  match s.shp.directives.find? (Directive.isOnDeck d) with
  | none => s
  | some dir =>
    let dir' := { dir with reel := reel, phase := .inTransit }
    let s := s.modShp fun p =>
      { p with directives := p.directives.map fun e => if Directive.isOnDeck d e then dir' else e }
    s.notifyDirective .inTransit dir' reel

/-! ### The requests -/

/-- LOAD_POLICY (R156). -/
def execLoadPolicy (s : State) : StepResult :=
  takeRequest 0x15 (fun p s =>
    match readPolicy p.body with
    | none => s.refuse p .range
    | some (i, row) =>
      (s.replyOk p).modShp fun h => { h with policies := h.policies.set i.val row i.isLt }) s

/-- The position takes the page entry when it is UNAVAILABLE or FREE (R159). -/
def ShelfPosition.load (pos : ShelfPosition) (entry : Fin 8 × PositionState) : ShelfPosition :=
  match pos.state with
  | .unavailable | .free => { pos with storageClass := entry.1, state := entry.2 }
  | .reserved | .occupied => pos

/-- The position is skipped by a page load (R159). -/
def ShelfPosition.skipped (pos : ShelfPosition) : Bool := pos.state == .reserved || pos.state == .occupied

/-- The map with page p written from a LOAD_SHELF body (R159). -/
def loadPage (shelf : Shelf) (page : Nat) (body : List Byte) : Shelf :=
  Vector.ofFn fun i : Fin 2048 =>
    if i.val / Config.pageSize = page then shelf[i].load (readShelfEntry body (i.val % Config.pageSize)) else shelf[i]

/-- The number of positions of a page that a load skips (R159). -/
def skippedCount (shelf : Shelf) (page : Nat) : Nat :=
  (List.range Config.pageSize).countP fun k => (shelf[Config.pageSize * page + k]?.map ShelfPosition.skipped).getD false

/-- LOAD_SHELF (R159): the page index is refused above 31. Every entry's class and state are in range by the body's layout
(section 10.3). -/
def execLoadShelf (s : State) : StepResult :=
  takeRequest 0x16 (fun p s =>
    let page := byteAt p.body 0
    if 32 ≤ page then s.refuse p .range
    else
      let s := s.reply p .ok (.skipped (skippedCount s.shp.shelf page))
      (s.modShp fun h => { h with shelf := loadPage h.shelf page p.body }).assignmentPass) s

/-- SHELVED (R168). -/
def execShelved (s : State) : StepResult :=
  takeRequest 0x30 (fun p s =>
    let reel : ReelId := BitVec.ofNat 32 (le32 p.body 0)
    match if reel = 0 then none else s.findDirective reel with
    | none => s.refuse p .range
    | some i =>
      match s.shp.directives[i]? with
      | none => s.refuse p .range
      | some dir =>
        if dir.phase = .onDeck then s.refuse p .badState
        else if dir.position.isNone then s.refuse p .noPosition
        else (s.replyOk p).leaveQueue i dir (some reel) .shelved) s

/-- RELEASE_POSITION (R160). -/
def execReleasePosition (s : State) : StepResult :=
  takeRequest 0x31 (fun p s =>
    match asIndex 2048 (le16 p.body 0) with
    | none => s.refuse p .range
    | some i =>
      if s.shp.shelf[i].state ≠ .occupied then s.refuse p .badState
      else ((s.replyOk p).modShp fun h => { h with shelf := Shelf.put h.shelf i .free none }).assignmentPass) s

/-- CANCEL_DIRECTIVE (R169). -/
def execCancelDirective (s : State) : StepResult :=
  takeRequest 0x32 (fun p s =>
    let reel : ReelId := BitVec.ofNat 32 (le32 p.body 0)
    match if reel = 0 then none else s.findDirective reel with
    | none => s.refuse p .range
    | some i =>
      match s.shp.directives[i]? with
      | none => s.refuse p .range
      | some dir =>
        if dir.phase = .onDeck then s.refuse p .badState
        else (s.replyOk p).leaveQueue i dir none .cancelled) s

end Sys2Proof.Machine
end

