-- ==== Sys2Proof/Machine/Store.lean ====
section
/-! DEFINITION. The Frame Store Controller (chapter 3) and the examinations that its events cause: slot release (R66, R67), decidability
(R106, R107) and shot completion (R78). -/

namespace Sys2Proof.Machine

/-! ### Slot content -/

/-- A sample of a line that no band has written (R55). -/
def blackSample : Sample := ⟨0, 0, 0, 0⟩

/-- A line all of whose samples are zero in the four channels. -/
def blackLine (l : Line) : Bool := l.all fun x => x == blackSample

/-- The content with one line written. It stays in its form: rising indices, no all-zero line (R55; log 15). -/
def SlotMem.write (m : SlotMem) (i : Nat) (l : Line) : SlotMem :=
  match m with
  | [] => if blackLine l then [] else [(i, l)]
  | (j, l') :: rest =>
    if i < j then if blackLine l then (j, l') :: rest else (i, l) :: (j, l') :: rest
    else if i = j then if blackLine l then rest else (i, l) :: rest
    else (j, l') :: SlotMem.write rest i l

/-- The line at an index, absent when it reads 0 throughout. -/
def SlotMem.find (m : SlotMem) (i : Nat) : Option Line := (m.find? fun e => e.1 == i).map Prod.snd

/-- The line at an index as the blocks read it: `width` samples, 0 where nothing was written (R55). -/
def SlotMem.line (m : SlotMem) (width i : Nat) : Line := (m.find i).getD (List.replicate width blackSample)

/-- The content is in its form: indices strictly rising, no line all zero. -/
def SlotMem.wf : SlotMem → Bool
  | [] => true
  | [(_, l)] => !blackLine l
  | (i, l) :: (j, l') :: rest => !blackLine l && decide (i < j) && SlotMem.wf ((j, l') :: rest)

/-- An index added to a set of indices kept in rising order. -/
def insertIndex (i : Nat) : List Nat → List Nat
  | [] => [i]
  | j :: rest => if i < j then i :: j :: rest else if i = j then j :: rest else j :: insertIndex i rest

/-! ### Slot release (R66 to R68) -/

/-- The shot of a record is no longer OPEN and the record is its last frame (R66 condition 3). -/
def Deck.lastOfClosedShot (k : Deck) (r : FrameRecord) : Bool :=
  match k.table.shots[r.shot]? with
  | some sh => sh.state != .opened && sh.last == some r.number
  | none => false

/-- The record of an EMITTED frame may give its slot back: conditions 1 to 5 of R66. -/
def Deck.releasable (k : Deck) (r : FrameRecord) : Bool :=
  r.phase == .emitted &&
    ((match k.store.find (r.number + 1) with
      | some next => next.phase == .ready || next.phase == .emitting || next.phase == .emitted || next.phase == .overrun
      | none => k.store.consumed (r.number + 1) || k.ctx.state != .scanning)
    || k.lastOfClosedShot r)

/-- The queue without a record, its slot FREE (R54, R63, R68). -/
def DeckStore.drop (k : DeckStore) (n : Nat) : DeckStore :=
  let k' :=
    match (k.find n).bind FrameRecord.slot with
    | some i => k.modSlot i fun _ => slotFree
    | none => k
  { k' with records := k'.records.filter fun r => r.number != n }

/-- A record leaves its queue and its slot becomes FREE; when the free-slot count rises to 5 while PAUSE_ASKED and SCANNING, a FLOW RUN is
asked for (R68, R69). -/
def State.dropRecord (s : State) (d : DeckId) (n : Nat) : State :=
  let before := (s.deck d).store.freeCount
  let s := s.modStore d fun k => k.drop n
  let k := s.deck d
  if before < Config.resumeMark ∧ Config.resumeMark ≤ k.store.freeCount ∧ k.store.flow = .pauseAsked
      ∧ k.ctx.state = .scanning then
    s.flowRequest d .run .clear
  else s

/-- A DRAINING context whose queue is empty becomes FINISHED and is handed to the Shelf Planner (R20, R68). -/
def State.emptyHandoff (s : State) (d : DeckId) : State :=
  let k := s.deck d
  if k.store.records.isEmpty ∧ k.ctx.state = .draining then (s.moveContext d .finished).planFinished d else s

/-- The examination of the record for n for slot release (R67). -/
def State.releaseExam (s : State) (d : DeckId) (n : Nat) : State :=
  let k := s.deck d
  match k.store.find n with
  | some r => if k.releasable r then (s.dropRecord d n).emptyHandoff d else s
  | none => s

/-! ### Decidability (R106, R107) -/

/-- A phase that a next frame has once it has been analysed, or OVERRUN (R106). -/
def Phase.analyzedOrLater : Phase → Bool
  | .analyzed | .repairing | .ready | .emitting | .emitted | .overrun => true
  | .capturing | .captured => false

/-- The frame is the first of its shot. -/
def Deck.firstOfShot (k : Deck) (r : FrameRecord) : Bool :=
  match k.table.shots[r.shot]? with
  | some sh => sh.first == r.number
  | none => false

/-- The previous-frame condition of R106. -/
def Deck.previousReady (k : Deck) (r : FrameRecord) : Bool :=
  r.number == 0 || k.firstOfShot r ||
    match k.store.find (r.number - 1) with
    | some prev => prev.action.isSome
    | none => true

/-- The next-frame condition of R106. -/
def Deck.nextReady (k : Deck) (r : FrameRecord) : Bool :=
  r.number == Config.max24 || k.lastOfClosedShot r ||
    match k.store.find (r.number + 1) with
    | some next => next.phase.analyzedOrLater
    | none => k.store.consumed (r.number + 1) || k.ctx.state != .scanning

/-- A record is decidable (R106). -/
def Deck.decidable (k : Deck) (r : FrameRecord) : Bool :=
  r.phase == .analyzed && k.previousReady r && k.nextReady r

/-- The examination of the record for n for decidability: a record found decidable joins the tail of the decision queue, once
(R107, R108). -/
def State.decideExam (s : State) (d : DeckId) (n : Nat) : State :=
  let k := s.deck d
  match k.store.find n with
  | some r =>
    if k.decidable r && r.action.isNone && !(s.rpe.queue.contains ⟨d, n⟩) then
      s.modRpe fun e => { e with queue := e.queue ++ [⟨d, n⟩] }
    else s
  | none => s

/-- Both examinations of the frame before n, which does not exist for frame 0. -/
def State.decideExamBefore (s : State) (d : DeckId) (n : Nat) : State :=
  if n = 0 then s else s.decideExam d (n - 1)

/-- The examination of the frame before n for slot release. -/
def State.releaseExamBefore (s : State) (d : DeckId) (n : Nat) : State :=
  if n = 0 then s else s.releaseExam d (n - 1)

/-! ### Shot completion (R78) -/

/-- The queue holds a record of shot i other than EMITTED ones (R78). -/
def DeckStore.holdsShot (k : DeckStore) (i : Nat) : Bool :=
  k.records.any fun r => r.shot == i && r.phase != .emitted

/-- A shot changed. -/
def ShotTable.modShot (t : ShotTable) (i : Nat) (f : Shot → Shot) : ShotTable := { t with shots := t.shots.modify i f }

/-- The examination of shot i for completion; a shot that completes produces its SHOT_CLOSED notice (R78, R79). -/
def State.completeExam (s : State) (d : DeckId) (i : Nat) : State :=
  let k := s.deck d
  match k.table.shots[i]? with
  | some sh =>
    if sh.state = .closed ∧ !k.store.holdsShot i then
      let done := { sh with state := .complete }
      (s.modTable d fun t => t.modShot i fun _ => done).notify d (.shotClosed i done k.ctx.reel)
    else s
  | none => s

/-! ### Discard (R63) -/

/-- The Damage Analyzer and the Repair Engine give up a discarded record (R91, R108, R124). -/
def State.enginesForget (s : State) (d : DeckId) (n : Nat) : State :=
  let gone : FrameRef := ⟨d, n⟩
  (s.modDan fun a =>
    { a with queue := a.queue.filter fun e => e != gone, active := if a.active = some gone then none else a.active }).modRpe
    fun e =>
      { e with queue := e.queue.filter fun x => x != gone, active := if e.active = some gone then none else e.active }

/-- The discard of the record for n (R63), with what each block does for it (R60, R78, R91, R107, R124). -/
def State.discard (s : State) (d : DeckId) (n : Nat) : State :=
  match (s.deck d).store.find n with
  | none => s
  | some r =>
    let s := s.dropRecord d n
    let s := s.modStore d fun k => if k.lastConsumed = some n then { k with fate := .discarded } else k
    let s := s.enginesForget d n
    let s := s.decideExamBefore d n
    let s := s.releaseExamBefore d n
    (s.completeExam d r.shot).emptyHandoff d

/-- The number of the CAPTURING record, if the queue holds one. -/
def DeckStore.capturing (k : DeckStore) : Option Nat :=
  (k.records.find? fun r => r.phase == .capturing).map FrameRecord.number

/-- The discard of the CAPTURING frame (R64). -/
def State.discardCapturing (s : State) (d : DeckId) : State :=
  match (s.deck d).store.capturing with
  | some n => s.discard d n
  | none => s

/-! ### Creation and close (R59 to R62, R52, R53) -/

/-- What the Registration Unit asks a record to be made with (R47 step 5). -/
structure RecordRequest where
  boundary : FilmPos
  offset : Int
  deviation : Nat
  coasted : Bool
  spurious : Bool
  shot : Nat

/-- A new record (R59): CAPTURING in a slot, or OVERRUN, which is decided from its creation and keeps only the flags of the request
(R61). The class set of a CAPTURING record is empty until its analysis. DESIGN CHOICE (log 36), unsafe: R59 has the other fields absent, and
section 3.2 gives the class set no absent value. -/
def newRecord (n : Nat) (q : RecordRequest) (predecessor : Fate) (slot : Option (Fin 8)) : FrameRecord where
  number := n
  phase := if slot.isSome then .capturing else .overrun
  slot := slot
  predecessor := predecessor
  shot := q.shot
  boundary := q.boundary
  lines := 0
  offset := q.offset
  deviation := q.deviation
  flags := ⟨q.coasted, q.spurious, false, false, false⟩
  measures := none
  codes := none
  classes := if slot.isSome then noClasses else gapOnly
  rule := none
  action := if slot.isSome then none else some .lost
  clipHigh := 0
  clipLow := 0

/-- The free-slot count fell to the pause mark: a FLOW PAUSE is asked for when the flow state is CLEAR and the context is SCANNING
(R69). -/
def State.pauseAtMark (s : State) (d : DeckId) : State :=
  let k := s.deck d
  if k.store.freeCount = Config.pauseMark ∧ k.store.flow = .clear ∧ k.ctx.state = .scanning then
    s.flowRequest d .pause .pauseAsked
  else s

/-- The overrun count rises, and the OVERRUN notice is produced (R59, R62); then the frame before n is examined (R67, R107). -/
def State.countOverrun (s : State) (d : DeckId) (n : Nat) (recorded : Bool) : State :=
  let s := s.modCtx d fun c => { c with overrunFrames := inc24 c.overrunFrames }
  let s := s.notify d (.overrun recorded n (s.deck d).ctx.overrunFrames)
  (s.decideExamBefore d n).releaseExamBefore d n

/-- The creation of the record for a newly consumed number: one of the three outcomes of R59. -/
def State.createRecord (s : State) (d : DeckId) (n : Nat) (q : RecordRequest) : State :=
  let k := (s.deck d).store
  if k.records.length < Config.recordRoom then
    match k.lowestFree with
    | some i =>
      let s := s.modStore d fun k =>
        { (k.modSlot i fun _ => (⟨true, [], []⟩ : Slot)) with
          records := k.records ++ [newRecord n q k.fate (some i)]
          fate := .slotted }
      s.pauseAtMark d
    | none =>
      let s := s.modStore d fun k =>
        { k with records := k.records ++ [newRecord n q k.fate none], fate := .overrun }
      s.countOverrun d n true
  else
    (s.modStore d fun k => { k with fate := .unrecorded }).countOverrun d n false

/-- The line count of a closed frame and whether it exceeds the frame's room (R52). -/
def closedLines (next first : LineNo) : Nat × Bool :=
  let count := lineDiff next first
  (min count.toNat Config.maxLines, decide ((Config.maxLines : Int) < count))

/-- Some index below the line count was never written (R53). -/
def linesMissing (written : List Nat) (lines : Nat) : Bool :=
  (List.range lines).any fun i => !written.contains i

/-- The close of a CAPTURING frame (R47 step 1, R52, R53): it becomes CAPTURED and joins the analysis queue (R88). An OVERRUN or
absent record is left as it is (R58). -/
def State.closeRecord (s : State) (d : DeckId) (n : Nat) (next first : LineNo) : State :=
  let k := (s.deck d).store
  match k.find n with
  | none => s
  | some r =>
    match r.phase, r.slot with
    | .capturing, some i =>
      let lines := (closedLines next first).1
      let tooLong := (closedLines next first).2
      let flags := { r.flags with
        truncated := r.flags.truncated || tooLong
        missingLines := r.flags.missingLines || linesMissing k.slots[i].written lines }
      let s := s.modStore d fun k =>
        (k.update n fun r => { r with phase := .captured, lines := lines, flags := flags }).modSlot i fun sl =>
          { sl with written := [] }
      s.modDan fun a => { a with queue := a.queue ++ [⟨d, n⟩] }
    | _, _ => s

/-- The spurious flag for a frame: delivered to its record unless that is OVERRUN or gone (R40, R58). -/
def DeckStore.flagSpurious (k : DeckStore) (n : Nat) : DeckStore :=
  k.update n fun r => if r.phase = .overrun then r else { r with flags := { r.flags with spurious := true } }

/-- The lines of a band written from index k on, up to index 4095 (R51, R55). -/
def writeLines (slot : Slot) (k : Nat) : List Line → Slot
  | [] => slot
  | l :: rest =>
    let slot' := if k < Config.maxLines then
        { slot with mem := SlotMem.write slot.mem k l, written := insertIndex k slot.written }
      else slot
    writeLines slot' (k + 1) rest

/-- A band written into the slot of a CAPTURING frame at index k; a refused line sets the truncated flag (R51, R52). -/
def DeckStore.writeBand (store : DeckStore) (n : Nat) (i : Fin 8) (k : Nat) (lines : List Line) : DeckStore :=
  let store := store.modSlot i fun sl => writeLines sl k lines
  if Config.maxLines < k + lines.length then
    store.update n fun r => { r with flags := { r.flags with truncated := true } }
  else store

end Sys2Proof.Machine
end

