-- ==== Sys2Proof/Machine/Shots.lean ====
section
/-! DEFINITION. The Shot Table (chapter 4): opening and closing of shots, cues, the accounting of emitted frames, and the meanings of
its requests ADD_CUE, DROP_CUE, BIND_GRADE and SET_DEFAULT_GRADE. -/

namespace Sys2Proof.Machine

/-- The shot origin of a declaration, absent for none (R73). -/
def Declaration.origin : Declaration → Option ShotOrigin
  | .start => some ShotOrigin.start
  | .relock => some ShotOrigin.relock
  | .splice => some ShotOrigin.splice
  | .none => Option.none

/-- The cue for frame n at the head of the list, if it is there (R73, R83). -/
def ShotTable.headCue (t : ShotTable) (n : Nat) : Option Cue :=
  match t.cues with
  | c :: _ => if c.frame = n then some c else none
  | [] => none

/-- What a frame boundary asks to open: the declaration's origin, or CUE for a cue alone (R73, R75). -/
def openingFor (declaration : Declaration) (cue : Option Cue) : Option ShotOrigin :=
  match declaration.origin with
  | some o => some o
  | none => if cue.isSome then some .cue else none

/-- The index of the OPEN shot, if the table holds one (R72). -/
def ShotTable.openIndex (t : ShotTable) : Option Nat := t.shots.findIdx? fun sh => sh.state == .opened

/-- A shot is CLOSED with a last frame (R74 step 1, R77). -/
def Shot.closeAt (sh : Shot) (last : Nat) : Shot := { sh with state := .closed, last := some last }

/-- What follows the close of shot i whose last frame is `last`: the release event, the examination for decidability and the
examination for completion (R74 steps 3 and 4, R77). -/
def State.afterClose (s : State) (d : DeckId) (i last : Nat) : State :=
  ((s.releaseExam d last).decideExam d last).completeExam d i

/-- A shot opens at frame n (R74). Without a binding when the cue carried no grade record. -/
def State.openShot (s : State) (d : DeckId) (n : Nat) (origin : ShotOrigin) (binding : Option (Fin 64)) : State :=
  let opened := (s.deck d).table.openIndex
  let s := s.modTable d fun t =>
    let t := match opened with
      | some i => t.modShot i fun sh => sh.closeAt (n - 1)
      | none => t
    { t with shots := t.shots ++ [⟨n, none, origin, .opened, binding, 0, 0⟩] }
  match opened with
  | some i => s.afterClose d i (n - 1)
  | none => s

/-- An opening refused by a full table: the first of the reel produces a SHOT_TABLE_FULL notice (R76). -/
def State.refuseOpening (s : State) (d : DeckId) (n : Nat) (origin : ShotOrigin) : State :=
  if (s.deck d).table.fullNotice then s
  else (s.modTable d fun t => { t with fullNotice := true }).notify d (.shotTableFull origin n)

/-- The Shot Table is told of frame n and its declaration (R73): the cue for n is consumed, and a shot opens, is refused, or the
frame joins. -/
def State.tellShotTable (s : State) (d : DeckId) (n : Nat) (declaration : Declaration) : State :=
  let cue := (s.deck d).table.headCue n
  let s := if cue.isSome then s.modTable d fun t => { t with cues := t.cues.tail } else s
  match openingFor declaration cue with
  | none => s
  | some origin =>
    if (s.deck d).table.shots.length < Config.shotRoom then s.openShot d n origin (cue.bind Cue.grade)
    else s.refuseOpening d n origin

/-- The index of the shot that contains the newest frame: the last of the table (R73). -/
def ShotTable.lastIndex (t : ShotTable) : Nat := t.shots.length - 1

/-- The close of the OPEN shot when the context leaves SCANNING (R77). `cut` says that the record of the most recently consumed
number was CAPTURING and was discarded by this same leaving. -/
def State.closeShotAtEnd (s : State) (d : DeckId) (cut : Bool) : State :=
  let k := s.deck d
  match k.table.openIndex, k.store.lastConsumed with
  | some i, some n =>
    match k.table.shots[i]? with
    | none => s
    | some sh =>
      if n + 1 ≤ sh.first + (if cut then 1 else 0) then
        s.modTable d fun t => { t with shots := t.shots.eraseIdx i }
      else
        let last := if cut then n - 1 else n
        (s.modTable d fun t => t.modShot i fun sh => sh.closeAt last).afterClose d i last
  | _, _ => s

/-- The shot of a full frame whose trailer was sent, with the two clip findings: steps 1 to 3 of R80. -/
def Shot.account (sh : Shot) (high low : Bool) : Shot :=
  let up := if high then min (sh.excursion + 1) 31 else sh.excursion
  { sh with
    emitted := inc24 sh.emitted
    excursion := if low then max (up - 1) (-32) else up }

/-- The record's grade at its grant: the shot's binding, else the reel's default (R86). -/
def Deck.resolveGrade (k : Deck) (r : FrameRecord) : Fin 64 :=
  match (k.table.shots[r.shot]?).bind Shot.binding with
  | some g => g
  | none => k.ctx.defaultGrade.getD 0

/-! ### The requests -/

/-- A cue inserted in its place in the order of frame numbers (R81). -/
def insertCue (c : Cue) : List Cue → List Cue
  | [] => [c]
  | e :: rest => if c.frame < e.frame then c :: e :: rest else e :: insertCue c rest

/-- The context accepts cues: it is BOUND or SCANNING (R81). -/
def ContextState.acceptsCues (c : ContextState) : Bool := c == .bound || c == .scanning

/-- ADD_CUE (R81). -/
def execAddCue (s : State) : StepResult :=
  takeDeckRequest 0x20 (fun d p s =>
    let n := le32 p.body 0
    let k := s.deck d
    match readGrade (byteAt p.body 4) with
    | none => s.refuse p .range
    | some grade =>
      if Config.max24 < n then s.refuse p .range
      else if !k.ctx.state.acceptsCues then s.refuse p .late
      else if n < k.ctx.nextFrame ∨ k.rgu.numbersExhausted then s.refuse p .late
      else if k.table.cues.any fun c => c.frame == n then s.refuse p .duplicate
      else if Config.cueRoom ≤ k.table.cues.length then s.refuse p .full
      else (s.replyOk p).modTable d fun t => { t with cues := insertCue ⟨n, grade⟩ t.cues }) s

/-- DROP_CUE (R82). -/
def execDropCue (s : State) : StepResult :=
  takeDeckRequest 0x21 (fun d p s =>
    let n := le32 p.body 0
    if (s.deck d).table.cues.any fun c => c.frame == n then
      (s.replyOk p).modTable d fun t => { t with cues := t.cues.filter fun c => c.frame != n }
    else s.refuse p .range) s

/-- BIND_GRADE (R84). -/
def execBindGrade (s : State) : StepResult :=
  takeDeckRequest 0x22 (fun d p s =>
    let i := byteAt p.body 0
    match readGrade (byteAt p.body 1), (s.deck d).table.shots[i]? with
    | some grade, some sh =>
      if sh.state = .complete then s.refuse p .badState
      else (s.replyOk p).modTable d fun t => t.modShot i fun sh => { sh with binding := grade }
    | _, _ => s.refuse p .range) s

/-- SET_DEFAULT_GRADE (R85). -/
def execSetDefaultGrade (s : State) : StepResult :=
  takeDeckRequest 0x23 (fun d p s =>
    match asIndex 64 (byteAt p.body 0) with
    | none => s.refuse p .range
    | some g =>
      if (s.deck d).ctx.reel.isNone then s.refuse p .badState
      else (s.replyOk p).modCtx d fun c => { c with defaultGrade := some g }) s

end Sys2Proof.Machine
end

