-- ==== Sys2Proof/Machine/Registration.lean ====
section
/-! DEFINITION. The Registration Unit (chapter 2): boundaries, acquisition, prediction, acceptance, coasting, splices, losses, and the
assignment of bands. -/

namespace Sys2Proof.Machine

/-! ### Notices and flags -/

/-- A REGISTRATION notice with the context's next frame number (R44). -/
def State.notifyRegistration (s : State) (d : DeckId) (event : RegistrationEvent) (cause : LossCause)
    (position : Option FilmPos) : State :=
  s.notify d (.registration event cause position (s.deck d).ctx.nextFrame)

/-- The spurious flag for the latest frame: held in the pending boundary, or delivered to the current frame's record (R40). -/
def State.flagLatest (s : State) (d : DeckId) : State :=
  let r := (s.deck d).rgu
  match r.boundary, r.current with
  | some b, _ => s.modRgu d fun r => { r with boundary := some { b with spurious := true } }
  | none, some c => s.modStore d fun k => k.flagSpurious c.number
  | none, none => s

/-! ### Boundaries (section 2.6) -/

/-- The later of two lines, by their signed difference (R46). -/
def laterLine (a b : LineNo) : LineNo := if 0 ≤ lineDiff a b then a else b

/-- The first line at or after a film position, modulo 2^28 (R45). -/
def lineAt (b : FilmPos) : LineNo := BitVec.ofNat 28 ((b.toNat + 15) / 16)

/-- The shrinkage value of a LOCKED boundary (R48). -/
def shrinkage (nominal avg : Nat) : Nat :=
  (clampInt 0 99 (roundHalfUp (((nominal : Int) - avg) * 1000) nominal)).toNat

/-- The first line of the frame that a boundary opens, when there is a current frame (R46): the later of Lb and the line mark, or the
current frame's first line when no band was written into it. -/
def CurrentFrame.endLine (c : CurrentFrame) (lb : LineNo) : LineNo := laterLine lb (c.mark.getD c.first)

/-- Step 2 of R47: a boundary that takes effect when the numbers are exhausted (R50). avg and candidate become absent with the entry of ACQUIRE,
as section 2.3 has them present in LOCKED and COAST only. DEDUCED (log 9), safe. -/
def State.exhaust (s : State) (d : DeckId) (sighting : Option FilmPos) : State :=
  (s.modRgu d fun r =>
    { r with current := none, lock := .acquire, relockPending := true, avg := none, candidate := none, boundary := none
      }).notifyRegistration d .loss .numbers sighting

/-- Steps 3 to 7 of R47: the frame is numbered, its shot and record are made, and it opens with first line lf. -/
def State.openFrame (s : State) (d : DeckId) (b : Boundary) (lf : LineNo) : State :=
  let n := (s.deck d).ctx.nextFrame
  let s := if n = Config.max24 then s.modRgu d fun r => { r with numbersExhausted := true }
    else s.modCtx d fun c => { c with nextFrame := n + 1 }
  let s := s.modStore d fun k => { k with lastConsumed := some n }
  let s := s.tellShotTable d n b.declaration
  let s := match b.declaration with
    | .start => s.modRgu d fun r => { r with firstLock := false }
    | .relock => s.modRgu d fun r => { r with relockPending := false }
    | .splice | .none => s
  let s := s.createRecord d n
    ⟨b.position, b.offset, b.deviation, b.coasted, b.spurious, (s.deck d).table.lastIndex⟩
  let s := match b.shrink with
    | some v => s.modCtx d fun c => { c with maxShrink := max c.maxShrink v }
    | none => s
  s.modRgu d fun r => { r with current := some ⟨n, lf, none⟩, boundary := none }

/-- The frame sighting of a boundary: its film position less the profile's frameLineOffset (R45). -/
def State.sightingOf (s : State) (d : DeckId) (b : Boundary) : Option FilmPos :=
  (s.profileOf d).map fun p => b.position - BitVec.ofNat 32 p.frameLineOffset

/-- A pending boundary takes effect, opening a frame at line lf (R47). -/
def State.takeEffect (s : State) (d : DeckId) (b : Boundary) (lf : LineNo) : State :=
  let s := match (s.deck d).rgu.current with
    | some c => s.closeRecord d c.number lf c.first
    | none => s
  if (s.deck d).rgu.numbersExhausted then s.exhaust d (s.sightingOf d b) else s.openFrame d b lf

/-- A boundary is formed (R45): one already pending takes effect first, and the new record becomes the pending boundary. -/
def State.formBoundary (s : State) (d : DeckId) (b : Boundary) : State :=
  let r := (s.deck d).rgu
  let s := match r.boundary with
    | some old =>
      let lf := match r.current with
        | some c => c.endLine old.line
        | none => old.line
      s.takeEffect d old lf
    | none => s
  s.modRgu d fun r => { r with boundary := some b }

/-- The boundary record of a frame sighting at p (R45). -/
def boundaryAt (pf : Profile) (p : FilmPos) (declaration : Declaration) (offset : Int) (deviation : Nat)
    (coasted : Bool) (shrink : Option Nat) : Boundary :=
  let b := p + BitVec.ofNat 32 pf.frameLineOffset
  ⟨b, lineAt b, declaration, offset, deviation, coasted, false, shrink⟩

/-! ### Acquisition (section 2.4) -/

/-- The lock on sighting p with pitch deviation `deviation` (R36). -/
def State.lockOn (s : State) (d : DeckId) (pf : Profile) (p : FilmPos) (deviation : Nat) : State :=
  let declaration := if (s.deck d).rgu.firstLock then Declaration.start else Declaration.relock
  let s := s.modRgu d fun r =>
    { r with
      lock := .locked, avg := some pf.nominalPitch, index := 0, misses := 0, prevAccepted := true, candidate := none
      chain := 0 }
  let s := s.formBoundary d
    (boundaryAt pf p declaration 0 deviation false (some (shrinkage pf.nominalPitch pf.nominalPitch)))
  s.notifyRegistration d .lock .none (some p)

/-- A sighting in ACQUIRE (R35). While the numbers are exhausted there is no action (R50). -/
def State.acquireSighting (s : State) (d : DeckId) (pf : Profile) (p : FilmPos) : State :=
  let r := (s.deck d).rgu
  if r.numbersExhausted then s
  else
    match r.prev with
    | none => s.modRgu d fun r => { r with chain := 1, prev := some p }
    | some q =>
      let deviation := (filmDiff p q - pf.nominalPitch).natAbs
      let chain := if deviation ≤ pf.pitchTolerance then r.chain + 1 else 1
      let s := s.modRgu d fun r => { r with chain := chain, prev := some p }
      if pf.lockCount ≤ chain then s.lockOn d pf p deviation else s

/-! ### Prediction, acceptance and coasting (section 2.5) -/

/-- The predicted position of the next perforation, modulo 2^32 (R37). -/
def Rgu.predicted (r : Rgu) : FilmPos := r.prev.getD 0 + BitVec.ofNat 32 (r.avg.getD 0)

/-- The tracked pitch after an accepted sighting with error e (R38). -/
def trackedPitch (nominal avg : Nat) (e : Int) : Nat :=
  let reach : Int := (nominal / 8 : Nat)
  (clampInt (nominal - reach) (nominal + reach) (avg + truncDiv e 8)).toNat

/-- Registration is lost (R42), on sighting p or on a lane event. -/
def State.loseRegistration (s : State) (d : DeckId) (cause : LossCause) (sighting : Option FilmPos) : State :=
  let s := match (s.deck d).rgu.current with
    | some c =>
      match (s.deck d).store.find c.number with
      | some r => if r.phase = Phase.capturing then s.discard d c.number else s
      | none => s
    | none => s
  let s := s.modRgu d fun r =>
    { r with
      boundary := none, current := none, candidate := none, avg := none, index := 0, misses := 0
      relockPending := true, lock := .acquire, prev := sighting, chain := if sighting.isSome then 1 else 0 }
  s.notifyRegistration d .loss cause sighting

/-- A sighting p within tolerance, with error e (R38). -/
def State.acceptSighting (s : State) (d : DeckId) (pf : Profile) (p : FilmPos) (e : Int) : State :=
  let r := (s.deck d).rgu
  let avg := if r.prevAccepted then trackedPitch pf.nominalPitch (r.avg.getD 0) e else r.avg.getD 0
  let index := (r.index + 1) % pf.perfsPerFrame
  let s := s.modRgu d fun r =>
    { r with
      avg := some avg, prev := some p, prevAccepted := true, index := index, misses := 0, candidate := none
      lock := .locked }
  if index = 0 then
    s.formBoundary d (boundaryAt pf p .none e e.natAbs false (some (shrinkage pf.nominalPitch avg)))
  else s

/-- An early sighting (R39). -/
def State.earlySighting (s : State) (d : DeckId) (p : FilmPos) : State :=
  match (s.deck d).rgu.lock with
  | .locked => s.flagLatest d
  | .coast => s.modRgu d fun r => { r with candidate := some p }
  | .idle | .acquire => s

/-- A sighting that was not a splice: accepted, early, or late (R38, R39, R41). A late one places a predicted perforation and is tested
again; `fuel` bounds the predictions, which R43 bounds by coastLimit. When a boundary that takes effect on the way ends registration
(R50), the sighting is not tested again. DEDUCED (log 10), safe. -/
def State.testSighting (d : DeckId) (pf : Profile) (p : FilmPos) : Nat → State → State
  | 0, s => s
  | fuel + 1, s =>
    let r := (s.deck d).rgu
    let predicted := r.predicted
    let e := filmDiff p predicted
    if r.lock ≠ .locked ∧ r.lock ≠ .coast then s
    else if e.natAbs ≤ pf.pitchTolerance then s.acceptSighting d pf p e
    else if e < 0 then s.earlySighting d p
    else
      let index := (r.index + 1) % pf.perfsPerFrame
      let misses := r.misses + 1
      let s := s.modRgu d fun r =>
        { r with prev := some predicted, prevAccepted := false, index := index, misses := misses, lock := .coast }
      if pf.coastLimit < misses then s.loseRegistration d .coast (some p)
      else
        let s := if index = 0 then s.formBoundary d (boundaryAt pf predicted .none 0 e.natAbs true none) else s
        State.testSighting d pf p fuel s

/-- The sighting confirms the candidate: a splice is declared (R37). -/
def State.declareSplice (s : State) (d : DeckId) (pf : Profile) (p : FilmPos) : State :=
  let r := (s.deck d).rgu
  let e := filmDiff p r.predicted
  let s := s.modRgu d fun r =>
    { r with prev := some p, prevAccepted := true, lock := .locked, misses := 0, candidate := none, index := 0 }
  let s := s.modCtx d fun c => { c with splices := inc24 c.splices }
  let s := s.flagLatest d
  let s := s.formBoundary d
    (boundaryAt pf p .splice 0 e.natAbs false (some (shrinkage pf.nominalPitch (r.avg.getD 0))))
  s.notifyRegistration d .splice .none (some p)

/-- The splice test of R37, in COAST with a candidate. -/
def Rgu.confirms (r : Rgu) (tolerance : Nat) (p : FilmPos) : Bool :=
  r.lock == .coast &&
    match r.candidate with
    | some q => (filmDiff p q - (r.avg.getD 0 : Nat)).natAbs ≤ tolerance
    | none => false

/-- An accepted sighting, in any lock state (R32, R35, R37). -/
def State.judgeSighting (s : State) (d : DeckId) (pf : Profile) (p : FilmPos) : State :=
  let r := (s.deck d).rgu
  match r.lock with
  | .idle => s
  | .acquire => s.acquireSighting d pf p
  | .locked | .coast =>
    if r.confirms pf.pitchTolerance p then s.declareSplice d pf p
    else s.testSighting d pf p (pf.coastLimit + 2)

/-- The lane leaves UP (R30). -/
def State.laneLeavesUp (s : State) (d : DeckId) : State :=
  let k := s.deck d
  if k.ctx.state = .scanning then
    match k.rgu.lock with
    | .locked | .coast => s.loseRegistration d .lane none
    | .acquire => s.modRgu d fun r => { r with chain := 0, prev := none, relockPending := true }
    | .idle => s
  else s

/-! ### Bands (section 2.7) -/

/-- The pending boundary takes effect when an accepted band's first line is at or after Lb (R46). -/
def State.bandReaches (s : State) (d : DeckId) (first : LineNo) : State :=
  let r := (s.deck d).rgu
  match r.boundary with
  | some b =>
    if 0 ≤ lineDiff first b.line then
      let lf := match r.current with
        | some c => c.endLine b.line
        | none => first
      s.takeEffect d b lf
    else s
  | none => s

/-- The line mark after a band (R51). -/
def CurrentFrame.markAfter (c : CurrentFrame) (first : LineNo) : LineNo :=
  let next := first + BitVec.ofNat 28 Config.bandLines
  match c.mark with
  | some m => laterLine m next
  | none => next

/-- A band goes to the current frame, or is discarded (R51, R52). -/
def State.assignBand (s : State) (d : DeckId) (first : LineNo) (lines : List Line) : State :=
  let k := s.deck d
  match k.rgu.current with
  | none => s
  | some c =>
    match k.store.find c.number with
    | none => s
    | some r =>
      match r.phase, r.slot with
      | .capturing, some i =>
        let offset := lineDiff first c.first
        if offset < 0 then s
        else
          (s.modStore d fun k => k.writeBand c.number i offset.toNat lines).modRgu d fun r =>
            { r with current := some { c with mark := some (c.markAfter first) } }
      | _, _ => s

end Sys2Proof.Machine
end

