-- ==== Sys2Proof/Machine/Lifecycle.lean ====
section
/-! DEFINITION. The ways a reel context leaves its states (sections 1.5 to 1.7): the end of a scan, the power fault, the abort with its
cut-off of an emission, the release, and the end of a slot command. -/

namespace Sys2Proof.Machine

/-! ### The cut-off of an emission (R191) -/

/-- The lines of the picture parcel on the wire, when it belongs to the emission (R198). -/
def Ali.linesInFlight (a : Ali) : Option Nat :=
  match a.wire with
  | some (.picture p) => some p.lines.length
  | _ => none

/-- A trailer is on the wire. -/
def Ali.trailerOnWire (a : Ali) : Bool :=
  match a.wire with
  | some (.trailer _) => true
  | _ => false

/-- The aborted trailer that an emission cut off leaves waiting (R191): its record is as the deck's queue holds it, with the
aborted flag. -/
def Ali.abortedWait (a : Ali) (e : Emission) (reel : Option ReelId) (r : FrameRecord) : AbortedWait where
  deck := e.deck
  reel := reel
  record := { r with flags := { r.flags with aborted := true } }
  linesSent := e.linesSent
  inFlight := if e.sending then a.linesInFlight else none

/-- The Archive Link Interface after the cut-off of its emission of deck d (R191). A trailer that is being sent completes, voided; a full
frame otherwise leaves its aborted trailer waiting; an OVERRUN grant is dropped. -/
def Ali.cutOff (a : Ali) (k : Deck) (e : Emission) : Ali :=
  if e.sending && a.trailerOnWire then { a with emission := some { e with voided := true } }
  else if e.overrun then { a with emission := none }
  else
    match k.store.find e.frame with
    | some r => { a with emission := none, aborted := some (a.abortedWait e k.ctx.reel r) }
    | none => { a with emission := none }

/-- The Grade Engine's snapshot becomes EMPTY when it holds a frame of deck d (R137, R154). -/
def Gre.dropDeck (g : Gre) (d : DeckId) : Gre :=
  match g.snapshot with
  | some n => if n.deck = d then { g with snapshot := none } else g
  | none => g

/-- The cut-off of a frame of deck d that is being emitted (R24, R65, R137, R191). -/
def State.cutOff (s : State) (d : DeckId) : State :=
  let s := s.modGre fun g => g.dropDeck d
  match s.ali.emission with
  | some e =>
    if e.deck = d then
      let k := s.deck d
      let s := s.modStore d fun k =>
        if e.overrun then k
        else k.update e.frame fun r => { r with flags := { r.flags with aborted := true } }
      s.modAli fun a => a.cutOff k e
    else s
  | none => s

/-! ### Enabling and disabling a Registration Unit (R34) -/

/-- An enabled Registration Unit (R34). -/
def Rgu.enable (r : Rgu) : Rgu :=
  { r with
    lock := .acquire, chain := 0, prev := none, firstLock := true, relockPending := false, numbersExhausted := false
    candidate := none, boundary := none, current := none }

/-- A disabled Registration Unit (R34, R50). -/
def Rgu.disable (r : Rgu) : Rgu :=
  { r with
    lock := .idle, boundary := none, prev := none, avg := none, candidate := none, current := none
    chain := 0, index := 0, misses := 0, numbersExhausted := false }

/-! ### Leaving SCANNING (R18, R19) -/

/-- The record of the most recently consumed number is CAPTURING (R77). -/
def DeckStore.newestCapturing (k : DeckStore) : Bool :=
  match k.lastConsumed.bind k.find with
  | some r => r.phase == .capturing
  | none => false

/-- All numbers of records in a phase, in queue order. -/
def DeckStore.numbersIn (k : DeckStore) (phase : Phase) : List Nat :=
  (k.records.filter fun r => r.phase == phase).map FrameRecord.number

/-- The examinations when the context has left SCANNING (R67, R107): for slot release first, then for decidability, each in queue order. DEDUCED
(log 41), safe. -/
def State.examineAll (s : State) (d : DeckId) : State :=
  let emitted := (s.deck d).store.numbersIn .emitted
  let s := emitted.foldl (fun s n => s.releaseExam d n) s
  let analyzed := (s.deck d).store.numbersIn .analyzed
  analyzed.foldl (fun s n => s.decideExam d n) s

/-- The steps of R18 before its STOP: flow CLEAR (R70), unit disabled, CAPTURING frame discarded, open shot closed. DEDUCED (log 14),
safe: the flow state is CLEAR from the start of the leaving, so the discard asks for no FLOW RUN. -/
def State.endCapture (s : State) (d : DeckId) : State :=
  let cut := (s.deck d).store.newestCapturing
  let s := s.modStore d fun k => { k with flow := .clear }
  let s := s.modRgu d Rgu.disable
  (s.discardCapturing d).closeShotAtEnd d cut

/-- The context enters DRAINING, with the examinations of leaving SCANNING, and FINISHED at once when its queue is empty
(R18, R20, R67, R107). -/
def State.enterDraining (s : State) (d : DeckId) : State :=
  ((s.moveContext d .draining).examineAll d).emptyHandoff d

/-- The end of a scan by END_SCAN or a TAIL mark (R18): STOP is sent after a pending RUN or PAUSE is withdrawn (R6). -/
def State.endScan (s : State) (d : DeckId) : State :=
  let s := s.endCapture d
  let s := s.modChan d fun c => (c.withdraw [.run, .pause]).sendContext .stop none
  s.enterDraining d

/-- The end of a scan by a power fault (R19): interrupted, and no STOP. The CONTEXT_STATE notice comes last, after those of the discard and the close.
DESIGN CHOICE (log 42), unsafe: R18 puts it last for END_SCAN and TAIL, and R19 gives its steps no order. -/
def State.powerFaultDrain (s : State) (d : DeckId) : State :=
  let s := s.modCtx d fun c => { c with interrupted := true }
  let s := s.endCapture d
  let s := s.modChan d fun c => c.withdraw [.run, .pause]
  s.enterDraining d

/-! ### The abort (R24) -/

/-- The slots and records of a deck after its abort (R65): all eight slots FREE, the queue empty, and the fate DISCARDED when the most recently
consumed number had a record in `before`. -/
def DeckStore.emptied (k before : DeckStore) : DeckStore :=
  { k with
    slots := Vector.replicate 8 slotFree
    records := []
    fate := if (before.lastConsumed.bind before.find).isSome then .discarded else before.fate }

/-- The Damage Analyzer and the Repair Engine give up every frame of deck d (R91, R92, R124). -/
def State.enginesForgetDeck (s : State) (d : DeckId) : State :=
  let stays (f : FrameRef) : Bool := f.deck != d
  (s.modDan fun a => { a with queue := a.queue.filter stays, active := a.active.filter stays }).modRpe fun e =>
    { e with queue := e.queue.filter stays, active := e.active.filter stays }

/-- Every record of deck d's queue discarded (R65), in queue order. DESIGN CHOICE (log 35), safe: R65 gives the discards no order; it decides the
order of the SHOT_CLOSED notices. -/
def State.discardAll (s : State) (d : DeckId) : State :=
  let before := (s.deck d).store
  let s := (before.records.map FrameRecord.number).foldl (fun s n => s.discard d n) s
  (s.modStore d fun k => k.emptied before).enginesForgetDeck d

/-- STOP at an abort, unless the motion mirror is STOPPED and no RUN or PAUSE is outstanding (R24). -/
def Channel.stopAtAbort (c : Channel) : Channel :=
  if c.motion = .stopped && !c.outstandingIs .run && !c.outstandingIs .pause then c else c.sendContext .stop none

/-- Entering ABORTED: the effects of R24, in its order. -/
def State.abort (s : State) (d : DeckId) : State :=
  let cut := (s.deck d).store.newestCapturing
  let s := s.moveContext d .aborted
  let s := s.modChan d fun c => { c with waiting := none }
  let s := s.modRgu d Rgu.disable
  let s := s.modStore d fun k => { k with flow := .clear }
  let s := (s.cutOff d).discardAll d
  let s := s.modChan d Channel.stopAtAbort
  (s.closeShotAtEnd d cut).abortPlan d

/-! ### Release and removal (R15, R22) -/

/-- A RELEASED context whose present level is false becomes EMPTY: it is cleared but for its gate and power mirrors, and its directive
becomes IN_TRANSIT (R22, R167). The CONTEXT_STATE notice shows the reel id absent. DEDUCED (log 20), safe. -/
def State.departReleased (s : State) (d : DeckId) : State :=
  let k := s.deck d
  if k.ctx.state = .released ∧ !k.chan.sensors.present then
    let s := s.modCtx d fun c => contextCleared c.state c.gateLocked c.powerOn
    let s := s.moveContext d .empty
    if k.ctx.hasDirective then s.directiveDeparts d k.ctx.reel else s
  else s

/-- The context enters RELEASED, and goes on to EMPTY at once when present is already false (R22). -/
def State.enterReleased (s : State) (d : DeckId) : State := (s.moveContext d .released).departReleased d

/-- Reel id, profile index and default grade become absent (R14, R15). -/
def ReelContext.unbind (c : ReelContext) : ReelContext := { c with reel := none, profile := none, defaultGrade := none }

/-- A BOUND context whose gate is not locked loses its reel and goes to EMPTY (R15). -/
def State.loseBoundReel (s : State) (d : DeckId) : State :=
  ((s.modChan d fun c => c.withdraw [.lockGate]).modCtx d ReelContext.unbind).moveContext d .empty

/-- The states in which a sensor fault aborts (R16). -/
def ContextState.sensorFaults (c : ContextState) : Bool :=
  c == .bound || c == .scanning || c == .draining || c == .finished

/-- present or gateClosed is false (R16). -/
def Channel.sensorFallen (c : Channel) : Bool := !c.sensors.present || !c.sensors.gateClosed

/-! ### The end of a slot command (R4) -/

/-- The motion mirror after a command is DONE (R9). -/
def Channel.mirrorDone (c : Channel) (cmd : SlotCommand) : Channel :=
  match cmd with
  | .run => { c with motion := .running }
  | .pause => { c with motion := .paused }
  | .stop | .powerOff => { c with motion := .stopped }
  | .lockGate | .unlockGate | .powerOn | .indicatorOff | .indicatorOn | .indicatorBlink => c

/-- The gate and power mirrors after a command is DONE; POWER_ON changes nothing while powerFault is true (R9). -/
def ReelContext.mirrorDone (c : ReelContext) (powerFault : Bool) (cmd : SlotCommand) : ReelContext :=
  match cmd with
  | .lockGate => { c with gateLocked := true }
  | .unlockGate => { c with gateLocked := false }
  | .powerOn => if powerFault then c else { c with powerOn := true }
  | .powerOff => { c with powerOn := false }
  | .run | .pause | .stop | .indicatorOff | .indicatorOn | .indicatorBlink => c

/-- The mirrors of deck d after a command is DONE (R4 step 1, R9). -/
def State.mirrorDone (s : State) (d : DeckId) (cmd : SlotCommand) : State :=
  (s.modChan d fun c => c.mirrorDone cmd).modCtx d fun c => c.mirrorDone (s.deck d).chan.sensors.powerFault cmd

/-- The context is still in the state the release was made from (R21, R25). -/
def ReleaseFrom.holds (r : ReleaseFrom) (c : ContextState) : Bool :=
  match r with
  | .finished => c == .finished
  | .aborted => c == .aborted

/-- The release at the end of a release unlock, and what waited for the end of an UNLOCK_GATE (R4 step 2, R16). DEDUCED (log 13), safe:
the sensor consequences of R16 come with the release, before the notice. Only the levels are tested, not that one of them fell while this unlock
was outstanding. DESIGN CHOICE (log 33), unsafe: R16 speaks of such a fall, and asks at the end whether a level is still false. -/
def State.unlockEnded (s : State) (d : DeckId) (o : Command) (result : CommandResult) : State :=
  let k := s.deck d
  match result with
  | .done =>
    if (o.release.map fun r => r.holds k.ctx.state).getD false then s.enterReleased d
    else if k.ctx.state = .bound ∧ k.chan.sensorFallen then s.loseBoundReel d
    else s
  | .fault | .failed =>
    if k.ctx.state.sensorFaults ∧ k.ctx.gateLocked ∧ k.chan.sensorFallen then s.abort d else s

/-- The gate correction (R9). -/
def State.gateCorrection (s : State) (d : DeckId) (cmd : SlotCommand) (result : CommandResult) : State :=
  let k := s.deck d
  if cmd = .lockGate ∧ result = .done ∧ (k.ctx.state = .empty ∨ k.ctx.state = .loaded) then
    s.modChan d fun c => c.sendContext .unlockGate none
  else s

/-- The outstanding command of deck d ends (R4). The gate correction follows the issue of the pending command. DEDUCED (log 13), safe. -/
def State.endCommand (s : State) (d : DeckId) (o : Command) (result : CommandResult) : State :=
  let s := s.modChan d fun c => { c with outstanding := none }
  let s := if result = .done then s.mirrorDone d o.cmd else s
  let s := if o.cmd = .unlockGate then s.unlockEnded d o result else s
  let s := s.notify d (.slotCommandDone o.cmd o.origin result)
  let s := s.modChan d Channel.issueWaiting
  s.gateCorrection d o.cmd result

end Sys2Proof.Machine
end

