-- ==== Sys2Proof/Machine/DeckRequests.lean ====
section
/-! DEFINITION. The meanings of the requests that the Deck Slot Controller owns (chapter 1) and of RETRAIN_LANE (chapter 2). In each, the
reply joins the report queue before the notices of the same take. DEDUCED (log 11), safe. -/

namespace Sys2Proof.Machine

/-- The reel id is held by a context, a directive or a shelf position (R13 check 4). -/
def State.reelHeld (s : State) (reel : ReelId) : Bool :=
  (s.decks.toList.any fun k => k.ctx.reel == some reel)
  || (s.shp.directives.any fun dir => s.directiveReel dir == some reel)
  || (s.shp.shelf.toList.any fun p => p.occupant == some reel)

/-- The context as Bind enters it (R13). -/
def ReelContext.bind (c : ReelContext) (reel : ReelId) (profile : Fin 8) (grade : Fin 64) : ReelContext :=
  { contextCleared c.state c.gateLocked c.powerOn with
    reel := some reel, profile := some profile, defaultGrade := some grade }

/-- What Bind does after its checks (R13, R72, R81, R128). -/
def State.bindReel (s : State) (d : DeckId) (reel : ReelId) (profile : Fin 8) (grade : Fin 64) : State :=
  let s := s.modCtx d fun c => c.bind reel profile grade
  let s := s.modTable d fun _ => tableEmpty
  let s := s.modStore d fun k => { k with lastConsumed := none }
  let s := s.modMap d fun _ => mapCleared (some reel)
  let s := s.modChan d fun c => c.sendContext .lockGate none
  s.moveContext d .bound

/-- BIND_REEL (R13). -/
def execBindReel (s : State) : StepResult :=
  takeDeckRequest 0x01 (fun d p s =>
    let reel : ReelId := BitVec.ofNat 32 (le32 p.body 0)
    match asIndex 8 (byteAt p.body 4), asIndex 64 (byteAt p.body 5) with
    | some profile, some grade =>
      if reel = 0 then s.refuse p .range
      else if (s.deck d).ctx.state ≠ .loaded then s.refuse p .badState
      else if s.profiles[profile].isNone then s.refuse p .badState
      else if s.reelHeld reel then s.refuse p .duplicate
      else (s.replyOk p).bindReel d reel profile grade
    | _, _ => s.refuse p .range) s

/-- What Unbind does after its check (R14). -/
def State.unbindReel (s : State) (d : DeckId) : State :=
  let locked := (s.deck d).ctx.gateLocked
  let s := s.modChan d fun c =>
    let c := c.withdraw [.lockGate]
    if locked && !c.outstandingIs .unlockGate then c.sendContext .unlockGate none else c
  (s.modCtx d ReelContext.unbind).moveContext d .loaded

/-- UNBIND_REEL (R14). -/
def execUnbindReel (s : State) : StepResult :=
  takeDeckRequest 0x02 (fun d p s =>
    if (s.deck d).ctx.state ≠ .bound then s.refuse p .badState else (s.replyOk p).unbindReel d) s

/-- What Start does after its checks (R17, R34, R60, R70). -/
def State.startScan (s : State) (d : DeckId) : State :=
  let s := s.moveContext d .scanning
  let s := s.modStore d fun k => { k with flow := .clear, fate := .none }
  let s := s.modRgu d Rgu.enable
  s.modChan d fun c => c.sendContext .run none

/-- START_SCAN (R17). -/
def execStartScan (s : State) : StepResult :=
  takeDeckRequest 0x03 (fun d p s =>
    let k := s.deck d
    if k.ctx.state ≠ .bound then s.refuse p .badState
    else if !k.ctx.gateLocked || !k.ctx.powerOn then s.refuse p .badState
    else if k.lane ≠ .up then s.refuse p .laneDown
    else (s.replyOk p).startScan d) s

/-- END_SCAN (R18). -/
def execEndScan (s : State) : StepResult :=
  takeDeckRequest 0x04 (fun d p s =>
    if (s.deck d).ctx.state ≠ .scanning then s.refuse p .badState else (s.replyOk p).endScan d) s

/-- ABORT_DECK (R23). -/
def execAbortDeck (s : State) : StepResult :=
  takeDeckRequest 0x05 (fun d p s =>
    if (s.deck d).ctx.state.sensorFaults then (s.replyOk p).abort d else s.refuse p .badState) s

/-- An accepted release request (R21, R25). -/
def State.releaseReel (s : State) (d : DeckId) : State :=
  let k := s.deck d
  if k.ctx.state = .aborted then
    if !k.ctx.gateLocked && !k.chan.outstandingIs .lockGate then s.enterReleased d
    else s.modChan d fun c => c.sendContext .unlockGate (some .aborted)
  else s.modChan d fun c => c.sendContext .unlockGate (some .finished)

/-- RELEASE_REEL (R21, R25). -/
def execReleaseReel (s : State) : StepResult :=
  takeDeckRequest 0x06 (fun d p s =>
    let k := s.deck d
    if k.ctx.state ≠ .finished ∧ k.ctx.state ≠ .aborted then s.refuse p .badState
    else if k.ctx.state = .finished ∧ !k.ctx.hasDirective then s.refuse p .badState
    else if k.chan.releaseBusy then s.refuse p .busy
    else (s.replyOk p).releaseReel d) s

/-- The slot commands that DECK_COMMAND may issue (R7 check 1). -/
def commandable : SlotCommand → Bool
  | .lockGate | .unlockGate | .stop => false
  | .powerOn | .powerOff | .run | .pause | .indicatorOff | .indicatorOn | .indicatorBlink => true

/-- DECK_COMMAND (R7). -/
def execDeckCommand (s : State) : StepResult :=
  takeDeckRequest 0x07 (fun d p s =>
    let k := s.deck d
    match readSlotCommand (byteAt p.body 0) with
    | none => s.refuse p .range
    | some cmd =>
      if !commandable cmd then s.refuse p .range
      else if k.chan.outstanding.isSome || k.chan.waiting.isSome then s.refuse p .busy
      else if cmd = .powerOn ∧ k.chan.sensors.powerFault then s.refuse p .badState
      else if cmd = .powerOff ∧ k.ctx.state = .scanning then s.refuse p .badState
      else (s.replyOk p).modChan d fun c => c.issue ⟨cmd, .workstation, none⟩) s

/-- SET_DECK_EVENTS (R8). -/
def execSetDeckEvents (s : State) : StepResult :=
  takeDeckRequest 0x08 (fun d p s =>
    match asIndex 4 (byteAt p.body 2) with
    | none => s.refuse p .range
    | some timeout =>
      (s.replyOk p).modChan d fun c => { c with mask := BitVec.ofNat 16 (le16 p.body 0), timeout := timeout }) s

/-- The lane takes a new state, with its LANE_STATE notice (R28). What has been received of a lane parcel is dropped. DEDUCED (log 40), safe:
R199 reads no parcel while the lane is not UP. -/
def State.moveLane (s : State) (d : DeckId) (state : LaneState) (cause : LaneCause) : State :=
  (s.modDeck d fun k => { k with lane := state, intake := [] }).notify d (.laneState state cause)

/-- RETRAIN_LANE (R29, R30). -/
def execRetrainLane (s : State) : StepResult :=
  takeDeckRequest 0x09 (fun d p s =>
    match (s.deck d).lane with
    | .down => s.refuse p .laneDown
    | .training => s.refuse p .busy
    | .up => ((s.replyOk p).moveLane d .training .retrain).laneLeavesUp d) s

/-- A context in SCANNING or DRAINING names the profile (R11). -/
def State.profileInUse (s : State) (i : Fin 8) : Bool :=
  s.decks.toList.any fun k => (k.ctx.state == .scanning || k.ctx.state == .draining) && k.ctx.profile == some i

/-- LOAD_PROFILE (R11). -/
def execLoadProfile (s : State) : StepResult :=
  takeRequest 0x10 (fun p s =>
    match asIndex 8 (byteAt p.body 0) with
    | none => s.refuse p .range
    | some i =>
      if !(readProfile p.body).inRange then s.refuse p .range
      else if s.profileInUse i then s.refuse p .inUse
      else { s.replyOk p with profiles := s.profiles.set i.val (some (readProfile p.body)) i.isLt }) s

end Sys2Proof.Machine
end

