-- ==== Sys2Proof/Machine/DeckLines.lean ====
section
/-! DEFINITION. The events on the deck lines: sensor changes, the attention button, the answers to slot commands and the expiry of a
command's timer (chapter 1). A change to a level already seen is no change. DEDUCED (log 31), safe. -/

namespace Sys2Proof.Machine

/-- A sensor level is recorded and reported (R1). -/
def State.sense (s : State) (d : DeckId) (sensor : Sensor) (level : Bool) (record : Sensors → Sensors) : State :=
  (s.modChan d fun c => { c with sensors := record c.sensors }).notify d (.slotEvent sensor level)

/-- A fall of present or gateClosed in a context whose gate may be locked (R15, R16). A BOUND context whose gate mirror is no goes to EMPTY at
once also while an UNLOCK_GATE is outstanding. DESIGN CHOICE (log 32), unsafe: R15 names no such command, and R16 has a fall wait for one. -/
def State.sensorFall (s : State) (d : DeckId) : State :=
  let k := s.deck d
  if !k.ctx.gateLocked then
    if k.ctx.state = .bound then s.loseBoundReel d else s
  else if k.chan.outstandingIs .unlockGate then s
  else if k.ctx.state.sensorFaults then s.abort d
  else s

/-- What a change of present or gateClosed to `level` does to the context (R12, R15, R16, R22). In RELEASED a change of gateClosed does
nothing more. -/
def State.sensorEffect (s : State) (d : DeckId) (sensor : Sensor) (level : Bool) : State :=
  let k := s.deck d
  match k.ctx.state with
  | .empty => if k.chan.sensorFallen then s else s.moveContext d .loaded
  | .loaded => if level then s else s.moveContext d .empty
  | .bound | .scanning | .draining | .finished => if level then s else s.sensorFall d
  | .released => if sensor = .present then s.departReleased d else s
  | .aborted => s

/-- PRESENT_CHANGE (R1, R12, R15, R16, R22). -/
def execPresentChange (deck : DeckId) (level : Bool) (s : State) : StepResult :=
  if (s.deck deck).chan.sensors.present = level then .next s
  else .next ((s.sense deck .present level fun v => { v with present := level }).sensorEffect deck .present
    level)

/-- GATE_CLOSED_CHANGE (R1, R12, R15, R16, R22). -/
def execGateClosedChange (deck : DeckId) (level : Bool) (s : State) : StepResult :=
  if (s.deck deck).chan.sensors.gateClosed = level then .next s
  else .next ((s.sense deck .gateClosed level fun v => { v with gateClosed := level }).sensorEffect
    deck .gateClosed level)

/-- The mirrors at a rise of powerFault (R10). -/
def State.losePower (s : State) (d : DeckId) : State :=
  (s.modCtx d fun c => { c with powerOn := false }).modChan d fun c => { c with motion := .stopped }

/-- POWER_FAULT_RISE (R1, R10, R19). -/
def execPowerFaultRise (deck : DeckId) (s : State) : StepResult :=
  if (s.deck deck).chan.sensors.powerFault then .next s
  else
    let s := (s.sense deck .powerFault true fun v => { v with powerFault := true }).losePower deck
    .next (if (s.deck deck).ctx.state = .scanning then s.powerFaultDrain deck else s)

/-- POWER_FAULT_FALL (R1, R10). -/
def execPowerFaultFall (deck : DeckId) (s : State) : StepResult :=
  if (s.deck deck).chan.sensors.powerFault then
    .next (s.sense deck .powerFault false fun v => { v with powerFault := false })
  else .next s

/-- ATTENTION_PRESS (R1, R21): in FINISHED with a directive, and neither condition of the BUSY check, it releases the reel. -/
def execAttentionPress (deck : DeckId) (s : State) : StepResult :=
  if (s.deck deck).chan.sensors.attention then .next s
  else
    let s := s.sense deck .attention true fun v => { v with attention := true }
    let k := s.deck deck
    .next (if k.ctx.state = .finished ∧ k.ctx.hasDirective ∧ !k.chan.releaseBusy then s.releaseReel deck else s)

/-- ATTENTION_FALL (R1): the level is recorded; no notice and no other effect. -/
def execAttentionFall (deck : DeckId) (s : State) : StepResult :=
  .next (s.modChan deck fun c => { c with sensors := { c.sensors with attention := false } })

/-- An answer to the outstanding command; any other answer is ignored (R3, R4). -/
def State.answer (s : State) (d : DeckId) (cmd : SlotCommand) (result : CommandResult) : State :=
  match (s.deck d).chan.outstanding with
  | some o => if o.command.cmd = cmd then s.endCommand d o.command result else s
  | none => s

/-- DECK_ANSWER_DONE (R2, R3, R4). -/
def execDeckAnswerDone (deck : DeckId) (command : SlotCommand) (s : State) : StepResult :=
  .next (s.answer deck command .done)

/-- DECK_ANSWER_FAULT (R2, R3, R4). -/
def execDeckAnswerFault (deck : DeckId) (command : SlotCommand) (s : State) : StepResult :=
  .next (s.answer deck command .fault)

/-- COMMAND_TIMEOUT (R3, R4): the timer of the outstanding command expires. When it does is outside the model (log 7). -/
def execCommandTimeout (deck : DeckId) (s : State) : StepResult :=
  match (s.deck deck).chan.outstanding with
  | some o => .next (s.endCommand deck o.command .failed)
  | none => .next s

end Sys2Proof.Machine
end

