-- ==== Sys2Proof/Machine/Lanes.lean ====
section
/-! DEFINITION. The scan lanes: lane states (section 2.1), the intake that cuts the bytes of a lane into parcels (R199, section 10.6), and what an
accepted parcel does (R32). A command of a lane carries the bytes that arrive. DESIGN CHOICE (log 22), safe. -/

namespace Sys2Proof.Machine

/-! ### Cutting the bytes of a lane into parcels (R199) -/

/-- A lane parcel from its sync word on (section 10.6): kind, the reserved header byte, the payload that the header's length announces, and the
CRC-16. -/
structure LaneFrame where
  kind : Byte
  reserved : Byte
  payload : List Byte
  crc : Word16
  deriving DecidableEq, Repr, Inhabited

/-- What the intake finds at the head of bytes that start with a lane sync word. -/
inductive LaneHead where
  /-- More bytes are needed. -/
  | more
  /-- A header that announces more than the longest parcel: it is discarded, and nothing behind it. -/
  | overlong
  /-- A parcel, and the number of its bytes. -/
  | parcel (f : LaneFrame) (consumed : Nat)
  deriving DecidableEq, Repr

/-- The parcel at the head of the bytes, if its last byte has arrived (R199). -/
def laneHead (rx : List Byte) : LaneHead :=
  let n := le32 rx 4
  if rx.length < 8 then .more
  else if Config.maxLanePayload < n then .overlong
  else if rx.length < 10 + n then .more
  else .parcel ⟨rx.getD 2 0, rx.getD 3 0, (rx.drop 8).take n, BitVec.ofNat 16 (le16 rx (8 + n))⟩ (10 + n)

/-- The bytes of a lane from the next lane sync word on (R199, section 10.6). -/
def huntLaneSync (bytes : List Byte) : List Byte := hunt 0x96#8 0x5B#8 bytes

/-- The parcels that bytes hold, and what is left of them at the end. -/
structure LaneCut where
  frames : List LaneFrame
  rest : List Byte
  deriving DecidableEq, Repr

/-- The bytes of a lane cut into parcels (R199); every round consumes bytes, so `fuel` above their number is enough. After a header discarded for
its length the hunt goes on behind the header; after a parcel, discarded or not, behind its CRC. DEDUCED (log 39), unsafe: R199 names the place
for the header alone. -/
def cutLane : Nat → List Byte → LaneCut
  | 0, bytes => ⟨[], bytes⟩
  | fuel + 1, bytes =>
    let rx := huntLaneSync bytes
    match laneHead rx with
    | .more => ⟨[], rx⟩
    | .overlong => cutLane fuel (rx.drop 8)
    | .parcel f n => let later := cutLane fuel (rx.drop n); ⟨f :: later.frames, later.rest⟩

/-! ### What a lane parcel says (R32, section 10.6) -/

/-- The kind codes of lane parcels (section 10.6). -/
def sightingKind : Byte := 1#8
/-- The kind code of a BAND. -/
def bandKind : Byte := 2#8
/-- The kind code of a MARK. -/
def markKind : Byte := 3#8

/-- The CRC of a lane parcel, over header offsets 2 to 7 and the payload (R32). -/
def laneCrc (f : LaneFrame) : Word16 := crc16 (f.kind :: f.reserved :: put32 f.payload.length ++ f.payload)

/-- The parcel's CRC matches (R32). -/
def crcHolds (f : LaneFrame) : Bool := f.crc == laneCrc f

/-- The film position of an accepted SIGHTING, absent when the parcel is none or is discarded (R32, R199). -/
def readSighting (f : LaneFrame) : Option FilmPos :=
  if crcHolds f && f.kind == sightingKind && f.payload.length == 4 then some (BitVec.ofNat 32 (le32 f.payload 0))
  else none

/-- The mark code of an accepted MARK, absent when the parcel is none or is discarded (R32, R199). -/
def readMark (f : LaneFrame) : Option Nat :=
  if crcHolds f && f.kind == markKind && f.payload.length == 4 then some (byteAt f.payload 0) else none

/-- Samples of R, G, B and IR, two bytes each (section 10.6). -/
def readSamples : List Byte → List Sample
  | r0 :: r1 :: g0 :: g1 :: b0 :: b1 :: i0 :: i1 :: rest => ⟨r1 ++ r0, g1 ++ g0, b1 ++ b0, i1 ++ i0⟩ :: readSamples rest
  | _ => []

/-- Samples cut into lines of one width. -/
def cutLines (width : Nat) : Nat → List Sample → List Line
  | 0, _ => []
  | n + 1, samples => samples.take width :: cutLines width n (samples.drop width)

/-- A band as registration takes it: its first line and its 16 lines. -/
structure BandLines where
  first : LineNo
  lines : List Line
  deriving DecidableEq, Repr

/-- The content of an accepted BAND, absent when the parcel is none or is discarded: its length must agree with its stated width, and that
width with the profile's (R32, R199). Bits 28 to 31 of the first line are ignored. -/
def readBand (f : LaneFrame) (lineWidth : Nat) : Option BandLines :=
  let width := le16 f.payload 4
  if crcHolds f && f.kind == bandKind && decide (8 ≤ f.payload.length) && f.payload.length == 8 + 128 * width
      && width == lineWidth then
    some ⟨BitVec.ofNat 28 (le32 f.payload 0), cutLines width Config.bandLines (readSamples (f.payload.drop 8))⟩
  else none

/-! ### The state of a lane (R28) -/

/-- LANE_SIGNAL_FOUND (R28). -/
def execLaneSignalFound (lane : DeckId) (s : State) : StepResult :=
  if (s.deck lane).lane = .down then .next (s.moveLane lane .training .signalFound) else .next s

/-- LANE_TRAINED (R28). -/
def execLaneTrained (lane : DeckId) (s : State) : StepResult :=
  if (s.deck lane).lane = .training then .next (s.moveLane lane .up .trained) else .next s

/-- LANE_SIGNAL_LOST (R28, R30). The LANE_STATE notice comes before the REGISTRATION LOSS notice. DESIGN CHOICE (log 34), unsafe: R28 and R30
give the two no order; R29 gives this one for RETRAIN. -/
def execLaneSignalLost (lane : DeckId) (s : State) : StepResult :=
  match (s.deck lane).lane with
  | .down => .next s
  | .training => .next (s.moveLane lane .down .signalLost)
  | .up => .next ((s.moveLane lane .down .signalLost).laneLeavesUp lane)

/-! ### Lane parcels -/

/-- A SIGHTING parcel that reaches a deck that is scanning (R32, R35 to R45). -/
def State.takeSighting (s : State) (d : DeckId) (f : LaneFrame) : State :=
  match readSighting f, s.profileOf d with
  | some p, some pf => s.judgeSighting d pf p
  | _, _ => s

/-- A BAND parcel that reaches a deck that is scanning (R32, R46, R51). -/
def State.takeBand (s : State) (d : DeckId) (f : LaneFrame) : State :=
  match (s.profileOf d).bind fun pf => readBand f pf.lineWidth with
  | some b => (s.bandReaches d b.first).assignBand d b.first b.lines
  | none => s

/-- A MARK parcel that reaches a deck that is scanning: a LEADER clears the chain in ACQUIRE, a TAIL ends the scan (R18, R32, R33). -/
def State.takeMark (s : State) (d : DeckId) (f : LaneFrame) : State :=
  match readMark f with
  | some 1 => if (s.deck d).rgu.lock = .acquire then s.modRgu d fun r => { r with chain := 0, prev := none } else s
  | some 2 => s.endScan d
  | _ => s

/-- A parcel that has been read on lane d. One that the checks of R32 discard does nothing, and outside SCANNING none does anything. -/
def State.laneParcel (s : State) (d : DeckId) (f : LaneFrame) : State :=
  if (s.deck d).ctx.state ≠ .scanning then s
  else if f.kind = sightingKind then s.takeSighting d f
  else if f.kind = bandKind then s.takeBand d f
  else if f.kind = markKind then s.takeMark d f
  else s

/-- Bytes that arrive on lane d (R32, R199): while the lane is UP they join what is there, and the parcels they complete are read in their order;
otherwise they are ignored. -/
def State.laneArrive (s : State) (d : DeckId) (bytes : List Byte) : State :=
  let k := s.deck d
  if k.lane = .up then
    let all := k.intake ++ bytes
    let cut := cutLane (all.length + 1) all
    cut.frames.foldl (fun s f => s.laneParcel d f) (s.modDeck d fun k => { k with intake := cut.rest })
  else s

/-- SIGHTING (R32, R35 to R45, R199): the bytes that complete it arrive. -/
def execSighting (lane : DeckId) (bytes : List Byte) (s : State) : StepResult := .next (s.laneArrive lane bytes)

/-- BAND (R32, R46, R51, R199): the bytes that complete it arrive. -/
def execBand (lane : DeckId) (bytes : List Byte) (s : State) : StepResult := .next (s.laneArrive lane bytes)

/-- LEADER (R32, R33, R199): the bytes that complete it arrive. -/
def execLeader (lane : DeckId) (bytes : List Byte) (s : State) : StepResult := .next (s.laneArrive lane bytes)

/-- TAIL (R18, R32, R33, R199): the bytes that complete it arrive. -/
def execTail (lane : DeckId) (bytes : List Byte) (s : State) : StepResult := .next (s.laneArrive lane bytes)

/-- OVERLONG_LANE_HEADER (R199): the eight bytes of a header arrive, which is discarded with no notice when it announces more than the longest
parcel. -/
def execOverlongLaneHeader (lane : DeckId) (kind reserved : Byte) (length : Word32) (s : State) : StepResult :=
  .next (s.laneArrive lane ([0x96#8, 0x5B#8, kind, reserved] ++ put32 length.toNat))

/-- DISCARDED_LANE_PARCEL (R32, R199): the bytes that complete it arrive; no notice and no effect. -/
def execDiscardedLaneParcel (lane : DeckId) (bytes : List Byte) (s : State) : StepResult := .next (s.laneArrive lane bytes)

end Sys2Proof.Machine
end

