-- ==== Sys2Proof/Machine/Reads.lean ====
section
/-! DEFINITION. The meanings of the read requests: the reply with its count, and the content of every readout fixed at the take (R180).
-/

namespace Sys2Proof.Machine

/-- A deck number as a header byte (R197). -/
def deckByte (d : DeckId) : Byte := BitVec.ofNat 8 d.val

/-- The header byte of a report that concerns no deck (R197). -/
def noDeck : Byte := 0xFF#8

/-- The content of a CONTEXT readout (R26). -/
def State.contextReadout (s : State) (d : DeckId) : ContextReadout where
  ctx := (s.deck d).ctx
  sensors := (s.deck d).chan.sensors
  motion := (s.deck d).chan.motion
  outstanding := (s.deck d).chan.outstanding.map Outstanding.command
  waiting := (s.deck d).chan.waiting
  place := s.directivePlace d
  timeout := (s.deck d).chan.timeout
  mask := (s.deck d).chan.mask

/-- READ_CONTEXT (R26). -/
def execReadContext (s : State) : StepResult :=
  takeDeckRequest 0x0A (fun d p s => s.replyReadouts p [(p.deck, .context (s.contextReadout d))]) s

/-- Up to 16 entries of a list from an index on, each with its index (R87, R129). -/
def runFrom {α : Type} (xs : List α) (first : Nat) : List (Nat × α) :=
  ((xs.drop first).take Config.readoutRun).zipIdx.map fun (x, i) => (first + i, x)

/-- READ_SHOTS (R87). A one-byte index is never above 255. -/
def execReadShots (s : State) : StepResult :=
  takeDeckRequest 0x40 (fun d p s =>
    let t := (s.deck d).table
    s.replyReadouts p ((p.deck, .shotList t.shots.length t.fullNotice t.cues)
      :: (runFrom t.shots (byteAt p.body 0)).map fun (i, sh) => (p.deck, .shot i sh))) s

/-- READ_DEFECT_MAP (R129). -/
def execReadDefectMap (s : State) : StepResult :=
  takeDeckRequest 0x41 (fun d p s =>
    let first := le16 p.body 0
    let m := (s.deck d).map
    if Config.runRoom ≤ first then s.refuse p .range
    else
      s.replyReadouts p ((p.deck, .map m.reel m.runs.length m.full)
        :: (runFrom m.runs first).map fun (i, r) => (p.deck, .run i r))) s

/-- A position as a SHELF readout gives it (R161): the occupant, or the reel of the directive that names a RESERVED position. -/
def State.shelfEntry (s : State) (i : Nat) : ShelfEntry :=
  match s.shp.shelf[i]? with
  | none => ⟨0, .unavailable, none⟩
  | some pos =>
    let reel := match pos.state with
      | .occupied => pos.occupant
      | .reserved =>
        (s.shp.directives.find? fun dir => dir.position.map Fin.val == some i).bind s.directiveReel
      | .unavailable | .free => none
    ⟨pos.storageClass, pos.state, reel⟩

/-- The readout of 16 positions from a first position on (R161). -/
def State.shelfReadout (s : State) (first : Nat) : ReadoutBody :=
  .shelf first ((List.range 16).map fun k => s.shelfEntry (first + k))

/-- READ_SHELF (R161): four readouts of 16 positions. -/
def execReadShelf (s : State) : StepResult :=
  takeRequest 0x42 (fun p s =>
    let page := byteAt p.body 0
    if 32 ≤ page then s.refuse p .range
    else
      s.replyReadouts p ((List.range 4).map fun k => (noDeck, s.shelfReadout (Config.pageSize * page + 16 * k)))) s

/-- A waiting context as the QUEUE readout gives it (R172). -/
def State.waitingEntry (s : State) (d : DeckId) : WaitingEntry :=
  ⟨d, (s.deck d).ctx.score, (s.deck d).ctx.reel⟩

/-- READ_QUEUE (R172). A directive's place in the queue is counted from 0. DESIGN CHOICE (log 37), unsafe: the manual gives the count no
base. -/
def execReadQueue (s : State) : StepResult :=
  takeRequest 0x43 (fun p s =>
    s.replyReadouts p ((noDeck, .queue s.shp.directives.length (s.shp.waiting.map s.waitingEntry))
      :: s.shp.directives.zipIdx.map fun (dir, i) =>
        (deckByte dir.source, .directive i dir (s.directiveReel dir)))) s

end Sys2Proof.Machine
end

