-- ==== Sys2Proof/Machine/Layout.lean ====
section
/-! DEFINITION. The bytes of the upstream parcels (chapter 10): the enumerated codes, reports, picture parcels and trailers. -/

namespace Sys2Proof.Machine

/-! ### Codes (section 10.1) -/

/-- Context state. -/
def ContextState.code : ContextState → Nat
  | .empty => 0 | .loaded => 1 | .bound => 2 | .scanning => 3
  | .draining => 4 | .finished => 5 | .released => 6 | .aborted => 7

/-- Slot command. -/
def commandCode : SlotCommand → Nat
  | .lockGate => 0 | .unlockGate => 1 | .powerOn => 2 | .powerOff => 3 | .run => 4
  | .pause => 5 | .stop => 6 | .indicatorOff => 7 | .indicatorOn => 8 | .indicatorBlink => 9

/-- Command origin. -/
def Origin.code : Origin → Nat
  | .workstation => 0 | .context => 1 | .flow => 2

/-- Command result. -/
def CommandResult.code : CommandResult → Nat
  | .done => 0 | .fault => 1 | .failed => 2

/-- Motion mirror. -/
def Motion.code : Motion → Nat
  | .stopped => 0 | .paused => 1 | .running => 2

/-- Sensor. -/
def Sensor.code : Sensor → Nat
  | .present => 0 | .gateClosed => 1 | .attention => 2 | .powerFault => 3

/-- Lane state. -/
def LaneState.code : LaneState → Nat
  | .down => 0 | .training => 1 | .up => 2

/-- Cause of a lane state. -/
def LaneCause.code : LaneCause → Nat
  | .signalFound => 0 | .trained => 1 | .signalLost => 2 | .retrain => 3

/-- Registration event. -/
def RegistrationEvent.code : RegistrationEvent → Nat
  | .lock => 0 | .loss => 1 | .splice => 2

/-- Loss cause. -/
def LossCause.code : LossCause → Nat
  | .none => 0 | .coast => 1 | .lane => 2 | .numbers => 3

/-- Shot origin. -/
def ShotOrigin.code : ShotOrigin → Nat
  | .start => 0 | .splice => 1 | .relock => 2 | .cue => 3

/-- Shot state. -/
def ShotState.code : ShotState → Nat
  | .opened => 0 | .closed => 1 | .complete => 2

/-- A class set as its bits. -/
def ClassSet.bits (c : ClassSet) : Nat :=
  c.dust.toNat + 2 * c.scratch.toNat + 4 * c.blotch.toNat + 8 * c.perf.toNat + 16 * c.splice.toNat + 32 * c.gap.toNat

/-- Frame flags as their bits. -/
def FrameFlags.bits (f : FrameFlags) : Nat :=
  f.coasted.toNat + 2 * f.spurious.toNat + 4 * f.truncated.toNat + 8 * f.missingLines.toNat + 16 * f.aborted.toNat

/-- Predecessor. -/
def Fate.code : Fate → Nat
  | .none => 0 | .slotted => 1 | .overrun => 2 | .unrecorded => 3 | .discarded => 4

/-- Applied action. -/
def Action.code : Action → Nat
  | .pass => 0 | .concealTemporal => 1 | .concealSpatial => 2 | .holdPrevious => 3 | .mark => 4 | .lost => 5

/-- Shelf position state. -/
def PositionState.code : PositionState → Nat
  | .unavailable => 0 | .free => 1 | .reserved => 2 | .occupied => 3

/-- Directive phase. -/
def DirectivePhase.code : DirectivePhase → Nat
  | .onDeck => 0 | .inTransit => 1

/-- Directive event. -/
def DirectiveEvent.code : DirectiveEvent → Nat
  | .created => 0 | .positioned => 1 | .inTransit => 2 | .shelved => 3 | .cancelled => 4

/-- LINK_ERROR cause. -/
def LinkErrorCause.code : LinkErrorCause → Nat
  | .crc _ => 0 | .length _ => 1 | .kind _ => 2 | .overflow _ => 3 | .linkLost => 4

/-- Reply status (section 10.4). -/
def Status.code : Status → Nat
  | .ok => 0 | .busy => 1 | .badState => 2 | .range => 3 | .duplicate => 4 | .full => 5
  | .late => 6 | .inUse => 7 | .noPosition => 8 | .laneDown => 9 | .unknown => 10

/-! ### Fields that may be absent (R194) -/

/-- A reel id, 0 when absent. -/
def putReel (r : Option ReelId) : List Byte := put32 ((r.map BitVec.toNat).getD 0)

/-- An index in one byte, 0xFF when absent. -/
def putIndex {n : Nat} (i : Option (Fin n)) : List Byte := put8 ((i.map Fin.val).getD 255)

/-- A number in two bytes, 0xFFFF when absent. -/
def putWord (n : Option Nat) : List Byte := put16 (n.getD 65535)

/-- A signed byte. -/
def putSigned8 (v : Int) : List Byte := put8 (twosComplement 8 v)

/-- Reserved bytes and fields that a parcel does not carry. -/
def zeros (n : Nat) : List Byte := List.replicate n 0

/-- A slot command and its origin, both absent when there is none (section 10.4). -/
def putCommand (c : Option Command) : List Byte :=
  match c with
  | some c => put8 (commandCode c.cmd) ++ put8 c.origin.code
  | none => put8 255 ++ put8 255

/-! ### Replies and notices (section 10.4) -/

/-- The values of a reply. -/
def ReplyValues.bytes : ReplyValues → List Byte
  | .none => []
  | .count n => put16 n
  | .skipped n => put8 n
  | .trims a b c d e f => put8 a ++ put8 b ++ put8 c ++ put8 d ++ put8 e ++ put8 f

/-- The tag of a LINK_ERROR, with its presence. -/
def LinkErrorCause.tagBytes : LinkErrorCause → List Byte
  | .crc t | .length t | .kind t | .overflow t => put8 1 ++ [t]
  | .linkLost => put8 0 ++ put8 0

/-- The body of a notice. -/
def NoticeBody.bytes : NoticeBody → List Byte
  | .slotEvent sensor level => put8 sensor.code ++ putFlag level
  | .slotCommandDone cmd origin result => put8 (commandCode cmd) ++ put8 origin.code ++ put8 result.code
  | .contextState state reel => put8 state.code ++ zeros 3 ++ putReel reel
  | .laneState state cause => put8 state.code ++ put8 cause.code
  | .registration event cause position next =>
    put8 event.code ++ put8 cause.code ++ putFlag position.isSome ++ zeros 1
      ++ put32 ((position.map BitVec.toNat).getD 0) ++ put32 next
  | .shotClosed index shot reel =>
    put8 index ++ put8 shot.origin.code ++ putIndex shot.binding ++ putSigned8 shot.excursion ++ putReel reel
      ++ put32 shot.first ++ put32 (shot.last.getD 4294967295) ++ put32 shot.emitted
  | .shotTableFull opening frame => put8 opening.code ++ zeros 3 ++ put32 frame
  | .overrun recorded frame count => put8 (!recorded).toNat ++ zeros 3 ++ put32 frame ++ put32 count
  | .directive event dir reel =>
    put8 event.code ++ put8 dir.storageClass.val ++ put8 dir.phase.code ++ putFlag dir.interrupted ++ putReel reel
      ++ putWord (dir.position.map Fin.val) ++ put16 dir.score ++ put8 dir.maxShrink ++ zeros 1
  | .linkError cause => put8 cause.code ++ cause.tagBytes ++ zeros 1

/-! ### Readouts (section 10.4) -/

/-- The second byte of a CONTEXT readout. -/
def ContextReadout.levelBits (c : ContextReadout) : Nat :=
  c.ctx.gateLocked.toNat + 2 * c.ctx.powerOn.toNat + 4 * c.ctx.interrupted.toNat + 8 * c.ctx.planPending.toNat
    + 16 * c.sensors.present.toNat + 32 * c.sensors.gateClosed.toNat + 64 * c.sensors.attention.toNat
    + 128 * c.sensors.powerFault.toNat

/-- The 60 bytes of a CONTEXT readout. -/
def ContextReadout.bytes (c : ContextReadout) : List Byte :=
  put8 c.ctx.state.code ++ put8 c.levelBits ++ putIndex c.ctx.profile ++ putIndex c.ctx.defaultGrade
    ++ putReel c.ctx.reel ++ put32 c.ctx.nextFrame
    ++ put32 c.ctx.framesDecided ++ put32 c.ctx.splices ++ put32 c.ctx.perfFrames ++ put32 c.ctx.concealedTemporal
    ++ put32 c.ctx.concealedSpatial ++ put32 c.ctx.heldFrames ++ put32 c.ctx.markedFrames ++ put32 c.ctx.overrunFrames
    ++ putWord c.ctx.score ++ put8 c.ctx.maxShrink ++ putIndex c.ctx.storageClass ++ put8 (c.place.getD 255)
    ++ put8 c.motion.code ++ putCommand c.outstanding ++ putCommand c.waiting ++ put8 c.timeout.val ++ zeros 1
    ++ put16 c.mask.toNat ++ zeros 2

/-- A cue of a SHOT_LIST readout. -/
def Cue.bytes (c : Cue) : List Byte := put32 c.frame ++ putIndex c.grade ++ zeros 3

/-- A position of a SHELF readout. -/
def ShelfEntry.bytes (e : ShelfEntry) : List Byte :=
  put8 e.storageClass.val ++ put8 e.state.code ++ zeros 2 ++ putReel e.reel

/-- A waiting context of a QUEUE readout. -/
def WaitingEntry.bytes (e : WaitingEntry) : List Byte := put8 e.deck.val ++ zeros 1 ++ putWord e.score ++ putReel e.reel

/-- The readout type. -/
def ReadoutBody.code : ReadoutBody → Nat
  | .context _ => 1
  | .shotList _ _ _ => 2
  | .shot _ _ => 3
  | .map _ _ _ => 4
  | .run _ _ => 5
  | .shelf _ _ => 6
  | .queue _ _ => 7
  | .directive _ _ _ => 8

/-- The body of a readout. -/
def ReadoutBody.bytes : ReadoutBody → List Byte
  | .context c => c.bytes
  | .shotList shots full cues =>
    put16 shots ++ putFlag full ++ put8 cues.length ++ cues.flatMap Cue.bytes
  | .shot index sh =>
    put8 index ++ put8 sh.origin.code ++ put8 sh.state.code ++ putIndex sh.binding ++ putSigned8 sh.excursion ++ zeros 3
      ++ put32 sh.first ++ put32 (sh.last.getD 4294967295) ++ put32 sh.emitted
  | .map reel runs full => putReel reel ++ put16 runs ++ putFlag full ++ zeros 1
  | .run index r =>
    put16 index ++ put8 r.classes.bits ++ put8 r.action.code ++ put32 r.first ++ put16 r.count ++ zeros 2
  | .shelf first entries => put16 first ++ zeros 2 ++ entries.flatMap ShelfEntry.bytes
  | .queue directives waiting =>
    put8 directives ++ put8 waiting.length ++ zeros 2 ++ waiting.flatMap WaitingEntry.bytes
  | .directive place dir reel =>
    put8 place ++ put8 dir.storageClass.val ++ put8 dir.phase.code ++ putFlag dir.interrupted ++ putReel reel
      ++ putWord (dir.position.map Fin.val) ++ put16 dir.score ++ put8 dir.maxShrink ++ zeros 3

/-! ### Frame parcels (section 10.5) -/

/-- A graded sample. -/
def Rgb.bytes (x : Rgb) : List Byte := put16 x.r.toNat ++ put16 x.g.toNat ++ put16 x.b.toNat

/-- The payload of a picture parcel. -/
def Picture.payload (p : Picture) : List Byte :=
  put32 p.frame ++ put16 p.firstLine ++ put16 p.lines.length ++ p.lines.flatten.flatMap Rgb.bytes

/-- The fields from offset 30 of a FULL trailer: the measures, with the clip counts. -/
def measureBytes (m : Measures) (r : FrameRecord) : List Byte :=
  put8 m.scratchRun ++ put8 m.flaggedTiles ++ put32 m.totalArea ++ put16 m.maxTile ++ put16 m.offsetMag
    ++ put32 m.pitchDev ++ put8 m.coasted ++ zeros 3 ++ put32 m.shotPos ++ put32 r.clipHigh ++ put32 r.clipLow

/-- All measures zero, for a trailer whose record holds none. -/
def noMeasures : Measures := ⟨0, 0, 0, 0, 0, 0, 0, 0⟩

/-- The applied action of a record, 0xFF when absent (R194). -/
def actionByte (r : FrameRecord) : List Byte := put8 ((r.action.map Action.code).getD 255)

/-- The 60 bytes of a trailer, by its kind. -/
def Trailer.payload : Trailer → List Byte
  | .full _ reel r g =>
    putReel reel ++ put32 r.number ++ put32 r.boundary.toNat ++ put32 r.deviation ++ put16 (twosComplement 16 r.offset)
      ++ put16 r.lines ++ zeros 2 ++ put8 r.shot ++ put8 r.flags.bits ++ zeros 1 ++ put8 r.classes.bits
      ++ putIndex r.rule ++ actionByte r ++ [r.codes.getD 0] ++ put8 g.val ++ measureBytes (r.measures.getD noMeasures) r
  | .overrun _ reel r =>
    putReel reel ++ put32 r.number ++ put32 r.boundary.toNat ++ put32 r.deviation ++ put16 (twosComplement 16 r.offset)
      ++ zeros 4 ++ put8 r.shot ++ zeros 1 ++ put8 r.predecessor.code ++ put8 gapOnly.bits ++ put8 255
      ++ put8 Action.lost.code ++ zeros 1 ++ put8 255 ++ zeros 30
  | .aborted _ reel r sent =>
    putReel reel ++ put32 r.number ++ put32 r.boundary.toNat ++ zeros 6 ++ put16 r.lines ++ put16 sent ++ put8 r.shot
      ++ put8 r.flags.bits ++ zeros 1 ++ put8 r.classes.bits ++ putIndex r.rule ++ actionByte r ++ zeros 32

/-- The trailer kind. -/
def Trailer.code : Trailer → Nat
  | .full _ _ _ _ => 1
  | .overrun _ _ _ => 2
  | .aborted _ _ _ _ => 3

/-- The deck of a trailer. -/
def Trailer.deck : Trailer → DeckId
  | .full d _ _ _ => d
  | .overrun d _ _ => d
  | .aborted d _ _ _ => d

/-! ### Whole parcels (section 10.2) -/

/-- A parcel of the archive link: sync word, header, payload and CRC. -/
def parcelBytes (kind : Nat) (deck tag : Byte) (code : Nat) (payload : List Byte) : List Byte :=
  let covered := put8 kind ++ [deck, tag] ++ put8 code ++ put32 payload.length ++ payload
  [0x3C#8, 0xE1#8] ++ covered ++ put16 (crc16 covered).toNat

/-- The bytes of a report (R197). -/
def Report.bytes : Report → List Byte
  | .reply r => parcelBytes 4 r.deck r.tag 1 ([r.code] ++ put8 r.status.code ++ zeros 2 ++ r.values.bytes)
  | .notice n =>
    parcelBytes 4 ((n.deck.map deckByte).getD noDeck) 0 2
      (put8 n.body.kind ++ put8 n.repeats ++ putFlag n.droppedBefore ++ zeros 1 ++ n.body.bytes)
  | .readout r =>
    parcelBytes 4 r.deck r.tag 3 (put8 r.body.code ++ put8 r.sequence ++ zeros 2 ++ r.body.bytes)

/-- The bytes of a parcel on the upstream wire (R197, R198). -/
def UpParcel.bytes : UpParcel → List Byte
  | .report r => r.bytes
  | .picture p => parcelBytes 2 (deckByte p.deck) 0 0 p.payload
  | .trailer t => parcelBytes 3 (deckByte t.deck) 0 t.code t.payload

end Sys2Proof.Machine
end

