-- ==== Sys2Proof/Machine/Analysis.lean ====
section
/-! DEFINITION. The Damage Analyzer (chapter 5): tiles, measures, and the meanings of ANALYSIS_START and ANALYSIS_COMPLETE. -/

namespace Sys2Proof.Machine

/-! ### Tiles (section 5.2) -/

/-- What tiles are computed from: the frame's lines and the profile's figures. -/
structure TileGeometry where
  lines : Nat
  width : Nat
  irLimit : Nat
  flagLimit : Nat
  deriving DecidableEq, Repr

/-- The geometry of a frame under a profile (R93 to R95). -/
def tileGeometry (pf : Profile) (lines : Nat) : TileGeometry := ⟨lines, pf.lineWidth, pf.irLimit, pf.tileFlagLimit⟩

/-- The first line of tile row r (R93). -/
def TileGeometry.rowStart (g : TileGeometry) (r : Nat) : Nat := r * g.lines / 8

/-- The first sample of tile column c (R93). -/
def TileGeometry.columnStart (g : TileGeometry) (c : Nat) : Nat := c * g.width / 8

/-- A sample is dark: its IR code is below irLimit (R94, R120). -/
def darkSample (irLimit : Nat) (x : Sample) : Bool := decide (x.ir.toNat < irLimit)

/-- The dark samples of one line in one tile column. -/
def TileGeometry.darkInColumn (g : TileGeometry) (line : Line) (c : Nat) : Nat :=
  ((line.drop (g.columnStart c)).take (g.columnStart (c + 1) - g.columnStart c)).countP (darkSample g.irLimit)

/-- The area of the tile in row r and column c (R94). -/
def TileGeometry.area (g : TileGeometry) (m : SlotMem) (r c : Nat) : Nat :=
  let rows := List.range' (g.rowStart r) (g.rowStart (r + 1) - g.rowStart r)
  min (rows.map fun i => g.darkInColumn (SlotMem.line m g.width i) c).sum 65535

/-- The 64 areas, row by row (R93). -/
def TileGeometry.areas (g : TileGeometry) (m : SlotMem) : List (List Nat) :=
  (List.range 8).map fun r => (List.range 8).map fun c => g.area m r c

/-- Tile areas as flags (R95). -/
def TileGeometry.flags (g : TileGeometry) (areas : List (List Nat)) : List (List Bool) :=
  areas.map fun row => row.map fun a => decide (g.flagLimit ≤ a)

/-! ### Measures (section 5.3) -/

/-- The longest run of yes in a list, with the run that stands before it (R96). -/
def longestRun : Nat → List Bool → Nat
  | run, [] => run
  | run, true :: rest => longestRun (run + 1) rest
  | run, false :: rest => max run (longestRun 0 rest)

/-- One column of a grid. -/
def column (grid : List (List Bool)) (c : Nat) : List Bool := grid.map fun row => row.getD c false

/-- The longest run of flagged tiles in consecutive rows of one column (R96). -/
def scratchRun (flags : List (List Bool)) : Nat :=
  ((List.range 8).map fun c => longestRun 0 (column flags c)).foldl max 0

/-- SHOT_POS: the frame number less the first frame of the frame's shot (R97). -/
def Deck.shotPosition (k : Deck) (r : FrameRecord) : Nat :=
  match k.table.shots[r.shot]? with
  | some sh => r.number - sh.first
  | none => 0

/-- The eight measures of a frame (R96, R97). -/
def measuresOf (g : TileGeometry) (m : SlotMem) (r : FrameRecord) (shotPos : Nat) : Measures :=
  let areas := g.areas m
  let flags := g.flags areas
  { totalArea := min areas.flatten.sum Config.max24
    maxTile := areas.flatten.foldl max 0
    scratchRun := scratchRun flags
    flaggedTiles := flags.flatten.countP id
    offsetMag := r.offset.natAbs
    pitchDev := r.deviation
    coasted := r.flags.coasted.toNat
    shotPos := shotPos }

/-! ### The commands -/

/-- ANALYSIS_START (R89): the idle Damage Analyzer takes the head of its queue. -/
def execAnalysisStart (s : State) : StepResult :=
  match s.dan.active, s.dan.queue with
  | none, head :: rest => .next (s.modDan fun a => { a with active := some head, queue := rest })
  | _, _ => .next s

/-- The content of the slot that a record holds. -/
def DeckStore.content (k : DeckStore) (r : FrameRecord) : SlotMem :=
  match r.slot with
  | some i => k.slots[i].mem
  | none => []

/-- The origin of the record's shot is SPLICE (R100). -/
def Deck.shotSpliced (k : Deck) (r : FrameRecord) : Bool :=
  match k.table.shots[r.shot]? with
  | some sh => sh.origin == .splice
  | none => false

/-- A record with the results of its analysis, ANALYZED (R90, R98 to R101, R105). -/
def Deck.analyzed (k : Deck) (pf : Profile) (cs : Vector Comparator 8) (r : FrameRecord) : FrameRecord :=
  let m := measuresOf (tileGeometry pf r.lines) (k.store.content r) r (k.shotPosition r)
  { r with
    measures := some m
    codes := some (conditionCodes cs m)
    classes := analysisClasses pf m r.flags r.predecessor (k.firstOfShot r) (k.shotSpliced r)
    phase := .analyzed }

/-- The results written into the record, and the examinations of the frame and its predecessor (R90, R107). -/
def State.finishAnalysis (s : State) (f : FrameRef) (pf : Profile) : State :=
  let k := s.deck f.deck
  match k.store.find f.frame with
  | some r =>
    if r.phase = .captured then
      let s := s.modStore f.deck fun st => st.update f.frame fun r => k.analyzed pf s.dan.comparators r
      (s.decideExam f.deck f.frame).decideExamBefore f.deck f.frame
    else s
  | none => s

/-- ANALYSIS_COMPLETE (R90): the analysis in progress is over; its results are dropped when the record has gone. -/
def execAnalysisComplete (s : State) : StepResult :=
  match s.dan.active with
  | none => .next s
  | some f =>
    match s.profileOf f.deck with
    | none => .next s
    | some pf => .next ((s.modDan fun a => { a with active := none }).finishAnalysis f pf)

end Sys2Proof.Machine
end

