-- ==== Sys2Proof/Machine/Repair.lean ====
section
/-! DEFINITION. The Repair Engine (chapter 6): decisions, repairs, the defect map, and the meanings of DECISION and REPAIR_END. -/

namespace Sys2Proof.Machine

/-! ### Choosing an action (sections 6.3, 6.4) -/

/-- The shot table holds a shot of origin SPLICE whose first frame is n (R102). -/
def ShotTable.spliceAt (t : ShotTable) (n : Nat) : Bool := t.shots.any fun sh => sh.first == n && sh.origin == .splice

/-- The final class set of a record (R102, R112). -/
def Deck.finalClasses (k : Deck) (r : FrameRecord) : ClassSet :=
  { r.classes with splice := r.classes.splice || k.table.spliceAt (r.number + 1) }

/-- The first entry that matches, with its index (R112). -/
def matchedRule (rules : Vector Rule 32) (classes : ClassSet) (codes : Byte) : Option (Fin 32) :=
  (List.finRange 32).find? fun i => rules[i].matchesFrame classes codes

/-- Frame n lies in the shot's span (R72). -/
def Shot.spans (sh : Shot) (n : Nat) : Bool := decide (sh.first ≤ n) && (sh.last.map fun l => decide (n ≤ l)).getD true

/-- The record for n can be read as a neighbour of record r: it is in the queue with a slot, not OVERRUN, and n lies in the shot of r
(R114, R115). -/
def Deck.usable (k : Deck) (r : FrameRecord) (n : Nat) : Bool :=
  ((k.store.find n).map fun q => q.slot.isSome && q.phase != .overrun).getD false
  && ((k.table.shots[r.shot]?).map fun sh => sh.spans n).getD false

/-- The previous frame is usable; frame 0 has none (R114, R115). -/
def Deck.previousUsable (k : Deck) (r : FrameRecord) : Bool := r.number != 0 && k.usable r (r.number - 1)

/-- The action is feasible for the record with its final class set (R114, R115, R116). -/
def Deck.feasible (k : Deck) (r : FrameRecord) (classes : ClassSet) : Action → Bool
  | .concealTemporal => k.previousUsable r && k.usable r (r.number + 1) && !classes.gap
  | .holdPrevious => k.previousUsable r && !classes.gap
  | .pass | .concealSpatial | .mark | .lost => true

/-- A decision: the final class set, the rule index and the applied action (R112, R113, R116). -/
structure Decision where
  classes : ClassSet
  rule : Option (Fin 32)
  action : Action
  deriving DecidableEq, Repr

/-- The decision of a record (R112 to R116). -/
def Deck.decision (k : Deck) (rules : Vector Rule 32) (r : FrameRecord) : Decision :=
  let classes := k.finalClasses r
  let codes := r.codes.getD 0
  match matchedRule rules classes codes with
  | none => ⟨classes, none, .pass⟩
  | some i =>
    let chosen := rules[i].chosen codes
    ⟨classes, some i, if k.feasible r classes chosen then chosen else rules[i].fallback⟩

/-! ### The decision (section 6.5) -/

/-- The reel counters raised for a decision (R118). -/
def ReelContext.countDecision (c : ReelContext) (dec : Decision) : ReelContext :=
  let c := { c with
    framesDecided := inc24 c.framesDecided
    perfFrames := if dec.classes.perf then inc24 c.perfFrames else c.perfFrames }
  match dec.action with
  | .concealTemporal => { c with concealedTemporal := inc24 c.concealedTemporal }
  | .concealSpatial => { c with concealedSpatial := inc24 c.concealedSpatial }
  | .holdPrevious => { c with heldFrames := inc24 c.heldFrames }
  | .mark => { c with markedFrames := inc24 c.markedFrames }
  | .pass | .lost => c

/-- A record decided, REPAIRING (R117). -/
def FrameRecord.decided (r : FrameRecord) (dec : Decision) : FrameRecord :=
  { r with classes := dec.classes, rule := dec.rule, action := some dec.action, phase := .repairing }

/-- The head of the decision queue is decided; a decision whose record has gone is dropped (R117). -/
def State.decideHead (s : State) (f : FrameRef) : State :=
  let k := s.deck f.deck
  match k.store.find f.frame with
  | some r =>
    if r.phase = .analyzed then
      let dec := k.decision s.rpe.rules r
      let s := s.modStore f.deck fun st => st.update f.frame fun r => r.decided dec
      let s := s.modCtx f.deck fun c => c.countDecision dec
      (s.modRpe fun e => { e with active := some f }).decideExam f.deck (f.frame + 1)
    else s
  | none => s

/-- DECISION (R109, R112 to R118). The repair ends in a REPAIR_END of its own, also for PASS and MARK. DEDUCED (log 23), safe. -/
def execDecision (s : State) : StepResult :=
  match s.rpe.active, s.rpe.queue with
  | none, head :: rest => .next ((s.modRpe fun e => { e with queue := rest }).decideHead head)
  | _, _ => .next s

/-! ### Repair (section 6.6) -/

/-- The tile row of a line (R93). -/
def TileGeometry.rowOf (g : TileGeometry) (i : Nat) : Nat :=
  ((List.range 8).find? fun r => decide (g.rowStart r ≤ i) && decide (i < g.rowStart (r + 1))).getD 0

/-- The tile column of a sample (R93). -/
def TileGeometry.columnOf (g : TileGeometry) (j : Nat) : Nat :=
  ((List.range 8).find? fun c => decide (g.columnStart c ≤ j) && decide (j < g.columnStart (c + 1))).getD 0

/-- The mean of two codes, floor((a + b + 1) / 2) (R121, R122). -/
def meanCode (a b : Word16) : Word16 := BitVec.ofNat 16 ((a.toNat + b.toNat + 1) / 2)

/-- The value that a dark sample takes from its two sources (R121, R122). -/
def blend (irLimit : Nat) (own : Sample) (a b : Option Sample) : Sample :=
  let ir : Word16 := BitVec.ofNat 16 irLimit
  match a, b with
  | some a, some b => ⟨meanCode a.r b.r, meanCode a.g b.g, meanCode a.b b.b, ir⟩
  | some a, none => { a with ir := ir }
  | none, some b => { b with ir := ir }
  | none, none => own

/-- For each sample of a line, the nearest clean sample before it (R122). -/
def nearestBefore (irLimit : Nat) : Option Sample → Line → List (Option Sample)
  | _, [] => []
  | near, x :: rest => near :: nearestBefore irLimit (if darkSample irLimit x then near else some x) rest

/-- For each sample of a line, the nearest clean sample after it (R122). -/
def nearestAfter (irLimit : Nat) (l : Line) : List (Option Sample) := (nearestBefore irLimit none l.reverse).reverse

/-- The samples of a neighbour's line, absent at or above its line count (R121). -/
def neighbourLine (width : Nat) (neighbour : Option (SlotMem × Nat)) (i : Nat) : List (Option Sample) :=
  match neighbour with
  | some (m, lines) => if i < lines then (SlotMem.line m width i).map some else []
  | none => []

/-- One line concealed: the dark samples of flagged tiles take their blend (R120). -/
def concealLine (g : TileGeometry) (flags : List Bool) (own : Line) (a b : List (Option Sample)) : Line :=
  own.zipIdx.map fun (x, j) =>
    if darkSample g.irLimit x && flags.getD (g.columnOf j) false then
      blend g.irLimit x ((a[j]?).getD none) ((b[j]?).getD none)
    else x

/-- The content after a concealment, whose two sources for each line are given; every value is read from the starting content
(R120). -/
def conceal (g : TileGeometry) (m : SlotMem) (sources : Nat → Line → List (Option Sample) × List (Option Sample)) :
    SlotMem :=
  let flags := g.flags (g.areas m)
  (List.range g.lines).foldl (fun acc i =>
    let own := SlotMem.line m g.width i
    let src := sources i own
    SlotMem.write acc i (concealLine g (flags.getD (g.rowOf i) []) own src.1 src.2)) m

/-- CONCEAL_SPATIAL (R122). -/
def concealSpatial (g : TileGeometry) (m : SlotMem) : SlotMem :=
  conceal g m fun _ own => (nearestBefore g.irLimit none own, nearestAfter g.irLimit own)

/-- CONCEAL_TEMPORAL (R121), from the contents and line counts of the frames on either side. -/
def concealTemporal (g : TileGeometry) (m : SlotMem) (prev next : Option (SlotMem × Nat)) : SlotMem :=
  conceal g m fun i _ => (neighbourLine g.width prev i, neighbourLine g.width next i)

/-- HOLD_PREVIOUS (R123): the lines below the previous frame's count are replaced by its lines. -/
def holdPrevious (m prev : SlotMem) (lines : Nat) : SlotMem :=
  (prev.filter fun e => decide (e.1 < lines)) ++ (m.filter fun e => decide (lines ≤ e.1))

/-- The content and line count of the record for n, when it is in the queue. -/
def DeckStore.picture (k : DeckStore) (n : Nat) : Option (SlotMem × Nat) := (k.find n).map fun r => (k.content r, r.lines)

/-- The content and line count of the frame before n. -/
def DeckStore.pictureBefore (k : DeckStore) (n : Nat) : Option (SlotMem × Nat) :=
  if n = 0 then none else k.picture (n - 1)

/-- The content and line count of a record after its repair (R119, R121, R122, R123). -/
def DeckStore.repaired (k : DeckStore) (pf : Profile) (r : FrameRecord) : SlotMem × Nat :=
  let m := k.content r
  let g := tileGeometry pf r.lines
  match r.action with
  | some .concealTemporal => (concealTemporal g m (k.pictureBefore r.number) (k.picture (r.number + 1)), r.lines)
  | some .concealSpatial => (concealSpatial g m, r.lines)
  | some .holdPrevious =>
    match k.pictureBefore r.number with
    | some (prev, lines) => (holdPrevious m prev lines, lines)
    | none => (m, r.lines)
  | some .pass | some .mark | some .lost | none => (m, r.lines)

/-- The repair of a record written into its slot, and the record READY (R119). DEDUCED (log 24), safe: the content is written at the
end of the repair. -/
def DeckStore.finishRepair (k : DeckStore) (pf : Profile) (r : FrameRecord) : DeckStore :=
  let out := k.repaired pf r
  let k' := match r.slot with
    | some i => k.modSlot i fun sl => { sl with mem := out.1 }
    | none => k
  k'.update r.number fun r => { r with phase := .ready, lines := out.2 }

/-- REPAIR_END (R119): the record becomes READY, which examines the frame before it for slot release (R67), and the engine is idle. -/
def execRepairEnd (s : State) : StepResult :=
  match s.rpe.active with
  | none => .next s
  | some f =>
    match s.profileOf f.deck with
    | none => .next s
    | some pf =>
      let s := s.modRpe fun e => { e with active := none }
      match (s.deck f.deck).store.find f.frame with
      | some r =>
        if r.phase = .repairing then
          .next ((s.modStore f.deck fun k => k.finishRepair pf r).releaseExamBefore f.deck f.frame)
        else .next s
      | none => .next s

/-! ### The defect map (section 6.7) -/

/-- A frame extends the last run of a map (R126). -/
def Run.extends (run : Run) (n : Nat) (classes : ClassSet) (action : Action) : Bool :=
  n == run.first + run.count && run.classes == classes && run.action == action && decide (run.count < Config.runCountMax)

/-- A frame entered in the map (R125 to R127). -/
def DefectMap.enter (m : DefectMap) (n : Nat) (classes : ClassSet) (action : Action) : DefectMap :=
  if classes.isEmpty || m.full then m
  else
    match m.runs.getLast? with
    | some run =>
      if run.extends n classes action then { m with runs := m.runs.dropLast ++ [{ run with count := run.count + 1 }] }
      else if m.runs.length < Config.runRoom then { m with runs := m.runs ++ [⟨n, 1, classes, action⟩] }
      else { m with full := true }
    | none => { m with runs := [⟨n, 1, classes, action⟩] }

end Sys2Proof.Machine
end

