-- ==== Sys2Proof/Machine/Grading.lean ====
section
/-! DEFINITION. The Grade Engine's arithmetic (sections 7.4 to 7.7): lift, gain, clamping, clip counting and the curve. -/

namespace Sys2Proof.Machine

/-- The effective lift (R141). -/
def ChannelGrade.effectiveLift (c : ChannelGrade) : Int := c.lift + ((c.liftTrim : Int) - 8) * 64

/-- The effective gain mantissa (R142). -/
def ChannelGrade.effectiveGain (c : ChannelGrade) : Int := clampInt 0 4095 (c.mantissa + ((c.gainTrim : Int) - 8) * 16)

/-- The shift of a shift mode (R143). -/
def ChannelGrade.shift (c : ChannelGrade) : Nat := 8 + c.mode

/-- The gained sample before the clamp (R141, R144). -/
def ChannelGrade.gained (c : ChannelGrade) (x : Nat) : Int :=
  floorDiv ((x + c.effectiveLift) * c.effectiveGain + (2 ^ (c.shift - 1) : Nat)) (2 ^ c.shift)

/-- The clamped sample (R145). -/
def clampSample (g : Int) : Nat := (clampInt 0 65535 g).toNat

/-- The output of a curve (R147). -/
def Curve.output (knots : Curve) (g : Nat) : Int :=
  let seg := g / 2048
  let frac := g - 2048 * seg
  let k0 : Int := ((knots[seg]?).map BitVec.toNat).getD 0
  let k1 : Int := ((knots[seg + 1]?).map BitVec.toNat).getD 0
  k0 + floorDiv ((k1 - k0) * frac + 1024) 2048

/-- The graded code of a clamped sample (R147, R148). -/
def finish (curve : Option Curve) (g : Nat) : Word16 :=
  match curve with
  | some knots => BitVec.ofInt 16 (Curve.output knots g)
  | none => BitVec.ofNat 16 g

/-- A graded channel value with its clip counts: high and low, each 0 or 1 (R145). -/
structure Graded where
  code : Word16
  high : Nat
  low : Nat
  deriving DecidableEq, Repr

/-- One channel value graded (R141 to R148). -/
def ChannelGrade.grade (c : ChannelGrade) (curve : Option Curve) (x : Word16) : Graded :=
  let g := c.gained x.toNat
  ⟨finish curve (clampSample g), if 65535 < g then 1 else 0, if g < 0 then 1 else 0⟩

/-- One sample graded in its three channels; IR is not read (R139). -/
def Snapshot.gradeSample (n : Snapshot) (x : Sample) : Rgb × Nat × Nat :=
  let r := n.record.r.grade n.curve x.r
  let g := n.record.g.grade n.curve x.g
  let b := n.record.b.grade n.curve x.b
  (⟨r.code, g.code, b.code⟩, r.high + g.high + b.high, r.low + g.low + b.low)

/-- The running counts raised, saturating at 16,777,215 (R145). -/
def Snapshot.count (n : Snapshot) (high low : Nat) : Snapshot :=
  { n with high := min (n.high + high) Config.max24, low := min (n.low + low) Config.max24 }

/-- Lines graded, with the snapshot as the counting leaves it (R139, R145). -/
def Snapshot.gradeLines (n : Snapshot) (lines : List Line) : List (List Rgb) × Snapshot :=
  let graded := lines.map fun l => l.map n.gradeSample
  (graded.map fun l => l.map Prod.fst,
    n.count (graded.flatten.map fun x => x.2.1).sum (graded.flatten.map fun x => x.2.2).sum)

/-- The clip findings of a record against the snapshot's clip limit (R150). -/
def Snapshot.findings (n : Snapshot) (high low : Nat) : Bool × Bool :=
  (decide (n.record.clipLimit < high), decide (n.record.clipLimit < low))

/-- The snapshot of a grant (R135). -/
def Gre.snapshotOf (g : Gre) (d : DeckId) (n : Nat) (index : Fin 64) : Snapshot :=
  let record := g.grades[index]
  ⟨d, n, index, record, record.curve.map fun i => g.curves[i], 0, 0⟩

end Sys2Proof.Machine
end

