-- ==== Sys2Proof/Machine/Emission.lean ====
section
/-! DEFINITION. The upstream wire (sections 9.6 and 9.7): reports, the emission arbiter, picture parcels and trailers. A frame parcel begins
in the command that first makes it possible. DEDUCED (log 4), unsafe. -/

namespace Sys2Proof.Machine

/-! ### Frame parcels begin -/

/-- The arbiter's suspension (R187). -/
def Ali.suspended (a : Ali) : Bool := a.workstationHalt || a.link != .up

/-- A frame parcel may begin: the wire is idle, emission is not suspended, and no report is queued or waits to join
(R182, R187; log 28). -/
def Ali.frameMayBegin (a : Ali) : Bool := a.wire.isNone && !a.suspended && a.queue.isEmpty && a.readouts.isEmpty

/-- Lines k*16 up to the parcel's last, as the slot holds them (R188). -/
def pictureLines (m : SlotMem) (width lines k : Nat) : List Line :=
  (List.range' (Config.bandLines * k) (min Config.bandLines (lines - Config.bandLines * k))).map (SlotMem.line m width)

/-- A picture parcel begins: its lines are graded as it is formed (R139, R188). -/
def State.beginPicture (s : State) (e : Emission) (n : Snapshot) : State :=
  let k := s.deck e.deck
  let m := (k.store.find e.frame).map k.store.content |>.getD []
  let width := (s.profileOf e.deck).map Profile.lineWidth |>.getD 0
  let graded := n.gradeLines (pictureLines m width e.lines e.next)
  (s.modGre fun g => { g with snapshot := some graded.2 }).modAli fun a =>
    { a with
      wire := some (.picture ⟨e.deck, e.frame, Config.bandLines * e.next, graded.1⟩)
      emission := some { e with next := e.next + 1, sending := true } }

/-- A trailer of the emission begins. -/
def State.beginTrailer (s : State) (e : Emission) (t : Trailer) : State :=
  s.modAli fun a => { a with wire := some (.trailer t), emission := some { e with sending := true } }

/-- The next parcel of the frame being emitted begins (R188, R189, R190). -/
def State.beginNext (s : State) (e : Emission) : State :=
  let k := s.deck e.deck
  if e.sending then s
  else
    match k.store.find e.frame, s.gre.snapshot with
    | some r, some n =>
      if e.overrun then s.beginTrailer e (.overrun e.deck k.ctx.reel r)
      else if Config.bandLines * e.next < e.lines then s.beginPicture e n
      else s.beginTrailer e (.full e.deck k.ctx.reel r n.index)
    | some r, none => if e.overrun then s.beginTrailer e (.overrun e.deck k.ctx.reel r) else s
    | none, _ => s

/-- The next frame parcel begins when it may: a waiting aborted trailer first, else the next parcel of the emission
(R182, R187, R191). -/
def State.beginFrameParcel (s : State) : State :=
  if s.ali.frameMayBegin then
    match s.ali.aborted, s.ali.emission with
    | some w, _ =>
      s.modAli fun a =>
        { a with wire := some (.trailer (.aborted w.deck w.reel w.record w.linesSent)), aborted := none }
    | none, some e => s.beginNext e
    | none, none => s
  else s

/-! ### Reports -/

/-- READOUT_JOIN (R180): the first waiting readout joins when the queue has a free entry. -/
def execReadoutJoin (s : State) : StepResult :=
  match s.ali.readouts with
  | r :: rest =>
    if s.ali.queue.length < Config.reportRoom then
      .next (s.modAli fun a => { a with queue := a.queue ++ [.readout r], readouts := rest })
    else .next s
  | [] => .next s

/-- REPORT_SEND (R182): the head of the queue leaves it and its sending begins. -/
def execReportSend (s : State) : StepResult :=
  match s.ali.queue, s.ali.wire with
  | r :: rest, none =>
    if s.ali.link = .up then .next (s.modAli fun a => { a with queue := rest, wire := some (.report r) }) else .next s
  | _, _ => .next s

/-- The parcel on the wire has been sent whole. -/
def Ali.completeParcel (a : Ali) (p : UpParcel) : Ali := { a with wire := none, sent := .parcel p :: a.sent }

/-- REPORT_PARCEL_SENT (R182): the wire is idle, and a frame parcel may begin. -/
def execReportParcelSent (s : State) : StepResult :=
  match s.ali.wire with
  | some (.report r) =>
    if s.ali.link = .up then .next ((s.modAli fun a => a.completeParcel (.report r)).beginFrameParcel) else .next s
  | _ => .next s

/-! ### The grant (R186) -/

/-- The deck's eligible record: its lowest-numbered record that is not EMITTED, when it is READY or OVERRUN (R186). -/
def DeckStore.eligible (k : DeckStore) : Option FrameRecord :=
  match k.records.find? fun r => r.phase != .emitted with
  | some r => if r.phase = .ready || r.phase = .overrun then some r else none
  | none => none

/-- The decks in turn, starting after the one last granted (R186). -/
def decksAfter (d : DeckId) : List DeckId := [d + 1, d + 2, d + 3, d]

/-- The deck and record that the arbiter grants (R186). -/
def State.nextGrant (s : State) : Option (DeckId × FrameRecord) :=
  (decksAfter s.ali.lastGranted).findSome? fun d => ((s.deck d).store.eligible).map fun r => (d, r)

/-- An aborted trailer is being sent (R191: the arbiter grants nothing until it has gone). -/
def Ali.abortedOnWire (a : Ali) : Bool :=
  match a.wire with
  | some (.trailer (.aborted _ _ _ _)) => true
  | _ => false

/-- The arbiter may grant (R186). -/
def Ali.mayGrant (a : Ali) : Bool := !a.suspended && a.emission.isNone && a.aborted.isNone && !a.abortedOnWire

/-- The running clip counts written into the record (R149). -/
def State.writeClipCounts (s : State) (d : DeckId) (n : Nat) : State :=
  match s.gre.snapshot with
  | some q => s.modStore d fun k => k.update n fun r => { r with clipHigh := q.high, clipLow := q.low }
  | none => s

/-- The grant of a record (R86, R135, R149, R186). -/
def State.grant (s : State) (d : DeckId) (r : FrameRecord) : State :=
  let full := decide (r.phase = .ready)
  let s := s.modAli fun a =>
    { a with emission := some ⟨d, r.number, !full, r.lines, 0, 0, false, false⟩, lastGranted := d }
  if full then
    let g := (s.deck d).resolveGrade r
    let s := s.modStore d fun k => k.update r.number fun r => { r with phase := .emitting }
    let s := s.modGre fun e => { e with snapshot := some (e.snapshotOf d r.number g) }
    if r.lines = 0 then s.writeClipCounts d r.number else s
  else s

/-- GRANT (R186). -/
def execGrant (s : State) : StepResult :=
  if s.ali.mayGrant then
    match s.nextGrant with
    | some (d, r) => .next (s.grant d r).beginFrameParcel
    | none => .next s
  else .next s

/-! ### Parcels sent -/

/-- The lines of a picture parcel that was sent count for the frame being emitted, or for the aborted trailer that waits
(R191, R198). -/
def Ali.countLines (a : Ali) (lines : Nat) : Ali :=
  match a.emission, a.aborted with
  | some e, _ =>
    if e.sending then { a with emission := some { e with linesSent := e.linesSent + lines, sending := false } } else a
  | none, some w =>
    match w.inFlight with
    | some n => { a with aborted := some { w with linesSent := w.linesSent + n, inFlight := none } }
    | none => a
  | none, none => a

/-- After the last picture parcel of the emission, the clip counts are written (R149, R188). -/
def State.afterPicture (s : State) (was : Option Emission) : State :=
  match was with
  | some e =>
    if e.sending && decide (e.lines ≤ Config.bandLines * e.next) then s.writeClipCounts e.deck e.frame else s
  | none => s

/-- PICTURE_PARCEL_SENT (R188). -/
def execPictureParcelSent (s : State) : StepResult :=
  match s.ali.wire with
  | some (.picture p) =>
    if s.ali.link = .up then
      let was := s.ali.emission
      .next (((s.modAli fun a => (a.completeParcel (.picture p)).countLines p.lines.length).afterPicture
        was).beginFrameParcel)
    else .next s
  | _ => .next s

/-- The shot of an emitted frame accounted and examined (R80, R189 step 2). -/
def State.accountShot (s : State) (d : DeckId) (r : FrameRecord) : State :=
  match s.gre.snapshot with
  | some n =>
    let f := n.findings r.clipHigh r.clipLow
    (s.modTable d fun t => t.modShot r.shot fun sh => sh.account f.1 f.2).completeExam d r.shot
  | none => s

/-- The emission ends, and the snapshot is EMPTY (R189 step 4). -/
def State.endEmission (s : State) : State :=
  (s.modGre fun g => { g with snapshot := none }).modAli fun a => { a with emission := none }

/-- What follows the sending of a FULL trailer, in the order of R189. DEDUCED (log 27), safe. -/
def State.fullSent (s : State) (e : Emission) : State :=
  match (s.deck e.deck).store.find e.frame with
  | some r =>
    if r.phase = .emitting then
      let s := s.modStore e.deck fun k => k.update e.frame fun r => { r with phase := .emitted }
      let s := (s.releaseExam e.deck e.frame).releaseExamBefore e.deck e.frame
      let s := s.accountShot e.deck r
      let s := s.modMap e.deck fun m => m.enter r.number r.classes (r.action.getD .pass)
      s.endEmission
    else s.endEmission
  | none => s.endEmission

/-- FULL_TRAILER_SENT (R189; R191 for a voided trailer; R192 for one that outlived a soft reset). -/
def execFullTrailerSent (s : State) : StepResult :=
  match s.ali.wire with
  | some (.trailer (.full d reel r g)) =>
    if s.ali.link = .up then
      let was := s.ali.emission
      let s := s.modAli fun a => a.completeParcel (.trailer (.full d reel r g))
      let s := match was with
        | some e => if !e.sending then s else if e.voided then s.endEmission else s.fullSent e
        | none => s
      .next s.beginFrameParcel
    else .next s
  | _ => .next s

/-- What follows the sending of an OVERRUN trailer, in the order of R190. -/
def State.overrunSent (s : State) (e : Emission) : State :=
  match (s.deck e.deck).store.find e.frame with
  | some r =>
    let s := (s.dropRecord e.deck e.frame).emptyHandoff e.deck
    let s := s.modMap e.deck fun m => m.enter r.number gapOnly .lost
    let s := s.completeExam e.deck r.shot
    s.modAli fun a => { a with emission := none }
  | none => s.modAli fun a => { a with emission := none }

/-- OVERRUN_TRAILER_SENT (R190; R191 for a voided trailer; R192 for one that outlived a soft reset). -/
def execOverrunTrailerSent (s : State) : StepResult :=
  match s.ali.wire with
  | some (.trailer (.overrun d reel r)) =>
    if s.ali.link = .up then
      let was := s.ali.emission
      let s := s.modAli fun a => a.completeParcel (.trailer (.overrun d reel r))
      let s := match was with
        | some e =>
          if !e.sending then s
          else if e.voided then s.modAli fun a => { a with emission := none }
          else s.overrunSent e
        | none => s
      .next s.beginFrameParcel
    else .next s
  | _ => .next s

/-- ABORTED_TRAILER_SENT (R191): nothing but the trailer's going. -/
def execAbortedTrailerSent (s : State) : StepResult :=
  match s.ali.wire with
  | some (.trailer (.aborted d reel r n)) =>
    if s.ali.link = .up then
      .next ((s.modAli fun a => a.completeParcel (.trailer (.aborted d reel r n))).beginFrameParcel)
    else .next s
  | _ => .next s

end Sys2Proof.Machine
end

