-- ==== Sys2Proof/Machine/Link.lean ====
section
/-! DEFINITION. The archive link, downstream: framing (R174, R195), the input buffer (R177), flow symbols (R175), the link state (R176),
and the take of a parcel that names no request (R179). -/

namespace Sys2Proof.Machine

/-! ### Framing -/

/-- The downstream byte stream from the next sync word on (R174, section 10.2). -/
def huntSync (bytes : List Byte) : List Byte := hunt 0x3C#8 0xE1#8 bytes

/-- What the framer finds at the head of a stream that starts with a sync word. -/
inductive Framed where
  /-- More bytes are needed. -/
  | more
  /-- A discard with its cause, and the number of bytes after which the hunt goes on. -/
  | discard (cause : LinkErrorCause) (consumed : Nat)
  /-- A control parcel, and the number of its bytes. -/
  | parcel (p : ControlParcel) (consumed : Nat)
  deriving DecidableEq, Repr

/-- Four bytes at an offset, little-endian (section 10.2). -/
def payloadLength (rx : List Byte) : Nat := le32 rx 6

/-- The CRC of a downstream parcel, over header offsets 2 to 9 and the payload (R174). -/
def parcelCrc (rx : List Byte) : Word16 := crc16 ((rx.drop 2).take (8 + payloadLength rx))

/-- The parcel at the head of the stream, if its last byte has arrived (R174, R195). -/
def frameHead (rx : List Byte) : Framed :=
  let n := payloadLength rx
  let tag := rx.getD 4 0
  if rx.length < 10 then .more
  else if Config.maxPayload < n then .discard (.length tag) 10
  else if rx.length < 12 + n then .more
  else if BitVec.ofNat 16 (le16 rx (10 + n)) ≠ parcelCrc rx then .discard (.crc tag) 2
  else if byteAt rx 2 ≠ 1 then .discard (.kind tag) (12 + n)
  else .parcel ⟨rx.getD 3 0, tag, rx.getD 5 0, (rx.drop 10).take n⟩ (12 + n)

/-- HALT leaves upstream when the buffer holds 6 or more and the upstream halt is no (R177). -/
def Ali.haltAtMark (a : Ali) : Ali :=
  if Config.inputHaltMark ≤ a.input.length ∧ !a.upstreamHalt then
    ({ a with upstreamHalt := true } : Ali).sendSymbol .halt
  else a

/-- A control parcel is offered to the input buffer (R177). -/
def State.offer (s : State) (p : ControlParcel) : State :=
  if s.ali.input.length < Config.inputRoom then
    s.modAli fun a => Ali.haltAtMark { a with input := a.input ++ [p] }
  else s.linkError (.overflow p.tag)

/-- The received stream is framed as far as it goes; every round consumes bytes, so `fuel` at the stream's length is enough
(R174). -/
def frameAll : Nat → State → State
  | 0, s => s
  | fuel + 1, s =>
    let rx := huntSync s.ali.rx
    match frameHead rx with
    | .more => s.modAli fun a => { a with rx := rx }
    | .discard cause n => frameAll fuel ((s.modAli fun a => { a with rx := rx.drop n }).linkError cause)
    | .parcel p n => frameAll fuel ((s.modAli fun a => { a with rx := rx.drop n }).offer p)

/-- Bytes arrive while the link is UP (R174, R176). -/
def State.receive (s : State) (bytes : List Byte) : State :=
  let s := s.modAli fun a => { a with rx := a.rx ++ bytes }
  frameAll (s.ali.rx.length + 1) s

/-- CONTROL_PARCEL_RECEIVED (R174, R177). -/
def execControlParcelReceived (bytes : List Byte) (s : State) : StepResult :=
  if s.ali.link = .up then .next (s.receive bytes) else .next s

/-- OVERLONG_HEADER (R195). -/
def execOverlongHeader (bytes : List Byte) (s : State) : StepResult :=
  if s.ali.link = .up then .next (s.receive bytes) else .next s

/-! ### Flow symbols and link state -/

/-- HALT (R175, R187). -/
def execHalt (s : State) : StepResult :=
  if s.ali.link = .up then .next (s.modAli fun a => { a with workstationHalt := true }) else .next s

/-- GO (R175, R187): emission goes on with its next parcel. -/
def execGo (s : State) : StepResult :=
  if s.ali.link = .up ∧ s.ali.workstationHalt then
    .next (s.modAli fun a => { a with workstationHalt := false }).beginFrameParcel
  else .next s

/-- LINK_SIGNAL_FOUND (R176). -/
def execLinkSignalFound (s : State) : StepResult :=
  if s.ali.link = .down then .next (s.modAli fun a => { a with link := .training }) else .next s

/-- LINK_TRAINED (R176): one flow symbol that reflects the upstream halt goes first, then sending resumes. -/
def execLinkTrained (s : State) : StepResult :=
  if s.ali.link = .training then
    .next (s.modAli fun a => ({ a with link := .up } : Ali).sendSymbol (if a.upstreamHalt then .halt else .go)
      ).beginFrameParcel
  else .next s

/-- LINK_SIGNAL_LOST (R176): a partly received parcel is dropped, the parcel being sent is kept whole. -/
def execLinkSignalLost (s : State) : StepResult :=
  if s.ali.link = .down then .next s
  else .next ((s.modAli fun a => { a with link := .down, rx := [] }).linkError .linkLost)

/-- UNKNOWN_REQUEST (R179, R196 step 1): the parcel at the head of the buffer, whose code names no request, is taken. -/
def execUnknownRequest (s : State) : StepResult :=
  match s.ali.input with
  | [] => .next s
  | p :: rest =>
    if (requestForm p.code).isNone ∧ s.ali.canTake then
      .next ((s.modAli fun a => a.afterTake rest).refuse p .unknown)
    else .next s

end Sys2Proof.Machine
end

