-- ==== Sys2Proof/Machine/Reset.lean ====
section
/-! DEFINITION. The resets: SOFT_RESET (R192) and power-on reset (R193). -/

namespace Sys2Proof.Machine

/-- A deck after a soft reset: its levels are those last seen (log 6), and its lane keeps its state (R27, R31). What has been received of a lane
parcel stays. DESIGN CHOICE (log 38), unsafe: R192 does not name it. -/
def Deck.softReset (k : Deck) : Deck := { deckInitial k.chan.sensors k.lane with intake := k.intake }

/-- The Archive Link Interface after a soft reset, with the reply as the first entry of the emptied queue (R192). The parcel on the wire
completes. What has been received of a downstream parcel (`rx`) stays. DESIGN CHOICE (log 38), unsafe: R192 names the link state and the input
buffer as kept, and not the bytes of a parcel that is partly received. -/
def Ali.softReset (a : Ali) (p : ControlParcel) : Ali :=
  { a with
    queue := [.reply ⟨p.deck, p.tag, p.code, .ok, .none⟩]
    dropFlag := false
    readouts := []
    emission := none
    aborted := none
    lastGranted := 3 }

/-- The part after a soft reset (R192). -/
def State.softReset (s : State) (p : ControlParcel) : State where
  decks := s.decks.map Deck.softReset
  profiles := Vector.replicate 8 none
  dan := danInitial
  rpe := rpeInitial
  gre := greInitial
  shp := shpInitial
  ali := s.ali.softReset p
  pending := s.pending

/-- SOFT_RESET (R192). -/
def execSoftReset (s : State) : StepResult := takeRequest 0x7F (fun p s => s.softReset p) s

/-- The part after a power-on reset that finds the given levels and signals (R27, R31, R193; log 25). The commands that wait are the model's
own and stay. -/
def State.powerOn (s : State) (pins : ResetPins) : State where
  decks := Vector.ofFn fun d : Fin 4 => deckInitial pins.sensors[d] (laneInitial pins.laneSignal[d])
  profiles := Vector.replicate 8 none
  dan := danInitial
  rpe := rpeInitial
  gre := greInitial
  shp := shpInitial
  ali := aliInitial pins.linkSignal
  pending := s.pending

/-- POWER_ON_RESET (R193). -/
def execPowerOnReset (pins : ResetPins) (s : State) : StepResult := .next (s.powerOn pins)

end Sys2Proof.Machine
end

