-- ==== Sys2Proof/Machine/Tables.lean ====
section
/-! DEFINITION. The meanings of the requests that load a table of the Damage Analyzer, the Repair Engine or the Grade Engine, and of TRIM.
-/

namespace Sys2Proof.Machine

/-- LOAD_COMPARATOR (R104). -/
def execLoadComparator (s : State) : StepResult :=
  takeRequest 0x11 (fun p s =>
    match readComparator p.body with
    | none => s.refuse p .range
    | some (i, c) => (s.replyOk p).modDan fun a => { a with comparators := a.comparators.set i.val c i.isLt }) s

/-- LOAD_RULE (R111). -/
def execLoadRule (s : State) : StepResult :=
  takeRequest 0x12 (fun p s =>
    match readRule p.body with
    | none => s.refuse p .range
    | some (i, r) => (s.replyOk p).modRpe fun e => { e with rules := e.rules.set i.val r i.isLt }) s

/-- LOAD_GRADE (R131): the trims of the record become 8. -/
def execLoadGrade (s : State) : StepResult :=
  takeRequest 0x13 (fun p s =>
    match readGradeRecord p.body with
    | none => s.refuse p .range
    | some (i, r) => (s.replyOk p).modGre fun g => { g with grades := g.grades.set i.val r i.isLt }) s

/-- LOAD_CURVE (R133). -/
def execLoadCurve (s : State) : StepResult :=
  takeRequest 0x14 (fun p s =>
    match asIndex 16 (byteAt p.body 0) with
    | none => s.refuse p .range
    | some i =>
      (s.replyOk p).modGre fun g => { g with curves := g.curves.set i.val (readCurve p.body) i.isLt }) s

/-- A trim moved up, down or not at all, clamped to 0..15 (R152). -/
def stepTrim (up down : Bool) (t : Nat) : Nat :=
  if up then min (t + 1) 15 else if down then t - 1 else t

/-- The trims of one channel moved as a TRIM code gives, when the channel is named (R151, R152). -/
def ChannelGrade.trim (c : ChannelGrade) (named : Bool) (o : TrimOperands) : ChannelGrade :=
  if named then { c with liftTrim := stepTrim o.s3 o.s2 c.liftTrim, gainTrim := stepTrim o.s1 o.s0 c.gainTrim } else c

/-- The trims of a record moved (R152). -/
def GradeRecord.trim (r : GradeRecord) (o : TrimOperands) : GradeRecord :=
  { r with r := r.r.trim o.r o, g := r.g.trim o.g o, b := r.b.trim o.b o }

/-- The six trims of a record (R152). -/
def GradeRecord.trims (r : GradeRecord) : ReplyValues :=
  .trims r.r.liftTrim r.r.gainTrim r.g.liftTrim r.g.gainTrim r.b.liftTrim r.b.gainTrim

/-- TRIM (R151, R152): the reply carries the trims as they stand after it. -/
def execTrim (s : State) : StepResult :=
  takeRequest 0x24 (fun p s =>
    match readTrim p.body with
    | none => s.refuse p .range
    | some (i, o) =>
      let r := s.gre.grades[i].trim o
      (s.reply p .ok r.trims).modGre fun g => { g with grades := g.grades.set i.val r i.isLt }) s

end Sys2Proof.Machine
end

