-- ==== Sys2Proof/Machine/Dispatch.lean ====
section
/-! DEFINITION. One arm per command: its meaning. -/

namespace Sys2Proof.Machine

open Sys2Proof

def exec (i : Instr) (s : State) : Host.Outcome State Fault Refusal :=
  match i with
  | .bindReel => Sys2Proof.Machine.execBindReel s
  | .unbindReel => Sys2Proof.Machine.execUnbindReel s
  | .startScan => Sys2Proof.Machine.execStartScan s
  | .endScan => Sys2Proof.Machine.execEndScan s
  | .abortDeck => Sys2Proof.Machine.execAbortDeck s
  | .releaseReel => Sys2Proof.Machine.execReleaseReel s
  | .deckCommand => Sys2Proof.Machine.execDeckCommand s
  | .setDeckEvents => Sys2Proof.Machine.execSetDeckEvents s
  | .retrainLane => Sys2Proof.Machine.execRetrainLane s
  | .readContext => Sys2Proof.Machine.execReadContext s
  | .loadProfile => Sys2Proof.Machine.execLoadProfile s
  | .loadComparator => Sys2Proof.Machine.execLoadComparator s
  | .loadRule => Sys2Proof.Machine.execLoadRule s
  | .loadGrade => Sys2Proof.Machine.execLoadGrade s
  | .loadCurve => Sys2Proof.Machine.execLoadCurve s
  | .loadPolicy => Sys2Proof.Machine.execLoadPolicy s
  | .loadShelf => Sys2Proof.Machine.execLoadShelf s
  | .addCue => Sys2Proof.Machine.execAddCue s
  | .dropCue => Sys2Proof.Machine.execDropCue s
  | .bindGrade => Sys2Proof.Machine.execBindGrade s
  | .setDefaultGrade => Sys2Proof.Machine.execSetDefaultGrade s
  | .trim => Sys2Proof.Machine.execTrim s
  | .shelved => Sys2Proof.Machine.execShelved s
  | .releasePosition => Sys2Proof.Machine.execReleasePosition s
  | .cancelDirective => Sys2Proof.Machine.execCancelDirective s
  | .readShots => Sys2Proof.Machine.execReadShots s
  | .readDefectMap => Sys2Proof.Machine.execReadDefectMap s
  | .readShelf => Sys2Proof.Machine.execReadShelf s
  | .readQueue => Sys2Proof.Machine.execReadQueue s
  | .softReset => Sys2Proof.Machine.execSoftReset s
  | .unknownRequest => Sys2Proof.Machine.execUnknownRequest s
  | .controlParcelReceived bytes => Sys2Proof.Machine.execControlParcelReceived bytes s
  | .overlongHeader bytes => Sys2Proof.Machine.execOverlongHeader bytes s
  | .halt => Sys2Proof.Machine.execHalt s
  | .go => Sys2Proof.Machine.execGo s
  | .linkSignalFound => Sys2Proof.Machine.execLinkSignalFound s
  | .linkTrained => Sys2Proof.Machine.execLinkTrained s
  | .linkSignalLost => Sys2Proof.Machine.execLinkSignalLost s
  | .readoutJoin => Sys2Proof.Machine.execReadoutJoin s
  | .reportSend => Sys2Proof.Machine.execReportSend s
  | .grant => Sys2Proof.Machine.execGrant s
  | .pictureParcelSent => Sys2Proof.Machine.execPictureParcelSent s
  | .fullTrailerSent => Sys2Proof.Machine.execFullTrailerSent s
  | .overrunTrailerSent => Sys2Proof.Machine.execOverrunTrailerSent s
  | .abortedTrailerSent => Sys2Proof.Machine.execAbortedTrailerSent s
  | .presentChange deck level => Sys2Proof.Machine.execPresentChange deck level s
  | .gateClosedChange deck level => Sys2Proof.Machine.execGateClosedChange deck level s
  | .powerFaultRise deck => Sys2Proof.Machine.execPowerFaultRise deck s
  | .powerFaultFall deck => Sys2Proof.Machine.execPowerFaultFall deck s
  | .attentionPress deck => Sys2Proof.Machine.execAttentionPress deck s
  | .attentionFall deck => Sys2Proof.Machine.execAttentionFall deck s
  | .deckAnswerDone deck command => Sys2Proof.Machine.execDeckAnswerDone deck command s
  | .deckAnswerFault deck command => Sys2Proof.Machine.execDeckAnswerFault deck command s
  | .commandTimeout deck => Sys2Proof.Machine.execCommandTimeout deck s
  | .laneSignalFound lane => Sys2Proof.Machine.execLaneSignalFound lane s
  | .laneTrained lane => Sys2Proof.Machine.execLaneTrained lane s
  | .laneSignalLost lane => Sys2Proof.Machine.execLaneSignalLost lane s
  | .sighting lane bytes => Sys2Proof.Machine.execSighting lane bytes s
  | .band lane bytes => Sys2Proof.Machine.execBand lane bytes s
  | .leader lane bytes => Sys2Proof.Machine.execLeader lane bytes s
  | .tail lane bytes => Sys2Proof.Machine.execTail lane bytes s
  | .overlongLaneHeader lane kind reserved length => Sys2Proof.Machine.execOverlongLaneHeader lane kind reserved length s
  | .analysisStart => Sys2Proof.Machine.execAnalysisStart s
  | .analysisComplete => Sys2Proof.Machine.execAnalysisComplete s
  | .decision => Sys2Proof.Machine.execDecision s
  | .repairEnd => Sys2Proof.Machine.execRepairEnd s
  | .powerOnReset pins => Sys2Proof.Machine.execPowerOnReset pins s
  | .reportParcelSent => Sys2Proof.Machine.execReportParcelSent s
  | .discardedLaneParcel lane bytes => Sys2Proof.Machine.execDiscardedLaneParcel lane bytes s

end Sys2Proof.Machine
end

