-- ==== Sys2Proof/Safety.lean ====
section
/-! DEFINITION. What counts as a sound state, and the words that statements use: the bounds and forms that the manual promises of every
state the part reaches, the bytes of a field as a sender writes them, and the part after a take with its answer. -/

namespace Sys2Proof.Machine

/-- The report queue holds at most 32 entries, of which at most 24 are notices, and the input buffer at most 8 parcels
(R177, R182, R183). -/
abbrev Ali.bounded (a : Ali) : Prop :=
  a.queue.length ≤ Config.reportRoom ∧ noticeCount a.queue ≤ Config.noticeRoom ∧ a.input.length ≤ Config.inputRoom

/-- A deck's queue holds at most 12 records (R56), its shot table 256 shots (R72), its cue list 16 cues (R81) and its defect map 512 runs
(R127). -/
abbrev Deck.roomy (k : Deck) : Prop :=
  k.store.records.length ≤ Config.recordRoom ∧ k.table.shots.length ≤ Config.shotRoom
  ∧ k.table.cues.length ≤ Config.cueRoom ∧ k.map.runs.length ≤ Config.runRoom

/-- Every shot's excursion lies in -32..31 (R146). -/
abbrev Deck.excursionsInRange (k : Deck) : Prop := ∀ sh ∈ k.table.shots, -32 ≤ sh.excursion ∧ sh.excursion ≤ 31

/-- Every slot's content is in its one form (R55; log 15). -/
abbrev Deck.slotsWellFormed (k : Deck) : Prop := ∀ i : Fin 8, SlotMem.wf k.store.slots[i].mem = true

/-- A command waits only behind an outstanding one (R3, R4). -/
abbrev Deck.waitsBehind (k : Deck) : Prop := k.chan.waiting.isSome → k.chan.outstanding.isSome

/-- The fields of one channel of a grade record lie in their ranges (section 7.1). -/
abbrev ChannelGrade.inRange (c : ChannelGrade) : Prop :=
  c.mantissa ≤ 4095 ∧ c.mode ≤ 7 ∧ -16384 ≤ c.lift ∧ c.lift ≤ 16383 ∧ c.liftTrim ≤ 15 ∧ c.gainTrim ≤ 15

/-- The fields of a grade record lie in their ranges (section 7.1). -/
abbrev GradeRecord.inRange (r : GradeRecord) : Prop :=
  r.r.inRange ∧ r.g.inRange ∧ r.b.inRange ∧ r.clipLimit ≤ Config.max24

/-- Every grade record lies in its ranges (R131, R146). -/
abbrev Gre.gradesInRange (g : Gre) : Prop := ∀ i : Fin 64, g.grades[i].inRange

/-- The return queue holds at most 16 directives (R162). -/
abbrev Shp.bounded (p : Shp) : Prop := p.directives.length ≤ Config.directiveRoom

/-! ### Words for the statements about takes -/

/-- The two bytes of a 16-bit field as the workstation writes them, least significant first (R194). -/
def bytes16 (v : Word16) : List Byte := [v.extractLsb' 0 8, v.extractLsb' 8 8]

/-- The four bytes of a 32-bit field as the workstation writes them, least significant first (R194). -/
def bytes32 (v : Word32) : List Byte :=
  [v.extractLsb' 0 8, v.extractLsb' 8 8, v.extractLsb' 16 8, v.extractLsb' 24 8]

/-- One bit shifted into the register that the generator x^16 + x^12 + x^5 + 1 divides (R174). -/
def crcBit (c : Word16) (bit : Bool) : Word16 := if xor c.msb bit then (c <<< 1) ^^^ 0x1021#16 else c <<< 1

/-- The CRC-16 of R174 by its division: the bits of the bytes, most significant bit of each byte first, go one by one into a register of all
ones. -/
def crcOf (bytes : List Byte) : Word16 :=
  (bytes.flatMap fun b => (List.range 8).map fun i => b.getMsbD i).foldl crcBit 0xFFFF#16

/-- What the CRC of an archive link parcel covers: offsets 2 to 9 and the payload (section 10.2). -/
def coveredBytes (kind deck tag code : Byte) (payload : List Byte) : List Byte :=
  [kind, deck, tag, code] ++ bytes32 (BitVec.ofNat 32 payload.length) ++ payload

/-- A parcel of the archive link as its sender writes it: sync word, header, payload and CRC (section 10.2). -/
def wireParcel (kind deck tag code : Byte) (payload : List Byte) : List Byte :=
  [0x3C, 0xE1] ++ coveredBytes kind deck tag code payload ++ bytes16 (crcOf (coveredBytes kind deck tag code payload))

/-- The parcel of a deck-scoped request: its deck stands in the header (section 10.3). -/
def deckParcel (d : DeckId) (tag code : Byte) (body : List Byte) : ControlParcel := ⟨BitVec.ofNat 8 d.val, tag, code, body⟩

/-- p is at the head of the input buffer with `rest` behind it, and the Control Decoder can take it (R178). -/
abbrev State.takeable (s : State) (p : ControlParcel) (rest : List ControlParcel) : Prop :=
  s.ali.input = p :: rest ∧ s.ali.queue.length < 32 ∧ s.ali.readouts = []

/-- The interface after the take of p, with one reply of the given status and values: the parcel has left the buffer (R178), a GO has gone
upstream when the number held came down to 2 or fewer while the upstream halt was yes (R177), and the reply stands at the tail of the report
queue (R179). That the upstream halt becomes no while the link is not UP, with no symbol sent, is the model's reading of R176 with R177: log 29.
That the reply joins before the notices of its take is the model's reading of R179: log 11. -/
def Ali.answered (a : Ali) (p : ControlParcel) (rest : List ControlParcel) (status : Status) (values : ReplyValues) : Ali :=
  { a with
    input := rest
    upstreamHalt := a.upstreamHalt && decide (2 < rest.length)
    sent := if a.upstreamHalt ∧ rest.length ≤ 2 ∧ a.link = .up then .symbol .go :: a.sent else a.sent
    queue := a.queue ++ [.reply ⟨p.deck, p.tag, p.code, status, values⟩] }

/-- The part after the take of p with its reply, and nothing else changed. Where a statement goes on from this state with a notice, the reply stands
before the notice: log 11. -/
def State.answered (s : State) (p : ControlParcel) (rest : List ControlParcel) (status : Status) (values : ReplyValues) :
    State :=
  { s with ali := s.ali.answered p rest status values }

/-- The part after a take refused with a status: the reply without values, and nothing else changed (R181). -/
def State.refused (s : State) (p : ControlParcel) (rest : List ControlParcel) (status : Status) : State :=
  s.answered p rest status .none

/-! ### Words for the statements about emission -/

/-- r is the record of a deck's queue that is eligible for emission (R186): all before it are EMITTED, and it is READY or OVERRUN. The queue
is in the order of frame numbers (R56). -/
def DeckStore.offers (k : DeckStore) (r : FrameRecord) : Prop :=
  (r.phase = .ready ∨ r.phase = .overrun)
  ∧ ∃ before after, k.records = before ++ r :: after ∧ ∀ q ∈ before, q.phase = .emitted

/-- The arbiter may grant (R186, R187, R191). -/
abbrev Ali.grants (a : Ali) : Prop :=
  a.link = .up ∧ a.workstationHalt = false ∧ a.emission = none ∧ a.aborted = none
  ∧ ∀ d reel r n, a.wire ≠ some (.trailer (.aborted d reel r n))

/-- A frame parcel may begin (R182, R187). That none begins while readouts wait to join the queue is the model's choice: log 28. -/
abbrev Ali.frameFree (a : Ali) : Prop :=
  a.wire = none ∧ a.link = .up ∧ a.workstationHalt = false ∧ a.queue = [] ∧ a.readouts = []

/-- The map after a frame with its class set and action was handed to it (R125, R126, R127). -/
def DefectMap.entered (m : DefectMap) (n : Nat) (classes : ClassSet) (action : Action) : DefectMap :=
  if classes = ⟨false, false, false, false, false, false⟩ ∨ m.full = true then m
  else
    match m.runs.getLast? with
    | some run =>
      if n = run.first + run.count ∧ classes = run.classes ∧ action = run.action ∧ run.count < 65535 then
        { m with runs := m.runs.dropLast ++ [{ run with count := run.count + 1 }] }
      else if 512 ≤ m.runs.length then { m with full := true }
      else { m with runs := m.runs ++ [⟨n, 1, classes, action⟩] }
    | none => { m with runs := [⟨n, 1, classes, action⟩] }

/-- A condition under which the record of an EMITTED frame n gives its slot back (R66), in the deck as it stands; sh is the record's shot. -/
def Deck.mayFree (k : Deck) (n : Nat) (sh : Option Shot) : Prop :=
  (∃ q, k.store.find (n + 1) = some q ∧ q.phase ∈ [Phase.ready, .emitting, .emitted, .overrun])
  ∨ (k.store.find (n + 1) = none ∧ (k.ctx.state ≠ .scanning ∨ ∃ m, k.store.lastConsumed = some m ∧ n + 1 ≤ m))
  ∨ (∃ x, sh = some x ∧ x.state ≠ .opened ∧ x.last = some n)

/-- What a trailer's going leaves of the deck's shot i, which was sh (R78, R80): its counts as given, and COMPLETE when it was CLOSED and
no record of the shot but EMITTED ones is left. -/
def Deck.shotSettled (k : Deck) (i : Nat) (sh : Shot) : Prop :=
  ∃ state, k.table.shots[i]? = some { sh with state := state }
    ∧ (state = .complete ↔
      sh.state = .complete ∨ sh.state = .closed ∧ ∀ q ∈ k.store.records, q.shot = i → q.phase = .emitted)
    ∧ (state ≠ .complete → state = sh.state)

/-- Every table that only a load or a reset writes is as before. -/
structure TablesKept (s t : State) : Prop where
  profiles : t.profiles = s.profiles
  comparators : t.dan.comparators = s.dan.comparators
  rules : t.rpe.rules = s.rpe.rules
  grades : t.gre.grades = s.gre.grades
  curves : t.gre.curves = s.gre.curves
  policies : t.shp.policies = s.shp.policies

/-- A context without what the Shelf Planner writes into it. -/
def ReelContext.unplanned (c : ReelContext) : ReelContext :=
  { c with score := none, storageClass := none, hasDirective := false, planPending := false }

/-! ### Words for the statements about scanning -/

/-- The bytes of a sample on a lane: R, G, B and IR, two bytes each (section 10.6). -/
def sampleBytes (x : Sample) : List Byte := bytes16 x.r ++ bytes16 x.g ++ bytes16 x.b ++ bytes16 x.ir

/-- A lane parcel as a sound scan head sends it: the CRC covers the kind, the reserved byte, the payload length and the payload (R32). -/
def laneParcel (kind reserved : Byte) (payload : List Byte) : LaneFrame :=
  ⟨kind, reserved, payload, crcOf ([kind, reserved] ++ bytes32 (BitVec.ofNat 32 payload.length) ++ payload)⟩

/-- The bytes of a lane parcel on its lane: sync word, header, payload and CRC (section 10.6). -/
def LaneFrame.bytes (f : LaneFrame) : List Byte :=
  [0x96, 0x5B, f.kind, f.reserved] ++ bytes32 (BitVec.ofNat 32 f.payload.length) ++ f.payload ++ bytes16 f.crc

/-- The payload of a lane parcel is not longer than the longest (R199). -/
abbrev LaneFrame.fits (f : LaneFrame) : Prop := f.payload.length ≤ 1048584

/-- Every check of R32 and R199 discards the parcel, whatever the profile's line width. -/
abbrev LaneFrame.discarded (f : LaneFrame) : Prop :=
  readSighting f = none ∧ readMark f ≠ some 1 ∧ readMark f ≠ some 2 ∧ ∀ width, readBand f width = none

/-- The rows that bring bytes on a lane: what the bytes complete gives a row its name. -/
def laneRows (d : DeckId) (bytes : List Byte) : List Instr :=
  [.sighting d bytes, .band d bytes, .leader d bytes, .tail d bytes, .discardedLaneParcel d bytes]

/-- Deck d after a spurious flag was delivered to its latest frame (R40): into the pending boundary, or to the current frame's record unless that is
OVERRUN. -/
def Deck.flagged (k : Deck) : Deck :=
  match k.rgu.boundary, k.rgu.current with
  | some b, _ => { k with rgu := { k.rgu with boundary := some { b with spurious := true } } }
  | none, some c =>
    { k with store := { k.store with records := k.store.records.map fun r =>
      if r.number = c.number ∧ r.phase ≠ .overrun then { r with flags := { r.flags with spurious := true } } else r } }
  | none, none => k

/-- The shot origin that a declaration and a cue ask for (R73, R75). -/
def opensWith (declaration : Declaration) (cue : Option Cue) : Option ShotOrigin :=
  match declaration, cue with
  | .start, _ => some .start
  | .relock, _ => some .relock
  | .splice, _ => some .splice
  | .none, some _ => some .cue
  | .none, none => none

/-- The first line at or after a film position, modulo 2^28 (R45). -/
def firstLineAt (b : FilmPos) : LineNo := BitVec.ofNat 28 ((b.toNat + 15) / 16)

/-- The boundary of a frame sighting at p (R45). -/
def boundaryOf (pf : Profile) (p : FilmPos) (declaration : Declaration) (offset : Int) (deviation : Nat) (coasted : Bool)
    (shrink : Option Nat) : Boundary :=
  let b := p + BitVec.ofNat 32 pf.frameLineOffset
  ⟨b, firstLineAt b, declaration, offset, deviation, coasted, false, shrink⟩

/-- v is a/b rounded to nearest, halves upward, held between 0 and 99 (R48). -/
def shrinkRule (pf : Profile) (avg v : Nat) : Prop :=
  ∃ q : Int, 2 * pf.nominalPitch * q ≤ 2000 * ((pf.nominalPitch : Int) - avg) + pf.nominalPitch
    ∧ 2000 * ((pf.nominalPitch : Int) - avg) + pf.nominalPitch < 2 * pf.nominalPitch * (q + 1)
    ∧ (v : Int) = max 0 (min 99 q)

/-- The later of two lines, by their signed difference (R46). -/
def laterOf (a b : LineNo) : LineNo := if 0 ≤ (a - b).toInt then a else b

/-! ### Words for the statements about the engines -/

/-- The sample at line i and position j of a slot's content; a line that was never written reads 0 (R55). -/
def sampleAt (m : SlotMem) (width i j : Nat) : Sample := (SlotMem.line m width i).getD j ⟨0, 0, 0, 0⟩

/-- Every line of a slot's content has one width. -/
abbrev evenLines (m : SlotMem) (width : Nat) : Prop := ∀ x ∈ m, x.2.length = width

/-- Line i and position j lie in the tile of row r and column c (R93). -/
abbrev inTile (lines width r c i j : Nat) : Prop :=
  r * lines / 8 ≤ i ∧ i < (r + 1) * lines / 8 ∧ c * width / 8 ≤ j ∧ j < (c + 1) * width / 8

/-- The sample at line i and position j is a dark sample of a flagged tile (R94, R95, R120). -/
def damagedAt (pf : Profile) (m : SlotMem) (lines i j : Nat) : Prop :=
  (sampleAt m pf.lineWidth i j).ir.toNat < pf.irLimit
  ∧ ∃ r c, r < 8 ∧ c < 8 ∧ inTile lines pf.lineWidth r c i j ∧ pf.tileFlagLimit ≤ (tileGeometry pf lines).area m r c

/-- The value that a concealed sample takes from its two sources, with IR irLimit (R121, R122). -/
def mixed (irLimit : Nat) (own : Sample) (a b : Option Sample) : Sample :=
  let mean (x y : Word16) : Word16 := BitVec.ofNat 16 ((x.toNat + y.toNat + 1) / 2)
  match a, b with
  | some a, some b => ⟨mean a.r b.r, mean a.g b.g, mean a.b b.b, BitVec.ofNat 16 irLimit⟩
  | some a, none => { a with ir := BitVec.ofNat 16 irLimit }
  | none, some b => { b with ir := BitVec.ofNat 16 irLimit }
  | none, none => own

/-- new is old concealed over its lines from two sources for each sample (R120). -/
def concealedFrom (pf : Profile) (old new : SlotMem) (lines : Nat) (a b : Nat → Nat → Option Sample → Prop) : Prop :=
  ∀ i j, j < pf.lineWidth →
    (¬ (i < lines ∧ damagedAt pf old lines i j) → sampleAt new pf.lineWidth i j = sampleAt old pf.lineWidth i j)
    ∧ ∀ x y, i < lines → damagedAt pf old lines i j → a i j x → b i j y →
      sampleAt new pf.lineWidth i j = mixed pf.irLimit (sampleAt old pf.lineWidth i j) x y

/-- x is the nearest clean sample of line i before position j (R122). -/
def nearestLeft (pf : Profile) (m : SlotMem) (i j : Nat) (x : Option Sample) : Prop :=
  let clean (l : Nat) := pf.irLimit ≤ (sampleAt m pf.lineWidth i l).ir.toNat
  (∃ l, l < j ∧ clean l ∧ (∀ k, l < k → k < j → ¬ clean k) ∧ x = some (sampleAt m pf.lineWidth i l))
  ∨ ((∀ k, k < j → ¬ clean k) ∧ x = none)

/-- x is the nearest clean sample of line i after position j (R122). -/
def nearestRight (pf : Profile) (m : SlotMem) (i j : Nat) (x : Option Sample) : Prop :=
  let clean (l : Nat) := l < pf.lineWidth ∧ pf.irLimit ≤ (sampleAt m pf.lineWidth i l).ir.toNat
  (∃ l, j < l ∧ clean l ∧ (∀ k, j < k → k < l → ¬ clean k) ∧ x = some (sampleAt m pf.lineWidth i l))
  ∨ ((∀ k, j < k → ¬ clean k) ∧ x = none)

/-- x is the sample of a neighbour at line i and position j, absent at or above its line count or when there is no neighbour (R121). -/
def neighbourAt (pf : Profile) (k : DeckStore) (n : Option FrameRecord) (i j : Nat) (x : Option Sample) : Prop :=
  match n with
  | some q => x = if i < q.lines then some (sampleAt (k.content q) pf.lineWidth i j) else none
  | none => x = none

/-- A rule's test passes for the frame's codes; without a test it passes (R112). -/
def ruleTestPasses (r : Rule) (codes : Byte) : Prop := ∀ t, r.test = some t → codes.getLsbD t.code.val = t.set

/-- A rule matches a frame (R112, R113). -/
def ruleMatches (r : Rule) (classes : ClassSet) (codes : Byte) : Prop :=
  r.enabled = true
  ∧ (r.required.dust → classes.dust) ∧ (r.required.scratch → classes.scratch) ∧ (r.required.blotch → classes.blotch)
  ∧ (r.required.perf → classes.perf) ∧ (r.required.splice → classes.splice) ∧ (r.required.gap → classes.gap)
  ∧ (ruleTestPasses r codes ∨ r.failAction ≠ none)

/-- Frame n can be used as a neighbour in shot sh: its record is in the queue with a slot and not OVERRUN, and n lies in the shot
(R114, R115). -/
def Deck.neighbour (k : Deck) (sh : Shot) (n : Nat) : Prop :=
  (∃ q, k.store.find n = some q ∧ q.slot ≠ none ∧ q.phase ≠ .overrun)
  ∧ sh.first ≤ n ∧ ∀ l, sh.last = some l → n ≤ l

/-- An action is feasible for frame n of shot sh with its final class set (R114, R115, R116). -/
def Deck.canDo (k : Deck) (sh : Shot) (n : Nat) (classes : ClassSet) (action : Action) : Prop :=
  match action with
  | .concealTemporal => n ≠ 0 ∧ k.neighbour sh (n - 1) ∧ k.neighbour sh (n + 1) ∧ classes.gap = false
  | .holdPrevious => n ≠ 0 ∧ k.neighbour sh (n - 1) ∧ classes.gap = false
  | _ => True

/-- Every bound and form that Safety.lean names holds of a state. -/
structure Sound (s : State) : Prop where
  reports : s.ali.bounded
  roomy : ∀ d, (s.deck d).roomy
  excursions : ∀ d, (s.deck d).excursionsInRange
  slots : ∀ d, (s.deck d).slotsWellFormed
  waits : ∀ d, (s.deck d).waitsBehind
  grades : s.gre.gradesInRange
  directives : s.shp.bounded

/-- The codes of the measures (section 10.1). -/
def measureCodes : List (Nat × Measure) :=
  [(0, .totalArea), (1, .maxTile), (2, .scratchRun), (3, .flaggedTiles), (4, .offsetMag), (5, .pitchDev), (6, .coasted),
    (7, .shotPos)]

/-- The codes of the actions that a rule may choose (section 10.1, R111). -/
def actionCodes : List (Nat × Action) :=
  [(0, .pass), (1, .concealTemporal), (2, .concealSpatial), (3, .holdPrevious), (4, .mark)]

/-- One channel of a LOAD_GRADE body as the workstation writes it (section 10.3). -/
structure GradeFields where
  mantissa : Word16
  mode : Byte
  lift : Word16
  deriving DecidableEq, Repr

/-- Its eight bytes. -/
def GradeFields.bytes (f : GradeFields) : List Byte := bytes16 f.mantissa ++ [f.mode, 0] ++ bytes16 f.lift ++ [0, 0]

/-- Its fields lie in the ranges of section 7.1. -/
abbrev GradeFields.inRange (f : GradeFields) : Prop :=
  f.mantissa.toNat ≤ 4095 ∧ f.mode.toNat ≤ 7 ∧ -16384 ≤ f.lift.toInt ∧ f.lift.toInt ≤ 16383

/-- The channel that it loads: the two trims become 8 (R131). -/
def GradeFields.loaded (f : GradeFields) : ChannelGrade := ⟨f.mantissa.toNat, f.mode.toNat, f.lift.toInt, 8, 8⟩

/-- The part after the take of a read request: the reply with the number of readouts, and the readouts waiting, numbered from 0 in their
order (R180, R197). Each body comes with the deck field of its header. -/
def State.answeredWith (s : State) (p : ControlParcel) (rest : List ControlParcel) (bodies : List (Byte × ReadoutBody)) :
    State :=
  { s with ali := { s.ali.answered p rest .ok (.count bodies.length) with
      readouts := bodies.zipIdx.map fun x => ⟨x.1.1, p.tag, x.2, x.1.2⟩ } }

/-- The condition under which a release request is BUSY (R21): a release unlock is outstanding or pending, or the pending command is of
CONTEXT origin. -/
abbrev Channel.releasing (c : Channel) : Prop :=
  (∃ w ∈ c.waiting, w.origin = .context ∨ w.release ≠ none) ∨ (∃ o ∈ c.outstanding, o.command.release ≠ none)

/-- The code, the body length and whether it is deck-scoped, for each request of the table of section 10.3. -/
def requestRow : Instr → Option (Byte × Nat × Bool)
  | .bindReel => some (0x01, 8, true)
  | .unbindReel => some (0x02, 0, true)
  | .startScan => some (0x03, 0, true)
  | .endScan => some (0x04, 0, true)
  | .abortDeck => some (0x05, 0, true)
  | .releaseReel => some (0x06, 0, true)
  | .deckCommand => some (0x07, 4, true)
  | .setDeckEvents => some (0x08, 4, true)
  | .retrainLane => some (0x09, 0, true)
  | .readContext => some (0x0A, 0, true)
  | .loadProfile => some (0x10, 20, false)
  | .loadComparator => some (0x11, 8, false)
  | .loadRule => some (0x12, 8, false)
  | .loadGrade => some (0x13, 32, false)
  | .loadCurve => some (0x14, 68, false)
  | .loadPolicy => some (0x15, 8, false)
  | .loadShelf => some (0x16, 66, false)
  | .addCue => some (0x20, 8, true)
  | .dropCue => some (0x21, 4, true)
  | .bindGrade => some (0x22, 4, true)
  | .setDefaultGrade => some (0x23, 4, true)
  | .trim => some (0x24, 4, false)
  | .shelved => some (0x30, 4, false)
  | .releasePosition => some (0x31, 4, false)
  | .cancelDirective => some (0x32, 4, false)
  | .readShots => some (0x40, 4, true)
  | .readDefectMap => some (0x41, 4, true)
  | .readShelf => some (0x42, 4, false)
  | .readQueue => some (0x43, 0, false)
  | .softReset => some (0x7F, 0, false)
  | _ => none

/-- The reserved bits of a body, as offsets and masks (section 10.3). -/
def reservedBits (code : Byte) : List (Nat × Byte) :=
  match code.toNat with
  | 0x01 => [(6, 0xFF), (7, 0xFF)]
  | 0x07 => [(1, 0xFF), (2, 0xFF), (3, 0xFF)]
  | 0x08 => [(1, 0xFE), (3, 0xFF)]
  | 0x10 => [(7, 0xFF), (18, 0xFF), (19, 0xFF)]
  | 0x12 => [(7, 0xFF)]
  | 0x13 => [(2, 0xFF), (3, 0xFF), (11, 0xFF), (14, 0xFF), (15, 0xFF), (19, 0xFF), (22, 0xFF), (23, 0xFF), (27, 0xFF),
      (30, 0xFF), (31, 0xFF)]
  | 0x14 => [(1, 0xFF)]
  | 0x15 => [(6, 0xFF), (7, 0xFF)]
  | 0x16 => (1, 0xFF) :: (List.range 64).map fun i => (2 + i, 0x78)
  | 0x20 => [(5, 0xFF), (6, 0xFF), (7, 0xFF)]
  | 0x22 => [(2, 0xFF), (3, 0xFF)]
  | 0x23 => [(1, 0xFF), (2, 0xFF), (3, 0xFF)]
  | 0x24 => [(1, 0xF8), (2, 0xF0), (3, 0xFF)]
  | 0x31 => [(2, 0xFF), (3, 0xFF)]
  | 0x40 => [(1, 0xFF), (2, 0xFF), (3, 0xFF)]
  | 0x41 => [(2, 0xFF), (3, 0xFF)]
  | 0x42 => [(1, 0xFF), (2, 0xFF), (3, 0xFF)]
  | _ => []

/-- Every reserved byte and bit of a body is zero (R196 step 4). The low seven bits of the test byte of LOAD_RULE are reserved while its bit
7 is clear (section 10.3). -/
def reservedClear (code : Byte) (body : List Byte) : Prop :=
  (∀ x ∈ reservedBits code, body.getD x.1 0 &&& x.2 = 0)
  ∧ (code = 0x12 → (body.getD 3 0).msb = false → body.getD 3 0 = 0)

/-! ### Words for the upstream layouts (sections 10.1, 10.4, 10.5) -/

/-- The code of an enumerated value: its place in the list of section 10.1, counted from 0. -/
def codeIn {α : Type} [BEq α] (values : List α) (x : α) : Byte := BitVec.ofNat 8 (values.idxOf x)

/-- A number in one byte. -/
def field8 (n : Nat) : List Byte := [BitVec.ofNat 8 n]

/-- A number in two bytes. -/
def field16 (n : Nat) : List Byte := bytes16 (BitVec.ofNat 16 n)

/-- A number in four bytes. -/
def field32 (n : Nat) : List Byte := bytes32 (BitVec.ofNat 32 n)

/-- A flag in one byte: 1 for yes. -/
def flagField (b : Bool) : List Byte := [if b then 1 else 0]

/-- A set in one byte, its members in the order of their bits from bit 0 on. -/
def setField (members : List Bool) : List Byte := [BitVec.ofNat 8 (members.foldr (fun b n => b.toNat + 2 * n) 0)]

/-- Reserved bytes, and bytes of fields that are not carried. -/
def blank (n : Nat) : List Byte := List.replicate n 0

/-- A reel id; 0 stands for an absent one. -/
def reelField (reel : Option ReelId) : List Byte := bytes32 (reel.getD 0)

/-- An index in one byte; all ones stand for an absent one. -/
def indexField {n : Nat} (i : Option (Fin n)) : List Byte :=
  match i with
  | some i => field8 i.val
  | none => [0xFF]

/-- A number in two bytes; all ones stand for an absent one. -/
def wordField (n : Option Nat) : List Byte :=
  match n with
  | some n => field16 n
  | none => [0xFF, 0xFF]

/-- A last frame; all ones stand for an absent one. -/
def lastField (n : Option Nat) : List Byte :=
  match n with
  | some n => field32 n
  | none => [0xFF, 0xFF, 0xFF, 0xFF]

/-- The ten slot commands in the order of their codes. -/
def commandCodes : List SlotCommand :=
  [.lockGate, .unlockGate, .powerOn, .powerOff, .run, .pause, .stop, .indicatorOff, .indicatorOn, .indicatorBlink]

/-- The context states in the order of their codes. -/
def contextCodes : List ContextState := [.empty, .loaded, .bound, .scanning, .draining, .finished, .released, .aborted]

/-- The origins of a command in the order of their codes. -/
def originCodes : List Origin := [.workstation, .context, .flow]

/-- The origins of a shot in the order of their codes. -/
def shotOriginCodes : List ShotOrigin := [.start, .splice, .relock, .cue]

/-- A slot command with its origin; both all ones when there is none (section 10.4). -/
def commandField (c : Option Command) : List Byte :=
  match c with
  | some c => [codeIn commandCodes c.cmd, codeIn originCodes c.origin]
  | none => [0xFF, 0xFF]

/-- A class set (section 10.1). -/
def classField (c : ClassSet) : List Byte := setField [c.dust, c.scratch, c.blotch, c.perf, c.splice, c.gap]

/-- The flags of a frame (section 10.1). -/
def frameFlagField (f : FrameFlags) : List Byte := setField [f.coasted, f.spurious, f.truncated, f.missingLines, f.aborted]

/-- An applied action (section 10.1); all ones stand for an absent one. -/
def actionField (a : Option Action) : List Byte :=
  match a with
  | some a => [codeIn [.pass, .concealTemporal, .concealSpatial, .holdPrevious, .mark, .lost] a]
  | none => [0xFF]

/-- The fields that a DIRECTIVE notice and a DIRECTIVE readout share, from their storage class to their maxShrink (section 10.4). -/
def directiveFields (dir : Directive) (reel : Option ReelId) : List Byte :=
  field8 dir.storageClass.val ++ [codeIn [.onDeck, .inTransit] dir.phase] ++ flagField dir.interrupted ++ reelField reel
    ++ wordField (dir.position.map Fin.val) ++ field16 dir.score ++ field8 dir.maxShrink

/-- The code and the body of a notice, by the table of notice bodies (section 10.4). -/
def noticeLayout : NoticeBody → Nat × List Byte
  | .slotEvent sensor level => (1, [codeIn [.present, .gateClosed, .attention, .powerFault] sensor] ++ flagField level)
  | .slotCommandDone cmd origin result =>
    (2, [codeIn commandCodes cmd, codeIn originCodes origin, codeIn [.done, .fault, .failed] result])
  | .contextState state reel => (3, [codeIn contextCodes state] ++ blank 3 ++ reelField reel)
  | .laneState state cause =>
    (4, [codeIn [.down, .training, .up] state, codeIn [.signalFound, .trained, .signalLost, .retrain] cause])
  | .registration event cause position next =>
    (5, [codeIn [.lock, .loss, .splice] event, codeIn [.none, .coast, .lane, .numbers] cause] ++ flagField position.isSome
      ++ blank 1 ++ bytes32 (position.getD 0) ++ field32 next)
  | .shotClosed index shot reel =>
    (6, field8 index ++ [codeIn shotOriginCodes shot.origin] ++ indexField shot.binding ++ [BitVec.ofInt 8 shot.excursion]
      ++ reelField reel ++ field32 shot.first ++ lastField shot.last ++ field32 shot.emitted)
  | .shotTableFull opening frame => (7, [codeIn shotOriginCodes opening] ++ blank 3 ++ field32 frame)
  | .overrun recorded frame count => (8, [if recorded then 0 else 1] ++ blank 3 ++ field32 frame ++ field32 count)
  | .directive event dir reel =>
    (9, [codeIn [.created, .positioned, .inTransit, .shelved, .cancelled] event] ++ directiveFields dir reel ++ blank 1)
  | .linkError cause =>
    (10, match cause with
      | .crc tag => [0, 1, tag, 0]
      | .length tag => [1, 1, tag, 0]
      | .kind tag => [2, 1, tag, 0]
      | .overflow tag => [3, 1, tag, 0]
      | .linkLost => [4, 0, 0, 0])

/-- The code and the body of a readout, by the tables of section 10.4. -/
def readoutLayout : ReadoutBody → Nat × List Byte
  | .context c =>
    (1, [codeIn contextCodes c.ctx.state]
      ++ setField [c.ctx.gateLocked, c.ctx.powerOn, c.ctx.interrupted, c.ctx.planPending, c.sensors.present,
        c.sensors.gateClosed, c.sensors.attention, c.sensors.powerFault]
      ++ indexField c.ctx.profile ++ indexField c.ctx.defaultGrade ++ reelField c.ctx.reel ++ field32 c.ctx.nextFrame
      ++ field32 c.ctx.framesDecided ++ field32 c.ctx.splices ++ field32 c.ctx.perfFrames ++ field32 c.ctx.concealedTemporal
      ++ field32 c.ctx.concealedSpatial ++ field32 c.ctx.heldFrames ++ field32 c.ctx.markedFrames
      ++ field32 c.ctx.overrunFrames ++ wordField c.ctx.score ++ field8 c.ctx.maxShrink ++ indexField c.ctx.storageClass
      ++ (match c.place with
        | some n => field8 n
        | none => [0xFF])
      ++ [codeIn [.stopped, .paused, .running] c.motion] ++ commandField c.outstanding ++ commandField c.waiting
      ++ field8 c.timeout.val ++ blank 1 ++ bytes16 c.mask ++ blank 2)
  | .shotList shots full cues =>
    (2, field16 shots ++ flagField full ++ field8 cues.length
      ++ cues.flatMap fun c => field32 c.frame ++ indexField c.grade ++ blank 3)
  | .shot index shot =>
    (3, field8 index ++ [codeIn shotOriginCodes shot.origin, codeIn [.opened, .closed, .complete] shot.state]
      ++ indexField shot.binding ++ [BitVec.ofInt 8 shot.excursion] ++ blank 3 ++ field32 shot.first ++ lastField shot.last
      ++ field32 shot.emitted)
  | .map reel runs full => (4, reelField reel ++ field16 runs ++ flagField full ++ blank 1)
  | .run index run =>
    (5, field16 index ++ classField run.classes ++ actionField (some run.action) ++ field32 run.first ++ field16 run.count
      ++ blank 2)
  | .shelf first entries =>
    (6, field16 first ++ blank 2 ++ entries.flatMap fun e =>
      field8 e.storageClass.val ++ [codeIn [.unavailable, .free, .reserved, .occupied] e.state] ++ blank 2 ++ reelField e.reel)
  | .queue directives waiting =>
    (7, field8 directives ++ field8 waiting.length ++ blank 2 ++ waiting.flatMap fun e =>
      field8 e.deck.val ++ blank 1 ++ wordField e.score ++ reelField e.reel)
  | .directive place dir reel => (8, field8 place ++ directiveFields dir reel ++ blank 3)

/-- The values of a reply (section 10.4). -/
def valueLayout : ReplyValues → List Byte
  | .none => []
  | .count n => field16 n
  | .skipped n => field8 n
  | .trims rLift rGain gLift gGain bLift bGain => [rLift, rGain, gLift, gGain, bLift, bGain].flatMap field8

/-- The statuses of a reply in the order of their codes (section 10.4). -/
def statusCodes : List Status :=
  [.ok, .busy, .badState, .range, .duplicate, .full, .late, .inUse, .noPosition, .laneDown, .unknown]

/-- The bytes of a report (section 10.4, R197). -/
def reportLayout : Report → List Byte
  | .reply r => wireParcel 4 r.deck r.tag 1 ([r.code, codeIn statusCodes r.status] ++ blank 2 ++ valueLayout r.values)
  | .notice n =>
    wireParcel 4 (match n.deck with
      | some d => BitVec.ofNat 8 d.val
      | none => 0xFF) 0 2
      (field8 (noticeLayout n.body).1 ++ field8 n.repeats ++ flagField n.droppedBefore ++ blank 1 ++ (noticeLayout n.body).2)
  | .readout r =>
    wireParcel 4 r.deck r.tag 3 (field8 (readoutLayout r.body).1 ++ field8 r.sequence ++ blank 2 ++ (readoutLayout r.body).2)

/-- The bytes of a picture parcel (section 10.5). -/
def pictureLayout (p : Picture) : List Byte :=
  wireParcel 2 (BitVec.ofNat 8 p.deck.val) 0 0
    (field32 p.frame ++ field16 p.firstLine ++ field16 p.lines.length
      ++ p.lines.flatten.flatMap fun x => bytes16 x.r ++ bytes16 x.g ++ bytes16 x.b)

/-- The fields of a trailer from its reel id to its boundary (section 10.5). -/
def trailerHead (reel : Option ReelId) (r : FrameRecord) : List Byte :=
  reelField reel ++ field32 r.number ++ bytes32 r.boundary

/-- The payload of a FULL trailer, with the record's measures and condition codes and the snapshot's grade record (section 10.5). -/
def fullTrailerLayout (reel : Option ReelId) (r : FrameRecord) (grade : Fin 64) (m : Measures) (codes : Byte) : List Byte :=
  trailerHead reel r ++ field32 r.deviation ++ bytes16 (BitVec.ofInt 16 r.offset) ++ field16 r.lines ++ blank 2 ++ field8 r.shot
    ++ frameFlagField r.flags ++ blank 1 ++ classField r.classes ++ indexField r.rule ++ actionField r.action ++ [codes]
    ++ field8 grade.val ++ field8 m.scratchRun ++ field8 m.flaggedTiles ++ field32 m.totalArea ++ field16 m.maxTile
    ++ field16 m.offsetMag ++ field32 m.pitchDev ++ field8 m.coasted ++ blank 3 ++ field32 m.shotPos ++ field32 r.clipHigh
    ++ field32 r.clipLow

/-- The payload of an OVERRUN trailer (section 10.5). -/
def overrunTrailerLayout (reel : Option ReelId) (r : FrameRecord) : List Byte :=
  trailerHead reel r ++ field32 r.deviation ++ bytes16 (BitVec.ofInt 16 r.offset) ++ field16 0 ++ blank 2 ++ field8 r.shot
    ++ blank 1 ++ [codeIn [.none, .slotted, .overrun, .unrecorded, .discarded] r.predecessor]
    ++ classField ⟨false, false, false, false, false, true⟩ ++ [0xFF] ++ actionField (some .lost) ++ blank 1 ++ [0xFF]
    ++ blank 30

/-- The payload of an ABORTED trailer (section 10.5). -/
def abortedTrailerLayout (reel : Option ReelId) (r : FrameRecord) (linesSent : Nat) : List Byte :=
  trailerHead reel r ++ blank 6 ++ field16 r.lines ++ field16 linesSent ++ field8 r.shot ++ frameFlagField r.flags ++ blank 1
    ++ classField r.classes ++ indexField r.rule ++ actionField r.action ++ blank 32

/-! ### Words for what a command leaves -/

/-- A context cleared at its move to EMPTY: everything but the gate and power mirrors (R22). -/
def ReelContext.cleared (c : ReelContext) : ReelContext :=
  { c with
    state := .empty, reel := none, profile := none, defaultGrade := none, nextFrame := 0, framesDecided := 0
    splices := 0, perfFrames := 0, concealedTemporal := 0, concealedSpatial := 0, heldFrames := 0, markedFrames := 0
    overrunFrames := 0, maxShrink := 0, interrupted := false, score := none, storageClass := none
    hasDirective := false, planPending := false }

/-- A disabled Registration Unit (R34). -/
def Rgu.disabled (r : Rgu) : Rgu :=
  { r with
    lock := .idle, boundary := none, prev := none, avg := none, candidate := none, current := none, chain := 0
    index := 0, misses := 0, numbersExhausted := false }

/-- A Registration Unit that has lost registration on a sighting, or on a lane event when it is absent (R42). -/
def Rgu.lost (r : Rgu) (sighting : Option FilmPos) : Rgu :=
  { r with
    lock := .acquire, boundary := none, current := none, candidate := none, avg := none, index := 0, misses := 0
    relockPending := true, prev := sighting, chain := if sighting = none then 0 else 1 }

/-- The interface of t is that of s but for what notices change: the report queue and the drop flag. -/
abbrev Ali.sameButNotices (a b : Ali) : Prop := { b with queue := a.queue, dropFlag := a.dropFlag } = a

/-- The entries of the other decks keep their places in the queues of the Damage Analyzer and the Repair Engine. -/
structure QueuesKept (s t : State) (d : DeckId) : Prop where
  analysis : (t.dan.queue.filter fun f => f.deck != d) = s.dan.queue.filter fun f => f.deck != d
  decision : (t.rpe.queue.filter fun f => f.deck != d) = s.rpe.queue.filter fun f => f.deck != d

/-- The rule for the storage class of a reel (R157): the class of the first enabled policy row whose least score and greatest shrinkage
admit it, else class 7. -/
def classRule (policies : Vector PolicyRow 8) (score maxShrink : Nat) (cls : Fin 8) : Prop :=
  let fits (i : Fin 8) :=
    policies[i].enabled = true ∧ policies[i].minScore ≤ score ∧ maxShrink ≤ policies[i].maxShrink
  (∃ i, fits i ∧ (∀ j, j < i → ¬ fits j) ∧ cls = policies[i].storageClass) ∨ ((∀ i, ¬ fits i) ∧ cls = 7)

/-- The rule for a position of a class (R163, R164): the lowest-numbered FREE position of that class, or none when there is none. -/
def positionRule (shelf : Shelf) (cls : Fin 8) (position : Option (Fin 2048)) : Prop :=
  let fits (i : Fin 2048) := shelf[i].state = .free ∧ shelf[i].storageClass = cls
  (∃ i, fits i ∧ (∀ j, j < i → ¬ fits j) ∧ position = some i) ∨ ((∀ i, ¬ fits i) ∧ position = none)

/-- The map with a position RESERVED, when one was found (R164). -/
def Shelf.reserve (shelf : Shelf) (position : Option (Fin 2048)) : Shelf :=
  match position with
  | some i => shelf.set i.val { shelf[i] with state := .reserved, occupant := none }
  | none => shelf

/-- The map with the position of a directive FREE again, its class kept (R169, R170). -/
def Shelf.freed (shelf : Shelf) (position : Option (Fin 2048)) : Shelf :=
  match position with
  | some i => shelf.set i.val { shelf[i] with state := .free, occupant := none }
  | none => shelf

/-- The directive has a reel: the source context's while ON_DECK, its own while IN_TRANSIT (R162). -/
def State.carries (s : State) (dir : Directive) (reel : ReelId) : Prop :=
  dir.phase = .onDeck ∧ (s.deck dir.source).ctx.reel = some reel ∨ dir.phase = .inTransit ∧ dir.reel = some reel

/-- The condition score by its formula (R155): 1000 less ten thousand times the points over the frames decided, not below 0. -/
def scoreOf (c : ReelContext) : Nat :=
  1000 - min 1000 ((4 * c.splices + 2 * c.perfFrames + c.concealedTemporal + c.concealedSpatial + 3 * c.heldFrames
    + 8 * c.markedFrames) * 10000 / max 1 c.framesDecided)

/-- What the hand-over of deck d's reel to the Shelf Planner leaves in it, given the reel's context (R164, R165): a directive at the
tail of the return queue with a class and a reserved position, or a place at the tail of the plan waiting list when the queue is full. -/
def Shp.handedOver (p q : Shp) (d : DeckId) (c : ReelContext) : Prop :=
  if p.directives.length < 16 then
    ∃ cls position, classRule p.policies (scoreOf c) c.maxShrink cls ∧ positionRule p.shelf cls position
      ∧ q = { p with
          directives := p.directives ++ [⟨none, d, cls, position, scoreOf c, c.maxShrink, c.interrupted, .onDeck⟩]
          shelf := Shelf.reserve p.shelf position }
  else q = { p with waiting := p.waiting ++ [d] }

/-- A RELEASED context of deck d whose reel has gone (R22, R167): cleared but for its mirrors, EMPTY, and its directive, if it has one,
IN_TRANSIT with the reel id. The CONTEXT_STATE notice goes first and shows no reel: the model's choice, log 20. -/
def State.departed (s : State) (d : DeckId) : State :=
  let k := s.deck d
  let t := (s.setDeck d { k with ctx := k.ctx.cleared }).notify d (.contextState .empty none)
  match s.shp.directives.find? fun (e : Directive) => e.phase == .onDeck && e.source == d && k.ctx.hasDirective with
  | none => t
  | some dir =>
    let gone : Directive := { dir with reel := k.ctx.reel, phase := .inTransit }
    let queue := t.shp.directives.map fun e => if e.phase = .onDeck ∧ e.source = d then gone else e
    let u : State := { t with shp := { t.shp with directives := queue } }
    u.notify d (.directive .inTransit gone k.ctx.reel)

/-- The context of deck d after it enters RELEASED, and goes on to EMPTY when present is already false (R22). -/
def State.released (s : State) (d : DeckId) : State :=
  let k := s.deck d
  let t := (s.setDeck d { k with ctx := { k.ctx with state := .released } }).notify d (.contextState .released k.ctx.reel)
  if k.chan.sensors.present = true then t else t.departed d

/-- What the end of an emission on deck d leaves alone, and the context that becomes FINISHED when the queue of a DRAINING deck is empty
(R20, R68). -/
structure EmissionEnded (s t : State) (d : DeckId) (sent : UpParcel) : Prop where
  sent : t.ali.sent = .parcel sent :: s.ali.sent
  emission : t.ali.emission = none
  input : t.ali.input = s.ali.input ∧ t.ali.link = s.ali.link ∧ t.ali.workstationHalt = s.ali.workstationHalt
    ∧ t.ali.upstreamHalt = s.ali.upstreamHalt ∧ t.ali.lastGranted = s.ali.lastGranted ∧ t.ali.readouts = s.ali.readouts
  state : (t.deck d).ctx.state =
    if (s.deck d).ctx.state = .draining ∧ (t.deck d).store.records = [] then .finished else (s.deck d).ctx.state
  context : { (t.deck d).ctx.unplanned with state := .empty } = { (s.deck d).ctx.unplanned with state := .empty }
  handOver : (s.deck d).ctx.state = .draining → (t.deck d).store.records = [] →
    (t.deck d).ctx.score = some (scoreOf (s.deck d).ctx) ∧ Shp.handedOver s.shp t.shp d (s.deck d).ctx
  noHandOver : ¬ ((s.deck d).ctx.state = .draining ∧ (t.deck d).store.records = []) → t.shp = s.shp
  channel : (t.deck d).chan = (s.deck d).chan ∧ (t.deck d).store.flow = (s.deck d).store.flow
    ∨ (s.deck d).ctx.state = .scanning ∧ (s.deck d).store.flow = .pauseAsked ∧ (t.deck d).store.flow = .clear
      ∧ (t.deck d).chan = (s.deck d).chan.sendFlow .run
  lane : (t.deck d).lane = (s.deck d).lane ∧ (t.deck d).intake = (s.deck d).intake
  registration : (t.deck d).rgu = (s.deck d).rgu
  cues : (t.deck d).table.cues = (s.deck d).table.cues
  others : ∀ e, e ≠ d → t.deck e = s.deck e
  tables : TablesKept s t
  analysis : t.dan = s.dan
  repair : t.rpe = s.rpe
  pending : t.pending = s.pending

/-- The loss of registration on deck d, step by step (R42): the current frame discarded when its record is CAPTURING (R63, R64), the unit back in
ACQUIRE, and the REGISTRATION LOSS notice with its cause, the sighting and the next frame number (R44). -/
def State.registrationLost (s : State) (d : DeckId) (cause : LossCause) (sighting : Option FilmPos) : State :=
  let k := s.deck d
  let cleared := match k.rgu.current with
    | some c => if (k.store.find c.number).map FrameRecord.phase = some Phase.capturing then s.discard d c.number else s
    | none => s
  (cleared.setDeck d { cleared.deck d with rgu := k.rgu.lost sighting }).notify d
    (.registration .loss cause sighting k.ctx.nextFrame)

/-- What a loss of registration leaves on deck d (R42): its steps, the unit back in ACQUIRE, and a CAPTURING record of the current frame discarded
with its slot FREE and its fate told (R63). -/
structure RegistrationLost (s t : State) (d : DeckId) (cause : LossCause) (sighting : Option FilmPos) : Prop where
  steps : t = s.registrationLost d cause sighting
  registration : (t.deck d).rgu = (s.deck d).rgu.lost sighting
  discarded : ∀ c r, (s.deck d).rgu.current = some c → (s.deck d).store.find c.number = some r → r.phase = .capturing →
    (t.deck d).store.find c.number = none
    ∧ (∀ i : Fin 8, r.slot = some i → (t.deck d).store.slots[i] = ⟨false, [], []⟩)
    ∧ ((s.deck d).store.lastConsumed = some c.number → (t.deck d).store.fate = .discarded)
  kept : (∀ c r, (s.deck d).rgu.current = some c → (s.deck d).store.find c.number = some r → r.phase ≠ .capturing) →
    (t.deck d).store = (s.deck d).store ∧ (t.deck d).table = (s.deck d).table
  context : (t.deck d).ctx = (s.deck d).ctx
  channel : (t.deck d).chan = (s.deck d).chan ∧ (t.deck d).store.flow = (s.deck d).store.flow
    ∨ (s.deck d).store.flow = .pauseAsked ∧ (t.deck d).store.flow = .clear
      ∧ (t.deck d).chan = (s.deck d).chan.sendFlow .run
  lane : (t.deck d).lane = (s.deck d).lane ∧ (t.deck d).intake = (s.deck d).intake
  map : (t.deck d).map = (s.deck d).map
  cues : (t.deck d).table.cues = (s.deck d).table.cues
  others : ∀ e, e ≠ d → t.deck e = s.deck e
  tables : TablesKept s t
  planner : t.shp = s.shp
  snapshot : t.gre.snapshot = s.gre.snapshot
  queues : QueuesKept s t d
  interface : s.ali.sameButNotices t.ali
  pending : t.pending = s.pending

/-- What follows when deck d's lane leaves UP for a state with a cause (R28, R30): the LANE_STATE notice, and in a scan the effect on
registration by its lock state. That the LANE_STATE notice comes first is the model's choice for a lost signal, log 34, and that what was received
of a lane parcel is dropped is its reading, log 40. -/
def LaneLeaves (s : State) (d : DeckId) (state : LaneState) (cause : LaneCause) (out : StepResult) : Prop :=
  let k := s.deck d
  let told := (s.setDeck d { k with lane := state, intake := [] }).notify d (.laneState state cause)
  (¬ (k.ctx.state = .scanning ∧ k.rgu.lock ≠ .idle) → out = .next told)
  ∧ (k.ctx.state = .scanning → k.rgu.lock = .acquire →
    out = .next (told.setDeck d { told.deck d with rgu := { k.rgu with chain := 0, prev := none, relockPending := true } }))
  ∧ (k.ctx.state = .scanning → k.rgu.lock = .locked ∨ k.rgu.lock = .coast →
    ∃ t, out = .next t ∧ RegistrationLost told t d .lane none)

/-- The record of the most recently consumed number is CAPTURING, so the end of the scan cuts the newest frame off (R77). -/
def DeckStore.newestCut (k : DeckStore) : Bool :=
  match k.lastConsumed.bind k.find with
  | some r => r.phase == .capturing
  | none => false

/-- The numbers of the records in a phase, in queue order. -/
def DeckStore.numbersOf (k : DeckStore) (phase : Phase) : List Nat :=
  (k.records.filter fun r => r.phase = phase).map FrameRecord.number

/-- The end of a scan on deck d, step by step (R18, R19): flow CLEAR and unit disabled (R34, R70; the flow state first: log 14), the CAPTURING
frame discarded (R63, R64), the OPEN shot closed or removed (R77), the channel as given and DRAINING with its notice, every EMITTED record examined
for slot release (R67) and every ANALYZED one for decidability (R107; in this order: log 41), and FINISHED when the queue is empty (R20). For a
power fault the place of the DRAINING notice after the close is the model's choice: log 42. -/
def State.scanEnds (s : State) (d : DeckId) (chan : Channel) : State :=
  let k := s.deck d
  let idle := s.setDeck d { k with rgu := k.rgu.disabled, store := { k.store with flow := .clear } }
  let cleared := match (k.store.numbersOf .capturing).head? with
    | some n => idle.discard d n
    | none => idle
  let shut := cleared.closeShotAtEnd d k.store.newestCut
  let l := shut.deck d
  let draining := (shut.setDeck d { l with chan := chan, ctx := { l.ctx with state := .draining } }).notify d
    (.contextState .draining k.ctx.reel)
  let released := ((draining.deck d).store.numbersOf .emitted).foldl (fun t n => t.releaseExam d n) draining
  (((released.deck d).store.numbersOf .analyzed).foldl (fun t n => t.decideExam d n) released).emptyHandoff d

/-- What a context of deck d that left SCANNING for DRAINING leaves (R18, R19, R20, R34, R70), with the channel it leaves: the steps, and what they
come to. No FLOW RUN follows the discard: the model's reading, log 14. -/
structure ScanEnded (s t : State) (d : DeckId) (chan : Channel) : Prop where
  steps : t = s.scanEnds d chan
  state : (t.deck d).ctx.state = if (t.deck d).store.records = [] then .finished else .draining
  context : { (t.deck d).ctx.unplanned with state := .scanning } = { (s.deck d).ctx.unplanned with state := .scanning }
  handOver : (t.deck d).ctx.state = .finished →
    (t.deck d).ctx.score = some (scoreOf (s.deck d).ctx) ∧ Shp.handedOver s.shp t.shp d (s.deck d).ctx
  planned : (t.deck d).ctx.state = .finished →
    if s.shp.directives.length < 16 then
      (t.deck d).ctx.hasDirective = true ∧ (t.deck d).ctx.planPending = false
      ∧ (t.deck d).ctx.storageClass = t.shp.directives.getLast?.map Directive.storageClass
    else (t.deck d).ctx.planPending = true
  noHandOver : (t.deck d).ctx.state = .draining → t.shp = s.shp
  discarded : ∀ n r, ((s.deck d).store.numbersOf .capturing).head? = some n → (s.deck d).store.find n = some r →
    (t.deck d).store.find n = none
    ∧ (∀ i : Fin 8, r.slot = some i → (t.deck d).store.slots[i] = ⟨false, [], []⟩)
    ∧ ((s.deck d).store.lastConsumed = some n → (t.deck d).store.fate = .discarded)
  shots : (s.deck d).store.lastConsumed ≠ none →
    (∀ (i j : Nat) x y, (s.deck d).table.shots[i]? = some x → (s.deck d).table.shots[j]? = some y → x.state = .opened →
      y.state = .opened → i = j) →
    ∀ sh ∈ (t.deck d).table.shots, sh.state ≠ .opened
  registration : (t.deck d).rgu = (s.deck d).rgu.disabled
  flow : (t.deck d).store.flow = .clear
  channel : (t.deck d).chan = chan
  lane : (t.deck d).lane = (s.deck d).lane ∧ (t.deck d).intake = (s.deck d).intake
  map : (t.deck d).map = (s.deck d).map
  cues : (t.deck d).table.cues = (s.deck d).table.cues
  others : ∀ e, e ≠ d → t.deck e = s.deck e
  tables : TablesKept s t
  snapshot : t.gre.snapshot = s.gre.snapshot
  queues : QueuesKept s t d
  interface : s.ali.sameButNotices t.ali
  pending : t.pending = s.pending

/-- The channel after an abort's STOP (R24): no command waits, and STOP is sent unless the transport is STOPPED with no RUN or PAUSE
outstanding. -/
def Channel.stopped (c : Channel) : Channel :=
  let c := { c with waiting := none }
  if c.motion = .stopped ∧ c.outstandingIs .run = false ∧ c.outstandingIs .pause = false then c
  else c.sendContext .stop none

/-- What an abort discards on deck d (R65): every record as R63 gives, in queue order (the model's choice, log 35); then all eight slots are FREE and
the queue is empty, the fate is DISCARDED when the most recently consumed number had a record, and no frame of the deck is left in the Damage
Analyzer (R92) or the Repair Engine (R124). -/
def State.storeAborted (s : State) (d : DeckId) : State :=
  let k := (s.deck d).store
  let u := (k.records.map FrameRecord.number).foldl (fun u n => u.discard d n) s
  let l := u.deck d
  let stays (f : FrameRef) : Bool := f.deck != d
  { u.setDeck d { l with store := { l.store with
      slots := Vector.replicate 8 ⟨false, [], []⟩
      records := []
      fate := if (k.lastConsumed.bind k.find).isSome then .discarded else k.fate } } with
    dan := { u.dan with queue := u.dan.queue.filter stays, active := u.dan.active.filter stays }
    rpe := { u.rpe with queue := u.rpe.queue.filter stays, active := u.rpe.active.filter stays } }

/-- The abort of deck d, step by step (R24): ABORTED with its notice, the pending command withdrawn, the unit disabled and the flow state CLEAR (log
14), the frame being emitted cut off (R191), every record discarded (R65), STOP, the OPEN shot closed or removed (R77), and the Shelf Planner told
(R171). -/
def State.aborted (s : State) (d : DeckId) : State :=
  let k := s.deck d
  let told := (s.setDeck d { k with ctx := { k.ctx with state := .aborted } }).notify d (.contextState .aborted k.ctx.reel)
  let l := told.deck d
  let idle := told.setDeck d { l with
    chan := { l.chan with waiting := none }, rgu := l.rgu.disabled, store := { l.store with flow := .clear } }
  let empty := (idle.cutOff d).storeAborted d
  let m := empty.deck d
  ((empty.setDeck d { m with chan := m.chan.stopped }).closeShotAtEnd d k.store.newestCut).abortPlan d

/-- What a context of deck d that entered ABORTED leaves (R24, R34, R65, R70, R92, R124, R171): the steps, and what they come to. -/
structure AbortEffects (s t : State) (d : DeckId) : Prop where
  steps : t = s.aborted d
  state : (t.deck d).ctx.state = .aborted
  context : { (t.deck d).ctx.unplanned with state := .aborted } = { (s.deck d).ctx.unplanned with state := .aborted }
  score : (t.deck d).ctx.score = (s.deck d).ctx.score
  directive : (t.deck d).ctx.hasDirective = false
  planner : (s.deck d).ctx.hasDirective = false → d ∉ s.shp.waiting → t.shp = s.shp
  cancelled : (s.deck d).ctx.hasDirective = true → s.shp.waiting = [] → ∀ before dir after,
    s.shp.directives = before ++ dir :: after → dir.phase = .onDeck → dir.source = d →
    (∀ e ∈ before, ¬ (e.phase = .onDeck ∧ e.source = d)) →
    t.shp = (if dir.position = none then { s with shp := { s.shp with directives := before ++ after } }
      else { s with shp := { s.shp with
        directives := before ++ after, shelf := Shelf.freed s.shp.shelf dir.position } }.assignmentPass).shp
  waiting : d ∈ s.shp.waiting → d ∉ t.shp.waiting ∧ (t.deck d).ctx.planPending = false
  registration : (t.deck d).rgu = (s.deck d).rgu.disabled
  records : (t.deck d).store.records = []
  slots : ∀ i : Fin 8, (t.deck d).store.slots[i] = ⟨false, [], []⟩
  fate : (t.deck d).store.fate =
    if ((s.deck d).store.lastConsumed.bind (s.deck d).store.find).isSome then .discarded else (s.deck d).store.fate
  lastConsumed : (t.deck d).store.lastConsumed = (s.deck d).store.lastConsumed
  flow : (t.deck d).store.flow = .clear
  shots : (s.deck d).store.lastConsumed ≠ none →
    (∀ (i j : Nat) x y, (s.deck d).table.shots[i]? = some x → (s.deck d).table.shots[j]? = some y → x.state = .opened →
      y.state = .opened → i = j) →
    ∀ sh ∈ (t.deck d).table.shots, sh.state ≠ .opened
  channel : (t.deck d).chan = (s.deck d).chan.stopped
  lane : (t.deck d).lane = (s.deck d).lane ∧ (t.deck d).intake = (s.deck d).intake
  map : (t.deck d).map = (s.deck d).map
  cues : (t.deck d).table.cues = (s.deck d).table.cues
  others : ∀ e, e ≠ d → { t.deck e with ctx := (t.deck e).ctx.unplanned } = { s.deck e with ctx := (s.deck e).ctx.unplanned }
  tables : TablesKept s t
  analysis : t.dan.queue = s.dan.queue.filter (fun f => f.deck != d) ∧ t.dan.active = s.dan.active.filter fun f => f.deck != d
  repair : t.rpe.queue = s.rpe.queue.filter (fun f => f.deck != d) ∧ t.rpe.active = s.rpe.active.filter fun f => f.deck != d
  pending : t.pending = s.pending

/-- What an abort of deck d does to the Grade Engine's snapshot and to the frame being emitted (R137, R191): a trailer on the wire completes
without effect, a full frame otherwise leaves its aborted trailer waiting, and an OVERRUN grant is dropped. -/
structure EmissionCutOff (s t : State) (d : DeckId) : Prop where
  snapshot : t.gre.snapshot = s.gre.snapshot.filter fun n => n.deck != d
  interface : s.ali.sameButNotices { t.ali with emission := s.ali.emission, aborted := s.ali.aborted }
  otherDeck : (∀ e ∈ s.ali.emission, e.deck ≠ d) →
    t.ali.emission = s.ali.emission ∧ t.ali.aborted = s.ali.aborted
  trailer : ∀ e ∈ s.ali.emission, e.deck = d → e.sending = true → (∃ x, s.ali.wire = some (.trailer x)) →
    t.ali.emission = some { e with voided := true } ∧ t.ali.aborted = s.ali.aborted
  overrun : ∀ e ∈ s.ali.emission, e.deck = d → ¬ (e.sending = true ∧ ∃ x, s.ali.wire = some (.trailer x)) →
    e.overrun = true → t.ali.emission = none ∧ t.ali.aborted = s.ali.aborted
  full : ∀ e ∈ s.ali.emission, e.deck = d → ¬ (e.sending = true ∧ ∃ x, s.ali.wire = some (.trailer x)) →
    e.overrun = false → ∀ r, (s.deck d).store.find e.frame = some r →
      t.ali.emission = none
      ∧ ∃ w, t.ali.aborted = some w ∧ w.deck = d ∧ w.reel = (s.deck d).ctx.reel
        ∧ w.record = { r with flags := { r.flags with aborted := true } } ∧ w.linesSent = e.linesSent
        ∧ (e.sending = false → w.inFlight = none)
        ∧ ∀ q, e.sending = true → s.ali.wire = some (.picture q) → w.inFlight = some q.lines.length

/-- A deck as a reset leaves it, with the levels it samples, the lane state it leaves and the bytes of a lane parcel it leaves there (R27, R34, R71,
R72, R81, R128). -/
structure DeckReset (k : Deck) (levels : Sensors) (lane : LaneState) (intake : List Byte) : Prop where
  sensors : k.chan.sensors = levels
  outstanding : k.chan.outstanding.map Outstanding.command = some ⟨.unlockGate, .context, none⟩
  waiting : k.chan.waiting = some ⟨.powerOff, .context, none⟩
  motion : k.chan.motion = .stopped
  timeout : k.chan.timeout = 2
  mask : k.chan.mask = 0x01FF#16
  state : k.ctx.state = if levels.present = true ∧ levels.gateClosed = true then .loaded else .empty
  context : { k.ctx with state := .empty } = k.ctx.cleared
  mirrors : k.ctx.gateLocked = false ∧ k.ctx.powerOn = false
  lane : k.lane = lane ∧ k.intake = intake
  registration : { k.rgu.disabled with lock := k.rgu.lock } = k.rgu ∧ k.rgu.lock = .idle
  slots : ∀ i : Fin 8, k.store.slots[i] = ⟨false, [], []⟩
  records : k.store.records = []
  fate : k.store.fate = .none
  flow : k.store.flow = .clear
  table : k.table = ⟨[], false, []⟩
  map : k.map = ⟨none, [], false⟩

/-- The shared tables and queues as a reset leaves them (R11, R92, R103, R108, R110, R130, R132, R134, R156, R158, R173). -/
structure EnginesReset (t : State) : Prop where
  profiles : ∀ i : Fin 8, t.profiles[i] = none
  analysis : t.dan.queue = [] ∧ t.dan.active = none
  comparators : ∀ i : Fin 8, t.dan.comparators[i] = ⟨false, .totalArea, .atLeast, 0⟩
  repair : t.rpe.queue = [] ∧ t.rpe.active = none
  rules : ∀ i : Fin 32, t.rpe.rules[i] = ⟨false, ⟨false, false, false, false, false, false⟩, none, .pass, none, .pass⟩
  grades : ∀ i : Fin 64, t.gre.grades[i] = ⟨⟨1024, 2, 0, 8, 8⟩, ⟨1024, 2, 0, 8, 8⟩, ⟨1024, 2, 0, 8, 8⟩, none, 0⟩
  curves : ∀ (i : Fin 16) (k : Fin 33), (t.gre.curves[i][k]).toNat = min (k.val * 2048) 65535
  snapshot : t.gre.snapshot = none
  policies : ∀ i : Fin 8, t.shp.policies[i] = ⟨false, 0, 0, 0⟩
  shelf : ∀ i : Fin 2048, t.shp.shelf[i] = ⟨0, .unavailable, none⟩
  directives : t.shp.directives = [] ∧ t.shp.waiting = []

end Sys2Proof.Machine
end

