-- ==== Sys2Proof/Certificates/Slice0/Obligations.lean ====
section
/-! DEFINITION. The statements about the part, each a proposition that a prover settles. `s` is the state before a command, `t` the state
after it. -/

open Sys2Proof Sys2Proof.Machine

/-! ### Steps and takes -/

/-- A step carries out the command at the front of the queue on the queue's rest: first in, first out. -/
def Obligations.StepRunsTheFrontCommand : Prop :=
  ∀ (c : Instr) (rest : List Instr) (s : State), s.pending = c :: rest → step s = exec c { s with pending := rest }

/-- No command stops the part: every step answers a next state. With no command waiting it is the same state: the model's choice, log 1. -/
def Obligations.StepNeverStops : Prop :=
  (∀ s : State, ∃ t, step s = .next t) ∧ ∀ s : State, s.pending = [] → step s = .next s

/-- The checks at the take (R196): an unknown code, a wrong length, a deck above 3 and a reserved bit that is not zero are refused before
delivery, and nothing but the take and the reply happens. -/
def Obligations.TakeChecksRefuse : Prop :=
  ∀ (s : State) (p : ControlParcel) (rest : List ControlParcel), s.takeable p rest →
    ((∀ c row, requestRow c = some row → p.code ≠ row.1) → exec .unknownRequest s = .next (s.refused p rest .unknown))
    ∧ ∀ (c : Instr) (code : Byte) (length : Nat) (deckScoped : Bool), requestRow c = some (code, length, deckScoped) →
      p.code = code →
      (p.body.length ≠ length ∨ (deckScoped = true ∧ 3 < p.deck.toNat) ∨ ¬ reservedClear code p.body) →
      exec c s = .next (s.refused p rest .range)

/-- A take that cannot happen now changes nothing (R178). The row of the take whose code is not at the head of the buffer changes nothing
either: the model's choice, log 2 and log 3. -/
def Obligations.TakesWait : Prop :=
  ∀ s : State,
    (∀ (c : Instr) (code : Byte) (length : Nat) (deckScoped : Bool), requestRow c = some (code, length, deckScoped) →
      (∀ p rest, s.takeable p rest → p.code ≠ code) → exec c s = .next s)
    ∧ ((∀ p rest, s.takeable p rest → ∃ c row, requestRow c = some row ∧ p.code = row.1) →
      exec .unknownRequest s = .next s)

/-! ### Requests of the Deck Slot Controller -/

/-- BIND_REEL (R13). That the most recently consumed number becomes absent is the model's reading, log 16, as is the reply before the
CONTEXT_STATE notice, log 11. -/
def Obligations.BindReelFollowsR13 : Prop :=
  ∀ (s : State) (d : DeckId) (tag : Byte) (reel : ReelId) (profile grade : Byte) (rest : List ControlParcel),
    let p := deckParcel d tag 0x01 (bytes32 reel ++ [profile, grade, 0, 0])
    let k := s.deck d
    s.takeable p rest →
    exec .bindReel s = .next (
      if h : reel = 0 ∨ 7 < profile.toNat ∨ 63 < grade.toNat then s.refused p rest .range
      else if k.ctx.state ≠ .loaded then s.refused p rest .badState
      else if s.profiles[profile.toNat]'(by omega) = none then s.refused p rest .badState
      else if (∃ e : DeckId, (s.deck e).ctx.reel = some reel)
          ∨ (∃ dir ∈ s.shp.directives, dir.phase = .inTransit ∧ dir.reel = some reel)
          ∨ (∃ i : Fin 2048, s.shp.shelf[i].occupant = some reel) then s.refused p rest .duplicate
      else
        ((s.answered p rest .ok .none).setDeck d { k with
          ctx := { k.ctx with
            state := .bound, reel := some reel, profile := some ⟨profile.toNat, by omega⟩
            defaultGrade := some ⟨grade.toNat, by omega⟩, nextFrame := 0, framesDecided := 0, splices := 0
            perfFrames := 0, concealedTemporal := 0, concealedSpatial := 0, heldFrames := 0, markedFrames := 0
            overrunFrames := 0, maxShrink := 0, interrupted := false, planPending := false, score := none
            storageClass := none, hasDirective := false }
          table := ⟨[], false, []⟩
          map := ⟨some reel, [], false⟩
          store := { k.store with lastConsumed := none }
          chan := k.chan.sendContext .lockGate none }).notify d (.contextState .bound (some reel)))

/-- UNBIND_REEL (R14). That the notice shows the reel id absent is the model's reading, log 20, as is the reply before the notice, log 11. -/
def Obligations.UnbindReelFollowsR14 : Prop :=
  ∀ (s : State) (d : DeckId) (tag : Byte) (rest : List ControlParcel),
    let p := deckParcel d tag 0x02 []
    let k := s.deck d
    let c := k.chan.withdraw [.lockGate]
    s.takeable p rest →
    exec .unbindReel s = .next (
      if k.ctx.state ≠ .bound then s.refused p rest .badState
      else
        ((s.answered p rest .ok .none).setDeck d { k with
          ctx := { k.ctx with state := .loaded, reel := none, profile := none, defaultGrade := none }
          chan := if k.ctx.gateLocked = true ∧ c.outstandingIs .unlockGate = false then c.sendContext .unlockGate none
            else c }).notify d (.contextState .loaded none))

/-- START_SCAN (R17), with the enabling of the Registration Unit (R34) and the flow state and fate of a new scan (R70). The reply joins before the
notice: log 11. -/
def Obligations.StartScanFollowsR17 : Prop :=
  ∀ (s : State) (d : DeckId) (tag : Byte) (rest : List ControlParcel),
    let p := deckParcel d tag 0x03 []
    let k := s.deck d
    s.takeable p rest →
    exec .startScan s = .next (
      if k.ctx.state ≠ .bound then s.refused p rest .badState
      else if k.ctx.gateLocked = false ∨ k.ctx.powerOn = false then s.refused p rest .badState
      else if k.lane ≠ .up then s.refused p rest .laneDown
      else
        ((s.answered p rest .ok .none).setDeck d { k with
          ctx := { k.ctx with state := .scanning }
          store := { k.store with flow := .clear, fate := .none }
          rgu := { k.rgu with
            lock := .acquire, firstLock := true, relockPending := false, numbersExhausted := false, chain := 0
            prev := none, candidate := none, boundary := none, current := none }
          chan := k.chan.sendContext .run none }).notify d (.contextState .scanning k.ctx.reel))

/-- DECK_COMMAND (R7). -/
def Obligations.DeckCommandFollowsR7 : Prop :=
  ∀ (s : State) (d : DeckId) (tag code : Byte) (rest : List ControlParcel),
    let p := deckParcel d tag 0x07 [code, 0, 0, 0]
    let k := s.deck d
    s.takeable p rest →
    (code.toNat ∈ [0, 1, 6] ∨ 9 < code.toNat → exec .deckCommand s = .next (s.refused p rest .range))
    ∧ ∀ cmd, (code.toNat, cmd) ∈ [(2, SlotCommand.powerOn), (3, .powerOff), (4, .run), (5, .pause), (7, .indicatorOff),
        (8, .indicatorOn), (9, .indicatorBlink)] →
      exec .deckCommand s = .next (
        if k.chan.outstanding ≠ none ∨ k.chan.waiting ≠ none then s.refused p rest .busy
        else if cmd = .powerOn ∧ k.chan.sensors.powerFault = true then s.refused p rest .badState
        else if cmd = .powerOff ∧ k.ctx.state = .scanning then s.refused p rest .badState
        else
          (s.answered p rest .ok .none).setDeck d { k with
            chan := { k.chan with outstanding := some ⟨⟨cmd, .workstation, none⟩, k.chan.timeout⟩ } })

/-- SET_DECK_EVENTS (R8). -/
def Obligations.SetDeckEventsFollowsR8 : Prop :=
  ∀ (s : State) (d : DeckId) (tag timeout : Byte) (mask : Word16) (rest : List ControlParcel),
    let p := deckParcel d tag 0x08 (bytes16 mask ++ [timeout, 0])
    let k := s.deck d
    s.takeable p rest → mask.toNat < 512 →
    exec .setDeckEvents s = .next (
      if h : 3 < timeout.toNat then s.refused p rest .range
      else
        (s.answered p rest .ok .none).setDeck d { k with
          chan := { k.chan with mask := mask, timeout := ⟨timeout.toNat, by omega⟩ } })

/-- END_SCAN and a TAIL mark (R18): what they leave, and when they do not apply (R32). The bytes of the mark arrive at an intake that holds none
(R199). That no FLOW RUN follows the discard of the CAPTURING frame is the model's reading, log 14, as are the order of the examinations, log 41,
and the reply before the notices, log 11. -/
def Obligations.EndScanAndTailFollowR18 : Prop :=
  ∀ (s : State) (d : DeckId),
    let k := s.deck d
    let chan := (k.chan.withdraw [.run, .pause]).sendContext .stop none
    (∀ (tag : Byte) (rest : List ControlParcel),
      let p := deckParcel d tag 0x04 []
      s.takeable p rest →
      (k.ctx.state ≠ .scanning → exec .endScan s = .next (s.refused p rest .badState))
      ∧ (k.ctx.state = .scanning →
        ∃ t, exec .endScan s = .next t ∧ ScanEnded (s.answered p rest .ok .none) t d chan))
    ∧ ∀ frame : LaneFrame, k.intake = [] → frame.fits → readMark frame = some 2 →
      (¬ (k.lane = .up ∧ k.ctx.state = .scanning) → exec (.tail d frame.bytes) s = .next s)
      ∧ (k.lane = .up → k.ctx.state = .scanning →
        ∃ t, exec (.tail d frame.bytes) s = .next t ∧ ScanEnded s t d chan)

/-- ABORT_DECK (R23) and what the abort leaves (R24), with the cut-off of an emission (R137, R191). That the flow state is CLEAR before the records
are discarded is the model's reading, log 14; their order is its choice, log 35; the reply joins before the notices: log 11. -/
def Obligations.AbortDeckFollowsR23AndR24 : Prop :=
  ∀ (s : State) (d : DeckId) (tag : Byte) (rest : List ControlParcel),
    let p := deckParcel d tag 0x05 []
    let k := s.deck d
    let a := s.answered p rest .ok .none
    s.takeable p rest →
    (k.ctx.state ∉ [ContextState.bound, .scanning, .draining, .finished] →
      exec .abortDeck s = .next (s.refused p rest .badState))
    ∧ (k.ctx.state ∈ [ContextState.bound, .scanning, .draining, .finished] →
      ∃ t, exec .abortDeck s = .next t ∧ AbortEffects a t d ∧ EmissionCutOff a t d)

/-- RELEASE_REEL in FINISHED (R21) and in ABORTED (R25). The reply joins before the notices: log 11; the EMPTY notice
shows the reel id absent: log 20. -/
def Obligations.ReleaseReelFollowsR21AndR25 : Prop :=
  ∀ (s : State) (d : DeckId) (tag : Byte) (rest : List ControlParcel),
    let p := deckParcel d tag 0x06 []
    let k := s.deck d
    let a := s.answered p rest .ok .none
    s.takeable p rest →
    (k.ctx.state ≠ .finished → k.ctx.state ≠ .aborted → exec .releaseReel s = .next (s.refused p rest .badState))
    ∧ (k.ctx.state = .finished → exec .releaseReel s = .next (
        if k.ctx.hasDirective = false then s.refused p rest .badState
        else if k.chan.releasing then s.refused p rest .busy
        else a.setDeck d { k with chan := k.chan.sendContext .unlockGate (some .finished) }))
    ∧ (k.ctx.state = .aborted → exec .releaseReel s = .next (
        if k.chan.releasing then s.refused p rest .busy
        else if k.ctx.gateLocked = true ∨ k.chan.outstandingIs .lockGate = true then
          a.setDeck d { k with chan := k.chan.sendContext .unlockGate (some .aborted) }
        else a.released d))

/-- The lane states (R28), RETRAIN_LANE (R29) and what a lane that leaves UP does to registration (R30, R42). The LANE_STATE notice before the
REGISTRATION notice of a lost signal is the model's choice, log 34; that the bytes of a lane parcel partly received are dropped is its reading, log
40; the reply joins before the notices: log 11. -/
def Obligations.LaneStatesFollowR28ToR30 : Prop :=
  ∀ (s : State) (d : DeckId),
    let k := s.deck d
    exec (.laneSignalFound d) s = .next (
      if k.lane = .down then (s.setDeck d { k with lane := .training, intake := [] }).notify d (.laneState .training .signalFound)
      else s)
    ∧ exec (.laneTrained d) s = .next (
      if k.lane = .training then (s.setDeck d { k with lane := .up, intake := [] }).notify d (.laneState .up .trained)
      else s)
    ∧ (k.lane = .down → exec (.laneSignalLost d) s = .next s)
    ∧ (k.lane = .training → exec (.laneSignalLost d) s = .next
        ((s.setDeck d { k with lane := .down, intake := [] }).notify d (.laneState .down .signalLost)))
    ∧ (k.lane = .up → LaneLeaves s d .down .signalLost (exec (.laneSignalLost d) s))
    ∧ ∀ (tag : Byte) (rest : List ControlParcel),
      let p := deckParcel d tag 0x09 []
      s.takeable p rest →
      (k.lane = .down → exec .retrainLane s = .next (s.refused p rest .laneDown))
      ∧ (k.lane = .training → exec .retrainLane s = .next (s.refused p rest .busy))
      ∧ (k.lane = .up → LaneLeaves (s.answered p rest .ok .none) d .training .retrain (exec .retrainLane s))

/-- READ_CONTEXT (R26): one CONTEXT readout, its content fixed at the take. That the directive's place is counted from 0 is the model's choice,
log 37. -/
def Obligations.ReadContextFollowsR26 : Prop :=
  ∀ (s : State) (d : DeckId) (tag : Byte) (rest : List ControlParcel),
    let p := deckParcel d tag 0x0A []
    let k := s.deck d
    let place :=
      if k.ctx.hasDirective = true then s.shp.directives.findIdx? fun e => e.phase == .onDeck && e.source == d else none
    s.takeable p rest →
    exec .readContext s = .next (s.answeredWith p rest [(p.deck, .context
      ⟨k.ctx, k.chan.sensors, k.chan.motion, k.chan.outstanding.map Outstanding.command, k.chan.waiting, place,
        k.chan.timeout, k.chan.mask⟩)])

/-- LOAD_PROFILE (R11): the ranges of section 1.4, the product bound, and the profiles that a scan or a drain has in use. -/
def Obligations.LoadProfileFollowsR11 : Prop :=
  ∀ (s : State) (deck tag index perfs lock coast tolerance : Byte) (pitch offset width ir tile blotch : Word16)
      (rest : List ControlParcel),
    let p : ControlParcel := ⟨deck, tag, 0x10, [index, perfs, lock, coast] ++ bytes16 pitch ++ [tolerance, 0]
      ++ bytes16 offset ++ bytes16 width ++ bytes16 ir ++ bytes16 tile ++ bytes16 blotch ++ [0, 0]⟩
    let outOfRange :=
      ¬ (1 ≤ perfs.toNat ∧ perfs.toNat ≤ 8) ∨ ¬ (256 ≤ pitch.toNat ∧ pitch.toNat ≤ 16383) ∨ tolerance = 0
      ∨ ¬ (2 ≤ lock.toNat ∧ lock.toNat ≤ 15) ∨ 7 < coast.toNat
      ∨ ¬ (1024 ≤ width.toNat ∧ width.toNat ≤ 8192 ∧ width.toNat % 64 = 0) ∨ ir = 0 ∨ tile = 0 ∨ blotch = 0
      ∨ 65536 < (pitch.toNat + tolerance.toNat) * perfs.toNat
    s.takeable p rest →
    exec .loadProfile s = .next (
      if h : 7 < index.toNat ∨ outOfRange then s.refused p rest .range
      else if ∃ d : DeckId, ((s.deck d).ctx.state = .scanning ∨ (s.deck d).ctx.state = .draining)
          ∧ (s.deck d).ctx.profile.map Fin.val = some index.toNat then s.refused p rest .inUse
      else
        { s.answered p rest .ok .none with
          profiles := s.profiles.set index.toNat (some
            ⟨perfs.toNat, pitch.toNat, tolerance.toNat, lock.toNat, coast.toNat, offset.toNat, width.toNat, ir.toNat,
              tile.toNat, blotch.toNat⟩) (by omega) })

/-! ### Requests that load a table -/

/-- LOAD_COMPARATOR (R104) and LOAD_RULE (R111): what they refuse, and the entry they store. A flag byte above 1 as RANGE is the model's reading,
log 21. -/
def Obligations.LoadComparatorAndRuleStoreTheEntry : Prop :=
  ∀ (s : State) (deck tag index enabled : Byte) (rest : List ControlParcel),
    (∀ (measure relation : Byte) (limit : Word32),
      let p : ControlParcel := ⟨deck, tag, 0x11, [index, enabled, measure, relation] ++ bytes32 limit⟩
      s.takeable p rest →
      (7 < index.toNat ∨ 1 < enabled.toNat ∨ 7 < measure.toNat ∨ 1 < relation.toNat ∨ 16777215 < limit.toNat →
        exec .loadComparator s = .next (s.refused p rest .range))
      ∧ ∀ m r, (measure.toNat, m) ∈ measureCodes → (relation.toNat, r) ∈ [(0, Relation.atLeast), (1, .below)] →
        enabled.toNat ≤ 1 → limit.toNat ≤ 16777215 → ∀ h : index.toNat < 8,
        exec .loadComparator s = .next { s.answered p rest .ok .none with
          dan := { s.dan with
            comparators := s.dan.comparators.set index.toNat ⟨enabled.toNat == 1, m, r, limit.toNat⟩ h } })
    ∧ ∀ classes test pass fail fallback : Byte,
      let p : ControlParcel := ⟨deck, tag, 0x12, [index, enabled, classes, test, pass, fail, fallback, 0]⟩
      s.takeable p rest → (test.msb = false → test = 0) →
      (31 < index.toNat ∨ 1 < enabled.toNat ∨ 63 < classes.toNat ∨ (test.msb = true ∧ 7 < test.toNat % 64)
          ∨ 4 < pass.toNat ∨ (4 < fail.toNat ∧ fail ≠ 0xFF) ∨ fallback.toNat ∉ [0, 2, 4]
          ∨ (test.msb = false ∧ fail ≠ 0xFF) →
        exec .loadRule s = .next (s.refused p rest .range))
      ∧ ∀ passAction failAction fallbackAction, (pass.toNat, passAction) ∈ actionCodes →
        (fail = 0xFF ∧ failAction = none ∨ ∃ a, (fail.toNat, a) ∈ actionCodes ∧ failAction = some a) →
        (fallback.toNat, fallbackAction) ∈ [(0, Action.pass), (2, .concealSpatial), (4, .mark)] →
        enabled.toNat ≤ 1 → classes.toNat ≤ 63 → (test.msb = true ∨ failAction = none) →
        ∀ (h : index.toNat < 32) (ruleTest : Option RuleTest),
          (test.msb = false ∧ ruleTest = none
            ∨ test.msb = true
              ∧ ∃ code : Fin 8, test.toNat % 64 = code.val ∧ ruleTest = some ⟨code, !test.getLsbD 6⟩) →
        exec .loadRule s = .next { s.answered p rest .ok .none with
          rpe := { s.rpe with
            rules := s.rpe.rules.set index.toNat
              ⟨enabled.toNat == 1, ⟨classes.getLsbD 0, classes.getLsbD 1, classes.getLsbD 2, classes.getLsbD 3,
                classes.getLsbD 4, classes.getLsbD 5⟩, ruleTest, passAction, failAction, fallbackAction⟩ h } }

/-- LOAD_GRADE (R131): what it refuses, and the record it stores, whose trims become 8. -/
def Obligations.LoadGradeFollowsR131 : Prop :=
  ∀ (s : State) (deck tag index curve : Byte) (clipLimit : Word32) (r g b : GradeFields) (rest : List ControlParcel),
    let p : ControlParcel := ⟨deck, tag, 0x13,
      [index, curve, 0, 0] ++ bytes32 clipLimit ++ r.bytes ++ g.bytes ++ b.bytes⟩
    s.takeable p rest →
    (63 < index.toNat ∨ (15 < curve.toNat ∧ curve ≠ 0xFF) ∨ 16777215 < clipLimit.toNat ∨ ¬ r.inRange ∨ ¬ g.inRange
        ∨ ¬ b.inRange → exec .loadGrade s = .next (s.refused p rest .range))
    ∧ ∀ (h : index.toNat < 64) (c : Option (Fin 16)),
      (curve = 0xFF ∧ c = none ∨ ∃ i : Fin 16, curve.toNat = i.val ∧ c = some i) →
      clipLimit.toNat ≤ 16777215 → r.inRange → g.inRange → b.inRange →
      exec .loadGrade s = .next { s.answered p rest .ok .none with
        gre := { s.gre with
          grades := s.gre.grades.set index.toNat ⟨r.loaded, g.loaded, b.loaded, c, clipLimit.toNat⟩ h } }

/-- LOAD_CURVE (R133) and LOAD_POLICY (R156). A flag byte above 1 as RANGE is the model's reading, log 21. -/
def Obligations.LoadCurveAndPolicyStoreTheEntry : Prop :=
  ∀ (s : State) (deck tag index : Byte) (rest : List ControlParcel),
    (∀ knots : Vector Word16 33,
      let p : ControlParcel := ⟨deck, tag, 0x14, [index, 0] ++ knots.toList.flatMap bytes16⟩
      s.takeable p rest →
      (15 < index.toNat → exec .loadCurve s = .next (s.refused p rest .range))
      ∧ ∀ h : index.toNat < 16, exec .loadCurve s = .next { s.answered p rest .ok .none with
          gre := { s.gre with curves := s.gre.curves.set index.toNat knots h } })
    ∧ ∀ (enabled shrink cls : Byte) (score : Word16),
      let p : ControlParcel := ⟨deck, tag, 0x15, [index, enabled] ++ bytes16 score ++ [shrink, cls, 0, 0]⟩
      s.takeable p rest →
      (7 < index.toNat ∨ 1 < enabled.toNat ∨ 1000 < score.toNat ∨ 99 < shrink.toNat ∨ 6 < cls.toNat →
        exec .loadPolicy s = .next (s.refused p rest .range))
      ∧ ∀ (h : index.toNat < 8) (hc : cls.toNat ≤ 6), enabled.toNat ≤ 1 → score.toNat ≤ 1000 → shrink.toNat ≤ 99 →
        exec .loadPolicy s = .next { s.answered p rest .ok .none with
          shp := { s.shp with
            policies := s.shp.policies.set index.toNat
              ⟨enabled.toNat == 1, score.toNat, shrink.toNat, ⟨cls.toNat, by omega⟩⟩ h } }

/-- TRIM (R151, R152): what it refuses, the trims it moves within 0 to 15, and the reply that carries them. -/
def Obligations.TrimFollowsR151AndR152 : Prop :=
  ∀ (s : State) (deck tag index set code : Byte) (rest : List ControlParcel),
    let p : ControlParcel := ⟨deck, tag, 0x24, [index, set, code, 0]⟩
    s.takeable p rest → set.toNat < 8 → code.toNat < 16 →
    (63 < index.toNat ∨ set = 0 ∨ (code.getLsbD 0 = true ∧ code.getLsbD 1 = true)
        ∨ (code.getLsbD 2 = true ∧ code.getLsbD 3 = true) → exec .trim s = .next (s.refused p rest .range))
    ∧ (set ≠ 0 → (code.getLsbD 0 = false ∨ code.getLsbD 1 = false) → (code.getLsbD 2 = false ∨ code.getLsbD 3 = false) →
      ∀ h : index.toNat < 64,
      let moved (up down : Bool) (t : Nat) : Nat := if up then min 15 (t + 1) else if down then t - 1 else t
      let trimmed (named : Bool) (c : ChannelGrade) : ChannelGrade :=
        if named then
          { c with
            liftTrim := moved (code.getLsbD 0) (code.getLsbD 1) c.liftTrim
            gainTrim := moved (code.getLsbD 2) (code.getLsbD 3) c.gainTrim }
        else c
      let old := s.gre.grades[index.toNat]
      let r := trimmed (set.getLsbD 0) old.r
      let g := trimmed (set.getLsbD 1) old.g
      let b := trimmed (set.getLsbD 2) old.b
      exec .trim s = .next {
        s.answered p rest .ok (.trims r.liftTrim r.gainTrim g.liftTrim g.gainTrim b.liftTrim b.gainTrim) with
          gre := { s.gre with grades := s.gre.grades.set index.toNat { old with r := r, g := g, b := b } h } })

/-! ### Shots and cues -/

/-- ADD_CUE (R81) and DROP_CUE (R82). The checks of ADD_CUE are in the order of R81. -/
def Obligations.CuesFollowR81AndR82 : Prop :=
  ∀ (s : State) (d : DeckId) (tag : Byte) (frame : Word32) (rest : List ControlParcel),
    let k := s.deck d
    (∀ grade : Byte,
      let p := deckParcel d tag 0x20 (bytes32 frame ++ [grade, 0, 0, 0])
      let a := s.answered p rest .ok .none
      s.takeable p rest →
      (63 < grade.toNat ∧ grade ≠ 0xFF ∨ 16777215 < frame.toNat → exec .addCue s = .next (s.refused p rest .range))
      ∧ ∀ g : Option (Fin 64), (grade = 0xFF ∧ g = none ∨ ∃ i : Fin 64, grade.toNat = i.val ∧ g = some i) →
        frame.toNat ≤ 16777215 →
        let late := (k.ctx.state ≠ .bound ∧ k.ctx.state ≠ .scanning) ∨ frame.toNat < k.ctx.nextFrame
          ∨ k.rgu.numbersExhausted = true
        (late → exec .addCue s = .next (s.refused p rest .late))
        ∧ (¬ late → (∃ c ∈ k.table.cues, c.frame = frame.toNat) → exec .addCue s = .next (s.refused p rest .duplicate))
        ∧ (¬ late → (∀ c ∈ k.table.cues, c.frame ≠ frame.toNat) → 16 ≤ k.table.cues.length →
          exec .addCue s = .next (s.refused p rest .full))
        ∧ (¬ late → (∀ c ∈ k.table.cues, c.frame ≠ frame.toNat) → k.table.cues.length < 16 →
          ∃ cues, exec .addCue s = .next (a.setDeck d { k with table := { k.table with cues := cues } })
            ∧ cues.Perm (⟨frame.toNat, g⟩ :: k.table.cues)
            ∧ (k.table.cues.Pairwise (fun x y => x.frame < y.frame) → cues.Pairwise fun x y => x.frame < y.frame)))
    ∧ (let p := deckParcel d tag 0x21 (bytes32 frame)
      s.takeable p rest →
      exec .dropCue s = .next (
        if ∃ c ∈ k.table.cues, c.frame = frame.toNat then
          (s.answered p rest .ok .none).setDeck d { k with
            table := { k.table with cues := k.table.cues.filter fun c => c.frame ≠ frame.toNat } }
        else s.refused p rest .range))

/-- BIND_GRADE (R84) and SET_DEFAULT_GRADE (R85). -/
def Obligations.GradeBindingFollowsR84AndR85 : Prop :=
  ∀ (s : State) (d : DeckId) (tag grade : Byte) (rest : List ControlParcel),
    let k := s.deck d
    (∀ index : Byte,
      let p := deckParcel d tag 0x22 [index, grade, 0, 0]
      s.takeable p rest →
      (63 < grade.toNat ∧ grade ≠ 0xFF ∨ k.table.shots.length ≤ index.toNat →
        exec .bindGrade s = .next (s.refused p rest .range))
      ∧ ∀ (g : Option (Fin 64)) (sh : Shot),
        (grade = 0xFF ∧ g = none ∨ ∃ i : Fin 64, grade.toNat = i.val ∧ g = some i) →
        k.table.shots[index.toNat]? = some sh →
        exec .bindGrade s = .next (
          if sh.state = .complete then s.refused p rest .badState
          else
            (s.answered p rest .ok .none).setDeck d { k with
              table := { k.table with shots := k.table.shots.set index.toNat { sh with binding := g } } }))
    ∧ (let p := deckParcel d tag 0x23 [grade, 0, 0, 0]
      s.takeable p rest →
      exec .setDefaultGrade s = .next (
        if h : 63 < grade.toNat then s.refused p rest .range
        else if k.ctx.reel = none then s.refused p rest .badState
        else
          (s.answered p rest .ok .none).setDeck d { k with
            ctx := { k.ctx with defaultGrade := some ⟨grade.toNat, by omega⟩ } }))

/-- READ_SHOTS (R87) and READ_DEFECT_MAP (R129): the reply's count, and the readouts in their order. -/
def Obligations.DeckReadsFollowR87AndR129 : Prop :=
  ∀ (s : State) (d : DeckId) (tag : Byte) (rest : List ControlParcel),
    let k := s.deck d
    (∀ index : Byte,
      let p := deckParcel d tag 0x40 [index, 0, 0, 0]
      s.takeable p rest →
      exec .readShots s = .next (s.answeredWith p rest (
        (p.deck, .shotList k.table.shots.length k.table.fullNotice k.table.cues)
          :: ((List.range k.table.shots.length).filter fun i => index.toNat ≤ i ∧ i < index.toNat + 16).map fun i =>
            (p.deck, .shot i (k.table.shots.getD i default)))))
    ∧ ∀ index : Word16,
      let p := deckParcel d tag 0x41 (bytes16 index ++ [0, 0])
      s.takeable p rest →
      exec .readDefectMap s = .next (
        if 511 < index.toNat then s.refused p rest .range
        else s.answeredWith p rest (
          (p.deck, .map k.map.reel k.map.runs.length k.map.full)
            :: ((List.range k.map.runs.length).filter fun i => index.toNat ≤ i ∧ i < index.toNat + 16).map fun i =>
              (p.deck, .run i (k.map.runs.getD i default))))

/-- READ_SHELF (R161) and READ_QUEUE (R172). That a directive's place is counted from 0 is the model's choice, log 37. -/
def Obligations.PlannerReadsFollowR161AndR172 : Prop :=
  ∀ (s : State) (deck tag : Byte) (rest : List ControlParcel),
    let reelOf (dir : Directive) : Option ReelId :=
      if dir.phase = .onDeck then (s.deck dir.source).ctx.reel else dir.reel
    (∀ page : Byte,
      let p : ControlParcel := ⟨deck, tag, 0x42, [page, 0, 0, 0]⟩
      s.takeable p rest →
      (31 < page.toNat → exec .readShelf s = .next (s.refused p rest .range))
      ∧ (page.toNat ≤ 31 → ∃ entry : Nat → ShelfEntry,
        exec .readShelf s = .next (s.answeredWith p rest ((List.range 4).map fun q =>
          (0xFF, .shelf (64 * page.toNat + 16 * q) ((List.range 16).map fun j => entry (64 * page.toNat + 16 * q + j)))))
        ∧ ∀ i : Fin 2048,
          (entry i).storageClass = s.shp.shelf[i].storageClass ∧ (entry i).state = s.shp.shelf[i].state
          ∧ (s.shp.shelf[i].state = .occupied → (entry i).reel = s.shp.shelf[i].occupant)
          ∧ (s.shp.shelf[i].state = .free ∨ s.shp.shelf[i].state = .unavailable → (entry i).reel = none)
          ∧ ∀ dir ∈ s.shp.directives, dir.position = some i →
            (∀ e ∈ s.shp.directives, e.position = some i → e = dir) → s.shp.shelf[i].state = .reserved →
            (entry i).reel = reelOf dir))
    ∧ (let p : ControlParcel := ⟨deck, tag, 0x43, []⟩
      s.takeable p rest →
      exec .readQueue s = .next (s.answeredWith p rest (
        (0xFF, .queue s.shp.directives.length
          (s.shp.waiting.map fun d => ⟨d, (s.deck d).ctx.score, (s.deck d).ctx.reel⟩))
        :: s.shp.directives.zipIdx.map fun x =>
          (BitVec.ofNat 8 x.1.source.val, .directive x.2 x.1 (reelOf x.1)))))

/-! ### The Shelf Planner -/

/-- LOAD_SHELF (R159) and RELEASE_POSITION (R160), each with its assignment pass. That the reply joins before the POSITIONED notices of the pass is
the model's reading, log 11. -/
def Obligations.ShelfRequestsFollowR159AndR160 : Prop :=
  ∀ (s : State) (deck tag : Byte) (rest : List ControlParcel),
    (∀ (page : Byte) (entries : Vector Byte 64),
      let p : ControlParcel := ⟨deck, tag, 0x16, [page, 0] ++ entries.toList⟩
      let held (i : Fin 2048) := s.shp.shelf[i].state = .reserved ∨ s.shp.shelf[i].state = .occupied
      s.takeable p rest → (∀ k : Fin 64, entries[k] &&& 0x78 = 0) →
      (31 < page.toNat → exec .loadShelf s = .next (s.refused p rest .range))
      ∧ (page.toNat ≤ 31 → ∃ shelf : Shelf,
        exec .loadShelf s = .next { s.answered p rest .ok
            (.skipped ((List.finRange 2048).countP fun i : Fin 2048 =>
              i.val / 64 = page.toNat
              ∧ (s.shp.shelf[i].state = PositionState.reserved ∨ s.shp.shelf[i].state = PositionState.occupied))) with
          shp := { s.shp with shelf := shelf } }.assignmentPass
        ∧ (∀ i : Fin 2048, i.val / 64 ≠ page.toNat ∨ held i → shelf[i] = s.shp.shelf[i])
        ∧ ∀ (i : Fin 2048) (k : Fin 64), i.val = 64 * page.toNat + k.val → ¬ held i →
          shelf[i].storageClass.val = entries[k].toNat % 8
          ∧ shelf[i].state = (if entries[k].msb then .free else .unavailable)
          ∧ shelf[i].occupant = s.shp.shelf[i].occupant))
    ∧ ∀ position : Word16,
      let p : ControlParcel := ⟨deck, tag, 0x31, bytes16 position ++ [0, 0]⟩
      s.takeable p rest →
      exec .releasePosition s = .next (
        if h : 2047 < position.toNat then s.refused p rest .range
        else
          let i : Fin 2048 := ⟨position.toNat, by omega⟩
          if s.shp.shelf[i].state ≠ .occupied then s.refused p rest .badState
          else { s.answered p rest .ok .none with
            shp := { s.shp with shelf := Shelf.freed s.shp.shelf (some i) } }.assignmentPass)

/-- An assignment pass (R163): the awaiting directives take, in queue order, the lowest-numbered FREE position of their class; a POSITIONED notice
for each of them in that order, under its source deck; and what else it leaves alone. -/
def Obligations.AssignmentPassFollowsR163 : Prop :=
  ∀ (s : State), let t := s.assignmentPass
    let old (i : Nat) := s.shp.directives[i]?
    let takes (i : Nat) (p : Fin 2048) :=
      ∃ x y, old i = some x ∧ x.position = none ∧ t.shp.directives[i]? = some y ∧ y.position = some p
    let free (cls : Fin 8) (p : Fin 2048) := s.shp.shelf[p].state = .free ∧ s.shp.shelf[p].storageClass = cls
    let gained := (s.shp.directives.zip t.shp.directives).filterMap fun x =>
      if x.1.position = none ∧ x.2.position ≠ none then some x.2 else none
    let reelOf (dir : Directive) := if dir.phase = .onDeck then (s.deck dir.source).ctx.reel else dir.reel
    t.shp.directives.length = s.shp.directives.length
    ∧ (∀ (i : Nat) x, old i = some x →
      ∃ y, t.shp.directives[i]? = some y ∧ { y with position := x.position } = x
        ∧ (x.position ≠ none → y = x)
        ∧ (∀ p, takes i p → free x.storageClass p
          ∧ ∀ q, q < p → free x.storageClass q → ∃ j, j < i ∧ takes j q)
        ∧ (y.position = none → ∀ q, free x.storageClass q → ∃ j, j < i ∧ takes j q))
    ∧ (∀ i j p, takes i p → takes j p → i = j)
    ∧ (∀ p : Fin 2048, t.shp.shelf[p] = s.shp.shelf[p] ∧ (∀ i, ¬ takes i p)
      ∨ (∃ i, takes i p) ∧ t.shp.shelf[p] = { s.shp.shelf[p] with state := .reserved, occupant := none })
    ∧ t.shp.policies = s.shp.policies ∧ t.shp.waiting = s.shp.waiting
    ∧ t = gained.foldl (fun u dir => u.notify dir.source (.directive .positioned dir (reelOf dir))) { s with shp := t.shp }
    ∧ { t with shp := s.shp, ali := s.ali } = s ∧ s.ali.sameButNotices t.ali

/-- SHELVED (R168) and CANCEL_DIRECTIVE (R169), with the consequences of the leave in their order (R170): the position, the assignment
pass for a freed one, the notice, and the plan of the head of the waiting list; and what the abort of a context makes the planner do (R171). The
position in a CANCELLED notice is the model's choice, log 19; the reply joins before the notices: log 11. -/
def Obligations.DirectivesLeaveAsR168ToR170Say : Prop :=
  ∀ (s : State) (deck tag : Byte) (reel : ReelId) (rest : List ControlParcel) (before after : List Directive) (dir : Directive),
    let shelved : ControlParcel := ⟨deck, tag, 0x30, bytes32 reel⟩
    let cancel : ControlParcel := ⟨deck, tag, 0x32, bytes32 reel⟩
    (reel = 0 ∨ (∀ e ∈ s.shp.directives, ¬ s.carries e reel) →
      (s.takeable shelved rest → exec .shelved s = .next (s.refused shelved rest .range))
      ∧ (s.takeable cancel rest → exec .cancelDirective s = .next (s.refused cancel rest .range)))
    ∧ (reel ≠ 0 → s.shp.directives = before ++ dir :: after → s.carries dir reel → (∀ e ∈ before, ¬ s.carries e reel) →
      (s.takeable shelved rest → exec .shelved s = .next (
        if dir.phase = .onDeck then s.refused shelved rest .badState
        else match dir.position with
          | none => s.refused shelved rest .noPosition
          | some i =>
            (({ s.answered shelved rest .ok .none with
              shp := { s.shp with
                directives := before ++ after
                shelf := s.shp.shelf.set i.val { s.shp.shelf[i] with state := .occupied, occupant := some reel } } } :
              State).notify dir.source (.directive .shelved dir (some reel))).planHead))
      ∧ (s.takeable cancel rest →
        let left : State :=
          { s.answered cancel rest .ok .none with
            shp := { s.shp with directives := before ++ after, shelf := Shelf.freed s.shp.shelf dir.position } }
        exec .cancelDirective s = .next (
          if dir.phase = .onDeck then s.refused cancel rest .badState
          else
            ((if dir.position = none then left else left.assignmentPass).notify dir.source
              (.directive .cancelled dir (some reel))).planHead)))
    ∧ ∀ d : DeckId,
      let k := s.deck d
      let unlisted (u : State) : State :=
        if d ∈ u.shp.waiting then
          ({ u with shp := { u.shp with waiting := u.shp.waiting.filter fun e => e ≠ d } } : State).setDeck d
            { u.deck d with ctx := { (u.deck d).ctx with planPending := false } }
        else u
      (k.ctx.hasDirective = false → s.abortPlan d = unlisted s)
      ∧ (k.ctx.hasDirective = true → s.shp.directives = before ++ dir :: after → dir.phase = .onDeck → dir.source = d →
        (∀ e ∈ before, ¬ (e.phase = .onDeck ∧ e.source = d)) →
        let left : State :=
          { s with shp := { s.shp with directives := before ++ after, shelf := Shelf.freed s.shp.shelf dir.position } }
        let cancelled :=
          ((if dir.position = none then left else left.assignmentPass).notify d
            (.directive .cancelled dir k.ctx.reel)).planHead
        s.abortPlan d = unlisted (cancelled.setDeck d
          { cancelled.deck d with ctx := { (cancelled.deck d).ctx with hasDirective := false } }))

/-- The plan of the context at the head of the plan waiting list (R164, R165, R157). -/
def Obligations.PlanHeadFollowsR164AndR165 : Prop :=
  ∀ (s : State) (d : DeckId) (waiting : List DeckId) (score : Nat) (cls : Fin 8) (position : Option (Fin 2048)),
    let k := s.deck d
    let dir : Directive := ⟨none, d, cls, position, score, k.ctx.maxShrink, k.ctx.interrupted, .onDeck⟩
    (s.shp.waiting = [] → s.planHead = s)
    ∧ (s.shp.waiting = d :: waiting → k.ctx.score = some score → classRule s.shp.policies score k.ctx.maxShrink cls →
      positionRule s.shp.shelf cls position →
      s.planHead =
        (({ s with shp := { s.shp with
            waiting := waiting, directives := s.shp.directives ++ [dir]
            shelf := Shelf.reserve s.shp.shelf position } } : State).setDeck d { k with
          ctx := { k.ctx with storageClass := some cls, hasDirective := true, planPending := false } }).notify d
            (.directive .created dir k.ctx.reel))

/-! ### Resets -/

/-- SOFT_RESET (R192): every block at its reset values, with the levels last seen (the model's choice, log 6) and the lane states kept;
the link, the input buffer, both halts and the parcel on the wire kept. That parcels partly received, on the link and on a lane, are kept too is the
model's choice, log 38. -/
def Obligations.SoftResetFollowsR192 : Prop :=
  ∀ (s : State) (deck tag : Byte) (rest : List ControlParcel),
    let p : ControlParcel := ⟨deck, tag, 0x7F, []⟩
    s.takeable p rest →
    ∃ t, exec .softReset s = .next t
      ∧ (∀ d, DeckReset (t.deck d) (s.deck d).chan.sensors (s.deck d).lane (s.deck d).intake) ∧ EnginesReset t
      ∧ t.ali = { s.ali.answered p rest .ok .none with
          queue := [.reply ⟨deck, tag, 0x7F, .ok, .none⟩], dropFlag := false, readouts := [], emission := none
          aborted := none, lastGranted := 3 }
      ∧ t.pending = s.pending

/-- POWER_ON_RESET (R193, R27, R31), from any state, with the levels and signals it finds. The commands that wait are the model's own and
stay (log 25), its record of what was sent is cleared (log 18), and nothing is left on the wire (its reading, log 30). -/
def Obligations.PowerOnResetFollowsR193 : Prop :=
  ∀ (s : State) (pins : ResetPins),
    ∃ t, exec (.powerOnReset pins) s = .next t
      ∧ (∀ d : DeckId,
        DeckReset (t.deck d) pins.sensors[d] (if pins.laneSignal[d] = true then .training else .down) [])
      ∧ EnginesReset t
      ∧ t.ali = ⟨if pins.linkSignal = true then .training else .down, [], [], false, false, [], false, [], none, none,
          none, 3, []⟩
      ∧ t.pending = s.pending

/-! ### The archive link, downstream -/

/-- A whole control parcel that arrives at an empty framer joins the input buffer with its header fields and its body as they were written
(R174, R194), with the HALT of the sixth parcel held; a full buffer discards it (R177). -/
def Obligations.ControlParcelRoundTrip : Prop :=
  ∀ (s : State) (p : ControlParcel), s.ali.link = .up → s.ali.rx = [] → p.body.length ≤ 1024 →
    exec (.controlParcelReceived (wireParcel 1 p.deck p.tag p.code p.body)) s = .next (
      if s.ali.input.length < 8 then
        { s with ali :=
          { s.ali with
            input := s.ali.input ++ [p]
            upstreamHalt := s.ali.upstreamHalt || decide (5 ≤ s.ali.input.length)
            sent := if s.ali.upstreamHalt = false ∧ 5 ≤ s.ali.input.length then .symbol .halt :: s.ali.sent
              else s.ali.sent } }
      else s.linkError (.overflow p.tag))

/-- Where the stream of bytes is cut into arrivals makes no difference to what it is framed into (R174), nor which of the two rows brings them.
Bytes before a sync word are skipped. A parcel with a wrong CRC is discarded with a LINK_ERROR of cause CRC, and the hunt goes on behind its sync
word; one of another kind with cause KIND, and the hunt goes on behind its CRC (R174); a header that announces more than 1024 bytes as soon as its
tenth byte has arrived, with cause LENGTH, and the hunt goes on behind the header (R195). Bytes that arrive while the link is not UP are lost
(R176). -/
def Obligations.FramingFollowsR174AndR195 : Prop :=
  ∀ s : State,
    (∀ first second : List Byte, exec (.overlongHeader first) s = exec (.controlParcelReceived first) s
      ∧ (s.ali.link = .up → ∃ t u, exec (.controlParcelReceived first) s = .next t
        ∧ exec (.controlParcelReceived second) t = .next u ∧ exec (.controlParcelReceived (first ++ second)) s = .next u)
      ∧ (s.ali.link ≠ .up → exec (.controlParcelReceived first) s = .next s ∧ exec (.overlongHeader first) s = .next s))
    ∧ (s.ali.link = .up → s.ali.rx = [] →
      (∀ (a b : Byte) (rest : List Byte), ¬ (a = 0x3C ∧ b = 0xE1) →
        exec (.controlParcelReceived (a :: b :: rest)) s = exec (.controlParcelReceived (b :: rest)) s)
      ∧ (∀ (kind deck tag code : Byte) (body rest : List Byte) (crc : Word16), body.length ≤ 1024 →
        crc ≠ crcOf (coveredBytes kind deck tag code body) →
        let covered := coveredBytes kind deck tag code body ++ bytes16 crc ++ rest
        exec (.controlParcelReceived ([0x3C, 0xE1] ++ covered)) s
          = exec (.controlParcelReceived covered) (s.linkError (.crc tag)))
      ∧ (∀ (kind deck tag code : Byte) (body rest : List Byte), body.length ≤ 1024 → kind ≠ 1 →
        exec (.controlParcelReceived (wireParcel kind deck tag code body ++ rest)) s
          = exec (.controlParcelReceived rest) (s.linkError (.kind tag)))
      ∧ ∀ (kind deck tag code : Byte) (length : Word32) (rest : List Byte), 1024 < length.toNat →
        let header := [0x3C, 0xE1, kind, deck, tag, code] ++ bytes32 length
        exec (.overlongHeader header) s = .next (s.linkError (.length tag))
        ∧ exec (.controlParcelReceived (header ++ rest)) s
          = exec (.controlParcelReceived rest) (s.linkError (.length tag)))

/-- HALT and GO (R175), and the states of the link (R176): what each event changes, and what goes on sending. That GO and the link coming UP begin the
next frame parcel inside the command is the model's reading, log 4. -/
def Obligations.LinkStatesAndFlowFollowR175AndR176 : Prop :=
  ∀ s : State,
    exec .halt s = .next (if s.ali.link = .up then { s with ali := { s.ali with workstationHalt := true } } else s)
    ∧ exec .go s = .next (
      if s.ali.link = .up ∧ s.ali.workstationHalt = true then
        ({ s with ali := { s.ali with workstationHalt := false } } : State).beginFrameParcel
      else s)
    ∧ exec .linkSignalFound s = .next (
      if s.ali.link = .down then { s with ali := { s.ali with link := .training } } else s)
    ∧ exec .linkTrained s = .next (
      if s.ali.link = .training then
        ({ s with ali := { s.ali with
          link := .up, sent := .symbol (if s.ali.upstreamHalt = true then .halt else .go) :: s.ali.sent } } :
        State).beginFrameParcel
      else s)
    ∧ exec .linkSignalLost s = .next (
      if s.ali.link = .down then s
      else ({ s with ali := { s.ali with link := .down, rx := [] } } : State).linkError .linkLost)

/-! ### The report queue -/

/-- The admission of a notice (R183), and the notice that finds no room (R184), for the deck-scoped kinds and for LINK_ERROR. -/
def Obligations.NoticesFollowR183AndR184 : Prop :=
  ∀ (s : State) (d : DeckId) (body : NoticeBody) (cause : LinkErrorCause),
    let kind := body.kind
    let room := s.ali.queue.length < 32 ∧ (s.ali.queue.filter Report.isNotice).length < 24
    let joined (deck : Option DeckId) (body : NoticeBody) : State :=
      { s with ali := { s.ali with
        queue := s.ali.queue ++ [.notice ⟨deck, body, 1, s.ali.dropFlag⟩], dropFlag := false } }
    ((s.deck d).chan.mask.getLsbD (kind - 1) = false → s.notify d body = s)
    ∧ ((s.deck d).chan.mask.getLsbD (kind - 1) = true →
      (room → s.notify d body = joined (some d) body)
      ∧ (¬ room → (∀ n, .notice n ∈ s.ali.queue → ¬ (n.deck = some d ∧ n.body.kind = kind)) →
        s.notify d body = { s with ali := { s.ali with dropFlag := true } })
      ∧ ∀ before after n, ¬ room → s.ali.queue = before ++ .notice n :: after → n.deck = some d → n.body.kind = kind →
        (∀ m, .notice m ∈ after → ¬ (m.deck = some d ∧ m.body.kind = kind)) →
        s.notify d body = { s with ali := { s.ali with
          queue := before ++ .notice { n with body := body, repeats := min (n.repeats + 1) 255 } :: after } })
    ∧ (room → s.linkError cause = joined none (.linkError cause))
    ∧ (¬ room → (∀ n, .notice n ∈ s.ali.queue → ¬ (n.deck = none ∧ n.body.kind = 10)) →
      s.linkError cause = { s with ali := { s.ali with dropFlag := true } })
    ∧ ∀ before after n, ¬ room → s.ali.queue = before ++ .notice n :: after → n.deck = none → n.body.kind = 10 →
      (∀ m, .notice m ∈ after → ¬ (m.deck = none ∧ m.body.kind = 10)) →
      s.linkError cause = { s with ali := { s.ali with
        queue := before ++ .notice { n with body := .linkError cause, repeats := min (n.repeats + 1) 255 } :: after } }

/-- READOUT_JOIN (R180), REPORT_SEND and the end of a report's sending (R182), and the bytes of every report that goes (section 10.4, R174). That a
frame parcel begins inside REPORT_PARCEL_SENT is the model's reading, log 4; that a row whose conditions fail changes nothing is its choice, log 2.
-/
def Obligations.ReportsFollowR180AndR182 : Prop :=
  ∀ s : State,
    exec .readoutJoin s = .next (
      match s.ali.readouts with
      | [] => s
      | r :: rest =>
        if s.ali.queue.length < 32 then
          { s with ali := { s.ali with queue := s.ali.queue ++ [.readout r], readouts := rest } }
        else s)
    ∧ exec .reportSend s = .next (
      match s.ali.queue, s.ali.wire with
      | r :: rest, none =>
        if s.ali.link = .up then { s with ali := { s.ali with queue := rest, wire := some (.report r) } } else s
      | _, _ => s)
    ∧ exec .reportParcelSent s = .next (
      match s.ali.wire with
      | some (.report r) =>
        if s.ali.link = .up then
          ({ s with ali := { s.ali with wire := none, sent := .parcel (.report r) :: s.ali.sent } } : State).beginFrameParcel
        else s
      | _ => s)
    ∧ ∀ r, UpParcel.bytes (.report r) = reportLayout r

/-! ### Emission -/

/-- GRANT (R186): the deck in turn and its record, and for a READY record its grade (R86), its snapshot (R135) and its phase. That the first parcel
begins inside GRANT is the model's reading, log 4; that a GRANT whose conditions fail changes nothing is its choice, log 2. -/
def Obligations.GrantFollowsR186 : Prop :=
  ∀ s : State,
    (¬ s.ali.grants ∨ (∀ d r, ¬ (s.deck d).store.offers r) → exec .grant s = .next s)
    ∧ ∀ (d after : DeckId) (r : FrameRecord), s.ali.grants → d = s.ali.lastGranted + 1 + after →
      (∀ i, i < after → ∀ q, ¬ (s.deck (s.ali.lastGranted + 1 + i)).store.offers q) → (s.deck d).store.offers r →
      let k := s.deck d
      let granted (full : Bool) : Ali :=
        { s.ali with emission := some ⟨d, r.number, !full, r.lines, 0, 0, false, false⟩, lastGranted := d }
      (r.phase = .overrun → exec .grant s = .next ({ s with ali := granted false } : State).beginFrameParcel)
      ∧ ∀ g : Fin 64, r.phase = .ready →
        ((k.table.shots[r.shot]?).bind Shot.binding = some g
          ∨ (k.table.shots[r.shot]?).bind Shot.binding = none ∧ k.ctx.defaultGrade = some g) →
        let emitting (q : FrameRecord) : FrameRecord :=
          if q.number = r.number then
            { q with
              phase := .emitting
              clipHigh := if r.lines = 0 then 0 else q.clipHigh
              clipLow := if r.lines = 0 then 0 else q.clipLow }
          else q
        let record := s.gre.grades[g]
        let t : State := { s with
          ali := granted true
          gre := { s.gre with
            snapshot := some ⟨d, r.number, g, record, record.curve.map fun i => s.gre.curves[i], 0, 0⟩ } }
        exec .grant s = .next
          (t.setDeck d { k with store := { k.store with records := k.store.records.map emitting } }).beginFrameParcel

/-- The next frame parcel (R182, R187 to R191): when it begins, what it is, and the bytes of picture parcels and trailers (section 10.5, R174). That
it begins in the command that makes it possible is the model's reading, log 4, and not while readouts wait its choice, log 28. -/
def Obligations.NextFrameParcelFollowsR187ToR191 : Prop :=
  ∀ s : State,
    (¬ s.ali.frameFree ∨ (s.ali.aborted = none ∧ s.ali.emission = none) → s.beginFrameParcel = s)
    ∧ (∀ w, s.ali.frameFree → s.ali.aborted = some w →
      s.beginFrameParcel = { s with ali := { s.ali with
        wire := some (.trailer (.aborted w.deck w.reel w.record w.linesSent)), aborted := none } })
    ∧ (∀ e r, s.ali.frameFree → s.ali.aborted = none → s.ali.emission = some e → e.sending = false →
      (s.deck e.deck).store.find e.frame = some r →
      let k := s.deck e.deck
      (e.overrun = true → s.beginFrameParcel = { s with ali := { s.ali with
        wire := some (.trailer (.overrun e.deck k.ctx.reel r)), emission := some { e with sending := true } } })
      ∧ (∀ n, e.overrun = false → s.gre.snapshot = some n → e.lines ≤ 16 * e.next →
        s.beginFrameParcel = { s with ali := { s.ali with
          wire := some (.trailer (.full e.deck k.ctx.reel r n.index)), emission := some { e with sending := true } } })
      ∧ ∀ n pf, e.overrun = false → s.gre.snapshot = some n → 16 * e.next < e.lines → s.profileOf e.deck = some pf →
        ∃ lines : List Line, lines.length = min 16 (e.lines - 16 * e.next)
          ∧ (∀ j, j < lines.length → lines[j]? = some (SlotMem.line (k.store.content r) pf.lineWidth (16 * e.next + j)))
          ∧ let graded (x : Sample) :=
              (n.record.r.grade n.curve x.r, n.record.g.grade n.curve x.g, n.record.b.grade n.curve x.b)
            let count (f : Graded → Nat) :=
              (lines.flatten.map fun x => f (graded x).1 + f (graded x).2.1 + f (graded x).2.2).sum
            s.beginFrameParcel = { s with
              gre := { s.gre with snapshot := some { n with
                high := min (n.high + count Graded.high) 16777215, low := min (n.low + count Graded.low) 16777215 } }
              ali := { s.ali with
                wire := some (.picture ⟨e.deck, e.frame, 16 * e.next, lines.map fun l => l.map fun x =>
                  ⟨(graded x).1.code, (graded x).2.1.code, (graded x).2.2.code⟩⟩)
                emission := some { e with next := e.next + 1, sending := true } } })
    ∧ (∀ p, UpParcel.bytes (.picture p) = pictureLayout p)
    ∧ ∀ (d : DeckId) (reel : Option ReelId) (r : FrameRecord),
      let trailer (code : Byte) (payload : List Byte) : List Byte := wireParcel 3 (BitVec.ofNat 8 d.val) 0 code payload
      (∀ g m codes, r.measures = some m → r.codes = some codes →
        UpParcel.bytes (.trailer (.full d reel r g)) = trailer 1 (fullTrailerLayout reel r g m codes))
      ∧ UpParcel.bytes (.trailer (.overrun d reel r)) = trailer 2 (overrunTrailerLayout reel r)
      ∧ ∀ n, UpParcel.bytes (.trailer (.aborted d reel r n)) = trailer 3 (abortedTrailerLayout reel r n)

/-- The end of a picture parcel's sending (R188, R198): the lines sent are counted for the frame or for its waiting aborted trailer, and
after the last one the running clip counts are written into the record (R149). That the next frame parcel begins inside PICTURE_PARCEL_SENT is the
model's reading, log 4; that the row changes nothing when no picture parcel is on the wire is its choice, log 2. -/
def Obligations.PictureParcelSentFollowsR188 : Prop :=
  ∀ s : State,
    ((s.ali.link ≠ .up ∨ ∀ p, s.ali.wire ≠ some (.picture p)) → exec .pictureParcelSent s = .next s)
    ∧ ∀ p, s.ali.link = .up → s.ali.wire = some (.picture p) →
      let done : Ali := { s.ali with wire := none, sent := .parcel (.picture p) :: s.ali.sent }
      (∀ e n, s.ali.emission = some e → e.sending = true → s.gre.snapshot = some n →
        let k := s.deck e.deck
        let t : State := { s with ali := { done with
          emission := some { e with linesSent := e.linesSent + p.lines.length, sending := false } } }
        exec .pictureParcelSent s = .next (
          if e.lines ≤ 16 * e.next then
            t.setDeck e.deck { k with store := k.store.update e.frame fun r =>
              { r with clipHigh := n.high, clipLow := n.low } }
          else t).beginFrameParcel)
      ∧ (∀ e, s.ali.emission = some e → e.sending = false →
        exec .pictureParcelSent s = .next ({ s with ali := done } : State).beginFrameParcel)
      ∧ (s.ali.emission = none →
        exec .pictureParcelSent s = .next ({ s with ali := { done with
          aborted := s.ali.aborted.map fun w =>
            { w with linesSent := w.linesSent + w.inFlight.getD 0, inFlight := none } } } : State).beginFrameParcel)

/-- The end of a FULL trailer's sending: the record EMITTED and perhaps freed (R66), the shot's account (R80), the defect map (R125 to R127) and the
end of the emission, step by step in the order of R189; and the trailers that an abort or a soft reset left without those steps (R191, R192). The
order of the notices of these steps is the model's reading, log 27; that the next frame parcel begins inside the row is its reading, log 4, and that
the row changes nothing when no FULL trailer is on the wire its choice, log 2. -/
def Obligations.FullTrailerSentFollowsR189 : Prop :=
  ∀ s : State,
    ((s.ali.link ≠ .up ∨ ∀ d reel r g, s.ali.wire ≠ some (.trailer (.full d reel r g))) →
      exec .fullTrailerSent s = .next s)
    ∧ ∀ d reel r0 g, s.ali.link = .up → s.ali.wire = some (.trailer (.full d reel r0 g)) →
      let parcel : UpParcel := .trailer (.full d reel r0 g)
      let done : Ali := { s.ali with wire := none, sent := .parcel parcel :: s.ali.sent }
      ((s.ali.emission = none ∨ ∃ e, s.ali.emission = some e ∧ e.sending = false) →
        exec .fullTrailerSent s = .next ({ s with ali := done } : State).beginFrameParcel)
      ∧ (∀ e, s.ali.emission = some e → e.sending = true → e.voided = true →
        exec .fullTrailerSent s = .next ({ s with
          ali := { done with emission := none }, gre := { s.gre with snapshot := none } } : State).beginFrameParcel)
      ∧ ∀ e r n sh act, s.ali.emission = some e → e.sending = true → e.voided = false →
        (s.deck e.deck).store.find e.frame = some r → r.phase = .emitting → s.gre.snapshot = some n →
        (s.deck e.deck).table.shots[r.shot]? = some sh → r.action = some act →
        let k := s.deck e.deck
        let high := decide (n.record.clipLimit < r.clipHigh)
        let low := decide (n.record.clipLimit < r.clipLow)
        let up := if high then min (sh.excursion + 1) 31 else sh.excursion
        let accounted : Shot :=
          { sh with
            emitted := min (sh.emitted + 1) 16777215
            excursion := if low then max (up - 1) (-32) else up }
        let sent : State := ({ s with ali := done } : State).setDeck e.deck { k with store := { k.store with
          records := k.store.records.map fun q => if q.number = e.frame then { q with phase := .emitted } else q } }
        let examined := (sent.releaseExam e.deck e.frame).releaseExamBefore e.deck e.frame
        let l := examined.deck e.deck
        let told := (examined.setDeck e.deck { l with table := { l.table with
          shots := l.table.shots.set r.shot accounted } }).completeExam e.deck r.shot
        let m := told.deck e.deck
        let handed := told.setDeck e.deck { m with map := m.map.entered r.number r.classes act }
        ∃ t, exec .fullTrailerSent s = .next t
          ∧ t = ({ handed with
            ali := { handed.ali with emission := none }, gre := { handed.gre with snapshot := none } } :
            State).beginFrameParcel
          ∧ EmissionEnded s t e.deck parcel ∧ t.gre.snapshot = none
          ∧ (k.mayFree e.frame (some sh) → (t.deck e.deck).store.find e.frame = none)
          ∧ (¬ k.mayFree e.frame (some sh) → (t.deck e.deck).store.find e.frame = some { r with phase := .emitted })
          ∧ (t.deck e.deck).shotSettled r.shot accounted
          ∧ (∀ i, i ≠ r.shot → (t.deck e.deck).table.shots[i]? = k.table.shots[i]?)
          ∧ (t.deck e.deck).map = k.map.entered r.number r.classes act

/-- The end of an OVERRUN trailer's sending, step by step in the order of R190, and of an aborted trailer's (R191), which hands nothing on. The order
of the notices of these steps is the model's reading, log 27; that the next frame parcel begins inside the rows is its reading, log 4, and that a row
changes nothing when its trailer is not on the wire its choice, log 2. -/
def Obligations.OverrunAndAbortedTrailersFollowR190AndR191 : Prop :=
  ∀ s : State,
    ((s.ali.link ≠ .up ∨ ∀ d reel r, s.ali.wire ≠ some (.trailer (.overrun d reel r))) →
      exec .overrunTrailerSent s = .next s)
    ∧ ((s.ali.link ≠ .up ∨ ∀ d reel r n, s.ali.wire ≠ some (.trailer (.aborted d reel r n))) →
      exec .abortedTrailerSent s = .next s)
    ∧ (∀ d reel r n, s.ali.link = .up → s.ali.wire = some (.trailer (.aborted d reel r n)) →
      exec .abortedTrailerSent s = .next ({ s with ali := { s.ali with
        wire := none, sent := .parcel (.trailer (.aborted d reel r n)) :: s.ali.sent } } : State).beginFrameParcel)
    ∧ ∀ d reel r0, s.ali.link = .up → s.ali.wire = some (.trailer (.overrun d reel r0)) →
      let parcel : UpParcel := .trailer (.overrun d reel r0)
      let done : Ali := { s.ali with wire := none, sent := .parcel parcel :: s.ali.sent }
      ((s.ali.emission = none ∨ ∃ e, s.ali.emission = some e ∧ e.sending = false) →
        exec .overrunTrailerSent s = .next ({ s with ali := done } : State).beginFrameParcel)
      ∧ (∀ e, s.ali.emission = some e → e.sending = true → e.voided = true →
        exec .overrunTrailerSent s = .next ({ s with ali := { done with emission := none } } : State).beginFrameParcel)
      ∧ ∀ e r sh, s.ali.emission = some e → e.sending = true → e.voided = false →
        (s.deck e.deck).store.find e.frame = some r → (s.deck e.deck).table.shots[r.shot]? = some sh →
        let k := s.deck e.deck
        let left := (({ s with ali := done } : State).dropRecord e.deck e.frame).emptyHandoff e.deck
        let l := left.deck e.deck
        let lost := l.map.entered r.number ⟨false, false, false, false, false, true⟩ .lost
        let told := (left.setDeck e.deck { l with map := lost }).completeExam e.deck r.shot
        ∃ t, exec .overrunTrailerSent s = .next t
          ∧ t = ({ told with ali := { told.ali with emission := none } } : State).beginFrameParcel
          ∧ EmissionEnded s t e.deck parcel
          ∧ (t.deck e.deck).store.records = k.store.records.filter (fun q => q.number ≠ e.frame)
          ∧ (t.deck e.deck).shotSettled r.shot sh
          ∧ (∀ i, i ≠ r.shot → (t.deck e.deck).table.shots[i]? = k.table.shots[i]?)
          ∧ (t.deck e.deck).map = k.map.entered r.number ⟨false, false, false, false, false, true⟩ .lost

/-! ### The deck lines -/

/-- A change of present or gateClosed that is no sensor fault (R1, R12, R15, R16, R22). A level already seen is no change: the model's choice,
log 31. That a BOUND context whose gate is not locked goes to EMPTY at once, an UNLOCK_GATE outstanding or not, is its choice, log 32; that the EMPTY
notice shows the reel id absent is its reading, log 20. -/
def Obligations.SensorChangesFollowR12R15AndR22 : Prop :=
  ∀ (s : State) (d : DeckId) (ofPresent level : Bool),
    let k := s.deck d
    let event : Instr := if ofPresent then .presentChange d level else .gateClosedChange d level
    let sensor : Sensor := if ofPresent then .present else .gateClosed
    let seen := if ofPresent then k.chan.sensors.present else k.chan.sensors.gateClosed
    let levels : Sensors :=
      if ofPresent then { k.chan.sensors with present := level } else { k.chan.sensors with gateClosed := level }
    let chan : Channel := { k.chan with sensors := levels }
    let changed (chan : Channel) (ctx : ReelContext) : State :=
      (s.setDeck d { k with chan := chan, ctx := ctx }).notify d (.slotEvent sensor level)
    let base := changed chan k.ctx
    (seen = level → exec event s = .next s)
    ∧ (seen ≠ level →
      (k.ctx.state = .empty → exec event s = .next (
        if levels.present = true ∧ levels.gateClosed = true then
          (changed chan { k.ctx with state := .loaded }).notify d (.contextState .loaded k.ctx.reel)
        else base))
      ∧ (k.ctx.state = .loaded → exec event s = .next (
        if level = false then (changed chan { k.ctx with state := .empty }).notify d (.contextState .empty k.ctx.reel)
        else base))
      ∧ (k.ctx.state = .bound → level = false → k.ctx.gateLocked = false → exec event s = .next (
        (changed (chan.withdraw [.lockGate])
          { k.ctx with state := .empty, reel := none, profile := none, defaultGrade := none }).notify d
            (.contextState .empty none)))
      ∧ (k.ctx.state = .released → exec event s = .next (
        if ofPresent = true ∧ level = false then base.departed d else base))
      ∧ (k.ctx.state = .aborted → exec event s = .next base)
      ∧ (k.ctx.state ∈ [ContextState.bound, .scanning, .draining, .finished] →
        level = true ∨ (k.ctx.gateLocked = false ∧ k.ctx.state ≠ .bound)
          ∨ (k.ctx.gateLocked = true ∧ k.chan.outstandingIs .unlockGate = true) →
        exec event s = .next base))

/-- A sensor fault (R16): the fall of present or gateClosed with the gate locked and no unlock outstanding aborts the reel (R24). That the flow
state is CLEAR before the records are discarded is the model's reading, log 14; their order is its choice, log 35. -/
def Obligations.SensorFaultAborts : Prop :=
  ∀ (s : State) (d : DeckId) (ofPresent : Bool),
    let k := s.deck d
    let event : Instr := if ofPresent then .presentChange d false else .gateClosedChange d false
    let sensor : Sensor := if ofPresent then .present else .gateClosed
    let levels : Sensors :=
      if ofPresent then { k.chan.sensors with present := false } else { k.chan.sensors with gateClosed := false }
    let base := (s.setDeck d { k with chan := { k.chan with sensors := levels } }).notify d (.slotEvent sensor false)
    levels ≠ k.chan.sensors → k.ctx.gateLocked = true → k.chan.outstandingIs .unlockGate = false →
    k.ctx.state ∈ [ContextState.bound, .scanning, .draining, .finished] →
    ∃ t, exec event s = .next t ∧ AbortEffects base t d ∧ EmissionCutOff base t d

/-- powerFault (R1, R10, R19) and the attention button (R1, R21). A level already seen is no change: the model's choice, log 31. That no FLOW RUN
follows the discard of the CAPTURING frame is the model's reading, log 14, as is the order of the examinations, log 41; that the CONTEXT_STATE
notice comes after the close of the shot is its choice, log 42. -/
def Obligations.PowerFaultAndAttentionFollowR10R19AndR21 : Prop :=
  ∀ (s : State) (d : DeckId),
    let k := s.deck d
    let off : Deck :=
      { k with
        chan := { k.chan with sensors := { k.chan.sensors with powerFault := true }, motion := .stopped }
        ctx := { k.ctx with powerOn := false } }
    let rise := (s.setDeck d off).notify d (.slotEvent .powerFault true)
    let drain :=
      (s.setDeck d { off with ctx := { off.ctx with interrupted := true } }).notify d (.slotEvent .powerFault true)
    let pressed (chan : Channel) : State :=
      (s.setDeck d { k with chan := { chan with sensors := { k.chan.sensors with attention := true } } }).notify d
        (.slotEvent .attention true)
    (k.chan.sensors.powerFault = true → exec (.powerFaultRise d) s = .next s)
    ∧ (k.chan.sensors.powerFault = false → k.ctx.state ≠ .scanning → exec (.powerFaultRise d) s = .next rise)
    ∧ (k.chan.sensors.powerFault = false → k.ctx.state = .scanning →
      ∃ t, exec (.powerFaultRise d) s = .next t ∧ ScanEnded drain t d (off.chan.withdraw [.run, .pause]))
    ∧ exec (.powerFaultFall d) s = .next (
      if k.chan.sensors.powerFault = true then
        (s.setDeck d { k with chan := { k.chan with sensors := { k.chan.sensors with powerFault := false } } }).notify d
          (.slotEvent .powerFault false)
      else s)
    ∧ exec (.attentionPress d) s = .next (
      if k.chan.sensors.attention = true then s
      else if k.ctx.state = .finished ∧ k.ctx.hasDirective = true ∧ ¬ k.chan.releasing then
        pressed (k.chan.sendContext .unlockGate (some .finished))
      else pressed k.chan)
    ∧ exec (.attentionFall d) s = .next
      (s.setDeck d { k with chan := { k.chan with sensors := { k.chan.sensors with attention := false } } })

/-- The end of a slot command other than UNLOCK_GATE (R4): the mirrors and the gate correction (R9), the notice, and the pending command
issued (R3). An answer that names no outstanding command is ignored. That the correction comes after the pending command is the model's reading,
log 13. -/
def Obligations.CommandEndsFollowR3R4AndR9 : Prop :=
  ∀ (s : State) (d : DeckId) (result : CommandResult) (cmd : SlotCommand),
    let k := s.deck d
    let event : Instr :=
      match result with
      | .done => .deckAnswerDone d cmd
      | .fault => .deckAnswerFault d cmd
      | .failed => .commandTimeout d
    (k.chan.outstanding = none → exec event s = .next s)
    ∧ (∀ o, k.chan.outstanding = some o → o.command.cmd ≠ cmd → result ≠ .failed → exec event s = .next s)
    ∧ ∀ o, k.chan.outstanding = some o → o.command.cmd = cmd → cmd ≠ .unlockGate →
      let ctx : ReelContext :=
        if result ≠ .done then k.ctx
        else match cmd with
          | .lockGate => { k.ctx with gateLocked := true }
          | .powerOn => if k.chan.sensors.powerFault = true then k.ctx else { k.ctx with powerOn := true }
          | .powerOff => { k.ctx with powerOn := false }
          | _ => k.ctx
      let motion : Motion :=
        if result ≠ .done then k.chan.motion
        else match cmd with
          | .run => .running
          | .pause => .paused
          | .stop => .stopped
          | .powerOff => .stopped
          | _ => k.chan.motion
      let chan : Channel :=
        { k.chan with
          motion := motion
          outstanding := k.chan.waiting.map fun w => ⟨w, k.chan.timeout⟩
          waiting := none }
      let correct := cmd = .lockGate ∧ result = .done ∧ (k.ctx.state = .empty ∨ k.ctx.state = .loaded)
      exec event s = .next
        ((s.setDeck d { k with ctx := ctx, chan := if correct then chan.sendContext .unlockGate none else chan }).notify d
          (.slotCommandDone cmd o.command.origin result))

/-- The end of an UNLOCK_GATE (R4, R9): the release that was made by it (R21, R25, R22), the fall that waited for it (R16, R15), or the gate mirror
alone. That these come before the command's notice follows R4 step 2 against the worked sequences: log 12, log 13. That at the end only the levels
are tested, not that one fell while this unlock was outstanding, is the model's choice, log 33; that the EMPTY notice shows the reel id absent, its
reading, log 20. -/
def Obligations.UnlockEndsFollowR4AndR16 : Prop :=
  ∀ (s : State) (d : DeckId) (o : Outstanding),
    let k := s.deck d
    let fallen := k.chan.sensors.present = false ∨ k.chan.sensors.gateClosed = false
    let issued (waiting : Option Command) : Channel :=
      { k.chan with outstanding := waiting.map fun w => ⟨w, k.chan.timeout⟩, waiting := none }
    let unlocked : ReelContext := { k.ctx with gateLocked := false }
    let told (result : CommandResult) : NoticeBody := .slotCommandDone .unlockGate o.command.origin result
    let releases :=
      o.command.release = some .finished ∧ k.ctx.state = .finished ∨ o.command.release = some .aborted ∧ k.ctx.state = .aborted
    k.chan.outstanding = some o → o.command.cmd = .unlockGate →
    (releases → exec (.deckAnswerDone d .unlockGate) s = .next
      (((s.setDeck d { k with ctx := unlocked, chan := issued k.chan.waiting }).released d).notify d (told .done)))
    ∧ (¬ releases → ¬ (k.ctx.state = .bound ∧ fallen) → exec (.deckAnswerDone d .unlockGate) s = .next
      ((s.setDeck d { k with ctx := unlocked, chan := issued k.chan.waiting }).notify d (told .done)))
    ∧ (¬ releases → k.ctx.state = .bound → fallen → exec (.deckAnswerDone d .unlockGate) s = .next
      (((s.setDeck d { k with
        ctx := { unlocked with state := .empty, reel := none, profile := none, defaultGrade := none }
        chan := issued (k.chan.waiting.filter fun w => w.cmd != .lockGate) }).notify d
          (.contextState .empty none)).notify d (told .done)))
    ∧ ∀ result, result ≠ .done →
      let event : Instr := if result = .fault then .deckAnswerFault d .unlockGate else .commandTimeout d
      let faults :=
        k.ctx.state ∈ [ContextState.bound, .scanning, .draining, .finished] ∧ k.ctx.gateLocked = true ∧ fallen
      let ended := s.setDeck d { k with chan := { k.chan with outstanding := none } }
      (¬ faults → exec event s = .next
        ((s.setDeck d { k with chan := issued k.chan.waiting }).notify d (told result)))
      ∧ (faults → ∃ t, exec event s = .next (t.notify d (told result)) ∧ AbortEffects ended t d ∧ EmissionCutOff ended t d)

/-- The places of a slot command (R3, R5, R6): a CONTEXT command goes out or takes the pending place from whatever holds it, a FLOW command
goes out, waits in an empty pending place, or is discarded; the commands that are withdrawn. -/
def Obligations.SlotCommandPlacesFollowR5AndR6 : Prop :=
  ∀ (c : Channel) (cmd : SlotCommand) (release : Option ReleaseFrom) (kinds : List SlotCommand),
    (c.outstanding = none →
      c.sendContext cmd release = { c with outstanding := some ⟨⟨cmd, .context, release⟩, c.timeout⟩ }
      ∧ c.sendFlow cmd = { c with outstanding := some ⟨⟨cmd, .flow, none⟩, c.timeout⟩ })
    ∧ (∀ o, c.outstanding = some o →
      c.sendContext cmd release = { c with waiting := some ⟨cmd, .context, release⟩ }
      ∧ c.sendFlow cmd = if c.waiting = none then { c with waiting := some ⟨cmd, .flow, none⟩ } else c)
    ∧ c.withdraw kinds = { c with waiting := c.waiting.filter fun w => !kinds.contains w.cmd }

/-! ### Registration -/

/-- The lane parcels that are read (R32, R199, section 10.6) and those that are discarded; and how the bytes of a lane are cut into parcels (R199):
from sync word to CRC by the length in the header, whatever is missing waited for, an overlong header given up behind the header, and anything else
skipped up to the next sync word. That every row that brings bytes does the same with them, and that
OVERLONG_LANE_HEADER puts the eight bytes of a header on the lane, is the model's choice, log 22; that the reading goes on behind the CRC of a
discarded parcel is its reading, log 39. -/
def Obligations.LaneParcelsFollowR32AndR199 : Prop :=
  ∀ (s : State) (d : DeckId) (frame : LaneFrame) (bytes : List Byte),
    let k := s.deck d
    (∀ (p : FilmPos) (reserved : Byte), readSighting (laneParcel 1 reserved (bytes32 p)) = some p)
    ∧ (∀ code b1 b2 b3 reserved : Byte, readMark (laneParcel 3 reserved [code, b1, b2, b3]) = some code.toNat)
    ∧ (∀ (first : Word32) (width : Word16) (b6 b7 reserved : Byte) (lines : List Line), lines.length = 16 →
      (∀ l ∈ lines, l.length = width.toNat) →
      let band :=
        laneParcel 2 reserved (bytes32 first ++ bytes16 width ++ [b6, b7] ++ lines.flatten.flatMap sampleBytes)
      readBand band width.toNat = some ⟨first.setWidth 28, lines⟩
      ∧ ∀ w, w ≠ width.toNat → readBand band w = none)
    ∧ (frame.crc ≠ (laneParcel frame.kind frame.reserved frame.payload).crc ∨ frame.kind.toNat ∉ [1, 2, 3] →
      readSighting frame = none ∧ readMark frame = none ∧ ∀ width, readBand frame width = none)
    ∧ (frame.payload.length ≠ 4 → readSighting frame = none ∧ readMark frame = none)
    ∧ (∀ width, frame.payload.length ≠ 8 + 128 * width → readBand frame width = none)
    ∧ (∀ row ∈ laneRows d bytes, exec row s = exec (.discardedLaneParcel d bytes) s
      ∧ (k.lane ≠ .up → exec row s = .next s))
    ∧ (∀ (kind reserved : Byte) (length : Word32), exec (.overlongLaneHeader d kind reserved length) s
      = exec (.discardedLaneParcel d ([0x96, 0x5B, kind, reserved] ++ bytes32 length)) s)
    ∧ (k.lane = .up → ∀ (frames : List LaneFrame) (tail : LaneFrame) (left : Nat), (∀ f ∈ frames, f.fits) → tail.fits →
      left < tail.bytes.length → k.intake ++ bytes = frames.flatMap LaneFrame.bytes ++ tail.bytes.take left →
      exec (.discardedLaneParcel d bytes) s
        = .next (frames.foldl (fun t f => t.laneParcel d f) (s.setDeck d { k with intake := tail.bytes.take left })))
    ∧ (k.lane = .up → k.intake = [] →
      (frame.fits → frame.discarded →
        exec (.discardedLaneParcel d frame.bytes) s = .next s
        ∧ exec (.discardedLaneParcel d (frame.bytes ++ bytes)) s = exec (.discardedLaneParcel d bytes) s)
      ∧ (∀ (kind reserved : Byte) (length : Word32), 1048584 < length.toNat →
        exec (.overlongLaneHeader d kind reserved length) s = .next s
        ∧ exec (.discardedLaneParcel d ([0x96, 0x5B, kind, reserved] ++ bytes32 length ++ bytes)) s
          = exec (.discardedLaneParcel d bytes) s)
      ∧ ∀ a b : Byte, ¬ (a = 0x96 ∧ b = 0x5B) →
        exec (.discardedLaneParcel d (a :: b :: bytes)) s = exec (.discardedLaneParcel d (b :: bytes)) s)

/-- What an accepted sighting and a LEADER mark do in ACQUIRE (R33, R35, R36, R50), and when they do nothing (R32, R34). Their bytes arrive at an
intake that holds none (R199). -/
def Obligations.AcquisitionFollowsR33R35AndR36 : Prop :=
  ∀ (s : State) (d : DeckId) (frame : LaneFrame),
    let k := s.deck d
    let r := k.rgu
    k.intake = [] → frame.fits →
    (readMark frame = some 1 → exec (.leader d frame.bytes) s = .next (
      if k.lane = .up ∧ k.ctx.state = .scanning ∧ r.lock = .acquire then
        s.setDeck d { k with rgu := { r with chain := 0, prev := none } }
      else s))
    ∧ (∀ p, readSighting frame = some p → k.lane ≠ .up ∨ k.ctx.state ≠ .scanning ∨ r.lock = .idle →
      exec (.sighting d frame.bytes) s = .next s)
    ∧ ∀ p pf, k.lane = .up → k.ctx.state = .scanning → readSighting frame = some p → s.profileOf d = some pf →
      r.lock = .acquire →
      (r.numbersExhausted = true → exec (.sighting d frame.bytes) s = .next s)
      ∧ (r.numbersExhausted = false → r.prev = none →
        exec (.sighting d frame.bytes) s = .next (s.setDeck d { k with rgu := { r with chain := 1, prev := some p } }))
      ∧ ∀ q, r.numbersExhausted = false → r.prev = some q →
        let deviation := ((p - q).toInt - pf.nominalPitch).natAbs
        let chain := if deviation ≤ pf.pitchTolerance then r.chain + 1 else 1
        (chain < pf.lockCount →
          exec (.sighting d frame.bytes) s = .next (s.setDeck d { k with rgu := { r with chain := chain, prev := some p } }))
        ∧ (pf.lockCount ≤ chain →
          let locked : Rgu :=
            { r with
              lock := .locked, chain := 0, prev := some p, prevAccepted := true, avg := some pf.nominalPitch, index := 0
              misses := 0, candidate := none }
          let declaration : Declaration := if r.firstLock = true then .start else .relock
          let t := (s.setDeck d { k with rgu := locked }).formBoundary d
            (boundaryOf pf p declaration 0 deviation false (some 0))
          exec (.sighting d frame.bytes) s = .next
            (t.notify d (.registration .lock .none (some p) (t.deck d).ctx.nextFrame)))

/-- An accepted sighting in LOCKED or COAST: the splice (R37), the acceptance (R38), the early sighting (R39, R40) and the late one, which
places a predicted perforation and is then judged again, or loses registration (R41, R42, R43, R44). That the sighting is not judged again when the
boundary ends registration is the model's reading, log 10. Its bytes arrive at an intake that holds none (R199). -/
def Obligations.TrackingFollowsR37ToR43 : Prop :=
  ∀ (s : State) (d : DeckId) (frame : LaneFrame) (p q : FilmPos) (avg : Nat) (pf : Profile),
    let k := s.deck d
    let r := k.rgu
    let predicted := q + BitVec.ofNat 32 avg
    let e := (p - predicted).toInt
    let confirms := ∃ c, r.candidate = some c ∧ ((p - c).toInt - avg).natAbs ≤ pf.pitchTolerance
    let index := (r.index + 1) % pf.perfsPerFrame
    k.intake = [] → frame.fits → k.lane = .up → k.ctx.state = .scanning → readSighting frame = some p → s.profileOf d = some pf →
    r.prev = some q → r.avg = some avg → (r.lock = .locked ∨ r.lock = .coast) → 0 < pf.nominalPitch →
    (r.lock = .coast → confirms → ∀ v, shrinkRule pf avg v →
      let spliced : Rgu :=
        { r with prev := some p, prevAccepted := true, lock := .locked, misses := 0, candidate := none, index := 0 }
      let flagged := Deck.flagged { k with
        rgu := spliced, ctx := { k.ctx with splices := min (k.ctx.splices + 1) 16777215 } }
      let t := (s.setDeck d flagged).formBoundary d (boundaryOf pf p .splice 0 e.natAbs false (some v))
      exec (.sighting d frame.bytes) s = .next (t.notify d (.registration .splice .none (some p) (t.deck d).ctx.nextFrame)))
    ∧ (¬ confirms → e.natAbs ≤ pf.pitchTolerance → ∀ v,
      let reach := pf.nominalPitch / 8
      let tracked := min (max ((avg : Int) + Int.tdiv e 8) (pf.nominalPitch - reach : Nat)) (pf.nominalPitch + reach : Nat)
      let newAvg := if r.prevAccepted = true then tracked.toNat else avg
      let accepted : Rgu :=
        { r with
          avg := some newAvg, prev := some p, prevAccepted := true, index := index, misses := 0, candidate := none
          lock := .locked }
      shrinkRule pf newAvg v →
      exec (.sighting d frame.bytes) s = .next (
        if index = 0 then
          (s.setDeck d { k with rgu := accepted }).formBoundary d (boundaryOf pf p .none e e.natAbs false (some v))
        else s.setDeck d { k with rgu := accepted }))
    ∧ (¬ confirms → e < -(pf.pitchTolerance : Int) →
      exec (.sighting d frame.bytes) s = .next (
        if r.lock = .locked then s.setDeck d k.flagged
        else s.setDeck d { k with rgu := { r with candidate := some p } }))
    ∧ (¬ confirms → (pf.pitchTolerance : Int) < e →
      let placed := s.setDeck d { k with rgu :=
        { r with prev := some predicted, prevAccepted := false, index := index, misses := r.misses + 1, lock := .coast } }
      (pf.coastLimit < r.misses + 1 →
        ∃ t, exec (.sighting d frame.bytes) s = .next t ∧ RegistrationLost placed t d .coast (some p))
      ∧ (r.misses + 1 ≤ pf.coastLimit →
        exec (.sighting d frame.bytes) s = exec (.sighting d frame.bytes) (
          if index = 0 then placed.formBoundary d (boundaryOf pf predicted .none 0 e.natAbs true none) else placed)))

/-- A boundary is formed (R45), takes effect (R46), closes the frame before it (R47, R52, R53) and opens the next (R47), or ends registration when
the numbers are exhausted (R50). The new record pending after R50 and the position of its notice are the model's reading, log 9. -/
def Obligations.BoundariesFollowR45ToR53 : Prop :=
  ∀ (s : State) (d : DeckId) (b : Boundary) (lf : LineNo),
    let k := s.deck d
    (k.rgu.boundary = none → s.formBoundary d b = s.setDeck d { k with rgu := { k.rgu with boundary := some b } })
    ∧ (∀ old, k.rgu.boundary = some old →
      let line := match k.rgu.current with
        | some c => laterOf old.line (c.mark.getD c.first)
        | none => old.line
      let t := s.takeEffect d old line
      s.formBoundary d b = t.setDeck d { t.deck d with rgu := { (t.deck d).rgu with boundary := some b } })
    ∧ (∀ closed : State,
      ((closed = s ∧ ∀ c r, k.rgu.current = some c → k.store.find c.number = some r → r.phase ≠ .capturing)
        ∨ ∃ c r i, k.rgu.current = some c ∧ k.store.find c.number = some r ∧ r.phase = .capturing ∧ r.slot = some i
          ∧ let count := (lf - c.first).toInt
            let lines := (min (max count 0) 4096).toNat
            let flags : FrameFlags :=
              { r.flags with
                truncated := r.flags.truncated || decide (4096 < count)
                missingLines := r.flags.missingLines || (List.range lines).any fun x => !k.store.slots[i].written.contains x }
            closed = ({ s with dan := { s.dan with queue := s.dan.queue ++ [⟨d, c.number⟩] } } : State).setDeck d { k with
              store := { k.store with
                records := k.store.records.map fun q =>
                  if q.number = c.number then { q with phase := .captured, lines := lines, flags := flags } else q
                slots := k.store.slots.set i.val { k.store.slots[i] with written := [] } i.isLt } }) →
      s.takeEffect d b lf =
        if k.rgu.numbersExhausted = true then
          (closed.setDeck d { closed.deck d with rgu :=
            { k.rgu with
              current := none, lock := .acquire, relockPending := true, avg := none, candidate := none
              boundary := none } }).notify d (.registration .loss .numbers
                ((s.profileOf d).map fun pf => b.position - BitVec.ofNat 32 pf.frameLineOffset) k.ctx.nextFrame)
        else closed.openFrame d b lf)
    ∧ let n := k.ctx.nextFrame
      let last := decide (n = 16777215)
      let told := (s.setDeck d { k with
        ctx := { k.ctx with nextFrame := if last then n else n + 1 }
        rgu := { k.rgu with numbersExhausted := k.rgu.numbersExhausted || last }
        store := { k.store with lastConsumed := some n } }).tellShotTable d n b.declaration
      let m := told.deck d
      let made := (told.setDeck d { m with rgu :=
        { m.rgu with
          firstLock := m.rgu.firstLock && b.declaration != .start
          relockPending := m.rgu.relockPending && b.declaration != .relock } }).createRecord d n
            ⟨b.position, b.offset, b.deviation, b.coasted, b.spurious, m.table.shots.length - 1⟩
      let o := made.deck d
      s.openFrame d b lf = made.setDeck d { o with
        ctx := { o.ctx with maxShrink := max o.ctx.maxShrink (b.shrink.getD 0) }
        rgu := { o.rgu with current := some ⟨n, lf, none⟩, boundary := none } }

/-- The three outcomes of a record's creation (R59 to R62), with the pause that a falling free-slot count asks for (R69). That the class set of a
CAPTURING record is empty is the model's choice, log 36. -/
def Obligations.RecordsAreMadeAsR59Says : Prop :=
  ∀ (s : State) (d : DeckId) (n : Nat) (q : RecordRequest),
    let k := s.deck d
    let made (phase : Phase) (slot : Option (Fin 8)) (classes : ClassSet) (action : Option Action) : FrameRecord :=
      ⟨n, phase, slot, k.store.fate, q.shot, q.boundary, 0, q.offset, q.deviation,
        ⟨q.coasted, q.spurious, false, false, false⟩, none, none, classes, none, action, 0, 0⟩
    let gap : ClassSet := ⟨false, false, false, false, false, true⟩
    let overrunFrames := min (k.ctx.overrunFrames + 1) 16777215
    let missed (store : DeckStore) (recorded : Bool) : State :=
      ((((s.setDeck d { k with store := store, ctx := { k.ctx with overrunFrames := overrunFrames } }).notify d
        (.overrun recorded n overrunFrames)).decideExamBefore d n).releaseExamBefore d n)
    (12 ≤ k.store.records.length →
      s.createRecord d n q = missed { k.store with fate := .unrecorded } false)
    ∧ (k.store.records.length < 12 → (∀ i : Fin 8, k.store.slots[i].held = true) →
      s.createRecord d n q = missed
        { k.store with records := k.store.records ++ [made .overrun none gap (some .lost)], fate := .overrun } true)
    ∧ ∀ i : Fin 8, k.store.records.length < 12 → k.store.slots[i].held = false →
      (∀ j, j < i → k.store.slots[j].held = true) →
      let store : DeckStore :=
        { k.store with
          slots := k.store.slots.set i.val ⟨true, [], []⟩ i.isLt
          records := k.store.records ++ [made .capturing (some i) ⟨false, false, false, false, false, false⟩ none]
          fate := .slotted }
      s.createRecord d n q =
        if store.freeCount = 2 ∧ k.store.flow = .clear ∧ k.ctx.state = .scanning then
          s.setDeck d { k with store := { store with flow := .pauseAsked }, chan := k.chan.sendFlow .pause }
        else s.setDeck d { k with store := store }

/-- A shot opens, or does not, at a frame boundary (R73 to R76, R83), and the close of the open shot at the end of capture (R77). -/
def Obligations.ShotsFollowR73ToR77 : Prop :=
  ∀ (s : State) (d : DeckId) (n : Nat) (declaration : Declaration) (cue : Option Cue) (cut : Bool),
    let k := s.deck d
    let opened (i : Nat) := ∃ sh, k.table.shots[i]? = some sh ∧ sh.state = .opened
    let examined (t : State) (i last : Nat) : State := ((t.releaseExam d last).decideExam d last).completeExam d i
    let closed (i last : Nat) : List Shot :=
      k.table.shots.modify i fun sh => { sh with state := .closed, last := some last }
    ((cue = none ∧ (∀ c, k.table.cues.head? = some c → c.frame ≠ n)
        ∨ ∃ c, k.table.cues.head? = some c ∧ c.frame = n ∧ cue = some c) →
      let cues := if cue = none then k.table.cues else k.table.cues.tail
      let told (shots : List Shot) (full : Bool) : State := s.setDeck d { k with table := ⟨shots, full, cues⟩ }
      (opensWith declaration cue = none →
        s.tellShotTable d n declaration = told k.table.shots k.table.fullNotice)
      ∧ ∀ origin, opensWith declaration cue = some origin →
        let new : Shot := ⟨n, none, origin, .opened, cue.bind Cue.grade, 0, 0⟩
        (256 ≤ k.table.shots.length → s.tellShotTable d n declaration =
          if k.table.fullNotice = true then told k.table.shots true
          else (told k.table.shots true).notify d (.shotTableFull origin n))
        ∧ (k.table.shots.length < 256 → (∀ i, ¬ opened i) →
          s.tellShotTable d n declaration = told (k.table.shots ++ [new]) k.table.fullNotice)
        ∧ ∀ i, k.table.shots.length < 256 → opened i → (∀ j, j < i → ¬ opened j) →
          s.tellShotTable d n declaration = examined (told (closed i (n - 1) ++ [new]) k.table.fullNotice) i (n - 1))
    ∧ (((∀ i, ¬ opened i) ∨ k.store.lastConsumed = none) → s.closeShotAtEnd d cut = s)
    ∧ ∀ i sh m, k.table.shots[i]? = some sh → sh.state = .opened → (∀ j, j < i → ¬ opened j) →
      k.store.lastConsumed = some m →
      let last : Int := if cut then (m : Int) - 1 else m
      s.closeShotAtEnd d cut =
        if last < sh.first then s.setDeck d { k with table := { k.table with shots := k.table.shots.eraseIdx i } }
        else examined (s.setDeck d { k with table := { k.table with shots := closed i last.toNat } }) i last.toNat

/-- The examinations: of a record for slot release (R66, R67) and for decidability (R106, R107, R108), of a shot for completion (R78, R79);
what the leave of a record does (R54, R68, R69), the discard of a record (R60, R63, R91, R107, R108, R124), and the hand-over of a drained reel (R20,
R164, R165). -/
def Obligations.ExaminationsFollowR66R78AndR106 : Prop :=
  ∀ (s : State) (d : DeckId) (n : Nat),
    let k := s.deck d
    let shotOf (r : FrameRecord) := k.table.shots[r.shot]?
    (∀ r, k.store.find n = some r → r.phase = .emitted → k.mayFree n (shotOf r) →
      s.releaseExam d n = (s.dropRecord d n).emptyHandoff d)
    ∧ ((∀ r, k.store.find n = some r → ¬ (r.phase = .emitted ∧ k.mayFree n (shotOf r))) → s.releaseExam d n = s)
    ∧ (∀ r, k.store.find n = some r →
      let previous := n = 0 ∨ (∃ sh, shotOf r = some sh ∧ sh.first = n)
        ∨ ∀ q, k.store.find (n - 1) = some q → q.action ≠ none
      let following := n = 16777215 ∨ (∃ sh, shotOf r = some sh ∧ sh.state ≠ .opened ∧ sh.last = some n)
        ∨ (∃ q, k.store.find (n + 1) = some q ∧ q.phase ≠ .capturing ∧ q.phase ≠ .captured)
        ∨ (k.store.find (n + 1) = none ∧ (k.ctx.state ≠ .scanning ∨ ∃ m, k.store.lastConsumed = some m ∧ n + 1 ≤ m))
      (r.phase = .analyzed → previous → following → r.action = none → ⟨d, n⟩ ∉ s.rpe.queue →
        s.decideExam d n = { s with rpe := { s.rpe with queue := s.rpe.queue ++ [⟨d, n⟩] } })
      ∧ (¬ (r.phase = .analyzed ∧ previous ∧ following) ∨ ⟨d, n⟩ ∈ s.rpe.queue → s.decideExam d n = s))
    ∧ (∀ i sh, k.table.shots[i]? = some sh →
      let complete := { sh with state := ShotState.complete }
      s.completeExam d i =
        if sh.state = .closed ∧ ∀ r ∈ k.store.records, r.shot = i → r.phase = .emitted then
          (s.setDeck d { k with table := { k.table with shots := k.table.shots.set i complete } }).notify d
            (.shotClosed i complete k.ctx.reel)
        else s)
    ∧ (∀ r, k.store.find n = some r →
      let store : DeckStore :=
        { k.store with
          records := k.store.records.filter fun q => q.number ≠ n
          slots := match r.slot with
            | some i => k.store.slots.set i.val ⟨false, [], []⟩ i.isLt
            | none => k.store.slots }
      s.dropRecord d n =
        if k.store.freeCount < 5 ∧ 5 ≤ store.freeCount ∧ k.store.flow = .pauseAsked ∧ k.ctx.state = .scanning then
          s.setDeck d { k with store := { store with flow := .clear }, chan := k.chan.sendFlow .run }
        else s.setDeck d { k with store := store })
    ∧ (s.decideExamBefore d n = if n = 0 then s else s.decideExam d (n - 1))
    ∧ (s.releaseExamBefore d n = if n = 0 then s else s.releaseExam d (n - 1))
    ∧ (k.store.find n = none → s.discard d n = s)
    ∧ (∀ r, k.store.find n = some r →
      let left := s.dropRecord d n
      let l := left.deck d
      let stays (f : FrameRef) : Bool := f != ⟨d, n⟩
      let told : State :=
        { left.setDeck d { l with store := { l.store with
            fate := if k.store.lastConsumed = some n then .discarded else l.store.fate } } with
          dan := { s.dan with queue := s.dan.queue.filter stays, active := s.dan.active.filter stays }
          rpe := { s.rpe with queue := s.rpe.queue.filter stays, active := s.rpe.active.filter stays } }
      s.discard d n =
        (((told.decideExamBefore d n).releaseExamBefore d n).completeExam d r.shot).emptyHandoff d)
    ∧ (¬ (k.store.records = [] ∧ k.ctx.state = .draining) → s.emptyHandoff d = s)
    ∧ ∀ cls position, k.store.records = [] → k.ctx.state = .draining →
      classRule s.shp.policies (scoreOf k.ctx) k.ctx.maxShrink cls → positionRule s.shp.shelf cls position →
      let finished : ReelContext := { k.ctx with state := .finished, score := some (scoreOf k.ctx) }
      let dir : Directive := ⟨none, d, cls, position, scoreOf k.ctx, k.ctx.maxShrink, k.ctx.interrupted, .onDeck⟩
      s.emptyHandoff d =
        if s.shp.directives.length < 16 then
          ((({ s with shp := { s.shp with
              directives := s.shp.directives ++ [dir], shelf := Shelf.reserve s.shp.shelf position } } : State).setDeck d
            { k with ctx := { finished with
              storageClass := some cls, hasDirective := true, planPending := false } }).notify d
                (.contextState .finished k.ctx.reel)).notify d (.directive .created dir k.ctx.reel)
        else
          (({ s with shp := { s.shp with waiting := s.shp.waiting ++ [d] } } : State).setDeck d
            { k with ctx := { finished with planPending := true } }).notify d (.contextState .finished k.ctx.reel)

/-- BAND (R46, R51, R52, R55): the pending boundary that the band reaches takes effect; the lines of a band that goes to the current frame are
written at their indices below 4096, and nothing else of the slot's content changes. Its bytes arrive at an intake that holds none (R199). -/
def Obligations.BandFollowsR46R51AndR55 : Prop :=
  ∀ (s : State) (d : DeckId) (frame : LaneFrame) (pf : Profile),
    let k := s.deck d
    s.profileOf d = some pf → k.intake = [] → frame.fits → frame.kind = 2 →
    (k.lane ≠ .up ∨ k.ctx.state ≠ .scanning ∨ readBand frame pf.lineWidth = none → exec (.band d frame.bytes) s = .next s)
    ∧ ∀ band m, k.lane = .up → k.ctx.state = .scanning → readBand frame pf.lineWidth = some band →
      ((∃ b, k.rgu.boundary = some b ∧ 0 ≤ (band.first - b.line).toInt
          ∧ m = s.takeEffect d b (match k.rgu.current with
            | some c => laterOf b.line (c.mark.getD c.first)
            | none => band.first))
        ∨ (m = s ∧ ∀ b, k.rgu.boundary = some b → (band.first - b.line).toInt < 0)) →
      let l := m.deck d
      ((∀ c r, l.rgu.current = some c → l.store.find c.number = some r → r.phase = .capturing →
          (band.first - c.first).toInt < 0) → exec (.band d frame.bytes) s = .next m)
      ∧ ∀ c r i, l.rgu.current = some c → l.store.find c.number = some r → r.phase = .capturing → r.slot = some i →
        0 ≤ (band.first - c.first).toInt → SlotMem.wf l.store.slots[i].mem = true →
        let at0 := (band.first - c.first).toInt.toNat
        let after := band.first + 16
        let mark := match c.mark with
          | some x => laterOf x after
          | none => after
        ∃ slot : Slot,
          exec (.band d frame.bytes) s = .next (m.setDeck d { l with
            rgu := { l.rgu with current := some { c with mark := some mark } }
            store := { l.store with
              slots := l.store.slots.set i.val slot i.isLt
              records := if 4096 < at0 + 16 then
                  l.store.records.map fun q =>
                    if q.number = c.number then { q with flags := { q.flags with truncated := true } } else q
                else l.store.records } })
          ∧ slot.held = l.store.slots[i].held
          ∧ (∀ x, x ∈ slot.written ↔ x ∈ l.store.slots[i].written ∨ (at0 ≤ x ∧ x < at0 + 16 ∧ x < 4096))
          ∧ ∀ x, SlotMem.line slot.mem pf.lineWidth x =
            if at0 ≤ x ∧ x < at0 + 16 ∧ x < 4096 then band.lines.getD (x - at0) []
            else SlotMem.line l.store.slots[i].mem pf.lineWidth x

/-! ### Analysis and repair -/

/-- ANALYSIS_START (R89) and ANALYSIS_COMPLETE (R90): the record's measures, its condition codes (R105) and its class set (R98 to R101), and the
examinations that follow (R107). That a row with nothing to do changes nothing is the model's choice, log 2. -/
def Obligations.AnalysisFollowsR89ToR105 : Prop :=
  ∀ s : State,
    exec .analysisStart s = .next (
      match s.dan.active, s.dan.queue with
      | none, f :: rest => { s with dan := { s.dan with active := some f, queue := rest } }
      | _, _ => s)
    ∧ (s.dan.active = none → exec .analysisComplete s = .next s)
    ∧ ∀ (f : FrameRef) (pf : Profile), s.dan.active = some f → s.profileOf f.deck = some pf →
      let k := s.deck f.deck
      let idle : State := { s with dan := { s.dan with active := none } }
      ((∀ r, k.store.find f.frame = some r → r.phase ≠ .captured) → exec .analysisComplete s = .next idle)
      ∧ ∀ (r : FrameRecord) (sh : Shot) (codes : Byte), k.store.find f.frame = some r → r.phase = .captured →
        k.table.shots[r.shot]? = some sh → (∀ q ∈ k.store.records, q.number = f.frame → q = r) →
        let m := measuresOf (tileGeometry pf r.lines) (k.store.content r) r (r.number - sh.first)
        (∀ i : Fin 8, codes.getLsbD i.val = true ↔
          let c := s.dan.comparators[i]
          let value := match c.measure with
            | .totalArea => m.totalArea
            | .maxTile => m.maxTile
            | .scratchRun => m.scratchRun
            | .flaggedTiles => m.flaggedTiles
            | .offsetMag => m.offsetMag
            | .pitchDev => m.pitchDev
            | .coasted => m.coasted
            | .shotPos => m.shotPos
          c.enabled = true ∧ (c.relation = .atLeast ∧ c.limit ≤ value ∨ c.relation = .below ∧ value < c.limit)) →
        let scratch := decide (3 ≤ m.scratchRun)
        let blotch := decide (pf.blotchLimit ≤ m.maxTile)
        let first := decide (sh.first = r.number)
        let lost := decide (r.predecessor = .overrun ∨ r.predecessor = .unrecorded ∨ r.predecessor = .discarded)
        let result : FrameRecord :=
          { r with
            measures := some m, codes := some codes, phase := .analyzed
            classes :=
              ⟨decide (1 ≤ m.flaggedTiles) && !scratch && !blotch, scratch, blotch,
                r.flags.coasted || r.flags.spurious || decide (pf.pitchTolerance / 2 < m.offsetMag),
                first && decide (sh.origin = .splice), lost && !first⟩ }
        exec .analysisComplete s = .next
          (((idle.setDeck f.deck { k with store := { k.store with
            records := k.store.records.map fun q => if q.number = f.frame then result else q } }).decideExam
              f.deck f.frame).decideExamBefore f.deck f.frame)

/-- The tiles and the measures of a frame (R93 to R97), and the place in its shot that SHOT_POS takes. -/
def Obligations.MeasuresFollowR93ToR97 : Prop :=
  ∀ (pf : Profile) (mem : SlotMem) (r : FrameRecord) (shotPos : Nat), evenLines mem pf.lineWidth →
    let g := tileGeometry pf r.lines
    let m := measuresOf g mem r shotPos
    let area (x c : Nat) := g.area mem x c
    let flagged (x c : Nat) := pf.tileFlagLimit ≤ area x c
    let run (n : Nat) := ∃ c x, c < 8 ∧ x + n ≤ 8 ∧ ∀ j, j < n → flagged (x + j) c
    (∀ x c, x < 8 → c < 8 → area x c = min 65535
      (((Finset.range r.lines ×ˢ Finset.range pf.lineWidth).filter fun p =>
        inTile r.lines pf.lineWidth x c p.1 p.2 ∧ (sampleAt mem pf.lineWidth p.1 p.2).ir.toNat < pf.irLimit).card))
    ∧ m.totalArea = min 16777215 (∑ x ∈ Finset.range 8, ∑ c ∈ Finset.range 8, area x c)
    ∧ (∀ x c, x < 8 → c < 8 → area x c ≤ m.maxTile) ∧ (∃ x c, x < 8 ∧ c < 8 ∧ m.maxTile = area x c)
    ∧ m.flaggedTiles = ((Finset.range 8 ×ˢ Finset.range 8).filter fun p => pf.tileFlagLimit ≤ g.area mem p.1 p.2).card
    ∧ run m.scratchRun ∧ (∀ n, run n → n ≤ m.scratchRun)
    ∧ m.offsetMag = r.offset.natAbs ∧ m.pitchDev = r.deviation ∧ m.coasted = (if r.flags.coasted = true then 1 else 0)
    ∧ m.shotPos = shotPos
    ∧ ∀ (k : Deck) (sh : Shot), k.table.shots[r.shot]? = some sh → k.shotPosition r = r.number - sh.first

/-- DECISION (R109, R112 to R118): the final class set, the rule, the applied action and the reel's counters. That a PASS or MARK frame stays
REPAIRING, the engine busy, until its REPAIR_END is the model's reading, log 23; that a row with nothing to do changes nothing is its choice, log 2.
-/
def Obligations.DecisionFollowsR112ToR118 : Prop :=
  ∀ s : State,
    ((s.rpe.active ≠ none ∨ s.rpe.queue = []) → exec .decision s = .next s)
    ∧ ∀ (f : FrameRef) (rest : List FrameRef), s.rpe.active = none → s.rpe.queue = f :: rest →
      let k := s.deck f.deck
      ((∀ r, k.store.find f.frame = some r → r.phase ≠ .analyzed) →
        exec .decision s = .next { s with rpe := { s.rpe with queue := rest } })
      ∧ ∀ (r : FrameRecord) (sh : Shot) (codes : Byte) (classes : ClassSet) (rule : Option (Fin 32)) (action : Action),
        k.store.find f.frame = some r → r.phase = .analyzed → k.table.shots[r.shot]? = some sh → r.codes = some codes →
        { classes with splice := r.classes.splice } = r.classes →
        (classes.splice = true ↔ r.classes.splice = true
          ∨ ∃ x ∈ k.table.shots, x.origin = .splice ∧ x.first = f.frame + 1) →
        ((rule = none ∧ action = .pass ∧ ∀ i : Fin 32, ¬ ruleMatches s.rpe.rules[i] classes codes)
          ∨ ∃ i : Fin 32, rule = some i ∧ ruleMatches s.rpe.rules[i] classes codes
            ∧ (∀ j, j < i → ¬ ruleMatches s.rpe.rules[j] classes codes)
            ∧ ∃ chosen, (ruleTestPasses s.rpe.rules[i] codes ∧ chosen = s.rpe.rules[i].passAction
                ∨ ¬ ruleTestPasses s.rpe.rules[i] codes ∧ s.rpe.rules[i].failAction = some chosen)
              ∧ (k.canDo sh f.frame classes chosen ∧ action = chosen
                ∨ ¬ k.canDo sh f.frame classes chosen ∧ action = s.rpe.rules[i].fallback)) →
        let up (x : Nat) (when : Bool) : Nat := if when then min (x + 1) 16777215 else x
        let c := k.ctx
        exec .decision s = .next
          ((({ s with rpe := { s.rpe with queue := rest, active := some f } } : State).setDeck f.deck { k with
            ctx := { c with
              framesDecided := up c.framesDecided true
              concealedTemporal := up c.concealedTemporal (action = .concealTemporal)
              concealedSpatial := up c.concealedSpatial (action = .concealSpatial)
              heldFrames := up c.heldFrames (action = .holdPrevious)
              markedFrames := up c.markedFrames (action = .mark)
              perfFrames := up c.perfFrames classes.perf }
            store := { k.store with
              records := k.store.records.map fun q =>
                if q.number = f.frame then
                  { q with classes := classes, rule := rule, action := some action, phase := .repairing }
                else q } }).decideExam f.deck (f.frame + 1))

/-- REPAIR_END (R119): the slot's content by the applied action (R120 to R123), the record READY, and the frame before it examined. That the content
is written at the end is the model's reading, log 24, as is a REPAIR_END of its own for PASS and MARK, log 23; that a row with nothing to do changes
nothing is its choice, log 2. -/
def Obligations.RepairEndFollowsR119ToR123 : Prop :=
  ∀ s : State,
    (s.rpe.active = none → exec .repairEnd s = .next s)
    ∧ ∀ (f : FrameRef) (pf : Profile), s.rpe.active = some f → s.profileOf f.deck = some pf →
      let k := s.deck f.deck
      let idle : State := { s with rpe := { s.rpe with active := none } }
      ((∀ r, k.store.find f.frame = some r → r.phase ≠ .repairing) → exec .repairEnd s = .next idle)
      ∧ ∀ (r : FrameRecord) (i : Fin 8), k.store.find f.frame = some r → r.phase = .repairing → r.slot = some i →
        let own := k.store.slots[i].mem
        let previous := if f.frame = 0 then none else k.store.find (f.frame - 1)
        SlotMem.wf own = true → evenLines own pf.lineWidth →
        ∃ (mem : SlotMem) (lines : Nat),
          exec .repairEnd s = .next
            ((idle.setDeck f.deck { k with store := { k.store with
              slots := k.store.slots.set i.val { k.store.slots[i] with mem := mem } i.isLt
              records := k.store.records.map fun q =>
                if q.number = f.frame then { q with phase := .ready, lines := lines } else q } }).releaseExamBefore
                f.deck f.frame)
          ∧ (r.action = some .pass ∨ r.action = some .mark → mem = own ∧ lines = r.lines)
          ∧ (r.action = some .concealSpatial → lines = r.lines
            ∧ concealedFrom pf own mem r.lines (nearestLeft pf own) (nearestRight pf own))
          ∧ (r.action = some .concealTemporal → lines = r.lines
            ∧ ((∀ q, previous = some q → evenLines (k.store.content q) pf.lineWidth) →
              (∀ q, k.store.find (f.frame + 1) = some q → evenLines (k.store.content q) pf.lineWidth) →
              concealedFrom pf own mem r.lines (neighbourAt pf k.store previous)
                (neighbourAt pf k.store (k.store.find (f.frame + 1)))))
          ∧ ∀ q, r.action = some .holdPrevious → previous = some q → lines = q.lines
            ∧ ∀ x, SlotMem.line mem pf.lineWidth x =
              if x < q.lines then SlotMem.line (k.store.content q) pf.lineWidth x else SlotMem.line own pf.lineWidth x

/-! ### Grading -/

/-- One channel value graded (R141 to R148): lift, gain, clamp with its counts, and curve; and a channel at its power-on values, which
passes every value unchanged and clips none (R130). -/
def Obligations.GradingFollowsR141ToR148 : Prop :=
  (∀ x : Word16, (⟨1024, 2, 0, 8, 8⟩ : ChannelGrade).grade none x = ⟨x, 0, 0⟩)
  ∧ ∀ (c : ChannelGrade) (curve : Option Curve) (x : Word16), c.inRange →
    let out := c.grade curve x
    let lifted : Int := x.toNat + c.lift + ((c.liftTrim : Int) - 8) * 64
    let gain : Int := max 0 (min 4095 (c.mantissa + ((c.gainTrim : Int) - 8) * 16))
    ∃ g : Int,
      2 ^ (8 + c.mode) * g ≤ lifted * gain + 2 ^ (7 + c.mode)
      ∧ lifted * gain + 2 ^ (7 + c.mode) < 2 ^ (8 + c.mode) * (g + 1)
      ∧ out.high = (if 65535 < g then 1 else 0) ∧ out.low = (if g < 0 then 1 else 0)
      ∧ (curve = none → (out.code.toNat : Int) = max 0 (min 65535 g))
      ∧ ∀ knots : Curve, curve = some knots →
        ∃ (segment fraction : Nat) (h : segment < 32) (step : Int),
          (2048 * segment + fraction : Int) = max 0 (min 65535 g) ∧ fraction < 2048
          ∧ 2048 * step ≤ ((knots[segment + 1].toNat : Int) - knots[segment].toNat) * fraction + 1024
          ∧ ((knots[segment + 1].toNat : Int) - knots[segment].toNat) * fraction + 1024 < 2048 * (step + 1)
          ∧ (out.code.toNat : Int) = knots[segment].toNat + step
          ∧ min knots[segment].toNat knots[segment + 1].toNat ≤ out.code.toNat
          ∧ out.code.toNat ≤ max knots[segment].toNat knots[segment + 1].toNat

/-! ### Invariants -/

/-- Every step keeps the bounds and forms that the manual promises: the report queue, its notices and the input buffer (R177, R182, R183), the
record queue, the shot table, the cues, the defect map (R56, R72, R81, R127), the excursions and trims (R146), the return queue (R162), a command
pending only behind an outstanding one (R3), and slot contents in their one form (log 15). -/
def Obligations.StepKeepsTheStateSound : Prop := ∀ s t : State, Sound s → step s = .next t → Sound t

/-- The state after reset is sound, and is what a power-on reset leaves that finds no level and no signal (R27, R193). That it finds none is the
model's choice: log 5. -/
def Obligations.ResetStateIsSound : Prop :=
  Sound State.reset
  ∧ ∀ s : State, s.pending = [] →
    exec (.powerOnReset ⟨Vector.replicate 4 ⟨false, false, false, false⟩, Vector.replicate 4 false, false⟩) s
      = .next State.reset
end

