-- ==== Sys2Proof/Laws/State.lean ====
section
/-! SUPPORT. What each update of the state leaves in each field: reading after writing, for the decks and for the blocks. -/

namespace Sys2Proof.Machine

/-! ### One deck after another is written -/

@[simp] theorem deck_setDeck_same (s : State) (d : DeckId) (k : Deck) : (s.setDeck d k).deck d = k := by
  simp [State.deck, State.setDeck]

theorem deck_setDeck_ne (s : State) {d e : DeckId} (k : Deck) (h : e ≠ d) : (s.setDeck d k).deck e = s.deck e := by
  have h' : d.val ≠ e.val := fun c => h (Fin.ext c.symm)
  simp [State.deck, State.setDeck, Vector.getElem_set_ne, h']

@[simp] theorem deck_modDeck_same (s : State) (d : DeckId) (f : Deck → Deck) :
    (s.modDeck d f).deck d = f (s.deck d) := deck_setDeck_same ..

theorem deck_modDeck_ne (s : State) {d e : DeckId} (f : Deck → Deck) (h : e ≠ d) :
    (s.modDeck d f).deck e = s.deck e := deck_setDeck_ne _ _ h

/-- Deck e after deck d is changed, whichever e is. -/
theorem deck_modDeck (s : State) (d e : DeckId) (f : Deck → Deck) :
    (s.modDeck d f).deck e = if e = d then f (s.deck d) else s.deck e := by
  split
  · next h => subst h; simp
  · next h => exact deck_modDeck_ne s f h

@[simp] theorem setDeck_setDeck (s : State) (d : DeckId) (k k' : Deck) :
    (s.setDeck d k).setDeck d k' = s.setDeck d k' := by simp [State.setDeck]

@[simp] theorem setDeck_deck (s : State) (d : DeckId) : s.setDeck d (s.deck d) = s := by
  simp [State.setDeck, State.deck]

/-! ### The other blocks after a deck is written -/

@[simp] theorem profiles_modDeck (s : State) (d : DeckId) (f : Deck → Deck) :
    (s.modDeck d f).profiles = s.profiles := rfl
@[simp] theorem dan_modDeck (s : State) (d : DeckId) (f : Deck → Deck) : (s.modDeck d f).dan = s.dan := rfl
@[simp] theorem rpe_modDeck (s : State) (d : DeckId) (f : Deck → Deck) : (s.modDeck d f).rpe = s.rpe := rfl
@[simp] theorem gre_modDeck (s : State) (d : DeckId) (f : Deck → Deck) : (s.modDeck d f).gre = s.gre := rfl
@[simp] theorem shp_modDeck (s : State) (d : DeckId) (f : Deck → Deck) : (s.modDeck d f).shp = s.shp := rfl
@[simp] theorem ali_modDeck (s : State) (d : DeckId) (f : Deck → Deck) : (s.modDeck d f).ali = s.ali := rfl
@[simp] theorem pending_modDeck (s : State) (d : DeckId) (f : Deck → Deck) :
    (s.modDeck d f).pending = s.pending := rfl

/-! ### The parts of a deck -/

@[simp] theorem modChan_eq (s : State) (d : DeckId) (f : Channel → Channel) :
    s.modChan d f = s.modDeck d fun k => { k with chan := f k.chan } := rfl
@[simp] theorem modCtx_eq (s : State) (d : DeckId) (f : ReelContext → ReelContext) :
    s.modCtx d f = s.modDeck d fun k => { k with ctx := f k.ctx } := rfl
@[simp] theorem modRgu_eq (s : State) (d : DeckId) (f : Rgu → Rgu) :
    s.modRgu d f = s.modDeck d fun k => { k with rgu := f k.rgu } := rfl
@[simp] theorem modStore_eq (s : State) (d : DeckId) (f : DeckStore → DeckStore) :
    s.modStore d f = s.modDeck d fun k => { k with store := f k.store } := rfl
@[simp] theorem modTable_eq (s : State) (d : DeckId) (f : ShotTable → ShotTable) :
    s.modTable d f = s.modDeck d fun k => { k with table := f k.table } := rfl
@[simp] theorem modMap_eq (s : State) (d : DeckId) (f : DefectMap → DefectMap) :
    s.modMap d f = s.modDeck d fun k => { k with map := f k.map } := rfl

/-! ### The blocks after a block is written -/

@[simp] theorem deck_modDan (s : State) (f : Dan → Dan) (d : DeckId) : (s.modDan f).deck d = s.deck d := rfl
@[simp] theorem deck_modRpe (s : State) (f : Rpe → Rpe) (d : DeckId) : (s.modRpe f).deck d = s.deck d := rfl
@[simp] theorem deck_modGre (s : State) (f : Gre → Gre) (d : DeckId) : (s.modGre f).deck d = s.deck d := rfl
@[simp] theorem deck_modShp (s : State) (f : Shp → Shp) (d : DeckId) : (s.modShp f).deck d = s.deck d := rfl
@[simp] theorem deck_modAli (s : State) (f : Ali → Ali) (d : DeckId) : (s.modAli f).deck d = s.deck d := rfl

@[simp] theorem profiles_modDan (s : State) (f : Dan → Dan) : (s.modDan f).profiles = s.profiles := rfl
@[simp] theorem profiles_modRpe (s : State) (f : Rpe → Rpe) : (s.modRpe f).profiles = s.profiles := rfl
@[simp] theorem profiles_modGre (s : State) (f : Gre → Gre) : (s.modGre f).profiles = s.profiles := rfl
@[simp] theorem profiles_modShp (s : State) (f : Shp → Shp) : (s.modShp f).profiles = s.profiles := rfl
@[simp] theorem profiles_modAli (s : State) (f : Ali → Ali) : (s.modAli f).profiles = s.profiles := rfl

@[simp] theorem dan_modDan (s : State) (f : Dan → Dan) : (s.modDan f).dan = f s.dan := rfl
@[simp] theorem dan_modRpe (s : State) (f : Rpe → Rpe) : (s.modRpe f).dan = s.dan := rfl
@[simp] theorem dan_modGre (s : State) (f : Gre → Gre) : (s.modGre f).dan = s.dan := rfl
@[simp] theorem dan_modShp (s : State) (f : Shp → Shp) : (s.modShp f).dan = s.dan := rfl
@[simp] theorem dan_modAli (s : State) (f : Ali → Ali) : (s.modAli f).dan = s.dan := rfl

@[simp] theorem rpe_modDan (s : State) (f : Dan → Dan) : (s.modDan f).rpe = s.rpe := rfl
@[simp] theorem rpe_modRpe (s : State) (f : Rpe → Rpe) : (s.modRpe f).rpe = f s.rpe := rfl
@[simp] theorem rpe_modGre (s : State) (f : Gre → Gre) : (s.modGre f).rpe = s.rpe := rfl
@[simp] theorem rpe_modShp (s : State) (f : Shp → Shp) : (s.modShp f).rpe = s.rpe := rfl
@[simp] theorem rpe_modAli (s : State) (f : Ali → Ali) : (s.modAli f).rpe = s.rpe := rfl

@[simp] theorem gre_modDan (s : State) (f : Dan → Dan) : (s.modDan f).gre = s.gre := rfl
@[simp] theorem gre_modRpe (s : State) (f : Rpe → Rpe) : (s.modRpe f).gre = s.gre := rfl
@[simp] theorem gre_modGre (s : State) (f : Gre → Gre) : (s.modGre f).gre = f s.gre := rfl
@[simp] theorem gre_modShp (s : State) (f : Shp → Shp) : (s.modShp f).gre = s.gre := rfl
@[simp] theorem gre_modAli (s : State) (f : Ali → Ali) : (s.modAli f).gre = s.gre := rfl

@[simp] theorem shp_modDan (s : State) (f : Dan → Dan) : (s.modDan f).shp = s.shp := rfl
@[simp] theorem shp_modRpe (s : State) (f : Rpe → Rpe) : (s.modRpe f).shp = s.shp := rfl
@[simp] theorem shp_modGre (s : State) (f : Gre → Gre) : (s.modGre f).shp = s.shp := rfl
@[simp] theorem shp_modShp (s : State) (f : Shp → Shp) : (s.modShp f).shp = f s.shp := rfl
@[simp] theorem shp_modAli (s : State) (f : Ali → Ali) : (s.modAli f).shp = s.shp := rfl

@[simp] theorem ali_modDan (s : State) (f : Dan → Dan) : (s.modDan f).ali = s.ali := rfl
@[simp] theorem ali_modRpe (s : State) (f : Rpe → Rpe) : (s.modRpe f).ali = s.ali := rfl
@[simp] theorem ali_modGre (s : State) (f : Gre → Gre) : (s.modGre f).ali = s.ali := rfl
@[simp] theorem ali_modShp (s : State) (f : Shp → Shp) : (s.modShp f).ali = s.ali := rfl
@[simp] theorem ali_modAli (s : State) (f : Ali → Ali) : (s.modAli f).ali = f s.ali := rfl

@[simp] theorem pending_modDan (s : State) (f : Dan → Dan) : (s.modDan f).pending = s.pending := rfl
@[simp] theorem pending_modRpe (s : State) (f : Rpe → Rpe) : (s.modRpe f).pending = s.pending := rfl
@[simp] theorem pending_modGre (s : State) (f : Gre → Gre) : (s.modGre f).pending = s.pending := rfl
@[simp] theorem pending_modShp (s : State) (f : Shp → Shp) : (s.modShp f).pending = s.pending := rfl
@[simp] theorem pending_modAli (s : State) (f : Ali → Ali) : (s.modAli f).pending = s.pending := rfl

/-! ### Notices -/

/-- A deck-scoped notice touches the report queue and the drop flag alone, and only under its mask (R183). -/
theorem notify_eq (s : State) (d : DeckId) (body : NoticeBody) :
    s.notify d body =
      { s with ali := if admits (s.deck d).chan.mask body.kind then s.ali.join (some d) body else s.ali } := by
  unfold State.notify; split <;> rfl

@[simp] theorem deck_notify (s : State) (d e : DeckId) (body : NoticeBody) :
    (s.notify d body).deck e = s.deck e := by rw [notify_eq]; rfl
@[simp] theorem profiles_notify (s : State) (d : DeckId) (body : NoticeBody) :
    (s.notify d body).profiles = s.profiles := by rw [notify_eq]
@[simp] theorem dan_notify (s : State) (d : DeckId) (body : NoticeBody) : (s.notify d body).dan = s.dan := by
  rw [notify_eq]
@[simp] theorem rpe_notify (s : State) (d : DeckId) (body : NoticeBody) : (s.notify d body).rpe = s.rpe := by
  rw [notify_eq]
@[simp] theorem gre_notify (s : State) (d : DeckId) (body : NoticeBody) : (s.notify d body).gre = s.gre := by
  rw [notify_eq]
@[simp] theorem shp_notify (s : State) (d : DeckId) (body : NoticeBody) : (s.notify d body).shp = s.shp := by
  rw [notify_eq]
@[simp] theorem pending_notify (s : State) (d : DeckId) (body : NoticeBody) :
    (s.notify d body).pending = s.pending := by rw [notify_eq]
theorem ali_notify (s : State) (d : DeckId) (body : NoticeBody) :
    (s.notify d body).ali =
      if admits (s.deck d).chan.mask body.kind then s.ali.join (some d) body else s.ali := by rw [notify_eq]

/-- A notice and a write of its deck that keeps the mask may change places. -/
theorem setDeck_notify (s : State) (d : DeckId) (k : Deck) (body : NoticeBody) (h : k.chan.mask = (s.deck d).chan.mask) :
    (s.notify d body).setDeck d k = (s.setDeck d k).notify d body := by
  simp only [notify_eq, deck_setDeck_same, h]
  rfl

/-! ### The mask of a channel is written by SET_DECK_EVENTS and the resets alone -/

@[simp] theorem issue_mask (c : Channel) (cmd : Command) : (c.issue cmd).mask = c.mask := rfl

@[simp] theorem sendContext_mask (c : Channel) (cmd : SlotCommand) (release : Option ReleaseFrom) :
    (c.sendContext cmd release).mask = c.mask := by unfold Channel.sendContext; split <;> rfl

@[simp] theorem sendFlow_mask (c : Channel) (cmd : SlotCommand) : (c.sendFlow cmd).mask = c.mask := by
  unfold Channel.sendFlow; split <;> rfl

@[simp] theorem withdraw_mask (c : Channel) (kinds : List SlotCommand) : (c.withdraw kinds).mask = c.mask := by
  unfold Channel.withdraw; split <;> (try split) <;> rfl

@[simp] theorem issueWaiting_mask (c : Channel) : c.issueWaiting.mask = c.mask := by
  unfold Channel.issueWaiting; split <;> rfl

end Sys2Proof.Machine
end

