-- ==== Sys2Proof/Laws/Keeps.lean ====
section
/-! SUPPORT. What no operation can break: `Keeps s t` says that t keeps each bound and form of Safety.lean that s has. One lemma per shared
operation, and one for all commands. -/

namespace Sys2Proof.Machine

/-- Deck k' keeps the bounds and forms of deck k, each by itself. -/
structure DeckKeeps (k k' : Deck) : Prop where
  roomy : k.roomy → k'.roomy
  excursions : k.excursionsInRange → k'.excursionsInRange
  slots : k.slotsWellFormed → k'.slotsWellFormed
  waits : k.waitsBehind → k'.waitsBehind

theorem DeckKeeps.refl (k : Deck) : DeckKeeps k k := ⟨id, id, id, id⟩

theorem DeckKeeps.trans {a b c : Deck} (h : DeckKeeps a b) (g : DeckKeeps b c) : DeckKeeps a c :=
  ⟨g.roomy ∘ h.roomy, g.excursions ∘ h.excursions, g.slots ∘ h.slots, g.waits ∘ h.waits⟩

/-- t keeps the bounds and forms of s but for the return queue's, and its commands waiting. -/
structure KeepsRest (s t : State) : Prop where
  pending : t.pending = s.pending
  decks : ∀ d, DeckKeeps (s.deck d) (t.deck d)
  reports : s.ali.bounded → t.ali.bounded
  grades : s.gre.gradesInRange → t.gre.gradesInRange

/-- t keeps the bounds and forms of s, each by itself, and its commands waiting. -/
structure Keeps (s t : State) : Prop extends KeepsRest s t where
  directives : s.shp.bounded → t.shp.bounded

theorem KeepsRest.trans {a b c : State} (h : KeepsRest a b) (g : KeepsRest b c) : KeepsRest a c :=
  ⟨g.pending.trans h.pending, fun d => (h.decks d).trans (g.decks d), g.reports ∘ h.reports, g.grades ∘ h.grades⟩

theorem Keeps.refl (s : State) : Keeps s s := ⟨⟨rfl, fun _ => .refl _, id, id⟩, id⟩

theorem Keeps.trans {a b c : State} (h : Keeps a b) (g : Keeps b c) : Keeps a c :=
  ⟨h.toKeepsRest.trans g.toKeepsRest, g.directives ∘ h.directives⟩

theorem Keeps.ite {p : Prop} [Decidable p] {s a b : State} (ha : p → Keeps s a) (hb : ¬p → Keeps s b) :
    Keeps s (if p then a else b) := by
  split <;> simp_all

theorem keeps_foldl {α : Type} (f : State → α → State) (h : ∀ s x, Keeps s (f s x)) (l : List α) (s : State) :
    Keeps s (l.foldl f s) := by
  induction l generalizing s with
  | nil => exact .refl s
  | cons x xs ih => exact (h s x).trans (ih _)

/-! ### The primitive updates -/

theorem keeps_modDeck (s : State) (d : DeckId) (f : Deck → Deck) (h : DeckKeeps (s.deck d) (f (s.deck d))) :
    Keeps s (s.modDeck d f) := by
  refine ⟨⟨rfl, fun e => ?_, id, id⟩, id⟩
  rw [deck_modDeck]
  split
  · next he => subst he; exact h
  · exact .refl _

theorem keeps_modCtx (s : State) (d : DeckId) (f : ReelContext → ReelContext) : Keeps s (s.modCtx d f) :=
  keeps_modDeck _ _ _ ⟨id, id, id, id⟩

theorem keeps_modRgu (s : State) (d : DeckId) (f : Rgu → Rgu) : Keeps s (s.modRgu d f) :=
  keeps_modDeck _ _ _ ⟨id, id, id, id⟩

theorem keeps_modChan (s : State) (d : DeckId) (f : Channel → Channel)
    (h : (s.deck d).waitsBehind → (f (s.deck d).chan).waiting.isSome → (f (s.deck d).chan).outstanding.isSome) :
    Keeps s (s.modChan d f) :=
  keeps_modDeck _ _ _ ⟨id, id, id, h⟩

/-- What an update of a deck's slots and records must keep. -/
structure StoreKeeps (k k' : DeckStore) : Prop where
  room : k.records.length ≤ Config.recordRoom → k'.records.length ≤ Config.recordRoom
  slots : (∀ i : Fin 8, SlotMem.wf k.slots[i].mem = true) → ∀ i : Fin 8, SlotMem.wf k'.slots[i].mem = true

theorem keeps_modStore (s : State) (d : DeckId) (f : DeckStore → DeckStore)
    (h : StoreKeeps (s.deck d).store (f (s.deck d).store)) : Keeps s (s.modStore d f) :=
  keeps_modDeck _ _ _ ⟨fun r => ⟨h.room r.1, r.2⟩, id, h.slots, id⟩

/-- What an update of a shot table must keep. -/
structure TableKeeps (t t' : ShotTable) : Prop where
  shots : t.shots.length ≤ Config.shotRoom → t'.shots.length ≤ Config.shotRoom
  cues : t.cues.length ≤ Config.cueRoom → t'.cues.length ≤ Config.cueRoom
  excursions : (∀ sh ∈ t.shots, -32 ≤ sh.excursion ∧ sh.excursion ≤ 31) →
    ∀ sh ∈ t'.shots, -32 ≤ sh.excursion ∧ sh.excursion ≤ 31

theorem TableKeeps.refl (t : ShotTable) : TableKeeps t t := ⟨id, id, id⟩

theorem TableKeeps.trans {a b c : ShotTable} (h : TableKeeps a b) (g : TableKeeps b c) : TableKeeps a c :=
  ⟨g.shots ∘ h.shots, g.cues ∘ h.cues, g.excursions ∘ h.excursions⟩

theorem keeps_modTable (s : State) (d : DeckId) (f : ShotTable → ShotTable)
    (h : TableKeeps (s.deck d).table (f (s.deck d).table)) : Keeps s (s.modTable d f) :=
  keeps_modDeck _ _ _ ⟨fun r => ⟨r.1, h.shots r.2.1, h.cues r.2.2.1, r.2.2.2⟩, h.excursions, id, id⟩

theorem keeps_modMap (s : State) (d : DeckId) (f : DefectMap → DefectMap)
    (h : (s.deck d).map.runs.length ≤ Config.runRoom → (f (s.deck d).map).runs.length ≤ Config.runRoom) :
    Keeps s (s.modMap d f) :=
  keeps_modDeck _ _ _ ⟨fun r => ⟨r.1, r.2.1, r.2.2.1, h r.2.2.2⟩, id, id, id⟩

theorem keeps_modDan (s : State) (f : Dan → Dan) : Keeps s (s.modDan f) := ⟨⟨rfl, fun _ => .refl _, id, id⟩, id⟩

theorem keeps_modRpe (s : State) (f : Rpe → Rpe) : Keeps s (s.modRpe f) := ⟨⟨rfl, fun _ => .refl _, id, id⟩, id⟩

theorem keeps_modGre (s : State) (f : Gre → Gre) (h : s.gre.gradesInRange → (f s.gre).gradesInRange) :
    Keeps s (s.modGre f) := ⟨⟨rfl, fun _ => .refl _, id, h⟩, id⟩

theorem keeps_modShp (s : State) (f : Shp → Shp) (h : s.shp.bounded → (f s.shp).bounded) : Keeps s (s.modShp f) :=
  ⟨⟨rfl, fun _ => .refl _, id, id⟩, h⟩

theorem keeps_modAli (s : State) (f : Ali → Ali) (h : s.ali.bounded → (f s.ali).bounded) : Keeps s (s.modAli f) :=
  ⟨⟨rfl, fun _ => .refl _, h, id⟩, id⟩

/-! ### Reports -/

theorem coalesce_length {deck : Option DeckId} {body : NoticeBody} {q q' : List Report}
    (h : coalesce deck body q = some q') : q'.length = q.length := by
  induction q generalizing q' with
  | nil => simp [coalesce] at h
  | cons r rest ih =>
    simp only [coalesce] at h
    split at h
    · next rest' hr => cases h; simp [ih hr]
    · split at h <;> simp at h
      subst h; simp

theorem takeIn_isNotice (body : NoticeBody) (r : Report) : (r.takeIn body).isNotice = r.isNotice := by
  cases r <;> rfl

theorem coalesce_notices {deck : Option DeckId} {body : NoticeBody} {q q' : List Report}
    (h : coalesce deck body q = some q') : noticeCount q' = noticeCount q := by
  induction q generalizing q' with
  | nil => simp [coalesce] at h
  | cons r rest ih =>
    simp only [coalesce] at h
    split at h
    · next rest' hr => cases h; simp only [noticeCount, List.countP_cons] at *; rw [ih hr]
    · split at h <;> simp at h
      subst h; simp only [noticeCount, List.countP_cons, takeIn_isNotice]

/-- An admitted notice keeps the bounds of the report queue (R183, R184). -/
theorem join_bounded (a : Ali) (deck : Option DeckId) (body : NoticeBody) (h : a.bounded) :
    (a.join deck body).bounded := by
  unfold Ali.join
  split
  · next hr =>
    refine ⟨?_, ?_, h.2.2⟩
    · simp only [List.length_append, List.length_singleton]; omega
    · have : noticeCount [Report.notice ⟨deck, body, 1, a.dropFlag⟩] = 1 := rfl
      simp only [noticeCount, List.countP_append] at *; omega
  · split
    · next q hq => exact ⟨(coalesce_length hq).le.trans h.1, (coalesce_notices hq).le.trans h.2.1, h.2.2⟩
    · exact h

theorem keeps_notify (s : State) (d : DeckId) (body : NoticeBody) : Keeps s (s.notify d body) := by
  unfold State.notify
  exact .ite (fun _ => keeps_modAli _ _ (join_bounded _ _ _)) fun _ => .refl s

theorem keeps_linkError (s : State) (cause : LinkErrorCause) : Keeps s (s.linkError cause) :=
  keeps_modAli _ _ (join_bounded _ _ _)

theorem keeps_moveContext (s : State) (d : DeckId) (state : ContextState) : Keeps s (s.moveContext d state) :=
  (keeps_modCtx _ _ _).trans (keeps_notify _ _ _)

theorem keeps_moveLane (s : State) (d : DeckId) (state : LaneState) (cause : LaneCause) :
    Keeps s (s.moveLane d state cause) :=
  (keeps_modDeck _ _ _ ⟨id, id, id, id⟩).trans (keeps_notify _ _ _)

/-! ### The slot command channel -/

theorem sendContext_outstanding (c : Channel) (cmd : SlotCommand) (r : Option ReleaseFrom) :
    (c.sendContext cmd r).outstanding.isSome := by
  unfold Channel.sendContext Channel.issue; split <;> simp_all

theorem sendFlow_outstanding (c : Channel) (cmd : SlotCommand) : (c.sendFlow cmd).outstanding.isSome := by
  unfold Channel.sendFlow Channel.issue; split <;> simp_all

theorem withdraw_outstanding (c : Channel) (kinds : List SlotCommand) :
    (c.withdraw kinds).outstanding = c.outstanding := by
  unfold Channel.withdraw; split
  · split <;> rfl
  · rfl

theorem withdraw_waiting (c : Channel) (kinds : List SlotCommand) :
    (c.withdraw kinds).waiting.isSome → c.waiting.isSome := by
  unfold Channel.withdraw; split
  · split <;> simp_all
  · exact id

theorem issueWaiting_waits (c : Channel) : c.issueWaiting.waiting.isSome → c.issueWaiting.outstanding.isSome := by
  unfold Channel.issueWaiting Channel.issue; split <;> simp_all
  intro h1
  cases ho : c.outstanding with
  | some o => rfl
  | none => cases hw : c.waiting with
    | none => rw [hw] at h1; cases h1
    | some w => simp_all

theorem keeps_sendContext (s : State) (d : DeckId) (cmd : SlotCommand) (r : Option ReleaseFrom) :
    Keeps s (s.modChan d fun c => c.sendContext cmd r) :=
  keeps_modChan _ _ _ fun _ _ => sendContext_outstanding _ _ _

theorem keeps_withdraw (s : State) (d : DeckId) (kinds : List SlotCommand) :
    Keeps s (s.modChan d fun c => c.withdraw kinds) :=
  keeps_modChan _ _ _ fun h hw => by
    rw [withdraw_outstanding]; exact h (withdraw_waiting _ _ hw)

end Sys2Proof.Machine
end

