-- ==== Sys2Proof/Laws/Slots.lean ====
section
/-! SUPPORT. The content of a slot: every operation on it keeps its one form, and a line read after a write is the line written. -/

namespace Sys2Proof.Machine

/-- The form of a slot's content: no line all zero, indices strictly rising. -/
theorem wf_iff (m : SlotMem) :
    SlotMem.wf m = true ↔ (∀ e ∈ m, blackLine e.2 = false) ∧ m.Pairwise (fun a b => a.1 < b.1) := by
  induction m with
  | nil => simp [SlotMem.wf]
  | cons a rest ih =>
    obtain ⟨i, l⟩ := a
    cases rest with
    | nil => simp [SlotMem.wf]
    | cons b rest =>
      obtain ⟨j, l'⟩ := b
      simp only [SlotMem.wf, Bool.and_eq_true, Bool.not_eq_true', decide_eq_true_eq, ih, List.mem_cons,
        List.pairwise_cons, forall_eq_or_imp]
      constructor
      · rintro ⟨⟨h1, h2⟩, ⟨h3, h4⟩, h5, h6⟩
        exact ⟨⟨h1, h3, h4⟩, ⟨h2, fun x hx => h2.trans (h5 x hx)⟩, h5, h6⟩
      · rintro ⟨⟨h1, h3, h4⟩, ⟨h2, _⟩, h5, h6⟩
        exact ⟨⟨h1, h2⟩, ⟨h3, h4⟩, h5, h6⟩

/-- An entry of the content after a write is the line written, or an entry that was there at another index. -/
theorem mem_write {m : SlotMem} {i : Nat} {l : Line} {e : Nat × Line} (h : e ∈ SlotMem.write m i l) :
    (e = (i, l) ∧ blackLine l = false) ∨ e ∈ m := by
  induction m with
  | nil =>
    simp only [SlotMem.write] at h
    split at h <;> simp_all
  | cons a rest ih =>
    obtain ⟨j, l'⟩ := a
    simp only [SlotMem.write] at h
    split at h
    · split at h <;> simp_all
    · split at h
      · split at h
        · exact .inr (List.mem_cons_of_mem _ h)
        · simp only [List.mem_cons] at h ⊢
          rcases h with h | h
          · left; simp_all
          · right; exact .inr h
      · simp only [List.mem_cons] at h ⊢
        rcases h with h | h
        · exact .inr (.inl h)
        · rcases ih h with h | h
          · exact .inl h
          · exact .inr (.inr h)

/-- A write keeps the form (R55; log 15). -/
theorem write_wf {m : SlotMem} (i : Nat) (l : Line) (h : SlotMem.wf m = true) : SlotMem.wf (SlotMem.write m i l) = true := by
  rw [wf_iff] at *
  refine ⟨fun e he => ?_, ?_⟩
  · rcases mem_write he with ⟨rfl, hb⟩ | he
    · exact hb
    · exact h.1 e he
  · have hp := h.2
    clear h
    induction m with
    | nil => simp only [SlotMem.write]; split <;> simp
    | cons a rest ih =>
      obtain ⟨j, l'⟩ := a
      rw [List.pairwise_cons] at hp
      simp only [SlotMem.write]
      split
      · next hij =>
        split
        · exact List.pairwise_cons.2 hp
        · refine List.pairwise_cons.2 ⟨fun e he => ?_, List.pairwise_cons.2 hp⟩
          rcases List.mem_cons.1 he with rfl | he
          · exact hij
          · exact hij.trans (hp.1 e he)
      · split
        · next _ hij =>
          subst hij
          split
          · exact hp.2
          · exact List.pairwise_cons.2 ⟨hp.1, hp.2⟩
        · next h1 h2 =>
          refine List.pairwise_cons.2 ⟨fun e he => ?_, ih hp.2⟩
          rcases mem_write he with ⟨rfl, _⟩ | he
          · simp only; omega
          · exact hp.1 e he

theorem writeLines_wf (slot : Slot) (k : Nat) (lines : List Line) (h : SlotMem.wf slot.mem = true) :
    SlotMem.wf (writeLines slot k lines).mem = true := by
  induction lines generalizing slot k with
  | nil => exact h
  | cons l rest ih =>
    simp only [writeLines]
    refine ih _ _ ?_
    split
    · exact write_wf _ _ h
    · exact h

theorem filter_wf {m : SlotMem} (p : Nat × Line → Bool) (h : SlotMem.wf m = true) : SlotMem.wf (m.filter p) = true := by
  rw [wf_iff] at *
  exact ⟨fun e he => h.1 e (List.mem_of_mem_filter he), h.2.filter p⟩

/-- Holding keeps the form (R123). -/
theorem holdPrevious_wf {m prev : SlotMem} (lines : Nat) (hm : SlotMem.wf m = true) (hp : SlotMem.wf prev = true) :
    SlotMem.wf (holdPrevious m prev lines) = true := by
  have h1 := (wf_iff _).1 (filter_wf (fun e => decide (e.1 < lines)) hp)
  have h2 := (wf_iff _).1 (filter_wf (fun e => decide (lines ≤ e.1)) hm)
  rw [wf_iff]
  refine ⟨fun e he => ?_, List.pairwise_append.2 ⟨h1.2, h2.2, fun a ha b hb => ?_⟩⟩
  · rcases List.mem_append.1 he with he | he
    · exact h1.1 e he
    · exact h2.1 e he
  · have ha := (List.mem_filter.1 ha).2
    have hb := (List.mem_filter.1 hb).2
    simp only [decide_eq_true_eq] at ha hb
    omega

/-- A concealment keeps the form (R120). -/
theorem conceal_wf (g : TileGeometry) {m : SlotMem}
    (sources : Nat → Line → List (Option Sample) × List (Option Sample)) (h : SlotMem.wf m = true) :
    SlotMem.wf (conceal g m sources) = true := by
  unfold conceal
  generalize List.range g.lines = rows
  suffices ∀ acc, SlotMem.wf acc = true → SlotMem.wf (rows.foldl (fun acc i =>
      SlotMem.write acc i (concealLine g ((g.flags (g.areas m)).getD (g.rowOf i) []) (SlotMem.line m g.width i)
        (sources i (SlotMem.line m g.width i)).1 (sources i (SlotMem.line m g.width i)).2)) acc) = true from
    this m h
  induction rows with
  | nil => exact fun _ h => h
  | cons i rest ih => exact fun acc hacc => ih _ (write_wf _ _ hacc)

/-! ### Reading a line after a write -/

theorem find_write_same (m : SlotMem) (i : Nat) (l : Line) (h : SlotMem.wf m = true) :
    SlotMem.find (SlotMem.write m i l) i = if blackLine l then none else some l := by
  have hp := ((wf_iff m).1 h).2
  clear h
  induction m with
  | nil => simp only [SlotMem.write, SlotMem.find]; split <;> simp_all
  | cons a rest ih =>
    obtain ⟨j, l'⟩ := a
    rw [List.pairwise_cons] at hp
    have absent : ∀ k : Nat, k ≤ j → (rest.find? fun e => e.1 == k) = none := fun k hk => by
      rw [List.find?_eq_none]; intro e he; have := hp.1 e he; simp; omega
    simp only [SlotMem.write]
    split
    · next hij =>
      have hne : (j == i) = false := by simp; omega
      split <;> simp_all [SlotMem.find, absent i (by omega)]
    · split
      · next _ hij => subst hij; split <;> simp_all [SlotMem.find, absent i (by omega)]
      · next h1 h2 =>
        have hne : (j == i) = false := by simp; omega
        have := ih hp.2
        simp_all [SlotMem.find]

theorem find_write_ne (m : SlotMem) {i j : Nat} (l : Line) (h : j ≠ i) :
    SlotMem.find (SlotMem.write m i l) j = SlotMem.find m j := by
  have hne : (i == j) = false := by simp; omega
  induction m with
  | nil => simp only [SlotMem.write, SlotMem.find]; split <;> simp_all
  | cons a rest ih =>
    obtain ⟨k, l'⟩ := a
    simp only [SlotMem.write]
    split
    · split <;> simp_all [SlotMem.find]
    · split
      · next _ hik => subst hik; split <;> simp_all [SlotMem.find]
      · simp only [SlotMem.find, List.find?_cons] at ih ⊢
        split <;> simp_all

end Sys2Proof.Machine
end

