-- ==== Sys2Proof/Laws/KeepsStore.lean ====
section
/-! SUPPORT. The Shelf Planner and the Frame Store Controller keep the bounds and forms of Safety.lean. -/

namespace Sys2Proof.Machine

/-! ### The Shelf Planner -/

theorem keeps_notifyDirective (s : State) (event : DirectiveEvent) (dir : Directive) (reel : Option ReelId) :
    Keeps s (s.notifyDirective event dir reel) := keeps_notify _ _ _

/-- An assignment pass neither makes nor removes a directive (R163). -/
theorem assign_length (ds : List Directive) (shelf : Shelf) : (assign ds shelf).directives.length = ds.length := by
  induction ds generalizing shelf with
  | nil => simp only [assign]
  | cons dir rest ih => simp only [assign]; split <;> simp only [List.length_cons, ih]

theorem shp_foldl_notify (reel : State → Directive → Option ReelId) (event : DirectiveEvent) (ds : List Directive)
    (s : State) : (ds.foldl (fun s dir => s.notifyDirective event dir (reel s dir)) s).shp = s.shp := by
  induction ds generalizing s with
  | nil => rfl
  | cons x xs ih =>
    exact (ih _).trans (shp_notify s x.source (.directive event x (reel s x)))

theorem assignmentPass_length (s : State) : s.assignmentPass.shp.directives.length = s.shp.directives.length := by
  unfold State.assignmentPass
  rw [shp_foldl_notify (fun s dir => s.directiveReel dir)]
  simp [assign_length]

theorem keeps_assignmentPass (s : State) : Keeps s s.assignmentPass := by
  unfold State.assignmentPass
  refine Keeps.trans (keeps_modShp _ _ fun h => ?_)
    (keeps_foldl _ (fun s dir => keeps_notifyDirective s _ dir _) _ _)
  simpa [Shp.bounded, assign_length] using h

theorem rest_modShp (s : State) (f : Shp → Shp) : KeepsRest s (s.modShp f) := ⟨rfl, fun _ => .refl _, id, id⟩

theorem rest_plan (s : State) (d : DeckId) : KeepsRest s (s.plan d) := by
  unfold State.plan
  exact (rest_modShp _ _).trans ((keeps_modCtx _ _ _).trans (keeps_notifyDirective _ _ _ _)).toKeepsRest

/-- A planning adds one directive (R164). -/
theorem plan_length (s : State) (d : DeckId) :
    (s.plan d).shp.directives.length = s.shp.directives.length + 1 := by
  unfold State.plan State.notifyDirective
  simp

/-- A planning keeps every bound when the return queue has room (R164). -/
theorem keeps_plan (s : State) (d : DeckId) (h : s.shp.directives.length < Config.directiveRoom) :
    Keeps s (s.plan d) :=
  ⟨rest_plan s d, fun _ => by rw [Shp.bounded, plan_length]; omega⟩

theorem keeps_planFinished (s : State) (d : DeckId) : Keeps s (s.planFinished d) := by
  unfold State.planFinished
  refine (keeps_modCtx _ _ _).trans (.ite (fun h => keeps_plan _ _ h) fun _ => ?_)
  exact (keeps_modCtx _ _ _).trans (keeps_modShp _ _ id)

theorem rest_planHead (s : State) : KeepsRest s s.planHead := by
  unfold State.planHead
  split
  · exact (Keeps.refl s).toKeepsRest
  · exact (rest_modShp _ _).trans (rest_plan _ _)

theorem planHead_length (s : State) : s.planHead.shp.directives.length ≤ s.shp.directives.length + 1 := by
  unfold State.planHead
  split
  · omega
  · rw [plan_length]; rfl

/-- A leave of a directive that is in the queue keeps every bound, since the planning that follows it finds room (R165, R170). -/
theorem keeps_leaveQueue (s : State) (place : Nat) (dir : Directive) (occupant : Option ReelId) (event : DirectiveEvent)
    (h : place < s.shp.directives.length) : Keeps s (s.leaveQueue place dir occupant event) := by
  unfold State.leaveQueue
  simp only
  generalize hs1 : (s.modShp fun p =>
    { p with shelf := vacate p.shelf dir occupant, directives := p.directives.eraseIdx place }) = s1
  have k1 : KeepsRest s s1 := by subst hs1; exact rest_modShp _ _
  have l1 : s1.shp.directives.length + 1 = s.shp.directives.length := by
    subst hs1; simp [List.length_eraseIdx, h]; omega
  generalize hs2 : (if (dir.position.isSome && occupant.isNone) = true then s1.assignmentPass else s1) = s2
  have k2 : Keeps s1 s2 := by
    subst hs2; exact .ite (fun _ => keeps_assignmentPass _) fun _ => .refl _
  have l2 : s2.shp.directives.length = s1.shp.directives.length := by
    subst hs2; split
    · exact assignmentPass_length _
    · rfl
  have k3 := keeps_notifyDirective s2 event dir (s.directiveReel dir)
  have l3 : (s2.notifyDirective event dir (s.directiveReel dir)).shp = s2.shp := shp_notify ..
  refine ⟨((k1.trans k2.toKeepsRest).trans k3.toKeepsRest).trans (rest_planHead _), fun hb => ?_⟩
  have := planHead_length (s2.notifyDirective event dir (s.directiveReel dir))
  rw [l3] at this
  simp only [Shp.bounded] at *
  omega

theorem findIdx?_lt {α : Type} {p : α → Bool} {l : List α} {i : Nat} (h : l.findIdx? p = some i) : i < l.length := by
  rw [List.findIdx?_eq_some_iff_getElem] at h; exact h.1

theorem keeps_abortPlan (s : State) (d : DeckId) : Keeps s (s.abortPlan d) := by
  unfold State.abortPlan
  simp only
  have k1 : Keeps s (if (s.deck d).ctx.hasDirective = true then
      (match s.shp.directives.findIdx? (Directive.isOnDeck d) with
        | some i =>
          match s.shp.directives[i]? with
          | some dir => s.leaveQueue i dir none .cancelled
          | none => s
        | none => s).modCtx d fun c => { c with hasDirective := false }
      else s) := by
    refine .ite (fun _ => Keeps.trans ?_ (keeps_modCtx _ _ _)) fun _ => .refl _
    split
    · next i hi =>
      split
      · exact keeps_leaveQueue _ _ _ _ _ (findIdx?_lt hi)
      · exact .refl _
    · exact .refl _
  refine k1.trans (.ite (fun _ => ?_) fun _ => .refl _)
  exact (keeps_modShp _ _ id).trans (keeps_modCtx _ _ _)

theorem keeps_directiveDeparts (s : State) (d : DeckId) (reel : Option ReelId) :
    Keeps s (s.directiveDeparts d reel) := by
  unfold State.directiveDeparts
  split
  · exact .refl s
  · refine (keeps_modShp _ _ fun h => ?_).trans (keeps_notifyDirective _ _ _ _)
    simpa [Shp.bounded] using h

/-! ### Records and slots -/

theorem StoreKeeps.of_eq {k k' : DeckStore} (hr : k'.records.length ≤ k.records.length) (hs : k'.slots = k.slots) :
    StoreKeeps k k' := ⟨hr.trans, fun h => hs ▸ h⟩

theorem StoreKeeps.trans {a b c : DeckStore} (h : StoreKeeps a b) (g : StoreKeeps b c) : StoreKeeps a c :=
  ⟨g.room ∘ h.room, g.slots ∘ h.slots⟩

theorem storeKeeps_update (k : DeckStore) (n : Nat) (f : FrameRecord → FrameRecord) : StoreKeeps k (k.update n f) :=
  .of_eq (by simp [DeckStore.update]) rfl

/-- The slots after one of them is changed. -/
theorem slots_modSlot (k : DeckStore) (i j : Fin 8) (f : Slot → Slot) :
    (k.modSlot i f).slots[j] = if j = i then f k.slots[i] else k.slots[j] := by
  unfold DeckStore.modSlot
  by_cases h : j = i
  · subst h; simp
  · have h' : i.val ≠ j.val := fun c => h (Fin.ext c.symm)
    simp only [h, if_false]
    exact Vector.getElem_set_ne (h := h') ..

theorem storeKeeps_modSlot (k : DeckStore) (i : Fin 8) (f : Slot → Slot)
    (h : (∀ j : Fin 8, SlotMem.wf k.slots[j].mem = true) → SlotMem.wf (f k.slots[i]).mem = true) :
    StoreKeeps k (k.modSlot i f) := by
  refine ⟨id, fun hw j => ?_⟩
  rw [slots_modSlot]
  split
  · exact h hw
  · exact hw j

theorem storeKeeps_drop (k : DeckStore) (n : Nat) : StoreKeeps k (k.drop n) := by
  unfold DeckStore.drop
  simp only
  refine StoreKeeps.trans (b := match (k.find n).bind FrameRecord.slot with
    | some i => k.modSlot i fun _ => slotFree
    | none => k) ?_ (.of_eq (List.length_filter_le ..) rfl)
  split
  · exact storeKeeps_modSlot _ _ _ fun _ => rfl
  · exact .of_eq le_rfl rfl

theorem keeps_flowRequest (s : State) (d : DeckId) (cmd : SlotCommand) (flow : FlowState) :
    Keeps s (s.flowRequest d cmd flow) :=
  (keeps_modChan _ _ _ fun _ _ => sendFlow_outstanding _ _).trans (keeps_modStore _ _ _ (.of_eq le_rfl rfl))

theorem keeps_dropRecord (s : State) (d : DeckId) (n : Nat) : Keeps s (s.dropRecord d n) := by
  unfold State.dropRecord
  exact (keeps_modStore _ _ _ (storeKeeps_drop _ _)).trans
    (.ite (fun _ => keeps_flowRequest _ _ _ _) fun _ => .refl _)

theorem keeps_emptyHandoff (s : State) (d : DeckId) : Keeps s (s.emptyHandoff d) := by
  unfold State.emptyHandoff
  exact .ite (fun _ => (keeps_moveContext _ _ _).trans (keeps_planFinished _ _)) fun _ => .refl _

theorem keeps_releaseExam (s : State) (d : DeckId) (n : Nat) : Keeps s (s.releaseExam d n) := by
  unfold State.releaseExam
  simp only
  split
  · exact .ite (fun _ => (keeps_dropRecord _ _ _).trans (keeps_emptyHandoff _ _)) fun _ => .refl _
  · exact .refl _

theorem keeps_releaseExamBefore (s : State) (d : DeckId) (n : Nat) : Keeps s (s.releaseExamBefore d n) :=
  .ite (fun _ => .refl _) fun _ => keeps_releaseExam _ _ _

theorem keeps_decideExam (s : State) (d : DeckId) (n : Nat) : Keeps s (s.decideExam d n) := by
  unfold State.decideExam
  simp only
  split
  · exact .ite (fun _ => keeps_modRpe _ _) fun _ => .refl _
  · exact .refl _

theorem keeps_decideExamBefore (s : State) (d : DeckId) (n : Nat) : Keeps s (s.decideExamBefore d n) :=
  .ite (fun _ => .refl _) fun _ => keeps_decideExam _ _ _

/-- A shot changed without moving its excursion out of range keeps the table (R146). -/
theorem tableKeeps_modShot (t : ShotTable) (i : Nat) (f : Shot → Shot)
    (h : ∀ sh ∈ t.shots, (-32 ≤ sh.excursion ∧ sh.excursion ≤ 31) →
      -32 ≤ (f sh).excursion ∧ (f sh).excursion ≤ 31) : TableKeeps t (t.modShot i f) := by
  refine ⟨fun hl => ?_, id, fun hx sh hsh => ?_⟩
  · simpa [ShotTable.modShot] using hl
  · simp only [ShotTable.modShot] at hsh
    obtain ⟨j, hj, rfl⟩ := List.getElem_of_mem hsh
    rw [List.getElem_modify]
    have hj' : j < t.shots.length := by simpa using hj
    have hm := List.getElem_mem hj'
    split
    · exact h _ hm (hx _ hm)
    · exact hx _ hm

/-- A shot replaced by one whose excursion is in range when the table's are keeps the table (R146). -/
theorem tableKeeps_setShot (t : ShotTable) (i : Nat) (x : Shot)
    (h : (∀ sh ∈ t.shots, -32 ≤ sh.excursion ∧ sh.excursion ≤ 31) → -32 ≤ x.excursion ∧ x.excursion ≤ 31) :
    TableKeeps t (t.modShot i fun _ => x) := by
  refine ⟨fun hl => ?_, id, fun hx sh hsh => ?_⟩
  · simpa [ShotTable.modShot] using hl
  · simp only [ShotTable.modShot] at hsh
    obtain ⟨j, hj, rfl⟩ := List.getElem_of_mem hsh
    rw [List.getElem_modify]
    have hj' : j < t.shots.length := by simpa using hj
    split
    · exact h hx
    · exact hx _ (List.getElem_mem hj')

theorem keeps_completeExam (s : State) (d : DeckId) (i : Nat) : Keeps s (s.completeExam d i) := by
  unfold State.completeExam
  simp only
  split
  · next sh hsh =>
    have hm := List.mem_of_getElem? hsh
    exact .ite (fun _ => (keeps_modTable _ _ _ (tableKeeps_setShot _ i _ fun hx => by exact hx sh hm)).trans
      (keeps_notify _ _ _)) fun _ => .refl _
  · exact .refl _

theorem keeps_enginesForget (s : State) (d : DeckId) (n : Nat) : Keeps s (s.enginesForget d n) := by
  unfold State.enginesForget
  exact (keeps_modDan _ _).trans (keeps_modRpe _ _)

theorem keeps_discard (s : State) (d : DeckId) (n : Nat) : Keeps s (s.discard d n) := by
  unfold State.discard
  split
  · exact .refl s
  · dsimp only
    refine Keeps.trans (Keeps.trans (Keeps.trans (Keeps.trans (Keeps.trans (Keeps.trans (keeps_dropRecord s d n)
      (keeps_modStore _ d _ ?_)) (keeps_enginesForget _ d n)) (keeps_decideExamBefore _ d n))
      (keeps_releaseExamBefore _ d n)) (keeps_completeExam _ d _)) (keeps_emptyHandoff _ d)
    split <;> exact .of_eq le_rfl rfl

theorem keeps_discardCapturing (s : State) (d : DeckId) : Keeps s (s.discardCapturing d) := by
  unfold State.discardCapturing
  split
  · exact keeps_discard _ _ _
  · exact .refl s

theorem keeps_pauseAtMark (s : State) (d : DeckId) : Keeps s (s.pauseAtMark d) :=
  .ite (fun _ => keeps_flowRequest _ _ _ _) fun _ => .refl _

theorem keeps_countOverrun (s : State) (d : DeckId) (n : Nat) (recorded : Bool) :
    Keeps s (s.countOverrun d n recorded) :=
  (((keeps_modCtx _ _ _).trans (keeps_notify _ _ _)).trans (keeps_decideExamBefore _ _ _)).trans
    (keeps_releaseExamBefore _ _ _)

theorem keeps_createRecord (s : State) (d : DeckId) (n : Nat) (q : RecordRequest) : Keeps s (s.createRecord d n q) := by
  unfold State.createRecord
  simp only
  split
  · next hroom =>
    split
    · next i _ =>
      refine Keeps.trans (keeps_modStore _ _ _ ?_) (keeps_pauseAtMark _ _)
      refine ⟨fun _ => ?_, fun hw j => ?_⟩
      · simp only [List.length_append, List.length_singleton]; omega
      · exact (storeKeeps_modSlot (s.deck d).store i (fun _ => ⟨true, [], []⟩) fun _ => rfl).slots hw j
    · refine Keeps.trans (keeps_modStore _ _ _ ⟨fun _ => ?_, id⟩) (keeps_countOverrun _ _ _ _)
      simp only [List.length_append, List.length_singleton]; omega
  · exact (keeps_modStore _ _ _ (.of_eq le_rfl rfl)).trans (keeps_countOverrun _ _ _ _)

theorem keeps_closeRecord (s : State) (d : DeckId) (n : Nat) (next first : LineNo) :
    Keeps s (s.closeRecord d n next first) := by
  unfold State.closeRecord
  simp only
  split
  · exact .refl s
  · split
    · next i _ _ =>
      refine Keeps.trans (keeps_modStore _ _ _ ?_) (keeps_modDan _ _)
      exact (storeKeeps_update _ _ _).trans (storeKeeps_modSlot _ _ _ fun hw => hw i)
    · exact .refl s

theorem storeKeeps_writeBand (k : DeckStore) (n : Nat) (i : Fin 8) (m : Nat) (lines : List Line) :
    StoreKeeps k (k.writeBand n i m lines) := by
  unfold DeckStore.writeBand
  have h := storeKeeps_modSlot k i (fun sl => writeLines sl m lines) fun hw => writeLines_wf _ _ _ (hw i)
  simp only
  split
  · exact h.trans (storeKeeps_update _ _ _)
  · exact h

end Sys2Proof.Machine
end

