-- ==== Sys2Proof/Laws/KeepsDeck.lean ====
section
/-! SUPPORT. The Shot Table, the Registration Unit and the Deck Slot Controller keep the bounds and forms of Safety.lean. -/

namespace Sys2Proof.Machine

/-! ### The Shot Table -/

theorem keeps_afterClose (s : State) (d : DeckId) (i last : Nat) : Keeps s (s.afterClose d i last) :=
  ((keeps_releaseExam _ _ _).trans (keeps_decideExam _ _ _)).trans (keeps_completeExam _ _ _)

theorem tableKeeps_close (t : ShotTable) (i last : Nat) : TableKeeps t (t.modShot i fun sh => sh.closeAt last) :=
  tableKeeps_modShot _ _ _ fun _ _ h => h

theorem tableKeeps_push (t : ShotTable) (sh : Shot) (hl : t.shots.length < Config.shotRoom) (h0 : sh.excursion = 0) :
    TableKeeps t { t with shots := t.shots ++ [sh] } := by
  refine ⟨fun _ => ?_, id, fun hx x hx' => ?_⟩
  · simp only [List.length_append, List.length_singleton]; omega
  · rcases List.mem_append.1 hx' with h | h
    · exact hx x h
    · rw [List.mem_singleton] at h; subst h; omega

/-- A shot that opens keeps every bound when the table has room (R74). -/
theorem keeps_openShot (s : State) (d : DeckId) (n : Nat) (origin : ShotOrigin) (binding : Option (Fin 64))
    (h : (s.deck d).table.shots.length < Config.shotRoom) : Keeps s (s.openShot d n origin binding) := by
  unfold State.openShot
  dsimp only
  have tail : ∀ t : State, Keeps t (match (s.deck d).table.openIndex with
      | some i => t.afterClose d i (n - 1)
      | none => t) := fun t => by
    split
    · exact keeps_afterClose _ _ _ _
    · exact .refl t
  refine Keeps.trans (keeps_modTable s d _ ?_) (tail _)
  split
  · next i _ =>
    exact (tableKeeps_close _ i _).trans (tableKeeps_push _ _ (by simpa [ShotTable.modShot] using h) rfl)
  · exact tableKeeps_push _ _ h rfl

theorem keeps_refuseOpening (s : State) (d : DeckId) (n : Nat) (origin : ShotOrigin) :
    Keeps s (s.refuseOpening d n origin) :=
  .ite (fun _ => .refl s) fun _ => (keeps_modTable _ _ _ ⟨id, id, id⟩).trans (keeps_notify _ _ _)

theorem keeps_tellShotTable (s : State) (d : DeckId) (n : Nat) (declaration : Declaration) :
    Keeps s (s.tellShotTable d n declaration) := by
  unfold State.tellShotTable
  dsimp only
  have tail : ∀ t : State, Keeps t (match openingFor declaration ((s.deck d).table.headCue n) with
      | none => t
      | some origin =>
        if (t.deck d).table.shots.length < Config.shotRoom then
          t.openShot d n origin (((s.deck d).table.headCue n).bind Cue.grade)
        else t.refuseOpening d n origin) := fun t => by
    split
    · exact .refl t
    · exact .ite (fun h => keeps_openShot _ _ _ _ _ h) fun _ => keeps_refuseOpening _ _ _ _
  refine Keeps.trans (.ite (fun _ => keeps_modTable _ _ _ ⟨id, fun h => ?_, id⟩) fun _ => .refl s) (tail _)
  exact (by simp : (s.deck d).table.cues.tail.length ≤ (s.deck d).table.cues.length).trans h

theorem keeps_closeShotAtEnd (s : State) (d : DeckId) (cut : Bool) : Keeps s (s.closeShotAtEnd d cut) := by
  unfold State.closeShotAtEnd
  dsimp only
  split
  · split
    · exact .refl s
    · refine .ite (fun _ => keeps_modTable _ _ _ ⟨?_, id, ?_⟩) fun _ => ?_
      · exact fun h => (List.length_eraseIdx_le ..).trans h
      · exact fun hx x hm => hx x (List.mem_of_mem_eraseIdx hm)
      · exact (keeps_modTable _ _ _ (tableKeeps_close _ _ _)).trans (keeps_afterClose _ _ _ _)
  · exact .refl s

/-- The accounting of an emitted frame keeps the excursion in range (R80, R146). -/
theorem account_excursion (sh : Shot) (high low : Bool) (h : -32 ≤ sh.excursion ∧ sh.excursion ≤ 31) :
    -32 ≤ (sh.account high low).excursion ∧ (sh.account high low).excursion ≤ 31 := by
  unfold Shot.account
  cases high <;> cases low <;> simp <;> omega

/-! ### The Registration Unit -/

theorem keeps_notifyRegistration (s : State) (d : DeckId) (event : RegistrationEvent) (cause : LossCause)
    (position : Option FilmPos) : Keeps s (s.notifyRegistration d event cause position) := keeps_notify _ _ _

theorem storeKeeps_flagSpurious (k : DeckStore) (n : Nat) : StoreKeeps k (k.flagSpurious n) := storeKeeps_update _ _ _

theorem keeps_flagLatest (s : State) (d : DeckId) : Keeps s (s.flagLatest d) := by
  unfold State.flagLatest
  dsimp only
  split
  · exact keeps_modRgu _ _ _
  · exact keeps_modStore _ _ _ (storeKeeps_flagSpurious _ _)
  · exact .refl s

theorem keeps_exhaust (s : State) (d : DeckId) (p : Option FilmPos) : Keeps s (s.exhaust d p) :=
  (keeps_modRgu _ _ _).trans (keeps_notifyRegistration _ _ _ _ _)

theorem keeps_openFrame (s : State) (d : DeckId) (b : Boundary) (lf : LineNo) : Keeps s (s.openFrame d b lf) := by
  unfold State.openFrame
  dsimp only
  refine Keeps.trans ?_ (keeps_modRgu _ d _)
  have shrink : ∀ t : State, Keeps t (match b.shrink with
      | some v => t.modCtx d fun c => { c with maxShrink := max c.maxShrink v }
      | none => t) := fun t => by
    split
    · exact keeps_modCtx _ _ _
    · exact .refl t
  refine Keeps.trans ?_ (shrink _)
  refine Keeps.trans ?_ (keeps_createRecord _ d _ _)
  have marks : ∀ t : State, Keeps t (match b.declaration with
      | .start => t.modRgu d fun r => { r with firstLock := false }
      | .relock => t.modRgu d fun r => { r with relockPending := false }
      | .splice | .none => t) := fun t => by
    split
    · exact keeps_modRgu _ _ _
    · exact keeps_modRgu _ _ _
    · exact .refl t
    · exact .refl t
  refine Keeps.trans ?_ (marks _)
  refine Keeps.trans (Keeps.trans ?_ (keeps_modStore _ d _ (.of_eq le_rfl rfl))) (keeps_tellShotTable _ d _ _)
  exact .ite (fun _ => keeps_modRgu _ _ _) fun _ => keeps_modCtx _ _ _

theorem keeps_takeEffect (s : State) (d : DeckId) (b : Boundary) (lf : LineNo) : Keeps s (s.takeEffect d b lf) := by
  unfold State.takeEffect
  dsimp only
  refine Keeps.trans (b := match (s.deck d).rgu.current with
    | some c => s.closeRecord d c.number lf c.first
    | none => s) ?_ (.ite (fun _ => keeps_exhaust _ _ _) fun _ => keeps_openFrame _ _ _ _)
  split
  · exact keeps_closeRecord _ _ _ _ _
  · exact .refl s

theorem keeps_formBoundary (s : State) (d : DeckId) (b : Boundary) : Keeps s (s.formBoundary d b) := by
  unfold State.formBoundary
  dsimp only
  refine Keeps.trans ?_ (keeps_modRgu _ d _)
  split
  · exact keeps_takeEffect _ _ _ _
  · exact .refl s

theorem keeps_lockOn (s : State) (d : DeckId) (pf : Profile) (p : FilmPos) (dev : Nat) : Keeps s (s.lockOn d pf p dev) :=
  ((keeps_modRgu _ _ _).trans (keeps_formBoundary _ _ _)).trans (keeps_notifyRegistration _ _ _ _ _)

theorem keeps_acquireSighting (s : State) (d : DeckId) (pf : Profile) (p : FilmPos) :
    Keeps s (s.acquireSighting d pf p) := by
  unfold State.acquireSighting
  dsimp only
  refine .ite (fun _ => .refl s) fun _ => ?_
  split
  · exact keeps_modRgu _ _ _
  · generalize (if _ ≤ pf.pitchTolerance then _ else _ : Nat) = chain
    exact .ite (fun _ => (keeps_modRgu _ _ _).trans (keeps_lockOn _ _ _ _ _)) fun _ => keeps_modRgu _ _ _

theorem keeps_loseRegistration (s : State) (d : DeckId) (cause : LossCause) (p : Option FilmPos) :
    Keeps s (s.loseRegistration d cause p) := by
  unfold State.loseRegistration
  dsimp only
  refine Keeps.trans (Keeps.trans ?_ (keeps_modRgu _ d _)) (keeps_notifyRegistration _ d _ _ _)
  split
  · split
    · exact .ite (fun _ => keeps_discard _ _ _) fun _ => .refl s
    · exact .refl s
  · exact .refl s

theorem keeps_acceptSighting (s : State) (d : DeckId) (pf : Profile) (p : FilmPos) (e : Int) :
    Keeps s (s.acceptSighting d pf p e) := by
  unfold State.acceptSighting
  dsimp only
  exact .ite (fun _ => (keeps_modRgu _ _ _).trans (keeps_formBoundary _ _ _)) fun _ => keeps_modRgu _ _ _

theorem keeps_earlySighting (s : State) (d : DeckId) (p : FilmPos) : Keeps s (s.earlySighting d p) := by
  unfold State.earlySighting
  split
  · exact keeps_flagLatest _ _
  · exact keeps_modRgu _ _ _
  · exact .refl s
  · exact .refl s

theorem keeps_testSighting (d : DeckId) (pf : Profile) (p : FilmPos) (fuel : Nat) (s : State) :
    Keeps s (State.testSighting d pf p fuel s) := by
  induction fuel generalizing s with
  | zero => exact .refl s
  | succ fuel ih =>
    unfold State.testSighting
    dsimp only
    refine .ite (fun _ => .refl s) fun _ => .ite (fun _ => keeps_acceptSighting _ _ _ _ _) fun _ =>
      .ite (fun _ => keeps_earlySighting _ _ _) fun _ => ?_
    refine .ite (fun _ => (keeps_modRgu _ _ _).trans (keeps_loseRegistration _ _ _ _)) fun _ =>
      Keeps.trans ?_ (ih _)
    exact .ite (fun _ => (keeps_modRgu s d _).trans (keeps_formBoundary _ d _)) fun _ => keeps_modRgu s d _

theorem keeps_declareSplice (s : State) (d : DeckId) (pf : Profile) (p : FilmPos) : Keeps s (s.declareSplice d pf p) := by
  unfold State.declareSplice
  dsimp only
  exact ((((keeps_modRgu s d _).trans (keeps_modCtx _ d _)).trans (keeps_flagLatest _ d)).trans
    (keeps_formBoundary _ d _)).trans (keeps_notifyRegistration _ d _ _ _)

theorem keeps_judgeSighting (s : State) (d : DeckId) (pf : Profile) (p : FilmPos) : Keeps s (s.judgeSighting d pf p) := by
  unfold State.judgeSighting
  dsimp only
  split
  · exact .refl s
  · exact keeps_acquireSighting _ _ _ _
  · exact .ite (fun _ => keeps_declareSplice _ _ _ _) fun _ => keeps_testSighting _ _ _ _ _
  · exact .ite (fun _ => keeps_declareSplice _ _ _ _) fun _ => keeps_testSighting _ _ _ _ _

theorem keeps_laneLeavesUp (s : State) (d : DeckId) : Keeps s (s.laneLeavesUp d) := by
  unfold State.laneLeavesUp
  dsimp only
  refine .ite (fun _ => ?_) fun _ => .refl s
  split
  · exact keeps_loseRegistration _ _ _ _
  · exact keeps_loseRegistration _ _ _ _
  · exact keeps_modRgu _ _ _
  · exact .refl s

theorem keeps_bandReaches (s : State) (d : DeckId) (first : LineNo) : Keeps s (s.bandReaches d first) := by
  unfold State.bandReaches
  dsimp only
  split
  · exact .ite (fun _ => keeps_takeEffect _ _ _ _) fun _ => .refl s
  · exact .refl s

theorem keeps_assignBand (s : State) (d : DeckId) (first : LineNo) (lines : List Line) :
    Keeps s (s.assignBand d first lines) := by
  unfold State.assignBand
  dsimp only
  split
  · exact .refl s
  · split
    · exact .refl s
    · split
      · exact .ite (fun _ => .refl s) fun _ =>
          (keeps_modStore _ _ _ (storeKeeps_writeBand _ _ _ _ _)).trans (keeps_modRgu _ _ _)
      · exact .refl s

/-! ### Lifecycle -/

theorem cutOff_bounded (a : Ali) (k : Deck) (e : Emission) (h : a.bounded) : (a.cutOff k e).bounded := by
  unfold Ali.cutOff
  split
  · exact h
  · split
    · exact h
    · split <;> exact h

theorem dropDeck_grades (g : Gre) (d : DeckId) : (g.dropDeck d).grades = g.grades := by
  unfold Gre.dropDeck
  split
  · split <;> rfl
  · rfl

theorem keeps_cutOff (s : State) (d : DeckId) : Keeps s (s.cutOff d) := by
  unfold State.cutOff
  dsimp only
  have k1 : Keeps s (s.modGre fun g => g.dropDeck d) :=
    keeps_modGre _ _ fun h i => by rw [dropDeck_grades]; exact h i
  refine k1.trans ?_
  split
  · next e _ =>
    refine .ite (fun _ => Keeps.trans (keeps_modStore _ d _ ?_) (keeps_modAli _ _ (cutOff_bounded _ _ _))) fun _ =>
      .refl _
    split
    · exact .of_eq le_rfl rfl
    · exact storeKeeps_update _ _ _
  · exact .refl _

theorem keeps_examineAll (s : State) (d : DeckId) : Keeps s (s.examineAll d) := by
  unfold State.examineAll
  dsimp only
  exact (keeps_foldl _ (fun s n => keeps_releaseExam s d n) _ _).trans
    (keeps_foldl _ (fun s n => keeps_decideExam s d n) _ _)

theorem keeps_endCapture (s : State) (d : DeckId) : Keeps s (s.endCapture d) := by
  unfold State.endCapture
  dsimp only
  exact (((keeps_modStore s d _ (.of_eq le_rfl rfl)).trans (keeps_modRgu _ d _)).trans
    (keeps_discardCapturing _ d)).trans (keeps_closeShotAtEnd _ d _)

theorem keeps_enterDraining (s : State) (d : DeckId) : Keeps s (s.enterDraining d) :=
  ((keeps_moveContext _ _ _).trans (keeps_examineAll _ _)).trans (keeps_emptyHandoff _ _)

theorem keeps_endScan (s : State) (d : DeckId) : Keeps s (s.endScan d) := by
  unfold State.endScan
  dsimp only
  refine Keeps.trans (keeps_endCapture s d) (Keeps.trans (keeps_modChan _ d _ ?_) (keeps_enterDraining _ d))
  exact fun _ _ => sendContext_outstanding _ _ _

theorem keeps_powerFaultDrain (s : State) (d : DeckId) : Keeps s (s.powerFaultDrain d) := by
  unfold State.powerFaultDrain
  dsimp only
  exact Keeps.trans (keeps_modCtx s d _) (Keeps.trans (keeps_endCapture _ d)
    (Keeps.trans (keeps_withdraw _ d _) (keeps_enterDraining _ d)))

theorem storeKeeps_emptied (k before : DeckStore) : StoreKeeps k (k.emptied before) := by
  refine ⟨fun _ => Nat.zero_le _, fun _ i => ?_⟩
  simp [DeckStore.emptied, slotFree, SlotMem.wf]

theorem keeps_enginesForgetDeck (s : State) (d : DeckId) : Keeps s (s.enginesForgetDeck d) := by
  unfold State.enginesForgetDeck
  dsimp only
  exact (keeps_modDan s _).trans (keeps_modRpe _ _)

theorem keeps_discardAll (s : State) (d : DeckId) : Keeps s (s.discardAll d) := by
  unfold State.discardAll
  dsimp only
  have empty (t : State) (before : DeckStore) : Keeps t ((t.modStore d fun k => k.emptied before).enginesForgetDeck d) :=
    (keeps_modStore t d _ (storeKeeps_emptied _ before)).trans (keeps_enginesForgetDeck _ d)
  exact (keeps_foldl _ (fun s n => keeps_discard s d n) _ s).trans (empty _ _)

theorem keeps_stopAtAbort (s : State) (d : DeckId) : Keeps s (s.modChan d Channel.stopAtAbort) :=
  keeps_modChan _ _ _ fun h => by
    unfold Channel.stopAtAbort
    split
    · exact h
    · exact fun _ => sendContext_outstanding _ _ _

theorem keeps_abort (s : State) (d : DeckId) : Keeps s (s.abort d) := by
  unfold State.abort
  dsimp only
  exact ((((((((keeps_moveContext s d _).trans (keeps_modChan _ d (fun c => { c with waiting := none })
    fun _ h => by cases h)).trans (keeps_modRgu _ d _)).trans (keeps_modStore _ d _ (.of_eq le_rfl rfl))).trans
    (keeps_cutOff _ d)).trans (keeps_discardAll _ d)).trans (keeps_stopAtAbort _ d)).trans
    (keeps_closeShotAtEnd _ d _)).trans (keeps_abortPlan _ d)

theorem keeps_departReleased (s : State) (d : DeckId) : Keeps s (s.departReleased d) := by
  unfold State.departReleased
  dsimp only
  have k := (keeps_modCtx s d fun c => contextCleared c.state c.gateLocked c.powerOn).trans
    (keeps_moveContext _ d .empty)
  exact .ite (fun _ => .ite (fun _ => k.trans (keeps_directiveDeparts _ _ _)) fun _ => k) fun _ => .refl s

theorem keeps_enterReleased (s : State) (d : DeckId) : Keeps s (s.enterReleased d) :=
  (keeps_moveContext _ _ _).trans (keeps_departReleased _ _)

theorem keeps_loseBoundReel (s : State) (d : DeckId) : Keeps s (s.loseBoundReel d) :=
  ((keeps_withdraw _ _ _).trans (keeps_modCtx _ _ _)).trans (keeps_moveContext _ _ _)

theorem mirrorDone_command (c : Channel) (cmd : SlotCommand) :
    (c.mirrorDone cmd).waiting = c.waiting ∧ (c.mirrorDone cmd).outstanding = c.outstanding := by
  cases cmd <;> exact ⟨rfl, rfl⟩

theorem keeps_mirrorDone (s : State) (d : DeckId) (cmd : SlotCommand) : Keeps s (s.mirrorDone d cmd) :=
  (keeps_modChan s d _ fun h => by
    rw [(mirrorDone_command _ _).1, (mirrorDone_command _ _).2]; exact h).trans (keeps_modCtx _ _ _)

theorem keeps_unlockEnded (s : State) (d : DeckId) (o : Command) (result : CommandResult) :
    Keeps s (s.unlockEnded d o result) := by
  unfold State.unlockEnded
  dsimp only
  split
  · exact .ite (fun _ => keeps_enterReleased _ _) fun _ =>
      .ite (fun _ => keeps_loseBoundReel _ _) fun _ => .refl s
  · exact .ite (fun _ => keeps_abort _ _) fun _ => .refl s
  · exact .ite (fun _ => keeps_abort _ _) fun _ => .refl s

theorem keeps_gateCorrection (s : State) (d : DeckId) (cmd : SlotCommand) (result : CommandResult) :
    Keeps s (s.gateCorrection d cmd result) := by
  unfold State.gateCorrection
  exact .ite (fun _ => keeps_sendContext _ _ _ _) fun _ => .refl s

/-- The end of a command: the waiting one is issued, so that none waits behind nothing (R4). -/
theorem keeps_endCommand (s : State) (d : DeckId) (o : Command) (result : CommandResult) :
    Keeps s (s.endCommand d o result) := by
  unfold State.endCommand
  dsimp only
  refine Keeps.trans ?_ (keeps_gateCorrection _ d _ _)
  generalize hs0 : (s.modChan d fun c => { c with outstanding := none }) = s0
  have k1 : Keeps s0 (if result = .done then s0.mirrorDone d o.cmd else s0) :=
    .ite (fun _ => keeps_mirrorDone _ _ _) fun _ => .refl _
  generalize (if result = .done then s0.mirrorDone d o.cmd else s0) = s1 at k1
  have k2 : Keeps s1 (if o.cmd = .unlockGate then s1.unlockEnded d o result else s1) :=
    .ite (fun _ => keeps_unlockEnded _ _ _ _) fun _ => .refl _
  generalize (if o.cmd = .unlockGate then s1.unlockEnded d o result else s1) = s2 at k2
  have k3 := keeps_notify s2 d (.slotCommandDone o.cmd o.origin result)
  generalize s2.notify d (.slotCommandDone o.cmd o.origin result) = s3 at k3
  have k := (k1.trans k2).trans k3
  subst hs0
  refine ⟨⟨k.pending, fun e => ?_, k.reports, k.grades⟩, k.directives⟩
  have ke := k.decks e
  rw [modChan_eq, deck_modDeck] at ke ⊢
  by_cases he : e = d
  · subst he
    simp only [if_true] at ke ⊢
    exact ⟨ke.roomy, ke.excursions, ke.slots, fun _ => issueWaiting_waits _⟩
  · simp only [he, if_false] at ke ⊢
    exact ke

end Sys2Proof.Machine
end

