-- ==== Sys2Proof/Laws/KeepsExec.lean ====
section
/-! SUPPORT. Every command answers a next state, which keeps the bounds and forms of Safety.lean and the commands waiting. -/

namespace Sys2Proof.Machine

/-- The result is a next state that keeps what s has. -/
abbrev Answers (s : State) (r : StepResult) : Prop := ∃ t, r = .next t ∧ Keeps s t

theorem Answers.next {s t : State} (h : Keeps s t) : Answers s (.next t) := ⟨t, rfl, h⟩

theorem Answers.same (s : State) : Answers s (.next s) := .next (.refl s)

theorem Answers.ite {p : Prop} [Decidable p] {s : State} {a b : StepResult} (ha : p → Answers s a)
    (hb : ¬p → Answers s b) : Answers s (if p then a else b) := by
  split <;> simp_all

/-! ### The take of a control parcel -/

theorem keeps_reply (s : State) (p : ControlParcel) (status : Status) (values : ReplyValues)
    (h : s.ali.queue.length < Config.reportRoom) : Keeps s (s.reply p status values) := by
  refine keeps_modAli _ _ fun hb => ⟨?_, ?_, hb.2.2⟩
  · simp only [List.length_append, List.length_singleton]; omega
  · simpa [noticeCount, List.countP_append, Report.isNotice] using hb.2.1

theorem keeps_replyOk (s : State) (p : ControlParcel) (h : s.ali.queue.length < Config.reportRoom) :
    Keeps s (s.replyOk p) := keeps_reply _ _ _ _ h

theorem keeps_refuse (s : State) (p : ControlParcel) (status : Status) (h : s.ali.queue.length < Config.reportRoom) :
    Keeps s (s.refuse p status) := keeps_reply _ _ _ _ h

theorem keeps_replyReadouts (s : State) (p : ControlParcel) (bodies : List (Byte × ReadoutBody))
    (h : s.ali.queue.length < Config.reportRoom) : Keeps s (s.replyReadouts p bodies) :=
  (keeps_reply _ _ _ _ h).trans (keeps_modAli _ _ id)

/-- A take leaves the report queue and the readouts as they were, and one parcel fewer in the buffer (R177, R178). -/
theorem afterTake_spec (a : Ali) (rest : List ControlParcel) :
    (a.afterTake rest).input = rest ∧ (a.afterTake rest).queue = a.queue ∧ (a.afterTake rest).readouts = a.readouts := by
  unfold Ali.afterTake Ali.sendSymbol
  split
  · dsimp only; split <;> exact ⟨rfl, rfl, rfl⟩
  · exact ⟨rfl, rfl, rfl⟩

theorem keeps_afterTake (s : State) (p : ControlParcel) (rest : List ControlParcel) (h : s.ali.input = p :: rest) :
    Keeps s (s.modAli fun a => a.afterTake rest) := by
  refine keeps_modAli _ _ fun hb => ?_
  obtain ⟨h1, h2, _⟩ := afterTake_spec s.ali rest
  refine ⟨by rw [h2]; exact hb.1, by rw [h2]; exact hb.2.1, ?_⟩
  have := hb.2.2
  rw [h, List.length_cons] at this
  rw [h1]; omega

theorem canTake_room {a : Ali} (h : a.canTake = true) : a.queue.length < Config.reportRoom := by
  unfold Ali.canTake at h; simp at h; exact h.1

/-- A request whose delivery keeps every bound keeps every bound (R178, R179, R196). -/
theorem answers_takeRequest (code : Byte) (deliver : ControlParcel → State → State) (s : State)
    (h : ∀ p t, t.ali.queue.length < Config.reportRoom → Keeps t (deliver p t)) :
    Answers s (takeRequest code deliver s) := by
  unfold takeRequest
  split
  · exact .same s
  · next p rest hp =>
    refine .ite (fun hc => ?_) fun _ => .same s
    have k := keeps_afterTake s p rest hp
    have room : (s.modAli fun a => a.afterTake rest).ali.queue.length < Config.reportRoom := by
      rw [ali_modAli, (afterTake_spec _ _).2.1]; exact canTake_room hc.2
    try dsimp only
    split
    · exact .next (k.trans (keeps_refuse _ _ _ room))
    · split
      · exact .next (k.trans (keeps_refuse _ _ _ room))
      · exact .next (k.trans (h _ _ room))

theorem answers_takeDeckRequest (code : Byte) (deliver : DeckId → ControlParcel → State → State) (s : State)
    (h : ∀ d p t, t.ali.queue.length < Config.reportRoom → Keeps t (deliver d p t)) :
    Answers s (takeDeckRequest code deliver s) := by
  refine answers_takeRequest _ _ _ fun p t ht => ?_
  split
  · exact h _ _ _ ht
  · exact keeps_refuse _ _ _ ht

/-! ### The requests -/

theorem answers_execBindReel (s : State) : Answers s (execBindReel s) := by
  refine answers_takeDeckRequest _ _ _ fun d p t ht => ?_
  try dsimp only
  split
  · refine .ite (fun _ => keeps_refuse _ _ _ ht) fun _ => .ite (fun _ => keeps_refuse _ _ _ ht) fun _ =>
      .ite (fun _ => keeps_refuse _ _ _ ht) fun _ => .ite (fun _ => keeps_refuse _ _ _ ht) fun _ => ?_
    refine (keeps_replyOk t p ht).trans ?_
    unfold State.bindReel
    try dsimp only
    refine Keeps.trans (keeps_modCtx _ d _) (Keeps.trans (keeps_modTable _ d _ ?_) (Keeps.trans
      (keeps_modStore _ d _ (.of_eq le_rfl rfl)) (Keeps.trans (keeps_modMap _ d _ ?_) (Keeps.trans
      (keeps_sendContext _ d _ _) (keeps_moveContext _ d _)))))
    · exact ⟨fun _ => Nat.zero_le _, fun _ => Nat.zero_le _, fun _ _ h => by cases h⟩
    · exact fun _ => Nat.zero_le _
  · exact keeps_refuse _ _ _ ht

theorem answers_execUnbindReel (s : State) : Answers s (execUnbindReel s) := by
  refine answers_takeDeckRequest _ _ _ fun d p t ht => ?_
  refine .ite (fun _ => keeps_refuse _ _ _ ht) fun _ => (keeps_replyOk t p ht).trans ?_
  unfold State.unbindReel
  try dsimp only
  refine Keeps.trans (keeps_modChan _ d _ ?_) (Keeps.trans (keeps_modCtx _ d _) (keeps_moveContext _ d _))
  intro h
  try dsimp only
  split
  · exact fun _ => sendContext_outstanding _ _ _
  · intro hw
    rw [withdraw_outstanding]
    exact h (withdraw_waiting _ _ hw)

theorem answers_execStartScan (s : State) : Answers s (execStartScan s) := by
  refine answers_takeDeckRequest _ _ _ fun d p t ht => ?_
  refine .ite (fun _ => keeps_refuse _ _ _ ht) fun _ => .ite (fun _ => keeps_refuse _ _ _ ht) fun _ =>
    .ite (fun _ => keeps_refuse _ _ _ ht) fun _ => (keeps_replyOk t p ht).trans ?_
  unfold State.startScan
  try dsimp only
  exact Keeps.trans (keeps_moveContext _ d _) (Keeps.trans (keeps_modStore _ d _ (.of_eq le_rfl rfl))
    (Keeps.trans (keeps_modRgu _ d _) (keeps_sendContext _ d _ _)))

theorem answers_execEndScan (s : State) : Answers s (execEndScan s) :=
  answers_takeDeckRequest _ _ _ fun _ p t ht =>
    .ite (fun _ => keeps_refuse _ _ _ ht) fun _ => (keeps_replyOk t p ht).trans (keeps_endScan _ _)

theorem answers_execAbortDeck (s : State) : Answers s (execAbortDeck s) :=
  answers_takeDeckRequest _ _ _ fun _ p t ht =>
    .ite (fun _ => (keeps_replyOk t p ht).trans (keeps_abort _ _)) fun _ => keeps_refuse _ _ _ ht

theorem keeps_releaseReel (s : State) (d : DeckId) : Keeps s (s.releaseReel d) := by
  unfold State.releaseReel
  exact .ite (fun _ => .ite (fun _ => keeps_enterReleased _ _) fun _ => keeps_sendContext _ _ _ _) fun _ =>
    keeps_sendContext _ _ _ _

theorem answers_execReleaseReel (s : State) : Answers s (execReleaseReel s) :=
  answers_takeDeckRequest _ _ _ fun _ p t ht =>
    .ite (fun _ => keeps_refuse _ _ _ ht) fun _ => .ite (fun _ => keeps_refuse _ _ _ ht) fun _ =>
      .ite (fun _ => keeps_refuse _ _ _ ht) fun _ => (keeps_replyOk t p ht).trans (keeps_releaseReel _ _)

theorem answers_execDeckCommand (s : State) : Answers s (execDeckCommand s) := by
  refine answers_takeDeckRequest _ _ _ fun d p t ht => ?_
  try dsimp only
  split
  · exact keeps_refuse _ _ _ ht
  · refine .ite (fun _ => keeps_refuse _ _ _ ht) fun _ => .ite (fun _ => keeps_refuse _ _ _ ht) fun _ =>
      .ite (fun _ => keeps_refuse _ _ _ ht) fun _ => .ite (fun _ => keeps_refuse _ _ _ ht) fun _ =>
      (keeps_replyOk t p ht).trans (keeps_modChan _ _ _ fun _ _ => rfl)

theorem answers_execSetDeckEvents (s : State) : Answers s (execSetDeckEvents s) := by
  refine answers_takeDeckRequest _ _ _ fun d p t ht => ?_
  try dsimp only
  split
  · exact keeps_refuse _ _ _ ht
  · exact (keeps_replyOk t p ht).trans (keeps_modChan _ _ _ id)

theorem answers_execRetrainLane (s : State) : Answers s (execRetrainLane s) := by
  refine answers_takeDeckRequest _ _ _ fun d p t ht => ?_
  try dsimp only
  split
  · exact keeps_refuse _ _ _ ht
  · exact keeps_refuse _ _ _ ht
  · exact ((keeps_replyOk t p ht).trans (keeps_moveLane _ _ _ _)).trans (keeps_laneLeavesUp _ _)

theorem answers_execLoadProfile (s : State) : Answers s (execLoadProfile s) := by
  refine answers_takeRequest _ _ _ fun p t ht => ?_
  try dsimp only
  split
  · exact keeps_refuse _ _ _ ht
  · refine .ite (fun _ => keeps_refuse _ _ _ ht) fun _ => .ite (fun _ => keeps_refuse _ _ _ ht) fun _ =>
      (keeps_replyOk t p ht).trans ?_
    exact ⟨⟨rfl, fun _ => .refl _, id, id⟩, id⟩

theorem answers_execReadContext (s : State) : Answers s (execReadContext s) :=
  answers_takeDeckRequest _ _ _ fun _ _ _ ht => keeps_replyReadouts _ _ _ ht

theorem answers_execLoadComparator (s : State) : Answers s (execLoadComparator s) := by
  refine answers_takeRequest _ _ _ fun p t ht => ?_
  try dsimp only
  split
  · exact keeps_refuse _ _ _ ht
  · exact (keeps_replyOk t p ht).trans (keeps_modDan _ _)

theorem answers_execLoadRule (s : State) : Answers s (execLoadRule s) := by
  refine answers_takeRequest _ _ _ fun p t ht => ?_
  try dsimp only
  split
  · exact keeps_refuse _ _ _ ht
  · exact (keeps_replyOk t p ht).trans (keeps_modRpe _ _)

theorem readChannel_inRange {b : List Byte} {base : Nat} {c : ChannelGrade} (h : readChannel b base = some c) :
    c.inRange := by
  unfold readChannel at h
  dsimp only at h
  split at h
  · next hc => cases h; exact ⟨hc.1, hc.2.1, hc.2.2.1, hc.2.2.2, Nat.le_of_ble_eq_true rfl, Nat.le_of_ble_eq_true rfl⟩
  · cases h

theorem asIndex_val {n v : Nat} {i : Fin n} (h : asIndex n v = some i) : v = i.val ∧ v < n := by
  unfold asIndex at h
  split at h
  · next hv => cases h; exact ⟨rfl, hv⟩
  · cases h

/-- A record that LOAD_GRADE accepts lies in its ranges (R131). -/
theorem readGradeRecord_inRange {b : List Byte} {i : Fin 64} {r : GradeRecord} (h : readGradeRecord b = some (i, r)) :
    r.inRange := by
  by_cases hc : byteAt b 1 = 255
  · simp only [readGradeRecord, hc, if_true, Option.bind_eq_bind, Option.bind_some, Option.bind_eq_some_iff] at h
    obtain ⟨_, _, clip, _, r', hr, g', hg, b', hb, h⟩ := h
    cases h
    exact ⟨readChannel_inRange hr, readChannel_inRange hg, readChannel_inRange hb, Nat.lt_succ_iff.1 clip.isLt⟩
  · simp only [readGradeRecord, hc, if_false, Option.bind_eq_bind, Option.bind_eq_some_iff] at h
    obtain ⟨_, _, _, _, clip, _, r', hr, g', hg, b', hb, h⟩ := h
    cases h
    exact ⟨readChannel_inRange hr, readChannel_inRange hg, readChannel_inRange hb, Nat.lt_succ_iff.1 clip.isLt⟩

theorem gradesInRange_set (g : Gre) (i : Fin 64) (r : GradeRecord) (h : g.gradesInRange) (hr : r.inRange) :
    ({ g with grades := g.grades.set i.val r i.isLt } : Gre).gradesInRange := by
  intro j
  by_cases hij : j = i
  · subst hij; simpa using hr
  · have h' : i.val ≠ j.val := fun c => hij (Fin.ext c.symm)
    have : (g.grades.set i.val r i.isLt)[j] = g.grades[j] := Vector.getElem_set_ne (h := h') ..
    rw [this]; exact h j

theorem answers_execLoadGrade (s : State) : Answers s (execLoadGrade s) := by
  refine answers_takeRequest _ _ _ fun p t ht => ?_
  try dsimp only
  split
  · exact keeps_refuse _ _ _ ht
  · next i r hr =>
    exact (keeps_replyOk t p ht).trans
      (keeps_modGre _ _ fun h => gradesInRange_set _ i r h (readGradeRecord_inRange hr))

theorem answers_execLoadCurve (s : State) : Answers s (execLoadCurve s) := by
  refine answers_takeRequest _ _ _ fun p t ht => ?_
  try dsimp only
  split
  · exact keeps_refuse _ _ _ ht
  · exact (keeps_replyOk t p ht).trans (keeps_modGre _ _ id)

theorem answers_execLoadPolicy (s : State) : Answers s (execLoadPolicy s) := by
  refine answers_takeRequest _ _ _ fun p t ht => ?_
  try dsimp only
  split
  · exact keeps_refuse _ _ _ ht
  · exact (keeps_replyOk t p ht).trans (keeps_modShp _ _ id)

theorem answers_execLoadShelf (s : State) : Answers s (execLoadShelf s) := by
  refine answers_takeRequest _ _ _ fun p t ht => ?_
  try dsimp only
  exact .ite (fun _ => keeps_refuse _ _ _ ht) fun _ =>
    Keeps.trans (keeps_reply t p _ _ ht) (Keeps.trans (keeps_modShp _ _ id) (keeps_assignmentPass _))

theorem answers_execAddCue (s : State) : Answers s (execAddCue s) := by
  refine answers_takeDeckRequest _ _ _ fun d p t ht => ?_
  try dsimp only
  split
  · exact keeps_refuse _ _ _ ht
  · next grade _ =>
    refine .ite (fun _ => keeps_refuse _ _ _ ht) fun _ => .ite (fun _ => keeps_refuse _ _ _ ht) fun _ =>
      .ite (fun _ => keeps_refuse _ _ _ ht) fun _ => .ite (fun _ => keeps_refuse _ _ _ ht) fun _ =>
      .ite (fun _ => keeps_refuse _ _ _ ht) fun hroom => (keeps_replyOk t p ht).trans (keeps_modTable _ _ _ ?_)
    have hl : ∀ (c : Cue) (l : List Cue), (insertCue c l).length = l.length + 1 := fun c l => by
      induction l with
      | nil => rfl
      | cons e rest ih => simp only [insertCue]; split <;> simp [ih]
    refine ⟨id, fun _ => ?_, id⟩
    rw [hl]
    exact Nat.not_le.1 hroom

theorem answers_execDropCue (s : State) : Answers s (execDropCue s) :=
  answers_takeDeckRequest _ _ _ fun _ p t ht =>
    .ite (fun _ => (keeps_replyOk t p ht).trans
      (keeps_modTable _ _ _ ⟨id, fun h => (List.length_filter_le ..).trans h, id⟩)) fun _ => keeps_refuse _ _ _ ht

theorem answers_execBindGrade (s : State) : Answers s (execBindGrade s) := by
  refine answers_takeDeckRequest _ _ _ fun d p t ht => ?_
  try dsimp only
  split
  · exact .ite (fun _ => keeps_refuse _ _ _ ht) fun _ =>
      (keeps_replyOk t p ht).trans (keeps_modTable _ _ _ (tableKeeps_modShot _ _ _ fun _ _ h => h))
  · exact keeps_refuse _ _ _ ht

theorem answers_execSetDefaultGrade (s : State) : Answers s (execSetDefaultGrade s) := by
  refine answers_takeDeckRequest _ _ _ fun d p t ht => ?_
  try dsimp only
  split
  · exact keeps_refuse _ _ _ ht
  · exact .ite (fun _ => keeps_refuse _ _ _ ht) fun _ => (keeps_replyOk t p ht).trans (keeps_modCtx _ _ _)

theorem stepTrim_le (up down : Bool) {t : Nat} (h : t ≤ 15) : stepTrim up down t ≤ 15 := by
  unfold stepTrim; split
  · omega
  · split <;> omega

theorem channel_trim_inRange {c : ChannelGrade} (named : Bool) (o : TrimOperands) (h : c.inRange) :
    (c.trim named o).inRange := by
  unfold ChannelGrade.trim
  split
  · exact ⟨h.1, h.2.1, h.2.2.1, h.2.2.2.1, stepTrim_le _ _ h.2.2.2.2.1, stepTrim_le _ _ h.2.2.2.2.2⟩
  · exact h

/-- A trim keeps a record in its ranges (R152). -/
theorem record_trim_inRange {r : GradeRecord} (o : TrimOperands) (h : r.inRange) : (r.trim o).inRange :=
  ⟨channel_trim_inRange _ _ h.1, channel_trim_inRange _ _ h.2.1, channel_trim_inRange _ _ h.2.2.1, h.2.2.2⟩

theorem answers_execTrim (s : State) : Answers s (execTrim s) := by
  refine answers_takeRequest _ _ _ fun p t ht => ?_
  try dsimp only
  split
  · exact keeps_refuse _ _ _ ht
  · next i o _ =>
    exact (keeps_reply t p _ _ ht).trans
      (keeps_modGre _ _ fun h => gradesInRange_set _ i _ h (record_trim_inRange o (h i)))

theorem answers_execShelved (s : State) : Answers s (execShelved s) := by
  refine answers_takeRequest _ _ _ fun p t ht => ?_
  try dsimp only
  split
  · exact keeps_refuse _ _ _ ht
  · next i hi =>
    split
    · exact keeps_refuse _ _ _ ht
    · next dir hd =>
      refine .ite (fun _ => keeps_refuse _ _ _ ht) fun _ => .ite (fun _ => keeps_refuse _ _ _ ht) fun _ =>
        (keeps_replyOk t p ht).trans (keeps_leaveQueue _ _ _ _ _ ?_)
      exact (List.getElem?_eq_some_iff.1 hd).1

theorem answers_execReleasePosition (s : State) : Answers s (execReleasePosition s) := by
  refine answers_takeRequest _ _ _ fun p t ht => ?_
  try dsimp only
  split
  · exact keeps_refuse _ _ _ ht
  · exact .ite (fun _ => keeps_refuse _ _ _ ht) fun _ =>
      Keeps.trans (keeps_replyOk t p ht) (Keeps.trans (keeps_modShp _ _ id) (keeps_assignmentPass _))

theorem answers_execCancelDirective (s : State) : Answers s (execCancelDirective s) := by
  refine answers_takeRequest _ _ _ fun p t ht => ?_
  try dsimp only
  split
  · exact keeps_refuse _ _ _ ht
  · next i hi =>
    split
    · exact keeps_refuse _ _ _ ht
    · next dir hd =>
      refine .ite (fun _ => keeps_refuse _ _ _ ht) fun _ =>
        (keeps_replyOk t p ht).trans (keeps_leaveQueue _ _ _ _ _ ?_)
      exact (List.getElem?_eq_some_iff.1 hd).1

theorem answers_execReadShots (s : State) : Answers s (execReadShots s) :=
  answers_takeDeckRequest _ _ _ fun _ _ _ ht => keeps_replyReadouts _ _ _ ht

theorem answers_execReadDefectMap (s : State) : Answers s (execReadDefectMap s) :=
  answers_takeDeckRequest _ _ _ fun _ _ _ ht =>
    .ite (fun _ => keeps_refuse _ _ _ ht) fun _ => keeps_replyReadouts _ _ _ ht

theorem answers_execReadShelf (s : State) : Answers s (execReadShelf s) :=
  answers_takeRequest _ _ _ fun _ _ ht =>
    .ite (fun _ => keeps_refuse _ _ _ ht) fun _ => keeps_replyReadouts _ _ _ ht

theorem answers_execReadQueue (s : State) : Answers s (execReadQueue s) :=
  answers_takeRequest _ _ _ fun _ _ ht => keeps_replyReadouts _ _ _ ht

/-! ### The bytes of a lane -/

theorem keeps_takeSighting (s : State) (d : DeckId) (f : LaneFrame) : Keeps s (s.takeSighting d f) := by
  unfold State.takeSighting
  split
  · exact keeps_judgeSighting _ _ _ _
  · exact .refl s

theorem keeps_takeBand (s : State) (d : DeckId) (f : LaneFrame) : Keeps s (s.takeBand d f) := by
  unfold State.takeBand
  split
  · exact (keeps_bandReaches _ _ _).trans (keeps_assignBand _ _ _ _)
  · exact .refl s

theorem keeps_takeMark (s : State) (d : DeckId) (f : LaneFrame) : Keeps s (s.takeMark d f) := by
  unfold State.takeMark
  split
  · exact .ite (fun _ => keeps_modRgu _ _ _) fun _ => .refl s
  · exact keeps_endScan _ _
  · exact .refl s

theorem keeps_laneParcel (s : State) (d : DeckId) (f : LaneFrame) : Keeps s (s.laneParcel d f) :=
  .ite (fun _ => .refl s) fun _ => .ite (fun _ => keeps_takeSighting _ _ _) fun _ =>
    .ite (fun _ => keeps_takeBand _ _ _) fun _ => .ite (fun _ => keeps_takeMark _ _ _) fun _ => .refl s

/-- Whatever bytes arrive on a lane, every bound and form is kept. -/
theorem keeps_laneArrive (s : State) (d : DeckId) (bytes : List Byte) : Keeps s (s.laneArrive d bytes) := by
  unfold State.laneArrive
  dsimp only
  exact .ite (fun _ => (keeps_modDeck s d _ ⟨id, id, id, id⟩).trans
    (keeps_foldl _ (fun s f => keeps_laneParcel s d f) _ _)) fun _ => .refl s

/-! ### The resets -/

/-- A deck after reset has every bound and form. -/
theorem deckInitial_sound (k : Deck) (levels : Sensors) (lane : LaneState) : DeckKeeps k (deckInitial levels lane) := by
  refine ⟨fun _ => ⟨Nat.zero_le _, Nat.zero_le _, Nat.zero_le _, Nat.zero_le _⟩, fun _ _ h => (by cases h), fun _ i => ?_,
    fun _ _ => rfl⟩
  have : storeInitial.slots[i] = slotFree := by simp [storeInitial]
  show SlotMem.wf storeInitial.slots[i].mem = true
  rw [this]; rfl

theorem greInitial_sound : greInitial.gradesInRange := by
  intro i
  have : greInitial.grades[i] = gradeInitial := by simp [greInitial]
  rw [this]; decide

theorem keeps_softReset (s : State) (p : ControlParcel) : Keeps s (s.softReset p) := by
  refine ⟨⟨rfl, fun d => ?_, fun h => ⟨?_, ?_, h.2.2⟩, fun _ => greInitial_sound⟩, fun _ => Nat.zero_le _⟩
  · have : (s.softReset p).deck d = (s.deck d).softReset := by simp [State.softReset, State.deck]
    rw [this]; exact (deckInitial_sound _ _ (s.deck d).lane).trans ⟨id, id, id, id⟩
  · show 1 ≤ 32; decide
  · show 0 ≤ 24; decide

theorem answers_execSoftReset (s : State) : Answers s (execSoftReset s) :=
  answers_takeRequest _ _ _ fun _ _ _ => keeps_softReset _ _

theorem answers_execPowerOnReset (pins : ResetPins) (s : State) : Answers s (execPowerOnReset pins s) := by
  refine .next ⟨⟨rfl, fun d => ?_, fun _ => ⟨Nat.zero_le _, Nat.zero_le _, Nat.zero_le _⟩, fun _ => greInitial_sound⟩,
    fun _ => Nat.zero_le _⟩
  have : (s.powerOn pins).deck d = deckInitial pins.sensors[d] (laneInitial pins.laneSignal[d]) := by
    simp [State.powerOn, State.deck]
  rw [this]; exact deckInitial_sound _ _ _

theorem answers_execUnknownRequest (s : State) : Answers s (execUnknownRequest s) := by
  unfold execUnknownRequest
  split
  · exact .same s
  · next p rest hp =>
    refine .ite (fun hc => .next ((keeps_afterTake s p rest hp).trans (keeps_refuse _ _ _ ?_))) fun _ => .same s
    rw [ali_modAli, (afterTake_spec _ _).2.1]; exact canTake_room hc.2

/-! ### The archive link -/

theorem haltAtMark_queue (a : Ali) : a.haltAtMark.queue = a.queue ∧ a.haltAtMark.input = a.input := by
  unfold Ali.haltAtMark Ali.sendSymbol; split <;> exact ⟨rfl, rfl⟩

theorem keeps_offer (s : State) (p : ControlParcel) : Keeps s (s.offer p) := by
  unfold State.offer
  refine .ite (fun hr => keeps_modAli _ _ fun h => ?_) fun _ => keeps_linkError _ _
  obtain ⟨h1, h2⟩ := haltAtMark_queue { s.ali with input := s.ali.input ++ [p] }
  refine ⟨by rw [h1]; exact h.1, by rw [h1]; exact h.2.1, ?_⟩
  rw [h2]
  simp only [List.length_append, List.length_singleton]; omega

theorem keeps_frameAll (fuel : Nat) (s : State) : Keeps s (frameAll fuel s) := by
  induction fuel generalizing s with
  | zero => exact .refl s
  | succ fuel ih =>
    simp only [frameAll]
    split
    · exact keeps_modAli _ _ id
    · exact Keeps.trans (Keeps.trans (keeps_modAli _ _ id) (keeps_linkError _ _)) (ih _)
    · exact Keeps.trans (Keeps.trans (keeps_modAli _ _ id) (keeps_offer _ _)) (ih _)

theorem keeps_receive (s : State) (bytes : List Byte) : Keeps s (s.receive bytes) :=
  Keeps.trans (keeps_modAli s (fun a => { a with rx := a.rx ++ bytes }) id) (keeps_frameAll _ _)

theorem keeps_beginNext (s : State) (e : Emission) : Keeps s (s.beginNext e) := by
  unfold State.beginNext State.beginTrailer State.beginPicture
  try dsimp only
  refine .ite (fun _ => .refl s) fun _ => ?_
  split
  · exact .ite (fun _ => keeps_modAli _ _ id) fun _ =>
      .ite (fun _ => Keeps.trans (keeps_modGre _ _ id) (keeps_modAli _ _ id)) fun _ => keeps_modAli _ _ id
  · exact .ite (fun _ => keeps_modAli _ _ id) fun _ => .refl s
  · exact .refl s

theorem keeps_beginFrameParcel (s : State) : Keeps s s.beginFrameParcel := by
  unfold State.beginFrameParcel
  refine .ite (fun _ => ?_) fun _ => .refl s
  split
  · exact keeps_modAli _ _ id
  · exact keeps_beginNext _ _
  · exact .refl s

theorem keeps_writeClipCounts (s : State) (d : DeckId) (n : Nat) : Keeps s (s.writeClipCounts d n) := by
  unfold State.writeClipCounts
  split
  · exact keeps_modStore _ _ _ (storeKeeps_update _ _ _)
  · exact .refl s

theorem keeps_grant (s : State) (d : DeckId) (r : FrameRecord) : Keeps s (s.grant d r) := by
  unfold State.grant
  try dsimp only
  have k0 := keeps_modAli s (fun a =>
    { a with
      emission := some ⟨d, r.number, !decide (r.phase = .ready), r.lines, 0, 0, false, false⟩, lastGranted := d }) id
  refine k0.trans (.ite (fun _ => ?_) fun _ => .refl _)
  refine .ite (fun _ => Keeps.trans (keeps_modStore _ d _ (storeKeeps_update _ _ _)) (Keeps.trans (keeps_modGre _ _ id)
    (keeps_writeClipCounts _ d _))) fun _ => Keeps.trans (keeps_modStore _ d _ (storeKeeps_update _ _ _))
    (keeps_modGre _ _ id)

theorem countLines_bounded (a : Ali) (n : Nat) (h : a.bounded) : (a.countLines n).bounded := by
  unfold Ali.countLines
  split
  · split <;> exact h
  · split <;> exact h
  · exact h

theorem keeps_afterPicture (s : State) (was : Option Emission) : Keeps s (s.afterPicture was) := by
  unfold State.afterPicture
  split
  · exact .ite (fun _ => keeps_writeClipCounts _ _ _) fun _ => .refl s
  · exact .refl s

theorem keeps_accountShot (s : State) (d : DeckId) (r : FrameRecord) : Keeps s (s.accountShot d r) := by
  unfold State.accountShot
  split
  · exact (keeps_modTable _ _ _ (tableKeeps_modShot _ _ _ fun sh _ h => account_excursion sh _ _ h)).trans
      (keeps_completeExam _ _ _)
  · exact .refl s

theorem keeps_endEmission (s : State) : Keeps s s.endEmission := by
  unfold State.endEmission
  exact Keeps.trans (keeps_modGre _ _ id) (keeps_modAli _ _ id)

/-- An entry keeps a defect map within its room (R127). -/
theorem enter_room (m : DefectMap) (n : Nat) (c : ClassSet) (a : Action) (h : m.runs.length ≤ Config.runRoom) :
    (m.enter n c a).runs.length ≤ Config.runRoom := by
  unfold DefectMap.enter
  split
  · exact h
  · split
    · next run hrun =>
      have hne : m.runs ≠ [] := by intro hn; rw [hn] at hrun; cases hrun
      have hpos := List.length_pos_iff.2 hne
      split
      · simp only [List.length_append, List.length_dropLast, List.length_singleton]; omega
      · split
        · next hr => simp only [List.length_append, List.length_singleton]; omega
        · exact h
    · show 1 ≤ 512; decide

theorem keeps_fullSent (s : State) (e : Emission) : Keeps s (s.fullSent e) := by
  unfold State.fullSent
  split
  · dsimp only
    refine .ite (fun _ => ?_) fun _ => keeps_endEmission _
    exact Keeps.trans (keeps_modStore _ _ _ (storeKeeps_update _ _ _)) (Keeps.trans (keeps_releaseExam _ _ _)
      (Keeps.trans (keeps_releaseExamBefore _ _ _) (Keeps.trans (keeps_accountShot _ _ _)
      (Keeps.trans (keeps_modMap _ _ _ (by exact enter_room _ _ _ _)) (keeps_endEmission _)))))
  · exact keeps_endEmission _

theorem keeps_overrunSent (s : State) (e : Emission) : Keeps s (s.overrunSent e) := by
  unfold State.overrunSent
  split
  · dsimp only
    exact Keeps.trans (keeps_dropRecord _ _ _) (Keeps.trans (keeps_emptyHandoff _ _) (Keeps.trans
      (keeps_modMap _ _ _ (by exact enter_room _ _ _ _)) (Keeps.trans (keeps_completeExam _ _ _) (keeps_modAli _ _ id))))
  · exact keeps_modAli _ _ id

/-! ### The engines -/

theorem keeps_finishAnalysis (s : State) (f : FrameRef) (pf : Profile) : Keeps s (s.finishAnalysis f pf) := by
  unfold State.finishAnalysis
  try dsimp only
  split
  · exact .ite (fun _ => Keeps.trans (keeps_modStore _ _ _ (storeKeeps_update _ _ _)) (Keeps.trans
      (keeps_decideExam _ _ _) (keeps_decideExamBefore _ _ _))) fun _ => .refl s
  · exact .refl s

theorem keeps_decideHead (s : State) (f : FrameRef) : Keeps s (s.decideHead f) := by
  unfold State.decideHead
  try dsimp only
  split
  · exact .ite (fun _ => Keeps.trans (keeps_modStore _ _ _ (storeKeeps_update _ _ _)) (Keeps.trans (keeps_modCtx _ _ _)
      (Keeps.trans (keeps_modRpe _ _) (keeps_decideExam _ _ _)))) fun _ => .refl s
  · exact .refl s

theorem content_wf (k : DeckStore) (r : FrameRecord) (h : ∀ i : Fin 8, SlotMem.wf k.slots[i].mem = true) :
    SlotMem.wf (k.content r) = true := by
  unfold DeckStore.content
  split
  · exact h _
  · rfl

/-- A repair keeps the form of the slot's content (R120 to R123). -/
theorem repaired_wf (k : DeckStore) (pf : Profile) (r : FrameRecord)
    (h : ∀ i : Fin 8, SlotMem.wf k.slots[i].mem = true) : SlotMem.wf (k.repaired pf r).1 = true := by
  have hr := content_wf k r h
  unfold DeckStore.repaired
  try dsimp only
  split
  · show SlotMem.wf (concealTemporal _ _ _ _) = true
    exact conceal_wf _ _ hr
  · show SlotMem.wf (concealSpatial _ _) = true
    exact conceal_wf _ _ hr
  · split
    · next prev lines hp =>
      refine holdPrevious_wf _ hr ?_
      unfold DeckStore.pictureBefore DeckStore.picture at hp
      split at hp
      · cases hp
      · rw [Option.map_eq_some_iff] at hp
        obtain ⟨q, _, hq⟩ := hp
        cases hq
        exact content_wf k q h
    · exact hr
  all_goals exact hr

theorem storeKeeps_finishRepair (k : DeckStore) (pf : Profile) (r : FrameRecord) : StoreKeeps k (k.finishRepair pf r) := by
  unfold DeckStore.finishRepair
  try dsimp only
  refine StoreKeeps.trans ?_ (storeKeeps_update _ _ _)
  split
  · exact storeKeeps_modSlot _ _ _ fun h => repaired_wf k pf r h
  · exact .of_eq le_rfl rfl

/-! ### The deck lines -/

theorem keeps_sense (s : State) (d : DeckId) (sensor : Sensor) (level : Bool) (record : Sensors → Sensors) :
    Keeps s (s.sense d sensor level record) :=
  (keeps_modChan s d (fun c => { c with sensors := record c.sensors }) id).trans (keeps_notify _ _ _)

theorem keeps_sensorFall (s : State) (d : DeckId) : Keeps s (s.sensorFall d) := by
  unfold State.sensorFall
  try dsimp only
  exact .ite (fun _ => .ite (fun _ => keeps_loseBoundReel _ _) fun _ => .refl s) fun _ =>
    .ite (fun _ => .refl s) fun _ => .ite (fun _ => keeps_abort _ _) fun _ => .refl s

theorem keeps_sensorEffect (s : State) (d : DeckId) (sensor : Sensor) (level : Bool) :
    Keeps s (s.sensorEffect d sensor level) := by
  unfold State.sensorEffect
  try dsimp only
  split
  · exact .ite (fun _ => .refl s) fun _ => keeps_moveContext _ _ _
  · exact .ite (fun _ => .refl s) fun _ => keeps_moveContext _ _ _
  · exact .ite (fun _ => .refl s) fun _ => keeps_sensorFall _ _
  · exact .ite (fun _ => .refl s) fun _ => keeps_sensorFall _ _
  · exact .ite (fun _ => .refl s) fun _ => keeps_sensorFall _ _
  · exact .ite (fun _ => .refl s) fun _ => keeps_sensorFall _ _
  · exact .ite (fun _ => keeps_departReleased _ _) fun _ => .refl s
  · exact .refl s

theorem keeps_losePower (s : State) (d : DeckId) : Keeps s (s.losePower d) := by
  unfold State.losePower
  exact Keeps.trans (keeps_modCtx _ _ _) (keeps_modChan _ _ _ id)

theorem keeps_answer (s : State) (d : DeckId) (cmd : SlotCommand) (result : CommandResult) :
    Keeps s (s.answer d cmd result) := by
  unfold State.answer
  split
  · exact .ite (fun _ => keeps_endCommand _ _ _ _) fun _ => .refl s
  · exact .refl s

/-! ### All commands -/

/-- Every command answers a next state, which keeps every bound and form and the commands waiting. -/
theorem answers_exec (c : Instr) (s : State) : Answers s (exec c s) := by
  cases c with
  | bindReel => exact answers_execBindReel s
  | unbindReel => exact answers_execUnbindReel s
  | startScan => exact answers_execStartScan s
  | endScan => exact answers_execEndScan s
  | abortDeck => exact answers_execAbortDeck s
  | releaseReel => exact answers_execReleaseReel s
  | deckCommand => exact answers_execDeckCommand s
  | setDeckEvents => exact answers_execSetDeckEvents s
  | retrainLane => exact answers_execRetrainLane s
  | readContext => exact answers_execReadContext s
  | loadProfile => exact answers_execLoadProfile s
  | loadComparator => exact answers_execLoadComparator s
  | loadRule => exact answers_execLoadRule s
  | loadGrade => exact answers_execLoadGrade s
  | loadCurve => exact answers_execLoadCurve s
  | loadPolicy => exact answers_execLoadPolicy s
  | loadShelf => exact answers_execLoadShelf s
  | addCue => exact answers_execAddCue s
  | dropCue => exact answers_execDropCue s
  | bindGrade => exact answers_execBindGrade s
  | setDefaultGrade => exact answers_execSetDefaultGrade s
  | trim => exact answers_execTrim s
  | shelved => exact answers_execShelved s
  | releasePosition => exact answers_execReleasePosition s
  | cancelDirective => exact answers_execCancelDirective s
  | readShots => exact answers_execReadShots s
  | readDefectMap => exact answers_execReadDefectMap s
  | readShelf => exact answers_execReadShelf s
  | readQueue => exact answers_execReadQueue s
  | softReset => exact answers_execSoftReset s
  | unknownRequest => exact answers_execUnknownRequest s
  | controlParcelReceived bytes => exact .ite (fun _ => .next (keeps_receive _ _)) fun _ => .same s
  | overlongHeader bytes => exact .ite (fun _ => .next (keeps_receive _ _)) fun _ => .same s
  | halt => exact .ite (fun _ => .next (keeps_modAli _ _ id)) fun _ => .same s
  | go => exact .ite (fun _ => .next (Keeps.trans (keeps_modAli _ _ id) (keeps_beginFrameParcel _))) fun _ => .same s
  | linkSignalFound => exact .ite (fun _ => .next (keeps_modAli _ _ id)) fun _ => .same s
  | linkTrained =>
    exact .ite (fun _ => .next (Keeps.trans (keeps_modAli _ _ id) (keeps_beginFrameParcel _))) fun _ => .same s
  | linkSignalLost =>
    exact .ite (fun _ => .same s) fun _ => .next (Keeps.trans (keeps_modAli _ _ id) (keeps_linkError _ _))
  | readoutJoin =>
    show Answers s (execReadoutJoin s)
    unfold execReadoutJoin
    split
    · refine .ite (fun hr => .next (keeps_modAli _ _ fun h => ⟨?_, ?_, h.2.2⟩)) fun _ => .same s
      · simp only [List.length_append, List.length_singleton]; omega
      · simpa [noticeCount, List.countP_append, Report.isNotice] using h.2.1
    · exact .same s
  | reportSend =>
    show Answers s (execReportSend s)
    unfold execReportSend
    split
    · next r rest hq _ =>
      refine .ite (fun _ => .next (keeps_modAli _ _ fun h => ⟨?_, ?_, h.2.2⟩)) fun _ => .same s
      · have := h.1; rw [hq, List.length_cons] at this; exact Nat.le_of_succ_le this
      · have := h.2.1
        rw [hq] at this
        simp only [noticeCount, List.countP_cons] at this ⊢
        exact (Nat.le_add_right _ _).trans this
    · exact .same s
  | grant =>
    show Answers s (execGrant s)
    unfold execGrant
    refine .ite (fun _ => ?_) fun _ => .same s
    split
    · exact .next (Keeps.trans (keeps_grant _ _ _) (keeps_beginFrameParcel _))
    · exact .same s
  | pictureParcelSent =>
    show Answers s (execPictureParcelSent s)
    unfold execPictureParcelSent
    split
    · exact .ite (fun _ => .next (Keeps.trans (keeps_modAli _ _ (by exact countLines_bounded (s.ali.completeParcel _) _)) (Keeps.trans
        (keeps_afterPicture _ _) (keeps_beginFrameParcel _)))) fun _ => .same s
    · exact .same s
  | fullTrailerSent =>
    show Answers s (execFullTrailerSent s)
    unfold execFullTrailerSent
    split
    · next d reel r g hw =>
      refine .ite (fun _ => .next (Keeps.trans ?_ (keeps_beginFrameParcel _))) fun _ => .same s
      refine Keeps.trans (keeps_modAli s (fun a => a.completeParcel (.trailer (.full d reel r g))) id) ?_
      split
      · exact .ite (fun _ => .refl _) fun _ => .ite (fun _ => keeps_endEmission _) fun _ => keeps_fullSent _ _
      · exact .refl _
    · exact .same s
  | overrunTrailerSent =>
    show Answers s (execOverrunTrailerSent s)
    unfold execOverrunTrailerSent
    split
    · next d reel r hw =>
      refine .ite (fun _ => .next (Keeps.trans ?_ (keeps_beginFrameParcel _))) fun _ => .same s
      refine Keeps.trans (keeps_modAli s (fun a => a.completeParcel (.trailer (.overrun d reel r))) id) ?_
      split
      · exact .ite (fun _ => .refl _) fun _ => .ite (fun _ => keeps_modAli _ _ (by exact id)) fun _ => keeps_overrunSent _ _
      · exact .refl _
    · exact .same s
  | abortedTrailerSent =>
    show Answers s (execAbortedTrailerSent s)
    unfold execAbortedTrailerSent
    split
    · exact .ite (fun _ => .next (Keeps.trans (keeps_modAli _ _ id) (keeps_beginFrameParcel _))) fun _ => .same s
    · exact .same s
  | presentChange d level => exact .ite (fun _ => .same s) fun _ => .next ((keeps_sense _ _ _ _ _).trans (keeps_sensorEffect _ _ _ _))
  | gateClosedChange d level => exact .ite (fun _ => .same s) fun _ => .next ((keeps_sense _ _ _ _ _).trans (keeps_sensorEffect _ _ _ _))
  | powerFaultRise d =>
    show Answers s (execPowerFaultRise d s)
    unfold execPowerFaultRise
    try dsimp only
    have k := (keeps_sense s d .powerFault true fun v => { v with powerFault := true }).trans (keeps_losePower _ d)
    exact .ite (fun _ => .same s) fun _ =>
      .next (.ite (fun _ => k.trans (keeps_powerFaultDrain _ _)) fun _ => k)
  | powerFaultFall d => exact .ite (fun _ => .next (keeps_sense _ _ _ _ _)) fun _ => .same s
  | attentionPress d =>
    show Answers s (execAttentionPress d s)
    unfold execAttentionPress
    try dsimp only
    have k := keeps_sense s d .attention true fun v => { v with attention := true }
    exact .ite (fun _ => .same s) fun _ =>
      .next (.ite (fun _ => k.trans (keeps_releaseReel _ _)) fun _ => k)
  | attentionFall d => exact .next (keeps_modChan _ _ _ id)
  | deckAnswerDone d c => exact .next (keeps_answer _ _ _ _)
  | deckAnswerFault d c => exact .next (keeps_answer _ _ _ _)
  | commandTimeout d =>
    show Answers s (execCommandTimeout d s)
    unfold execCommandTimeout
    split
    · exact .next (keeps_endCommand _ _ _ _)
    · exact .same s
  | laneSignalFound d => exact .ite (fun _ => .next (keeps_moveLane _ _ _ _)) fun _ => .same s
  | laneTrained d => exact .ite (fun _ => .next (keeps_moveLane _ _ _ _)) fun _ => .same s
  | laneSignalLost d =>
    show Answers s (execLaneSignalLost d s)
    unfold execLaneSignalLost
    split
    · exact .same s
    · exact .next (keeps_moveLane _ _ _ _)
    · exact .next ((keeps_moveLane _ _ _ _).trans (keeps_laneLeavesUp _ _))
  | sighting d bytes => exact .next (keeps_laneArrive _ _ _)
  | band d bytes => exact .next (keeps_laneArrive _ _ _)
  | leader d bytes => exact .next (keeps_laneArrive _ _ _)
  | tail d bytes => exact .next (keeps_laneArrive _ _ _)
  | overlongLaneHeader d k r l => exact .next (keeps_laneArrive _ _ _)
  | analysisStart =>
    show Answers s (execAnalysisStart s)
    unfold execAnalysisStart
    split
    · exact .next (keeps_modDan _ _)
    · exact .same s
  | analysisComplete =>
    show Answers s (execAnalysisComplete s)
    unfold execAnalysisComplete
    split
    · exact .same s
    · split
      · exact .same s
      · exact .next ((keeps_modDan _ _).trans (keeps_finishAnalysis _ _ _))
  | decision =>
    show Answers s (execDecision s)
    unfold execDecision
    split
    · exact .next ((keeps_modRpe _ _).trans (keeps_decideHead _ _))
    · exact .same s
  | repairEnd =>
    show Answers s (execRepairEnd s)
    unfold execRepairEnd
    split
    · exact .same s
    · split
      · exact .same s
      · dsimp only
        split
        · exact .ite (fun _ => .next (Keeps.trans (keeps_modRpe _ _) (Keeps.trans
            (keeps_modStore _ _ _ (storeKeeps_finishRepair _ _ _)) (keeps_releaseExamBefore _ _ _)))) fun _ =>
            .next (keeps_modRpe _ _)
        · exact .next (keeps_modRpe _ _)
  | powerOnReset pins => exact answers_execPowerOnReset pins s
  | reportParcelSent =>
    show Answers s (execReportParcelSent s)
    unfold execReportParcelSent
    split
    · exact .ite (fun _ => .next (Keeps.trans (keeps_modAli _ _ id) (keeps_beginFrameParcel _))) fun _ => .same s
    · exact .same s
  | discardedLaneParcel d bytes => exact .next (keeps_laneArrive _ _ _)

end Sys2Proof.Machine
end

