-- ==== Sys2Proof/Laws/Take.lean ====
section
/-! SUPPORT. What a take does: when it waits, when it refuses, and when it delivers; and what a field of a body reads as. -/

namespace Sys2Proof.Machine

/-! ### Fields of a body -/

theorem toNat_bytes16 (v : Word16) :
    (v.extractLsb' 0 8).toNat + 256 * (v.extractLsb' 8 8).toNat = v.toNat := by
  have := v.isLt
  simp only [BitVec.extractLsb'_toNat, Nat.shiftRight_eq_div_pow]
  omega

theorem toNat_bytes32 (v : Word32) :
    (v.extractLsb' 0 8).toNat + 256 * (v.extractLsb' 8 8).toNat
      + 65536 * ((v.extractLsb' 16 8).toNat + 256 * (v.extractLsb' 24 8).toNat) = v.toNat := by
  have := v.isLt
  simp only [BitVec.extractLsb'_toNat, Nat.shiftRight_eq_div_pow]
  omega

@[simp] theorem byteAt_zero (b : Byte) (rest : List Byte) : byteAt (b :: rest) 0 = b.toNat := rfl

@[simp] theorem byteAt_succ (b : Byte) (rest : List Byte) (i : Nat) : byteAt (b :: rest) (i + 1) = byteAt rest i := rfl

theorem le16_bytes16 (v : Word16) (rest : List Byte) : le16 (bytes16 v ++ rest) 0 = v.toNat := by
  simpa [le16, bytes16] using toNat_bytes16 v

theorem le32_bytes32 (v : Word32) (rest : List Byte) : le32 (bytes32 v ++ rest) 0 = v.toNat := by
  simpa [le32, le16, bytes32] using toNat_bytes32 v

theorem byteAt_bytes16 (v : Word16) (rest : List Byte) (i : Nat) : byteAt (bytes16 v ++ rest) (i + 2) = byteAt rest i := rfl

theorem byteAt_bytes32 (v : Word32) (rest : List Byte) (i : Nat) : byteAt (bytes32 v ++ rest) (i + 4) = byteAt rest i := rfl

/-! ### Takes -/

theorem canTake_of {s : State} {p : ControlParcel} {rest : List ControlParcel} (h : s.takeable p rest) :
    s.ali.canTake = true := by
  simp [Ali.canTake, Config.reportRoom, h.2.1, h.2.2]

/-- The reply of a take, in one piece (R177, R179). -/
theorem reply_afterTake (s : State) (p : ControlParcel) (rest : List ControlParcel) (status : Status)
    (values : ReplyValues) :
    (s.modAli fun a => a.afterTake rest).reply p status values = s.answered p rest status values := by
  unfold State.answered Ali.answered State.reply Ali.afterTake Ali.sendSymbol State.modAli Config.inputGoMark
  by_cases hh : s.ali.upstreamHalt <;> by_cases hr : rest.length ≤ 2 <;> by_cases hl : s.ali.link = .up <;>
    simp [hh, hr, hl] <;> omega

theorem replyOk_afterTake (s : State) (p : ControlParcel) (rest : List ControlParcel) :
    (s.modAli fun a => a.afterTake rest).replyOk p = s.answered p rest .ok .none := reply_afterTake _ _ _ _ _

theorem refuse_afterTake (s : State) (p : ControlParcel) (rest : List ControlParcel) (status : Status) :
    (s.modAli fun a => a.afterTake rest).refuse p status = s.refused p rest status := reply_afterTake _ _ _ _ _

@[simp] theorem deck_answered (s : State) (p : ControlParcel) (rest : List ControlParcel) (status : Status)
    (values : ReplyValues) (d : DeckId) : (s.answered p rest status values).deck d = s.deck d := rfl

/-- A take that is delivered (R178, R196). -/
theorem takeRequest_delivers {code : Byte} {deliver : ControlParcel → State → State} {s : State} {p : ControlParcel}
    {rest : List ControlParcel} {form : RequestForm} (h : s.takeable p rest) (hcode : p.code = code)
    (hform : requestForm code = some form) (hchecks : takeChecks form p = none) :
    takeRequest code deliver s = .next (deliver p (s.modAli fun a => a.afterTake rest)) := by
  simp [takeRequest, h.1, hcode, canTake_of h, hform, hchecks]

/-- A take that the checks of R196 refuse. -/
theorem takeRequest_refuses {code : Byte} {deliver : ControlParcel → State → State} {s : State} {p : ControlParcel}
    {rest : List ControlParcel} {form : RequestForm} {status : Status} (h : s.takeable p rest) (hcode : p.code = code)
    (hform : requestForm code = some form) (hchecks : takeChecks form p = some status) :
    takeRequest code deliver s = .next (s.refused p rest status) := by
  simp only [takeRequest, h.1, hcode, canTake_of h, hform, hchecks, and_self, if_true, refuse_afterTake]

/-- A take that cannot happen now changes nothing (R178; log 2, log 3). -/
theorem takeRequest_waits {code : Byte} {deliver : ControlParcel → State → State} {s : State}
    (h : ∀ p rest, s.takeable p rest → p.code ≠ code) : takeRequest code deliver s = .next s := by
  unfold takeRequest
  split
  · rfl
  · next p rest hp =>
    rw [if_neg]
    intro hc
    have h2 := hc.2
    simp only [Ali.canTake, Config.reportRoom, Bool.and_eq_true, List.isEmpty_iff] at h2
    exact h p rest ⟨hp, of_decide_eq_true h2.1, h2.2⟩ hc.1

@[simp] theorem parcelDeck_deckParcel (d : DeckId) (tag code : Byte) (body : List Byte) :
    parcelDeck (deckParcel d tag code body) = some d := by
  revert d; simp only [parcelDeck, deckParcel]; decide

/-- A deck-scoped take that is delivered. -/
theorem takeDeckRequest_delivers {code : Byte} {deliver : DeckId → ControlParcel → State → State} {s : State} {d : DeckId}
    {tag : Byte} {body : List Byte} {rest : List ControlParcel} {form : RequestForm}
    (h : s.takeable (deckParcel d tag code body) rest) (hform : requestForm code = some form)
    (hchecks : takeChecks form (deckParcel d tag code body) = none) :
    takeDeckRequest code deliver s =
      .next (deliver d (deckParcel d tag code body) (s.modAli fun a => a.afterTake rest)) := by
  unfold takeDeckRequest
  rw [takeRequest_delivers (code := code) h rfl hform hchecks]
  simp

end Sys2Proof.Machine
end

