-- ==== Sys2Proof/Laws/Wire.lean ====
section
/-! SUPPORT. The bytes of the wires as the statements write them (Safety.lean) against those of the model: the CRC by its division, fields
and whole parcels. -/

namespace Sys2Proof.Machine

/-! ### The CRC -/

theorem crcShift_xor (c x : Word16) : crcShift (c ^^^ x) = crcBit c x.msb ^^^ (x <<< 1) := by
  unfold crcShift crcBit
  rw [BitVec.msb_xor, BitVec.shiftLeft_xor_distrib]
  split
  · rw [BitVec.xor_assoc, BitVec.xor_comm (x <<< 1), ← BitVec.xor_assoc]
  · rfl

/-- A byte taken into the CRC is its eight bits, most significant first (R174). -/
theorem crcByte_eq (c : Word16) (b : Byte) :
    crcByte c b = ((List.range 8).map fun i => b.getMsbD i).foldl crcBit c := by
  have high : ∀ i, i < 8 → ((b.setWidth 16 <<< 8) <<< i : Word16).msb = b.getMsbD i := by revert b; decide +kernel
  have gone : ((b.setWidth 16 <<< 8) <<< 8 : Word16) = 0#16 := by revert b; decide +kernel
  have bit : ∀ i, i < 8 → ∀ c : Word16, crcShift (c ^^^ ((b.setWidth 16 <<< 8) <<< i))
      = crcBit c (b.getMsbD i) ^^^ ((b.setWidth 16 <<< 8) <<< (i + 1)) := by
    intro i hi c
    rw [crcShift_xor, high i hi, ← BitVec.shiftLeft_add]
  have first := bit 0 (by omega) c
  rw [BitVec.shiftLeft_zero] at first
  unfold crcByte
  rw [first, bit 1 (by omega), bit 2 (by omega), bit 3 (by omega), bit 4 (by omega), bit 5 (by omega), bit 6 (by omega),
    bit 7 (by omega), gone, BitVec.xor_zero]
  rfl

/-- The CRC is that of its division (R174). -/
theorem crc16_eq (bytes : List Byte) : crc16 bytes = crcOf bytes := by
  unfold crc16 crcOf
  generalize (0xFFFF#16 : Word16) = c
  induction bytes generalizing c with
  | nil => rfl
  | cons b rest ih => rw [List.foldl_cons, ih, List.flatMap_cons, List.foldl_append, crcByte_eq]

/-! ### Fields -/

theorem put8_eq (n : Nat) : put8 n = field8 n := by simp [put8, nthByte, field8]

theorem put16_eq (n : Nat) : put16 n = field16 n := by
  have h : ∀ i, nthByte n i = (BitVec.ofNat 16 n).extractLsb' (8 * i) 8 ∨ 2 ≤ i := by
    intro i
    by_cases hi : i < 2
    · left
      apply BitVec.eq_of_toNat_eq
      simp only [nthByte, BitVec.toNat_ofNat, BitVec.extractLsb'_toNat, Nat.shiftRight_eq_div_pow]
      interval_cases i <;> omega
    · omega
  have h0 := (h 0).resolve_right (by omega)
  have h1 := (h 1).resolve_right (by omega)
  simp only [put16, field16, bytes16, h0, h1]

theorem put32_eq (n : Nat) : put32 n = field32 n := by
  have h : ∀ i, i < 4 → nthByte n i = (BitVec.ofNat 32 n).extractLsb' (8 * i) 8 := by
    intro i hi
    apply BitVec.eq_of_toNat_eq
    simp only [nthByte, BitVec.toNat_ofNat, BitVec.extractLsb'_toNat, Nat.shiftRight_eq_div_pow]
    interval_cases i <;> omega
  simp only [put32, field32, bytes32, h 0 (by omega), h 1 (by omega), h 2 (by omega), h 3 (by omega)]

theorem putReel_eq (reel : Option ReelId) : putReel reel = reelField reel := by
  cases reel <;> simp [putReel, reelField, put32_eq, field32]

theorem putIndex_eq {n : Nat} (i : Option (Fin n)) : putIndex i = indexField i := by
  cases i <;> simp [putIndex, indexField, put8_eq, field8]

theorem putWord_eq (n : Option Nat) : putWord n = wordField n := by
  cases n <;> simp [putWord, wordField, put16_eq, field16, bytes16]

theorem putLast_eq (n : Option Nat) : put32 (n.getD 4294967295) = lastField n := by
  cases n <;> simp [lastField, put32_eq, field32, bytes32]

theorem putFlag_eq (b : Bool) : putFlag b = flagField b := by cases b <;> rfl

theorem putSigned8_eq (v : Int) : putSigned8 v = [BitVec.ofInt 8 v] := by
  simp only [putSigned8, put8_eq, field8, twosComplement, BitVec.ofNat_toNat, BitVec.setWidth_eq]

theorem putSigned16_eq (v : Int) : put16 (twosComplement 16 v) = bytes16 (BitVec.ofInt 16 v) := by
  simp only [put16_eq, field16, twosComplement, BitVec.ofNat_toNat, BitVec.setWidth_eq]

theorem putWord32_eq (v : Word32) : put32 v.toNat = bytes32 v := by
  simp only [put32_eq, field32, BitVec.ofNat_toNat, BitVec.setWidth_eq]

theorem putClasses_eq (c : ClassSet) : put8 c.bits = classField c := by
  rcases c with ⟨_ | _, _ | _, _ | _, _ | _, _ | _, _ | _⟩ <;> rfl

theorem putFrameFlags_eq (f : FrameFlags) : put8 f.bits = frameFlagField f := by
  rcases f with ⟨_ | _, _ | _, _ | _, _ | _, _ | _⟩ <;> rfl

/-- A whole parcel of the archive link (section 10.2). -/
theorem parcelBytes_eq (kind : Nat) (deck tag : Byte) (code : Nat) (payload : List Byte) :
    parcelBytes kind deck tag code payload = wireParcel (BitVec.ofNat 8 kind) deck tag (BitVec.ofNat 8 code) payload := by
  have c : put8 kind ++ [deck, tag] ++ put8 code ++ put32 payload.length ++ payload
      = coveredBytes (BitVec.ofNat 8 kind) deck tag (BitVec.ofNat 8 code) payload := by
    simp [coveredBytes, put8_eq, put32_eq, field8, field32]
  have w : ∀ v : Word16, put16 v.toNat = bytes16 v := fun v => by
    rw [put16_eq, field16, BitVec.ofNat_toNat, BitVec.setWidth_eq]
  unfold parcelBytes wireParcel
  dsimp only
  rw [c, crc16_eq, w]
  rfl

end Sys2Proof.Machine
end

