-- ==== Sys2Proof/Laws/Lanes.lean ====
section
/-! SUPPORT. How the bytes of a lane are cut (R199): what the intake finds at the head of a parcel, of a part of one and of an overlong header, and
what an arrival comes to. -/

namespace Sys2Proof.Machine

theorem hunt_at_sync (x y : Byte) (rest : List Byte) : hunt x y (x :: y :: rest) = x :: y :: rest := by
  simp [hunt]

theorem hunt_length (x y : Byte) (bytes : List Byte) : (hunt x y bytes).length ≤ bytes.length := by
  induction bytes with
  | nil => simp [hunt]
  | cons a rest ih =>
    cases rest with
    | nil => simp only [hunt]; split <;> simp
    | cons b rest =>
      simp only [hunt]
      split
      · exact le_rfl
      · exact ih.trans (Nat.le_succ _)

theorem bytes_length (f : LaneFrame) : f.bytes.length = 10 + f.payload.length := by
  simp [LaneFrame.bytes, bytes32, bytes16]; omega

/-- The announced length of a header of four bytes and a length field. -/
theorem le32_header (a b c e : Byte) (v : Word32) (rest : List Byte) :
    le32 ([a, b, c, e] ++ bytes32 v ++ rest) 4 = v.toNat := by
  simpa [le32, le16, byteAt, bytes32] using le32_bytes32 v rest

theorem le32_bytes_head (f : LaneFrame) (h : f.fits) (rest : List Byte) : le32 (f.bytes ++ rest) 4 = f.payload.length := by
  have e : f.bytes ++ rest = [0x96, 0x5B, f.kind, f.reserved] ++ bytes32 (BitVec.ofNat 32 f.payload.length)
      ++ (f.payload ++ bytes16 f.crc ++ rest) := by simp [LaneFrame.bytes]
  rw [e, le32_header, BitVec.toNat_ofNat, Nat.mod_eq_of_lt]
  have : f.payload.length ≤ 1048584 := h
  omega

theorem le16_at (bytes rest : List Byte) (v : Word16) : le16 (bytes ++ bytes16 v ++ rest) bytes.length = v.toNat := by
  have at_ (i : Nat) : (bytes ++ (bytes16 v ++ rest)).getD (bytes.length + i) 0 = (bytes16 v ++ rest).getD i 0 := by
    rw [List.getD_eq_getElem?_getD, List.getElem?_append_right (by omega), Nat.add_sub_cancel_left,
      ← List.getD_eq_getElem?_getD]
  have h0 := at_ 0
  have h1 := at_ 1
  rw [Nat.add_zero] at h0
  rw [List.append_assoc, le16, byteAt, byteAt, h0, h1]
  simpa [le16, byteAt] using le16_bytes16 v rest

/-- A whole parcel at the head of the bytes is found with its fields as they were sent. -/
theorem laneHead_bytes (f : LaneFrame) (h : f.fits) (rest : List Byte) :
    laneHead (f.bytes ++ rest) = .parcel f (10 + f.payload.length) := by
  have n := le32_bytes_head f h rest
  have hl : (f.bytes ++ rest).length = 10 + f.payload.length + rest.length := by rw [List.length_append, bytes_length]
  have fits : f.payload.length ≤ 1048584 := h
  have crc : BitVec.ofNat 16 (le16 (f.bytes ++ rest) (8 + f.payload.length)) = f.crc := by
    have e : f.bytes ++ rest = ([0x96, 0x5B, f.kind, f.reserved] ++ bytes32 (BitVec.ofNat 32 f.payload.length)
        ++ f.payload) ++ bytes16 f.crc ++ rest := by simp [LaneFrame.bytes]
    have w := le16_at ([0x96, 0x5B, f.kind, f.reserved] ++ bytes32 (BitVec.ofNat 32 f.payload.length) ++ f.payload) rest f.crc
    rw [e]
    have : ([0x96, 0x5B, f.kind, f.reserved] ++ bytes32 (BitVec.ofNat 32 f.payload.length) ++ f.payload : List Byte).length
        = 8 + f.payload.length := by simp [bytes32]; omega
    rw [this] at w
    rw [w, BitVec.ofNat_toNat, BitVec.setWidth_eq]
  have payload : ((f.bytes ++ rest).drop 8).take f.payload.length = f.payload := by
    simp [LaneFrame.bytes, bytes32]
  unfold laneHead
  dsimp only
  rw [n, if_neg (by omega), if_neg (by simp only [Config.maxLanePayload]; omega), if_neg (by omega), crc, payload]
  rfl

/-- A part of a parcel waits for the rest of it. -/
theorem laneHead_take (f : LaneFrame) (h : f.fits) (n : Nat) (hn : n < f.bytes.length) :
    laneHead (f.bytes.take n) = .more := by
  unfold laneHead
  dsimp only
  by_cases h8 : n < 8
  · rw [if_pos (by rw [List.length_take]; omega)]
  · rw [bytes_length] at hn
    have len : (f.bytes.take n).length = n := by rw [List.length_take, bytes_length]; omega
    have e : le32 (f.bytes.take n) 4 = f.payload.length := by
      rw [← le32_bytes_head f h []]
      simp only [le32, le16, byteAt, List.getD_eq_getElem?_getD, List.append_nil]
      rw [List.getElem?_take_of_lt (by omega), List.getElem?_take_of_lt (by omega), List.getElem?_take_of_lt (by omega),
        List.getElem?_take_of_lt (by omega)]
    have fits : f.payload.length ≤ 1048584 := h
    rw [len, e, if_neg (by omega), if_neg (by simp only [Config.maxLanePayload]; omega), if_pos (by omega)]

theorem huntLaneSync_bytes (f : LaneFrame) (rest : List Byte) : huntLaneSync (f.bytes ++ rest) = f.bytes ++ rest := by
  unfold huntLaneSync LaneFrame.bytes
  exact hunt_at_sync _ _ _

theorem huntLaneSync_take (f : LaneFrame) (n : Nat) : huntLaneSync (f.bytes.take n) = f.bytes.take n := by
  unfold huntLaneSync LaneFrame.bytes
  match n with
  | 0 => rfl
  | 1 => rfl
  | n + 2 => exact hunt_at_sync _ _ _

/-- Bytes that are whole parcels and a part of one are cut into those parcels, and the part is left (R199). -/
theorem cutLane_frames (frames : List LaneFrame) (hf : ∀ f ∈ frames, f.fits) (tail : LaneFrame) (ht : tail.fits) (n : Nat)
    (hn : n < tail.bytes.length) (fuel : Nat) (hfuel : frames.length < fuel) :
    cutLane fuel (frames.flatMap LaneFrame.bytes ++ tail.bytes.take n) = ⟨frames, tail.bytes.take n⟩ := by
  induction frames generalizing fuel with
  | nil =>
    obtain ⟨fuel, rfl⟩ : ∃ m, fuel = m + 1 := ⟨fuel - 1, by simp at hfuel; omega⟩
    simp only [List.flatMap_nil, List.nil_append, cutLane]
    rw [huntLaneSync_take, laneHead_take tail ht n hn]
  | cons f rest ih =>
    obtain ⟨fuel, rfl⟩ : ∃ m, fuel = m + 1 := ⟨fuel - 1, by simp at hfuel; omega⟩
    simp only [List.flatMap_cons, List.append_assoc, cutLane]
    rw [huntLaneSync_bytes, laneHead_bytes f (hf f (List.mem_cons_self ..))]
    dsimp only
    have hd : (f.bytes ++ (rest.flatMap LaneFrame.bytes ++ tail.bytes.take n)).drop (10 + f.payload.length)
        = rest.flatMap LaneFrame.bytes ++ tail.bytes.take n := by rw [← bytes_length, List.drop_left]
    rw [hd, ih (fun g hg => hf g (List.mem_cons_of_mem _ hg)) fuel (by simp at hfuel; omega)]

/-- Every round of the cutting consumes bytes, so more fuel than bytes makes no difference. -/
theorem cutLane_fuel (fuel : Nat) (bytes : List Byte) (h : bytes.length < fuel) :
    cutLane fuel bytes = cutLane (bytes.length + 1) bytes := by
  have key : ∀ (n a b : Nat) (bytes : List Byte), bytes.length ≤ n → bytes.length < a → bytes.length < b →
      cutLane a bytes = cutLane b bytes := by
    intro n
    induction n with
    | zero =>
      intro a b bytes hn ha hb
      obtain ⟨a, rfl⟩ : ∃ m, a = m + 1 := ⟨a - 1, by omega⟩
      obtain ⟨b, rfl⟩ : ∃ m, b = m + 1 := ⟨b - 1, by omega⟩
      have : bytes = [] := List.length_eq_zero_iff.1 (by omega)
      subst this
      rfl
    | succ n ih =>
      intro a b bytes hn ha hb
      obtain ⟨a, rfl⟩ : ∃ m, a = m + 1 := ⟨a - 1, by omega⟩
      obtain ⟨b, rfl⟩ : ∃ m, b = m + 1 := ⟨b - 1, by omega⟩
      simp only [cutLane]
      have hl : (huntLaneSync bytes).length ≤ bytes.length := hunt_length _ _ _
      have step : ∀ m, 8 ≤ m → 8 ≤ (huntLaneSync bytes).length →
          cutLane a ((huntLaneSync bytes).drop m) = cutLane b ((huntLaneSync bytes).drop m) := fun m hm h8 =>
        ih _ _ _ (by rw [List.length_drop]; omega) (by rw [List.length_drop]; omega) (by rw [List.length_drop]; omega)
      split
      · rfl
      · next hh =>
        have h8 : 8 ≤ (huntLaneSync bytes).length := by
          by_contra hc
          unfold laneHead at hh
          dsimp only at hh
          rw [if_pos (by omega)] at hh
          cases hh
        exact step 8 (by omega) h8
      · next f m hh =>
        unfold laneHead at hh
        dsimp only at hh
        split at hh
        · cases hh
        · split at hh
          · cases hh
          · split at hh
            · cases hh
            · cases hh
              rw [step _ (by omega) (by omega)]
  exact key bytes.length _ _ _ le_rfl h (by omega)

/-! ### Arrivals -/

/-- What an arrival comes to, on a lane that is UP: the parcels it completes are read in their order. -/
theorem laneArrive_frames (s : State) (d : DeckId) (bytes : List Byte) (frames : List LaneFrame) (tail : LaneFrame) (n : Nat)
    (up : (s.deck d).lane = .up) (hf : ∀ f ∈ frames, f.fits) (ht : tail.fits) (hn : n < tail.bytes.length)
    (h : (s.deck d).intake ++ bytes = frames.flatMap LaneFrame.bytes ++ tail.bytes.take n) :
    s.laneArrive d bytes = frames.foldl (fun t f => t.laneParcel d f) (s.setDeck d { s.deck d with intake := tail.bytes.take n }) := by
  have fuel : frames.length < ((s.deck d).intake ++ bytes).length + 1 := by
    rw [h, List.length_append]
    have : frames.length ≤ (frames.flatMap LaneFrame.bytes).length := by
      clear h hf
      induction frames with
      | nil => simp
      | cons f rest ih =>
        rw [List.flatMap_cons, List.length_append, bytes_length, List.length_cons]
        omega
    omega
  unfold State.laneArrive
  dsimp only
  rw [if_pos up, h] at *
  rw [cutLane_frames frames hf tail ht n hn _ fuel]
  rfl

/-- A whole parcel that arrives at an intake that holds none is read, and nothing of it is left. -/
theorem laneArrive_frame (s : State) (d : DeckId) (f : LaneFrame) (up : (s.deck d).lane = .up) (empty : (s.deck d).intake = [])
    (h : f.fits) : s.laneArrive d f.bytes = s.laneParcel d f := by
  have same : s.setDeck d { s.deck d with intake := [] } = s := by
    rw [← empty]; exact setDeck_deck s d
  rw [laneArrive_frames s d f.bytes [f] f 0 up (by simpa using h) h (by rw [bytes_length]; omega) (by simp [empty])]
  simp [same]

/-- Bytes that arrive on a lane that is not UP are lost (R32). -/
theorem laneArrive_notUp (s : State) (d : DeckId) (bytes : List Byte) (h : (s.deck d).lane ≠ .up) : s.laneArrive d bytes = s := by
  unfold State.laneArrive
  exact if_neg h

end Sys2Proof.Machine
end

