-- ==== Sys2Proof/Laws/Leaves.lean ====
section
/-! SUPPORT. What the leave of records leaves alone, and the ends of a scan, of registration and of a reel as the steps that Safety.lean gives. -/

namespace Sys2Proof.Machine

/-- What the leave of records of deck d, and the examinations that follow it, leave alone: a FLOW RUN is asked for only in PAUSE_ASKED (R69), and a
reel is handed over only in DRAINING (R20). -/
structure LeaveFrame (s t : State) (d : DeckId) : Prop where
  others : ∀ e, e ≠ d → t.deck e = s.deck e
  rgu : (t.deck d).rgu = (s.deck d).rgu
  lane : (t.deck d).lane = (s.deck d).lane ∧ (t.deck d).intake = (s.deck d).intake
  map : (t.deck d).map = (s.deck d).map
  lastConsumed : (t.deck d).store.lastConsumed = (s.deck d).store.lastConsumed
  cues : (t.deck d).table.cues = (s.deck d).table.cues
  profiles : t.profiles = s.profiles
  gre : t.gre = s.gre
  pending : t.pending = s.pending
  flow : (s.deck d).store.flow ≠ .pauseAsked →
    (t.deck d).chan = (s.deck d).chan ∧ (t.deck d).store.flow = (s.deck d).store.flow
  context : (s.deck d).ctx.state ≠ .draining → (t.deck d).ctx = (s.deck d).ctx ∧ t.shp = s.shp

theorem LeaveFrame.refl (s : State) (d : DeckId) : LeaveFrame s s d :=
  ⟨fun _ _ => rfl, rfl, ⟨rfl, rfl⟩, rfl, rfl, rfl, rfl, rfl, rfl, fun _ => ⟨rfl, rfl⟩, fun _ => ⟨rfl, rfl⟩⟩

theorem LeaveFrame.trans {a b c : State} {d : DeckId} (h : LeaveFrame a b d) (g : LeaveFrame b c d) : LeaveFrame a c d := by
  refine ⟨fun e he => (g.others e he).trans (h.others e he), g.rgu.trans h.rgu,
    ⟨g.lane.1.trans h.lane.1, g.lane.2.trans h.lane.2⟩, g.map.trans h.map, g.lastConsumed.trans h.lastConsumed,
    g.cues.trans h.cues, g.profiles.trans h.profiles, g.gre.trans h.gre, g.pending.trans h.pending, fun f => ?_, fun f => ?_⟩
  · have h1 := h.flow f
    have h2 := g.flow (by rw [h1.2]; exact f)
    exact ⟨h2.1.trans h1.1, h2.2.trans h1.2⟩
  · have h1 := h.context f
    have h2 := g.context (by rw [h1.1]; exact f)
    exact ⟨h2.1.trans h1.1, h2.2.trans h1.2⟩

theorem LeaveFrame.ite {p : Prop} [Decidable p] {s a b : State} {d : DeckId} (ha : LeaveFrame s a d)
    (hb : LeaveFrame s b d) : LeaveFrame s (if p then a else b) d := by
  split <;> assumption

/-! ### The primitive updates -/

theorem LeaveFrame.notify (s : State) (d e : DeckId) (body : NoticeBody) : LeaveFrame s (s.notify e body) d := by
  constructor <;> simp

/-- An update of the slots and records that leaves the flow state and the most recently consumed number. -/
theorem leaveFrame_modStore (s : State) (d : DeckId) (f : DeckStore → DeckStore)
    (h : (f (s.deck d).store).flow = (s.deck d).store.flow
      ∧ (f (s.deck d).store).lastConsumed = (s.deck d).store.lastConsumed) :
    LeaveFrame s (s.modStore d f) d := by
  constructor <;> simp [h]
  intro e he; exact deck_modDeck_ne _ _ he

theorem leaveFrame_modRpe (s : State) (d : DeckId) (f : Rpe → Rpe) : LeaveFrame s (s.modRpe f) d := by
  constructor <;> simp

theorem leaveFrame_modDan (s : State) (d : DeckId) (f : Dan → Dan) : LeaveFrame s (s.modDan f) d := by
  constructor <;> simp

/-- An update of the shots. -/
theorem leaveFrame_modShots (s : State) (d : DeckId) (f : ShotTable → ShotTable)
    (h : (f (s.deck d).table).cues = (s.deck d).table.cues) : LeaveFrame s (s.modTable d f) d := by
  constructor <;> simp [h]
  intro e he; exact deck_modDeck_ne _ _ he

/-! ### Leaves and examinations -/

theorem leaveFrame_dropRecord (s : State) (d : DeckId) (n : Nat) : LeaveFrame s (s.dropRecord d n) d := by
  have h : ((s.deck d).store.drop n).flow = (s.deck d).store.flow
      ∧ ((s.deck d).store.drop n).lastConsumed = (s.deck d).store.lastConsumed := by
    unfold DeckStore.drop
    dsimp only
    split <;> exact ⟨rfl, rfl⟩
  have k := leaveFrame_modStore s d (fun k => k.drop n) h
  unfold State.dropRecord
  dsimp only
  split
  · next hc =>
    refine k.trans ?_
    have hf := hc.2.2.1
    constructor <;> simp [State.flowRequest]
    · intro e he; rw [deck_modDeck_ne _ _ he, deck_modDeck_ne _ _ he]
    · exact fun hn => absurd (by simpa using hf) hn
  · exact k

theorem leaveFrame_emptyHandoff (s : State) (d : DeckId) : LeaveFrame s (s.emptyHandoff d) d := by
  unfold State.emptyHandoff
  dsimp only
  split
  · next hc =>
    have hd := hc.2
    unfold State.planFinished State.moveContext State.plan State.notifyDirective
    constructor
    all_goals (dsimp only; split <;> simp [hd] <;> try (intro e he; simp [deck_modDeck_ne _ _ he]))
  · exact .refl s d

theorem leaveFrame_releaseExam (s : State) (d : DeckId) (n : Nat) : LeaveFrame s (s.releaseExam d n) d := by
  unfold State.releaseExam
  dsimp only
  split
  · split
    · exact (leaveFrame_dropRecord _ _ _).trans (leaveFrame_emptyHandoff _ _)
    · exact .refl s d
  · exact .refl s d

theorem leaveFrame_decideExam (s : State) (d : DeckId) (n : Nat) : LeaveFrame s (s.decideExam d n) d := by
  unfold State.decideExam
  dsimp only
  split
  · split
    · exact leaveFrame_modRpe _ _ _
    · exact .refl s d
  · exact .refl s d

theorem leaveFrame_completeExam (s : State) (d : DeckId) (i : Nat) : LeaveFrame s (s.completeExam d i) d := by
  unfold State.completeExam
  dsimp only
  split
  · split
    · exact (leaveFrame_modShots _ _ _ rfl).trans (.notify _ _ _ _)
    · exact .refl s d
  · exact .refl s d

theorem leaveFrame_decideExamBefore (s : State) (d : DeckId) (n : Nat) : LeaveFrame s (s.decideExamBefore d n) d := by
  unfold State.decideExamBefore
  split
  · exact .refl s d
  · exact leaveFrame_decideExam _ _ _

theorem leaveFrame_releaseExamBefore (s : State) (d : DeckId) (n : Nat) : LeaveFrame s (s.releaseExamBefore d n) d := by
  unfold State.releaseExamBefore
  split
  · exact .refl s d
  · exact leaveFrame_releaseExam _ _ _

theorem leaveFrame_enginesForget (s : State) (d : DeckId) (n : Nat) : LeaveFrame s (s.enginesForget d n) d := by
  unfold State.enginesForget
  dsimp only
  exact (leaveFrame_modDan s d _).trans (leaveFrame_modRpe _ d _)

theorem leaveFrame_discard (s : State) (d : DeckId) (n : Nat) : LeaveFrame s (s.discard d n) d := by
  unfold State.discard
  split
  · exact .refl s d
  · dsimp only
    refine (((((LeaveFrame.trans (leaveFrame_dropRecord s d n) (leaveFrame_modStore _ d _ ?_)).trans
      (leaveFrame_enginesForget _ d n)).trans (leaveFrame_decideExamBefore _ d n)).trans
      (leaveFrame_releaseExamBefore _ d n)).trans (leaveFrame_completeExam _ d _)).trans (leaveFrame_emptyHandoff _ d)
    split <;> exact ⟨rfl, rfl⟩

theorem leaveFrame_afterClose (s : State) (d : DeckId) (i n : Nat) : LeaveFrame s (s.afterClose d i n) d :=
  ((leaveFrame_releaseExam _ _ _).trans (leaveFrame_decideExam _ _ _)).trans (leaveFrame_completeExam _ _ _)

theorem leaveFrame_closeShotAtEnd (s : State) (d : DeckId) (cut : Bool) : LeaveFrame s (s.closeShotAtEnd d cut) d := by
  unfold State.closeShotAtEnd
  have shut (i last : Nat) :
      LeaveFrame s ((s.modTable d fun t => t.modShot i fun sh => sh.closeAt last).afterClose d i last) d :=
    (leaveFrame_modShots s d (fun t => t.modShot i fun sh => sh.closeAt last) rfl).trans (leaveFrame_afterClose _ d _ _)
  dsimp only
  split
  · next i _ _ _ =>
    split
    · exact .refl s d
    · exact .ite (leaveFrame_modShots s d (fun t => { t with shots := t.shots.eraseIdx i }) rfl) (shut _ _)
  · exact .refl s d

theorem LeaveFrame.foldl {α : Type} {d : DeckId} {f : State → α → State} (h : ∀ s x, LeaveFrame s (f s x) d) (l : List α)
    (s : State) : LeaveFrame s (l.foldl f s) d := by
  induction l generalizing s with
  | nil => exact .refl s d
  | cons x xs ih => exact (h s x).trans (ih _)

/-! ### The ends, step by step -/

/-- The loss of registration outside DRAINING is its steps (R42). -/
theorem loseRegistration_eq (s : State) (d : DeckId) (cause : LossCause) (sighting : Option FilmPos)
    (h : (s.deck d).ctx.state ≠ .draining) : s.loseRegistration d cause sighting = s.registrationLost d cause sighting := by
  have tail (t : State) (f : LeaveFrame s t d) : (t.modRgu d fun r =>
      { r with
        boundary := none, current := none, candidate := none, avg := none, index := 0, misses := 0
        relockPending := true, lock := .acquire, prev := sighting, chain := if sighting.isSome then 1 else 0 }).notifyRegistration
          d .loss cause sighting
      = (t.setDeck d { t.deck d with rgu := (s.deck d).rgu.lost sighting }).notify d
        (.registration .loss cause sighting (s.deck d).ctx.nextFrame) := by
    have h1 := (f.context h).1
    simp only [State.notifyRegistration, modRgu_eq, deck_modDeck_same, ← f.rgu, ← h1]
    unfold State.modDeck Rgu.lost
    cases sighting <;> rfl
  unfold State.loseRegistration State.registrationLost
  dsimp only
  cases hc : (s.deck d).rgu.current with
  | none => exact tail s (.refl s d)
  | some c =>
    dsimp only
    cases hr : (s.deck d).store.find c.number with
    | none => exact tail s (.refl s d)
    | some r =>
      simp only [Option.map_some, Option.some.injEq]
      split
      · exact tail _ (leaveFrame_discard _ _ _)
      · exact tail s (.refl s d)

/-- The numbers of the records in a phase, as Safety.lean has them. -/
theorem numbersIn_eq (k : DeckStore) (p : Phase) : k.numbersIn p = k.numbersOf p := by
  unfold DeckStore.numbersIn DeckStore.numbersOf
  congr 2

/-- The CAPTURING record's number. -/
theorem capturing_eq (k : DeckStore) : k.capturing = (k.numbersOf .capturing).head? := by
  unfold DeckStore.capturing DeckStore.numbersOf
  rw [List.head?_map, List.head?_filter]
  congr 2

/-- Leaving SCANNING is its steps (R18, R19), with the channel it leaves. -/
theorem scanEnds_eq (s : State) (d : DeckId) (f : Channel → Channel) (h : (s.deck d).ctx.state = .scanning) :
    ((s.endCapture d).modChan d f).enterDraining d = s.scanEnds d (f (s.deck d).chan) := by
  have idle : ((s.modStore d fun k => { k with flow := .clear }).modRgu d Rgu.disable)
      = s.setDeck d
        { s.deck d with rgu := (s.deck d).rgu.disabled, store := { (s.deck d).store with flow := .clear } } := by
    simp only [modStore_eq, modRgu_eq, State.modDeck, deck_setDeck_same, setDeck_setDeck]
    rfl
  unfold State.endCapture State.scanEnds State.discardCapturing
  dsimp only
  rw [idle]
  generalize hi : s.setDeck d
    { s.deck d with rgu := (s.deck d).rgu.disabled, store := { (s.deck d).store with flow := .clear } } = i
  have di : i.deck d =
      { s.deck d with rgu := (s.deck d).rgu.disabled, store := { (s.deck d).store with flow := .clear } } := by
    rw [← hi, deck_setDeck_same]
  have cap : (i.deck d).store.capturing = ((s.deck d).store.numbersOf .capturing).head? := by
    rw [capturing_eq, di]; rfl
  rw [cap]
  have fin (c : State) (f1 : LeaveFrame i c d) :
      ((c.closeShotAtEnd d (s.deck d).store.newestCapturing).modChan d f).enterDraining d
      = let shut := c.closeShotAtEnd d (s.deck d).store.newestCut
        let l := shut.deck d
        let draining :=
          (shut.setDeck d { l with chan := f (s.deck d).chan, ctx := { l.ctx with state := .draining } }).notify d
            (.contextState .draining (s.deck d).ctx.reel)
        let released := ((draining.deck d).store.numbersOf .emitted).foldl (fun t n => t.releaseExam d n) draining
        (((released.deck d).store.numbersOf .analyzed).foldl (fun t n => t.decideExam d n) released).emptyHandoff d := by
    have f2 := f1.trans (leaveFrame_closeShotAtEnd c d (s.deck d).store.newestCut)
    have cut : (s.deck d).store.newestCapturing = (s.deck d).store.newestCut := rfl
    rw [cut]
    generalize c.closeShotAtEnd d (s.deck d).store.newestCut = u at f2
    have hc : (u.deck d).chan = (s.deck d).chan := by rw [(f2.flow (by rw [di]; simp)).1, di]
    have hx : (u.deck d).ctx = (s.deck d).ctx := by rw [(f2.context (by rw [di]; simp [h])).1, di]
    unfold State.enterDraining State.examineAll State.moveContext
    simp only [modChan_eq, modCtx_eq, State.modDeck, deck_setDeck_same, setDeck_setDeck, hc, hx, numbersIn_eq]
  cases ((s.deck d).store.numbersOf .capturing).head? with
  | none => exact fin i (.refl i d)
  | some n => exact fin _ (leaveFrame_discard i d n)

/-- The end of a scan by END_SCAN or a TAIL mark is its steps (R18). -/
theorem endScan_eq (s : State) (d : DeckId) (h : (s.deck d).ctx.state = .scanning) :
    s.endScan d = s.scanEnds d (((s.deck d).chan.withdraw [.run, .pause]).sendContext .stop none) := scanEnds_eq s d _ h

/-- The cut-off of an emission leaves a deck's channel and flow state. -/
theorem cutOff_channel (s : State) (d : DeckId) :
    ((s.cutOff d).deck d).chan = (s.deck d).chan ∧ ((s.cutOff d).deck d).store.flow = (s.deck d).store.flow := by
  unfold State.cutOff
  dsimp only
  split
  · split
    · simp
      split <;> rfl
    · exact ⟨rfl, rfl⟩
  · exact ⟨rfl, rfl⟩

/-- The discards of an abort are those that Safety.lean gives (R65). -/
theorem discardAll_eq (s : State) (d : DeckId) : s.discardAll d = s.storeAborted d := by
  unfold State.discardAll State.storeAborted State.enginesForgetDeck
  simp only [modStore_eq, State.modDeck]
  rfl

/-- The discards of an abort leave the channel alone, since the flow state is CLEAR (log 14). -/
theorem discardAll_channel (s : State) (d : DeckId) (h : (s.deck d).store.flow = .clear) :
    ((s.discardAll d).deck d).chan = (s.deck d).chan := by
  unfold State.discardAll State.enginesForgetDeck
  have f : LeaveFrame s (((s.deck d).store.records.map FrameRecord.number).foldl (fun s n => s.discard d n) s) d :=
    .foldl (fun s n => leaveFrame_discard s d n) _ s
  simp [(f.flow (by rw [h]; simp)).1]

/-- An abort is its steps (R24). -/
theorem abort_eq (s : State) (d : DeckId) : s.abort d = s.aborted d := by
  have idle : ((((s.moveContext d .aborted).modChan d fun c => { c with waiting := none }).modRgu d Rgu.disable).modStore d
      fun k => { k with flow := .clear })
      = let k := s.deck d
        let told := (s.setDeck d { k with ctx := { k.ctx with state := .aborted } }).notify d
          (.contextState .aborted k.ctx.reel)
        let l := told.deck d
        told.setDeck d { l with
          chan := { l.chan with waiting := none }, rgu := l.rgu.disabled, store := { l.store with flow := .clear } } := by
    simp only [State.moveContext, modChan_eq, modCtx_eq, modRgu_eq, modStore_eq, State.modDeck, deck_setDeck_same,
      setDeck_setDeck, deck_notify]
    rfl
  unfold State.abort State.aborted
  dsimp only at idle ⊢
  rw [idle]
  generalize hi : State.setDeck _ _ _ = i
  have di : (i.deck d).chan.waiting = none ∧ (i.deck d).store.flow = .clear := by
    rw [← hi, deck_setDeck_same]; exact ⟨rfl, rfl⟩
  have hc : (((i.cutOff d).storeAborted d).deck d).chan = (i.deck d).chan := by
    rw [← discardAll_eq, discardAll_channel _ _ (by rw [(cutOff_channel i d).2]; exact di.2), (cutOff_channel i d).1]
  rw [discardAll_eq]
  generalize (i.cutOff d).storeAborted d = e at hc
  have stop : (e.deck d).chan.stopAtAbort = (e.deck d).chan.stopped := by
    rw [hc]
    unfold Channel.stopAtAbort Channel.stopped
    have : ({ (i.deck d).chan with waiting := none } : Channel) = (i.deck d).chan := by rw [← di.1]
    simp only [this, Bool.and_eq_true, decide_eq_true_eq, Bool.not_eq_true']
    congr 1
    simp [and_assoc]
  simp only [modChan_eq, State.modDeck, stop]
  rfl

end Sys2Proof.Machine
end

