-- ==== Sys2Proof/Laws/Words.lean ====
section
/-! SUPPORT. The words of the statements (Safety.lean) against the operations of the model: each names the same condition or the same
change. -/

namespace Sys2Proof.Machine

theorem releaseBusy_iff (c : Channel) : c.releaseBusy = true ↔ c.releasing := by
  unfold Channel.releaseBusy Channel.releasing
  cases c.waiting <;> cases c.outstanding <;> simp [Option.isSome_iff_ne_none]

/-- Who holds a reel id (R13 check 4). -/
theorem reelHeld_iff (s : State) (reel : ReelId) : s.reelHeld reel = true ↔
    (∃ e : DeckId, (s.deck e).ctx.reel = some reel)
    ∨ (∃ dir ∈ s.shp.directives, dir.phase = .inTransit ∧ dir.reel = some reel)
    ∨ (∃ i : Fin 2048, s.shp.shelf[i].occupant = some reel) := by
  unfold State.reelHeld State.directiveReel State.deck
  simp only [Bool.or_eq_true, List.any_eq_true, Vector.mem_toList_iff, beq_iff_eq, Vector.mem_iff_getElem, or_assoc]
  constructor
  · rintro (⟨k, ⟨i, hi, rfl⟩, h⟩ | ⟨dir, hm, h⟩ | ⟨p, ⟨i, hi, rfl⟩, h⟩)
    · exact .inl ⟨⟨i, hi⟩, h⟩
    · cases hp : dir.phase <;> simp [hp] at h
      · exact .inl ⟨_, h⟩
      · exact .inr (.inl ⟨dir, hm, hp, h⟩)
    · exact .inr (.inr ⟨⟨i, hi⟩, h⟩)
  · rintro (⟨e, h⟩ | ⟨dir, hm, hp, h⟩ | ⟨i, h⟩)
    · exact .inl ⟨_, ⟨e.val, e.isLt, rfl⟩, h⟩
    · exact .inr (.inl ⟨dir, hm, by simp [hp, h]⟩)
    · exact .inr (.inr ⟨_, ⟨i.val, i.isLt, rfl⟩, h⟩)

theorem cleared_eq (c : ReelContext) :
    { contextCleared c.state c.gateLocked c.powerOn with state := .empty } = c.cleared := rfl

/-- The departure of a reel from a RELEASED context (R22, R167). -/
theorem departReleased_eq (s : State) (d : DeckId) (h : (s.deck d).ctx.state = .released) :
    s.departReleased d = if (s.deck d).chan.sensors.present = true then s else s.departed d := by
  unfold State.departReleased
  by_cases hp : (s.deck d).chan.sensors.present = true
  · simp [hp]
  · have key : ((s.modCtx d fun c => contextCleared c.state c.gateLocked c.powerOn).moveContext d .empty)
        = (s.setDeck d { s.deck d with ctx := (s.deck d).ctx.cleared }).notify d (.contextState .empty none) := by
      simp only [State.moveContext, modCtx_eq, State.modDeck, deck_setDeck_same, setDeck_setDeck]
      rfl
    simp only [h, hp, key, Bool.not_false, and_self, if_true]
    unfold State.departed State.directiveDeparts State.notifyDirective
    by_cases hd : (s.deck d).ctx.hasDirective = true
    · simp only [hd, if_true, shp_notify, Bool.and_true]
      have e1 : (Directive.isOnDeck d) = fun e => e.phase == .onDeck && e.source == d := rfl
      rw [e1]
      have e2 : (s.setDeck d { s.deck d with ctx := (s.deck d).ctx.cleared }).shp = s.shp := rfl
      rw [e2]
      cases hf : s.shp.directives.find? fun e => e.phase == .onDeck && e.source == d with
      | none => rfl
      | some dir =>
        have hs : dir.source = d := by have := List.find?_some hf; simp_all
        have e3 : ∀ gone : Directive,
            (fun e : Directive => if (e.phase == .onDeck && e.source == d) = true then gone else e)
              = fun e => if e.phase = .onDeck ∧ e.source = d then gone else e := by
          intro gone; funext e; simp
        subst hs
        simp only [State.modShp]
        rw [e3, if_neg (by decide)]
        simp only [shp_notify]
        rfl
    · have none_found : s.shp.directives.find? (fun _ => false) = none := by simp
      simp [hd, none_found]

theorem enterReleased_eq (s : State) (d : DeckId) : s.enterReleased d = s.released d := by
  unfold State.enterReleased State.released
  rw [departReleased_eq _ _ (by simp [State.moveContext])]
  simp [State.moveContext, State.modDeck]

/-! ### First of a numbered table -/

/-- The first number that passes a test (a lowest-numbered slot, position or rule). -/
theorem find_finRange_some {n : Nat} {test : Fin n → Bool} {i : Fin n} :
    (List.finRange n).find? test = some i ↔ test i = true ∧ ∀ j, j < i → test j = false := by
  rw [List.find?_eq_some_iff_getElem]
  simp only [List.getElem_finRange, List.length_finRange, Bool.not_eq_true']
  constructor
  · rintro ⟨h, k, hk, hik, hj⟩
    refine ⟨h, fun j hlt => ?_⟩
    have := hj j.val (by rw [← hik] at hlt; exact hlt)
    simpa using this
  · rintro ⟨h, hj⟩
    exact ⟨h, i.val, i.isLt, rfl, fun j hlt => by simpa using hj ⟨j, by omega⟩ hlt⟩

theorem find_finRange_none {n : Nat} {test : Fin n → Bool} :
    (List.finRange n).find? test = none ↔ ∀ j, test j = false := by simp

/-- The lowest-numbered FREE position is the one the rule asks for (R163, R164). -/
theorem lowestFreePosition_rule (shelf : Shelf) (cls : Fin 8) : positionRule shelf cls (lowestFreePosition cls shelf) := by
  unfold positionRule lowestFreePosition
  cases h : (List.finRange 2048).find? fun i => shelf[i].state == .free && shelf[i].storageClass == cls with
  | none => right; rw [find_finRange_none] at h; simpa using h
  | some i => left; rw [find_finRange_some] at h; exact ⟨i, by simpa using h.1, by simpa using h.2, rfl⟩

theorem positionRule_unique {shelf : Shelf} {cls : Fin 8} {p q : Option (Fin 2048)} (hp : positionRule shelf cls p)
    (hq : positionRule shelf cls q) : p = q := by
  rcases hp with ⟨i, hi, hij, rfl⟩ | ⟨hn, rfl⟩ <;> rcases hq with ⟨j, hj, hji, rfl⟩ | ⟨hm, rfl⟩
  · rcases lt_trichotomy i j with h | h | h
    · exact absurd hi (hji i h)
    · rw [h]
    · exact absurd hj (hij j h)
  · exact absurd hi (hm i)
  · exact absurd hj (hn j)
  · rfl

/-- The class chosen is the one the rule asks for (R157). -/
theorem chooseClass_rule (policies : Vector PolicyRow 8) (score maxShrink : Nat) :
    classRule policies score maxShrink (chooseClass policies score maxShrink) := by
  unfold classRule chooseClass
  cases h : policies.toList.find? fun r => r.admits score maxShrink with
  | none =>
    right
    refine ⟨fun i => ?_, rfl⟩
    have := List.find?_eq_none.1 h policies[i] (by simp)
    simp only [PolicyRow.admits, Bool.and_eq_true, decide_eq_true_eq] at this
    tauto
  | some r =>
    left
    rw [List.find?_eq_some_iff_getElem] at h
    obtain ⟨hr, i, hi, rfl, hj⟩ := h
    have hi8 : i < 8 := by simpa using hi
    simp only [Vector.getElem_toList] at hr hj ⊢
    refine ⟨⟨i, hi8⟩, ?_, fun j hlt => ?_, rfl⟩
    · simpa [PolicyRow.admits, and_assoc] using hr
    · have := hj j.val hlt
      simp only [PolicyRow.admits, Bool.and_eq_true, decide_eq_true_eq, Bool.not_eq_true', ← Bool.not_eq_true] at this
      intro hc
      exact this ⟨⟨hc.1, hc.2.1⟩, hc.2.2⟩

theorem classRule_unique {policies : Vector PolicyRow 8} {score maxShrink : Nat} {c c' : Fin 8}
    (h : classRule policies score maxShrink c) (h' : classRule policies score maxShrink c') : c = c' := by
  rcases h with ⟨i, hi, hij, rfl⟩ | ⟨hn, rfl⟩ <;> rcases h' with ⟨j, hj, hji, rfl⟩ | ⟨hm, rfl⟩
  · rcases lt_trichotomy i j with h | h | h
    · exact absurd hi (hji i h)
    · rw [h]
    · exact absurd hj (hij j h)
  · exact absurd hi (hm i)
  · exact absurd hj (hn j)
  · rfl

theorem conditionScore_eq (c : ReelContext) : conditionScore c = scoreOf c := by
  unfold conditionScore scoreOf
  rw [Nat.min_comm, Nat.max_comm]

end Sys2Proof.Machine
end

