-- ==== Sys2Proof/WellFormed.lean ====
section
/-! DEFINITION. Which commands are well formed: what a sender can put on the wires at all. Deck and lane numbers are in range by
their type; what is left are the lengths that decide which row an arrival is. -/

namespace Sys2Proof

/-- The little-endian number of the four length bytes of a downstream header that starts the list (section 10.2). -/
def headerLength (bytes : List Byte) : Nat :=
  (bytes.getD 6 0).toNat + 256 * (bytes.getD 7 0).toNat + 65536 * (bytes.getD 8 0).toNat
    + 16777216 * (bytes.getD 9 0).toNat

/-- A command as its row means it: an arrival is not empty; an overlong downstream header is one whole header that announces more than 1024 bytes
(R195); an overlong lane header announces more than 1,048,584 (R199). -/
def Instr.wellFormed : Instr → Bool
  | .controlParcelReceived bytes => !bytes.isEmpty
  | .overlongHeader bytes =>
      bytes.take 2 == [0x3C#8, 0xE1#8] && bytes.length == 10 && decide (Config.maxPayload < headerLength bytes)
  | .sighting _ bytes => !bytes.isEmpty
  | .band _ bytes => !bytes.isEmpty
  | .leader _ bytes => !bytes.isEmpty
  | .tail _ bytes => !bytes.isEmpty
  | .discardedLaneParcel _ bytes => !bytes.isEmpty
  | .overlongLaneHeader _ _ _ length => decide (Config.maxLanePayload < length.toNat)
  | .bindReel | .unbindReel | .startScan | .endScan | .abortDeck | .releaseReel | .deckCommand | .setDeckEvents
  | .retrainLane | .readContext | .loadProfile | .loadComparator | .loadRule | .loadGrade | .loadCurve | .loadPolicy
  | .loadShelf | .addCue | .dropCue | .bindGrade | .setDefaultGrade | .trim | .shelved | .releasePosition
  | .cancelDirective | .readShots | .readDefectMap | .readShelf | .readQueue | .softReset | .unknownRequest => true
  | .halt | .go | .linkSignalFound | .linkTrained | .linkSignalLost => true
  | .readoutJoin | .reportSend | .grant | .pictureParcelSent | .fullTrailerSent | .overrunTrailerSent
  | .abortedTrailerSent | .reportParcelSent => true
  | .presentChange _ _ | .gateClosedChange _ _ | .powerFaultRise _ | .powerFaultFall _ | .attentionPress _
  | .attentionFall _ | .deckAnswerDone _ _ | .deckAnswerFault _ _ | .commandTimeout _ => true
  | .laneSignalFound _ | .laneTrained _ | .laneSignalLost _ => true
  | .analysisStart | .analysisComplete | .decision | .repairEnd => true
  | .powerOnReset _ => true

end Sys2Proof
end

