-- ==== Sys2Proof/Tests/Slice0.lean ====
section
/-! SUPPORT. The model's own tests: ill-formed commands, the CRC and the layouts, one small step of most commands, and for every statement with
hypotheses states and operands that meet them. -/

namespace Sys2Proof.Tests

open Sys2Proof.Machine

set_option Elab.async false

/-! ### Small states -/

/-- State.reset with its link interface changed. -/
def aliWith (f : Ali → Ali) : State := { State.reset with ali := f State.reset.ali }

/-- A state with one parcel in the input buffer, ready to be taken. -/
def given (p : ControlParcel) (s : State := State.reset) : State := { s with ali := { s.ali with input := [p] } }

/-- A profile that LOAD_PROFILE accepts: the least lock count, coast limit 1. -/
def film : Profile := ⟨1, 4000, 50, 2, 1, 0, 1024, 100, 10, 1000⟩

/-- A state whose deck 0 is as f makes it, with profile 0 loaded. -/
def deckWith (f : Deck → Deck) : State :=
  { State.reset.setDeck 0 (f (State.reset.deck 0)) with profiles := State.reset.profiles.set 0 (some film) }

/-- A context in the given state that names reel 7 and profile 0. -/
def reelIn (state : ContextState) (c : ReelContext) : ReelContext :=
  { c with state := state, reel := some 7, profile := some 0, defaultGrade := some 0 }

/-- Deck 0 in the given context state, its lane UP and its deck lines idle. -/
def inState (state : ContextState) (f : Deck → Deck := id) : State :=
  deckWith fun k => f { k with
    ctx := reelIn state k.ctx, lane := .up
    chan := { k.chan with outstanding := none, waiting := none, sensors := ⟨true, true, false, false⟩ } }

/-- A record of frame n in a phase, with slot 0, in shot 0, that PASS was applied to. -/
def frame (n : Nat) (phase : Phase) : FrameRecord :=
  { (default : FrameRecord) with number := n, phase := phase, slot := some 0, action := some .pass }

/-- Deck 0 in the given context state with records in its queue and one shot from frame 0 on. -/
def holding (state : ContextState) (records : List FrameRecord) (f : Deck → Deck := id) : State :=
  inState state fun k => f { k with
    store := { k.store with records := records }
    table := { k.table with shots := [⟨0, none, .start, .opened, none, 0, 0⟩] } }

/-- A snapshot of the reset grade for frame 0 of deck 0. -/
def held : Snapshot := ⟨0, 0, 0, gradeInitial, none, 0, 0⟩

/-- Frame 0 of deck 0 being emitted, with the given lines left to send and a parcel on the wire. -/
def emitting (lines : Nat) (wire : Option UpParcel) (phase : Phase := .emitting) : State :=
  let s := holding .draining [{ frame 0 phase with lines := lines }]
  { s with
    gre := { s.gre with snapshot := some held }
    ali := { s.ali with
      link := .up, wire := wire, emission := some ⟨0, 0, phase == .overrun, lines, 0, 0, wire.isSome, false⟩ } }

/-- The state a step leaves. -/
def after (r : StepResult) : State :=
  match r with
  | .next t => t
  | _ => State.reset

/-! ### Ill-formed commands, decoding, layouts -/

theorem test_empty_chunk_refused : Instr.wellFormed (.controlParcelReceived []) = false := by decide

theorem test_overlong_header_sync_refused :
    Instr.wellFormed (.overlongHeader [0x3C, 0xE0, 1, 0, 0, 0, 1, 4, 0, 0]) = false := by decide

theorem test_overlong_header_size_refused :
    Instr.wellFormed (.overlongHeader [0x3C, 0xE1, 1, 0, 0, 0, 1, 4, 0]) = false := by decide

/-- 1024 bytes is not above the limit. -/
theorem test_overlong_header_length_refused :
    Instr.wellFormed (.overlongHeader [0x3C, 0xE1, 1, 0, 0, 0, 0, 4, 0, 0]) = false := by decide

theorem test_overlong_header_accepted :
    Instr.wellFormed (.overlongHeader [0x3C, 0xE1, 1, 0, 0, 0, 1, 4, 0, 0]) = true := by decide

theorem test_empty_sighting_refused : Instr.wellFormed (.sighting 0 []) = false := by decide

theorem test_empty_band_refused : Instr.wellFormed (.band 0 []) = false := by decide

theorem test_empty_leader_refused : Instr.wellFormed (.leader 0 []) = false := by decide

theorem test_empty_tail_refused : Instr.wellFormed (.tail 0 []) = false := by decide

theorem test_empty_discarded_parcel_refused : Instr.wellFormed (.discardedLaneParcel 0 []) = false := by decide

theorem test_short_lane_header_refused : Instr.wellFormed (.overlongLaneHeader 0 2 0 1048584) = false := by decide

theorem test_no_word_is_a_command : decodeTableWord 8 0 = none ∧ State.reset.withFetchWord 8 0 = State.reset := ⟨rfl, rfl⟩

/-- The published check value of this CRC, over the digits 1 to 9, by the model and by the division. -/
theorem test_crc_check_value :
    crc16 [0x31, 0x32, 0x33, 0x34, 0x35, 0x36, 0x37, 0x38, 0x39] = 0x29B1#16
    ∧ crcOf [0x31, 0x32, 0x33, 0x34, 0x35, 0x36, 0x37, 0x38, 0x39] = 0x29B1#16 := by decide +kernel

theorem test_trailer_lengths :
    (Trailer.payload (.full 0 (some 7) (frame 0 .ready) 0)).length = 60
    ∧ (Trailer.payload (.overrun 0 (some 7) (frame 0 .overrun))).length = 60
    ∧ (Trailer.payload (.aborted 0 (some 7) (frame 0 .ready) 3)).length = 60 := by decide +kernel

theorem test_context_readout_length :
    (ContextReadout.bytes ⟨State.reset.deck 0 |>.ctx, ⟨false, false, false, false⟩, .stopped, none, none, none, 2, 0x1FF⟩).length
      = 60 := by decide +kernel

/-- A READ_QUEUE that arrives whole, byte by byte as section 10.2 lays a parcel out, is buffered. -/
theorem test_parcel_is_framed :
    (after (exec (.controlParcelReceived (parcelBytes 1 0 9 0x43 [])) (aliWith fun a => { a with link := .up }))).ali.input
      = [⟨0, 9, 0x43, []⟩] := by decide +kernel

/-! ### One step of a command -/

/-- The context state that a command leaves deck 0 in. -/
def leaves (c : Instr) (s : State) : ContextState := ((after (exec c s)).deck 0).ctx.state

/-- The status of the last reply that a command leaves in the report queue. -/
def replies (c : Instr) (s : State) : Option Status :=
  match (after (exec c s)).ali.queue.findSome? fun r => match r with
    | .reply q => some q.status
    | _ => none with
  | some status => some status
  | none => none

/-- BIND_REEL of reel 9 with profile 0 and grade record 5 on deck 0. -/
def bindParcel : ControlParcel := deckParcel 0 1 0x01 (bytes32 9 ++ [0, 5, 0, 0])

theorem test_bind : leaves .bindReel (given bindParcel (inState .loaded fun k => { k with ctx := { k.ctx with reel := none } }))
    = .bound := by decide +kernel

theorem test_unbind : leaves .unbindReel (given (deckParcel 0 1 0x02 []) (inState .bound)) = .loaded := by decide +kernel

theorem test_start_scan_needs_the_gate :
    replies .startScan (given (deckParcel 0 1 0x03 []) (inState .bound)) = some .badState := by decide +kernel

theorem test_start_scan :
    leaves .startScan (given (deckParcel 0 1 0x03 []) (inState .bound fun k =>
      { k with ctx := { k.ctx with gateLocked := true, powerOn := true } })) = .scanning := by decide +kernel

/-- An empty queue drains at once. -/
theorem test_end_scan_empty : leaves .endScan (given (deckParcel 0 1 0x04 []) (inState .scanning)) = .finished := by
  decide +kernel

theorem test_end_scan_drains :
    leaves .endScan (given (deckParcel 0 1 0x04 []) (holding .scanning [frame 0 .captured])) = .draining := by decide +kernel

theorem test_abort : leaves .abortDeck (given (deckParcel 0 1 0x05 []) (holding .draining [frame 0 .ready])) = .aborted := by
  decide +kernel

theorem test_deck_command_lock_gate_refused :
    replies .deckCommand (given (deckParcel 0 1 0x07 [0, 0, 0, 0]) (inState .loaded)) = some .range := by decide +kernel

theorem test_cue_at_16777216_refused :
    replies .addCue (given (deckParcel 0 1 0x20 (bytes32 16777216 ++ [255, 0, 0, 0])) (inState .bound)) = some .range
    ∧ replies .addCue (given (deckParcel 0 1 0x20 (bytes32 16777215 ++ [255, 0, 0, 0])) (inState .bound)) = some .ok := by
  decide +kernel

theorem test_sensor_fall_aborts :
    leaves (.presentChange 0 false) (inState .scanning fun k => { k with ctx := { k.ctx with gateLocked := true } }) = .aborted := by
  decide +kernel

theorem test_both_sensors_load :
    leaves (.gateClosedChange 0 true) (inState .empty fun k =>
      { k with chan := { k.chan with sensors := ⟨true, false, false, false⟩ } }) = .loaded := by decide +kernel

/-- A lane parcel of kind 1 with CRC correct. -/
def seen (p : FilmPos) : LaneFrame := laneParcel 1 0 (bytes32 p)

/-- A scanning deck whose unit has seen one perforation at 10000. -/
def acquiring : State :=
  inState .scanning fun k => { k with rgu := { k.rgu with lock := .acquire, chain := 1, prev := some 10000, firstLock := true } }

/-- A scanning deck locked at 10000 with pitch 4000. -/
def lockedAt (lock : LockState) (candidate : Option FilmPos := none) : State :=
  inState .scanning fun k => { k with rgu := { k.rgu with
    lock := lock, prev := some 10000, prevAccepted := true, avg := some 4000, candidate := candidate } }

/-- The lock state that a sighting leaves deck 0 in. -/
def lockAfter (p : FilmPos) (s : State) : LockState := ((after (exec (.sighting 0 (seen p).bytes) s)).deck 0).rgu.lock

theorem test_lock : lockAfter 14050 acquiring = .locked ∧ lockAfter 14051 acquiring = .acquire := by decide +kernel

/-- An error of 40 ticks moves the pitch by 5 (R38). -/
theorem test_accept : ((after (exec (.sighting 0 (seen 14040).bytes) (lockedAt .locked))).deck 0).rgu.avg = some 4005 := by
  decide +kernel

/-- One missed perforation coasts; two are above the coast limit of 1. -/
theorem test_coast : lockAfter 18000 (lockedAt .locked) = .locked ∧ lockAfter 22000 (lockedAt .locked) = .acquire := by
  decide +kernel

theorem test_splice : ((after (exec (.sighting 0 (seen 15000).bytes) (lockedAt .coast (some 11000)))).deck 0).ctx.splices = 1 := by
  decide +kernel

/-- A sighting that arrives in two pieces, behind stray bytes, an overlong header and a discarded parcel, is read when its last byte is there. -/
theorem test_lane_stream :
    (let bytes := [1, 0x96, 7] ++ ([0x96, 0x5B, 2, 0] ++ bytes32 1048585) ++ (laneParcel 4 0 [9]).bytes ++ (seen 14050).bytes;
      let s := after (exec (.discardedLaneParcel 0 (bytes.take 30)) acquiring);
      (s.deck 0).rgu.lock = .acquire ∧ (s.deck 0).intake = (bytes.take 30).drop 22
      ∧ ((after (exec (.sighting 0 (bytes.drop 30)) s)).deck 0).rgu.lock = .locked
      ∧ ((after (exec (.sighting 0 (bytes.drop 30)) s)).deck 0).intake = []) := by decide +kernel

/-- A parcel whose CRC is wrong does not lock, and the one behind it is read. -/
theorem test_wrong_crc_is_discarded :
    (let wrong : LaneFrame := { seen 14050 with crc := (seen 14050).crc + 1 };
      ((after (exec (.discardedLaneParcel 0 wrong.bytes) acquiring)).deck 0).rgu.lock = .acquire
      ∧ ((after (exec (.sighting 0 (wrong.bytes ++ (seen 14050).bytes)) acquiring)).deck 0).rgu.lock = .locked) := by
  decide +kernel

/-- A control parcel with a wrong CRC or of another kind gives its LINK_ERROR, and the parcel behind it is taken in. -/
theorem test_downstream_discards :
    (let up := aliWith fun a => { a with link := .up };
      let causes (s : State) : List NoticeBody := s.ali.queue.filterMap fun r => match r with
        | .notice n => some n.body
        | _ => none;
      let read : ControlParcel := ⟨0, 9, 0x43, []⟩;
      let bad := [0x3C, 0xE1] ++ coveredBytes 1 0 9 0x43 [] ++ [0, 0];
      let s := after (exec (.controlParcelReceived (bad ++ wireParcel 1 0 9 0x43 [])) up);
      let u := after (exec (.controlParcelReceived (wireParcel 2 0 9 0x43 [] ++ wireParcel 1 0 9 0x43 [])) up);
      causes s = [.linkError (.crc 9)] ∧ s.ali.input = [read] ∧ causes u = [.linkError (.kind 9)] ∧ u.ali.input = [read]) := by
  decide +kernel

/-- The neutral grade passes a code; a gain of half halves it, rounded halves up. -/
theorem test_grade :
    (channelGradeInitial.grade none 0xFFFF).code = 0xFFFF
    ∧ (ChannelGrade.grade ⟨512, 2, 0, 8, 8⟩ none 1001).code = 501 := by decide +kernel

theorem test_overrun_leaves_with_its_trailer :
    ((after (exec .overrunTrailerSent (emitting 0 (some (.trailer (.overrun 0 (some 7) (frame 0 .overrun)))) .overrun))).deck
      0).store.records = [] := by decide +kernel

theorem test_full_trailer_ends_a_drained_reel :
    leaves .fullTrailerSent (emitting 0 (some (.trailer (.full 0 (some 7) (frame 0 .emitting) 0)))) = .finished := by
  decide +kernel

/-! ### States and operands that meet the hypotheses of the statements -/

/-- Every parcel can be the one that is taken. -/
theorem given_takeable (p : ControlParcel) (s : State := State.reset) (hq : s.ali.queue.length < 32 := by decide +kernel)
    (hr : s.ali.readouts = [] := by rfl) : (given p s).takeable p [] := ⟨rfl, hq, hr⟩

theorem witness_StepRunsTheFrontCommand :
    ({ State.reset with pending := [.halt, .go] } : State).pending = .halt :: [.go] := rfl

theorem witness_StepNeverStops : State.reset.pending = [] := rfl

/-- A code that names no request, a body one byte short, deck 4, and a reserved byte of 1. -/
theorem witness_TakeChecksRefuse :
    (given ⟨0, 1, 0x44, []⟩).takeable ⟨0, 1, 0x44, []⟩ []
    ∧ (∀ c row, requestRow c = some row → (0x44 : Byte) ≠ row.1)
    ∧ (given ⟨0, 1, 0x21, [0, 0, 0]⟩).takeable ⟨0, 1, 0x21, [0, 0, 0]⟩ [] ∧ requestRow .dropCue = some (0x21, 4, true)
    ∧ 3 < (⟨4, 1, 0x21, [0, 0, 0, 0]⟩ : ControlParcel).deck.toNat
    ∧ ¬ reservedClear 0x07 [2, 0, 0, 1] := by
  refine ⟨given_takeable _, ?_, given_takeable _, rfl, by decide, ?_⟩
  · intro c row h
    cases c <;> simp [requestRow] at h <;> subst h <;> decide
  · exact fun h => absurd (h.1 (3, 0xFF) (by decide)) (by decide)

/-- Nothing is buffered; and the parcel in front is a request. -/
theorem witness_TakesWait :
    (∀ p rest, State.reset.takeable p rest → p.code ≠ 0x01)
    ∧ ∀ p rest, (given ⟨0, 1, 0x43, []⟩).takeable p rest → ∃ c row, requestRow c = some row ∧ p.code = row.1 := by
  refine ⟨fun p rest h => (List.cons_ne_nil p rest h.1.symm).elim, fun p rest h => ⟨.readQueue, _, rfl, ?_⟩⟩
  have : p = ⟨0, 1, 0x43, []⟩ := by
    have := h.1; simp only [given, List.cons.injEq] at this; exact this.1.symm
  simp [this]

theorem witness_BindReelFollowsR13 : (given bindParcel (inState .loaded)).takeable bindParcel [] := given_takeable _ _

theorem witness_UnbindReelFollowsR14 :
    (given (deckParcel 0 1 0x02 []) (inState .bound)).takeable (deckParcel 0 1 0x02 []) [] := given_takeable _ _

theorem witness_StartScanFollowsR17 :
    (given (deckParcel 3 1 0x03 []) (inState .bound)).takeable (deckParcel 3 1 0x03 []) [] := given_takeable _ _

/-- The lowest and the highest code that issue a command. -/
theorem witness_DeckCommandFollowsR7 :
    (given (deckParcel 0 1 0x07 [2, 0, 0, 0])).takeable (deckParcel 0 1 0x07 [2, 0, 0, 0]) []
    ∧ (given (deckParcel 0 1 0x07 [9, 0, 0, 0])).takeable (deckParcel 0 1 0x07 [9, 0, 0, 0]) []
    ∧ (9, SlotCommand.indicatorBlink) ∈ [(2, SlotCommand.powerOn), (3, .powerOff), (4, .run), (5, .pause), (7, .indicatorOff),
        (8, .indicatorOn), (9, .indicatorBlink)]
    ∧ ((10 : Byte).toNat ∈ [0, 1, 6] ∨ 9 < (10 : Byte).toNat) :=
  ⟨given_takeable _, given_takeable _, by decide, by decide⟩

theorem witness_SetDeckEventsFollowsR8 :
    (given (deckParcel 0 1 0x08 (bytes16 0x01FF ++ [3, 0]))).takeable (deckParcel 0 1 0x08 (bytes16 0x01FF ++ [3, 0])) []
    ∧ (0x01FF : Word16).toNat < 512 := ⟨given_takeable _, by decide⟩

/-- A MARK of the given code. -/
def mark (code : Byte) : LaneFrame := laneParcel 3 0 [code, 0, 0, 0]

/-- A request in a state that it ends and in one that it does not; a TAIL that ends the scan, and one that the state does not admit. -/
theorem witness_EndScanAndTailFollowR18 :
    (given (deckParcel 0 1 0x04 []) (holding .scanning [frame 0 .capturing])).takeable (deckParcel 0 1 0x04 []) []
    ∧ ((holding .scanning [frame 0 .capturing]).deck 0).ctx.state = .scanning
    ∧ ((inState .bound).deck 0).ctx.state ≠ .scanning
    ∧ ((inState .scanning).deck 0).lane = .up ∧ ((inState .scanning).deck 0).ctx.state = .scanning
    ∧ ((inState .scanning).deck 0).intake = [] ∧ (mark 2).fits ∧ readMark (mark 2) = some 2 :=
  ⟨given_takeable _ _, by decide +kernel⟩

/-- What a scan leaves: the CAPTURING frame discarded with its slot, its one frame's shot removed, and the reel handed over. -/
theorem test_end_of_scan :
    (let s := holding .scanning [frame 0 .capturing] fun k => { k with store := { k.store with
        lastConsumed := some 0, slots := k.store.slots.set 0 ⟨true, [], [1]⟩ } };
      let t := after (exec (.tail 0 (mark 2).bytes) s);
      (t.deck 0).store.records = [] ∧ (t.deck 0).store.slots[0] = ⟨false, [], []⟩ ∧ (t.deck 0).store.fate = .discarded
      ∧ (t.deck 0).table.shots = [] ∧ (t.deck 0).ctx.state = .finished) := by decide +kernel

theorem witness_AbortDeckFollowsR23AndR24 :
    (given (deckParcel 0 1 0x05 []) (inState .bound)).takeable (deckParcel 0 1 0x05 []) []
    ∧ ((inState .bound).deck 0).ctx.state ∈ [ContextState.bound, .scanning, .draining, .finished]
    ∧ ((inState .aborted).deck 0).ctx.state ∉ [ContextState.bound, .scanning, .draining, .finished] :=
  ⟨given_takeable _ _, by decide +kernel⟩

theorem witness_ReleaseReelFollowsR21AndR25 :
    (given (deckParcel 0 1 0x06 []) (inState .finished)).takeable (deckParcel 0 1 0x06 []) []
    ∧ ((inState .finished).deck 0).ctx.state = .finished ∧ ((inState .aborted).deck 0).ctx.state = .aborted
    ∧ ((inState .bound).deck 0).ctx.state ≠ .finished ∧ ((inState .bound).deck 0).ctx.state ≠ .aborted :=
  ⟨given_takeable _ _, by decide +kernel⟩

/-- A lane in each of its states. -/
theorem witness_LaneStatesFollowR28ToR30 :
    (State.reset.deck 0).lane = .down ∧ ((deckWith fun k => { k with lane := .training }).deck 0).lane = .training
    ∧ ((lockedAt .locked).deck 0).lane = .up
    ∧ (given (deckParcel 0 1 0x09 []) acquiring).takeable (deckParcel 0 1 0x09 []) [] :=
  ⟨by decide +kernel, by decide +kernel, by decide +kernel, given_takeable _ _⟩

theorem witness_ReadContextFollowsR26 :
    (given (deckParcel 0 1 0x0A [])).takeable (deckParcel 0 1 0x0A []) [] := given_takeable _

/-- The body of LOAD_PROFILE for profile 7 with the least and greatest figures. -/
def profileParcel : ControlParcel :=
  ⟨0, 1, 0x10, [7, 8, 15, 7] ++ bytes16 256 ++ [255, 0] ++ bytes16 65535 ++ bytes16 8192 ++ bytes16 1 ++ bytes16 1 ++ bytes16 1
    ++ [0, 0]⟩

theorem witness_LoadProfileFollowsR11 :
    (given profileParcel).takeable profileParcel [] ∧ replies .loadProfile (given profileParcel) = some .ok :=
  ⟨given_takeable _, by decide +kernel⟩

/-- The greatest values of a comparator, and of a rule with a test and a fail action; a limit and a rule index that are one too high. -/
theorem witness_LoadComparatorAndRuleStoreTheEntry :
    (let p : ControlParcel := ⟨0, 1, 0x11, [7, 1, 7, 1] ++ bytes32 16777215⟩;
      (given p).takeable p [] ∧ ((7 : Byte).toNat, Measure.shotPos) ∈ measureCodes
      ∧ ((1 : Byte).toNat, Relation.below) ∈ [(0, Relation.atLeast), (1, .below)]
      ∧ (16777215 : Word32).toNat ≤ 16777215 ∧ 16777215 < (16777216 : Word32).toNat)
    ∧ (let p : ControlParcel := ⟨0, 1, 0x12, [31, 1, 63, 0xC7, 4, 4, 4, 0]⟩;
      (given p).takeable p [] ∧ ((0xC7 : Byte).msb = false → (0xC7 : Byte) = 0)
      ∧ ((4 : Byte).toNat, Action.mark) ∈ actionCodes
      ∧ ((4 : Byte).toNat, Action.mark) ∈ [(0, Action.pass), (2, .concealSpatial), (4, .mark)]
      ∧ (63 : Byte).toNat ≤ 63 ∧ (0xC7 : Byte).msb = true
      ∧ ∃ code : Fin 8, (0xC7 : Byte).toNat % 64 = code.val)
    ∧ (let p : ControlParcel := ⟨0, 1, 0x12, [0, 0, 0, 0, 0, 255, 0, 0]⟩;
      (given p).takeable p [] ∧ (0 : Byte).msb = false ∧ 31 < (32 : Byte).toNat) :=
  ⟨⟨given_takeable _, by decide⟩, ⟨given_takeable _, by decide⟩, given_takeable _, by decide⟩

/-- One channel with the greatest values, and one with a lift below the least. -/
theorem witness_LoadGradeFollowsR131 :
    (let f : GradeFields := ⟨4095, 7, BitVec.ofInt 16 (-16384)⟩;
      let p : ControlParcel := ⟨0, 1, 0x13, [63, 15, 0, 0] ++ bytes32 16777215 ++ f.bytes ++ f.bytes ++ f.bytes⟩;
      (given p).takeable p [] ∧ f.inRange ∧ (∃ i : Fin 16, (15 : Byte).toNat = i.val)
      ∧ ¬ (⟨4095, 7, BitVec.ofInt 16 (-16385)⟩ : GradeFields).inRange) :=
  ⟨given_takeable _, by decide⟩

theorem witness_LoadCurveAndPolicyStoreTheEntry :
    (let p : ControlParcel := ⟨0, 1, 0x14, [15, 0] ++ curveInitial.toList.flatMap bytes16⟩;
      (given p).takeable p [] ∧ (15 : Byte).toNat < 16 ∧ 15 < (16 : Byte).toNat)
    ∧ (let p : ControlParcel := ⟨0, 1, 0x15, [7, 1] ++ bytes16 1000 ++ [99, 6, 0, 0]⟩;
      (given p).takeable p [] ∧ (6 : Byte).toNat ≤ 6 ∧ (1000 : Word16).toNat ≤ 1000 ∧ (99 : Byte).toNat ≤ 99
      ∧ 6 < (7 : Byte).toNat) :=
  ⟨⟨given_takeable _, by decide⟩, given_takeable _, by decide⟩

/-- All channels, lift up and gain down; and both lift symbols at once. -/
theorem witness_TrimFollowsR151AndR152 :
    (let p : ControlParcel := ⟨0, 1, 0x24, [63, 7, 9, 0]⟩;
      (given p).takeable p [] ∧ (7 : Byte).toNat < 8 ∧ (9 : Byte).toNat < 16 ∧ (7 : Byte) ≠ 0
      ∧ ((9 : Byte).getLsbD 0 = false ∨ (9 : Byte).getLsbD 1 = false)
      ∧ ((9 : Byte).getLsbD 2 = false ∨ (9 : Byte).getLsbD 3 = false))
    ∧ (let p : ControlParcel := ⟨0, 1, 0x24, [63, 7, 3, 0]⟩;
      (given p).takeable p [] ∧ (3 : Byte).getLsbD 0 = true ∧ (3 : Byte).getLsbD 1 = true) :=
  ⟨⟨given_takeable _, by decide⟩, given_takeable _, by decide⟩

/-- Deck 0 BOUND with cues at the given frames. -/
def cued (frames : List Nat) : State :=
  inState .bound fun k => { k with table := { k.table with cues := frames.map fun n => ⟨n, none⟩ } }

/-- A cue that is late, one that is there, one that is too many and one that is taken in. -/
theorem witness_CuesFollowR81AndR82 :
    (let p := deckParcel 0 1 0x20 (bytes32 16777215 ++ [63, 0, 0, 0]);
      (given p (cued [4])).takeable p [] ∧ (16777215 : Word32).toNat ≤ 16777215 ∧ (∃ i : Fin 64, (63 : Byte).toNat = i.val))
    ∧ ((inState .loaded).deck 0).ctx.state ≠ .bound ∧ ((inState .loaded).deck 0).ctx.state ≠ .scanning
    ∧ ((cued [4]).deck 0).ctx.state = .bound ∧ ((cued [4]).deck 0).ctx.nextFrame = 0
    ∧ ((cued [4]).deck 0).rgu.numbersExhausted = false ∧ (∃ c ∈ ((cued [4]).deck 0).table.cues, c.frame = 4)
    ∧ (∀ c ∈ ((cued (List.range 16)).deck 0).table.cues, c.frame ≠ 16) ∧ 16 ≤ ((cued (List.range 16)).deck 0).table.cues.length
    ∧ ((cued [4]).deck 0).table.cues.Pairwise (fun x y => x.frame < y.frame)
    ∧ (let p := deckParcel 0 1 0x21 (bytes32 4); (given p (cued [4])).takeable p []) :=
  ⟨⟨given_takeable _ _, by decide⟩, by decide +kernel, by decide +kernel, by decide +kernel, by decide +kernel,
    by decide +kernel, by decide +kernel, by decide +kernel, by decide +kernel, by decide +kernel, given_takeable _ _⟩

theorem witness_GradeBindingFollowsR84AndR85 :
    (let p := deckParcel 0 1 0x22 [0, 63, 0, 0];
      (given p (holding .scanning [])).takeable p [])
    ∧ (∃ i : Fin 64, (63 : Byte).toNat = i.val) ∧ (((holding .scanning []).deck 0).table.shots[0]?).isSome = true
    ∧ ((holding .scanning []).deck 0).table.shots.length ≤ (1 : Byte).toNat
    ∧ (let p := deckParcel 0 1 0x23 [64, 0, 0, 0]; (given p (holding .scanning [])).takeable p []) :=
  ⟨given_takeable _ _, by decide, by decide +kernel, by decide +kernel, given_takeable _ _⟩

theorem witness_DeckReadsFollowR87AndR129 :
    (let p := deckParcel 0 1 0x40 [255, 0, 0, 0]; (given p).takeable p [])
    ∧ (let p := deckParcel 0 1 0x41 (bytes16 511 ++ [0, 0]); (given p).takeable p []) :=
  ⟨given_takeable _, given_takeable _⟩

/-- A directive that leaves deck 0 for position 3, in the given phase. -/
def directive (phase : DirectivePhase) (position : Option (Fin 2048) := some 3) : Directive :=
  ⟨some 7, 0, 2, position, 1000, 0, false, phase⟩

/-- A state with the given directives and contexts that wait for a plan, and position 3 RESERVED. -/
def planned (directives : List Directive) (waiting : List DeckId := []) : State :=
  let s := inState .finished fun k => { k with ctx := { k.ctx with score := some 1000, planPending := !waiting.isEmpty } }
  { s with shp := { s.shp with
    directives := directives, waiting := waiting, shelf := s.shp.shelf.set 3 ⟨2, .reserved, none⟩ } }

theorem witness_PlannerReadsFollowR161AndR172 :
    (let p : ControlParcel := ⟨0, 1, 0x42, [31, 0, 0, 0]⟩; (given p).takeable p [])
    ∧ 31 < (32 : Byte).toNat
    ∧ (let d := directive .inTransit;
      let s := planned [d];
      d ∈ s.shp.directives ∧ d.position = some 3 ∧ (∀ e ∈ s.shp.directives, e.position = some 3 → e = d)
      ∧ s.shp.shelf[3].state = .reserved ∧ s.shp.shelf[4].state = .unavailable)
    ∧ (let p : ControlParcel := ⟨0, 1, 0x43, []⟩; (given p).takeable p []) :=
  ⟨given_takeable _, by decide, by decide +kernel, given_takeable _⟩

theorem witness_ShelfRequestsFollowR159AndR160 :
    (let entries : Vector Byte 64 := Vector.replicate 64 0x87;
      let p : ControlParcel := ⟨0, 1, 0x16, [31, 0] ++ entries.toList⟩;
      (given p).takeable p [] ∧ ∀ k : Fin 64, entries[k] &&& 0x78 = 0)
    ∧ (let p : ControlParcel := ⟨0, 1, 0x31, bytes16 2047 ++ [0, 0]⟩; (given p).takeable p []) :=
  ⟨⟨given_takeable _, by decide +kernel⟩, given_takeable _⟩

/-- The context of deck 0 with the ON_DECK directive that it names, and without one; and with a place in the waiting list. -/
theorem witness_DirectivesLeaveAsR168ToR170Say_abort :
    (let s := planned [directive .inTransit, directive .onDeck];
      let named := s.setDeck 0 { s.deck 0 with ctx := { (s.deck 0).ctx with hasDirective := true } };
      (named.deck 0).ctx.hasDirective = true ∧ (s.deck 0).ctx.hasDirective = false
      ∧ named.shp.directives = [directive .inTransit] ++ directive .onDeck :: [] ∧ (directive .onDeck).phase = .onDeck
      ∧ (directive .onDeck).source = 0 ∧ ∀ e ∈ [directive .inTransit], ¬ (e.phase = .onDeck ∧ e.source = 0))
    ∧ (0 : DeckId) ∈ (planned [] [0]).shp.waiting := by decide +kernel

/-- A directive on its deck, one on its way with a position and one without; and a reel that none carries. -/
theorem witness_DirectivesLeaveAsR168ToR170Say :
    (let p : ControlParcel := ⟨0, 1, 0x30, bytes32 7⟩;
      (given p (planned [directive .inTransit])).takeable p []
      ∧ (given p (planned [directive .inTransit])).carries (directive .inTransit) 7)
    ∧ (let p : ControlParcel := ⟨0, 1, 0x32, bytes32 7⟩;
      (given p (planned [directive .onDeck])).takeable p []
      ∧ (given p (planned [directive .onDeck])).carries (directive .onDeck) 7
      ∧ (given p (planned [directive .inTransit none])).carries (directive .inTransit none) 7
      ∧ ∀ e ∈ (given p (planned [directive .inTransit])).shp.directives, ¬ (planned [directive .inTransit]).carries e 8) := by
  refine ⟨⟨given_takeable _ _, .inr (by decide +kernel)⟩, given_takeable _ _, .inl (by decide +kernel),
    .inr (by decide +kernel), ?_⟩
  intro e he hc
  simp only [given, planned, List.mem_singleton] at he
  subst he
  rcases hc with ⟨h, _⟩ | ⟨_, h⟩
  · exact absurd h (by decide)
  · exact absurd h (by decide)

theorem reset_policies_give_class_7 (score shrink : Nat) : classRule State.reset.shp.policies score shrink 7 := by
  refine .inr ⟨fun i h => ?_, rfl⟩
  simp [State.reset, shpInitial] at h

theorem no_class_7_is_free (s : State) (h : s.shp.shelf = State.reset.shp.shelf) : positionRule s.shp.shelf 7 none := by
  refine .inr ⟨fun i hi => ?_, rfl⟩
  rw [h] at hi
  simp [State.reset, shpInitial] at hi

theorem witness_PlanHeadFollowsR164AndR165 :
    (let s : State := { planned [] [0] with shp := { (planned [] [0]).shp with shelf := State.reset.shp.shelf } };
      s.shp.waiting = 0 :: [] ∧ (s.deck 0).ctx.score = some 1000
      ∧ classRule s.shp.policies 1000 (s.deck 0).ctx.maxShrink 7 ∧ positionRule s.shp.shelf 7 none)
    ∧ State.reset.shp.waiting = [] :=
  ⟨⟨rfl, by decide +kernel, reset_policies_give_class_7 _ _, no_class_7_is_free _ rfl⟩, rfl⟩

theorem witness_SoftResetFollowsR192 :
    (let p : ControlParcel := ⟨0, 1, 0x7F, []⟩; (given p (holding .draining [frame 0 .ready])).takeable p []) :=
  given_takeable _ _

/-- The link UP with nothing received, and a body of the greatest length. -/
theorem witness_ControlParcelRoundTrip :
    (aliWith fun a => { a with link := .up }).ali.link = .up ∧ (aliWith fun a => { a with link := .up }).ali.rx = []
    ∧ (⟨0, 1, 0x43, List.replicate 1024 0⟩ : ControlParcel).body.length ≤ 1024 :=
  ⟨rfl, rfl, List.length_replicate.le⟩

/-- The link UP with nothing received and the link not UP; stray bytes, a wrong CRC, another kind, and a length one too great. -/
theorem witness_FramingFollowsR174AndR195 :
    (aliWith fun a => { a with link := .up }).ali.link = .up ∧ (aliWith fun a => { a with link := .up }).ali.rx = []
    ∧ State.reset.ali.link ≠ .up ∧ ¬ ((0x3C : Byte) = 0x3C ∧ (0x3C : Byte) = 0xE1)
    ∧ (0 : Word16) ≠ crcOf (coveredBytes 1 0 9 0x43 []) ∧ ([] : List Byte).length ≤ 1024
    ∧ (List.replicate 1024 (0 : Byte)).length ≤ 1024 ∧ (2 : Byte) ≠ 1 ∧ 1024 < (1025 : Word32).toNat :=
  ⟨rfl, rfl, by decide, by decide, by decide +kernel, by decide, List.length_replicate.le, by decide, by decide⟩

/-- A notice of a lane of deck 0. -/
def laneNotice : Report := .notice ⟨some 0, .laneState .up .trained, 1, false⟩

/-- A report queue with room, one full of notices of one kind, and one full of another kind; a kind that is masked. -/
theorem witness_NoticesFollowR183AndR184 :
    (let full := aliWith fun a => { a with queue := List.replicate 24 laneNotice };
      let kind := (NoticeBody.laneState .down .signalLost).kind;
      (State.reset.ali.queue.length < 32 ∧ (State.reset.ali.queue.filter Report.isNotice).length < 24)
      ∧ ¬ (full.ali.queue.length < 32 ∧ (full.ali.queue.filter Report.isNotice).length < 24)
      ∧ (full.deck 0).chan.mask.getLsbD (kind - 1) = true
      ∧ full.ali.queue = List.replicate 23 laneNotice ++ laneNotice :: []
      ∧ (∀ n, .notice n ∈ full.ali.queue → ¬ (n.deck = some 1 ∧ n.body.kind = kind))
      ∧ ((deckWith fun k => { k with chan := { k.chan with mask := 0 } }).deck 0).chan.mask.getLsbD (kind - 1) = false)
    ∧ (List.replicate 24 (Report.notice ⟨none, .linkError .linkLost, 1, false⟩) =
        List.replicate 23 (Report.notice ⟨none, .linkError .linkLost, 1, false⟩)
          ++ .notice ⟨none, .linkError .linkLost, 1, false⟩ :: []
      ∧ (NoticeBody.linkError .linkLost).kind = 10) := by
  refine ⟨⟨by decide +kernel, by decide +kernel, by decide +kernel, by decide +kernel, ?_, by decide +kernel⟩,
    by decide +kernel, rfl⟩
  intro n h
  have : n = ⟨some 0, .laneState .up .trained, 1, false⟩ := by
    simpa [aliWith, laneNotice] using h
  simp [this]

/-- An idle link that may grant, and a READY and an OVERRUN record on deck 0, the next in turn. -/
theorem witness_GrantFollowsR186 :
    (let s : State := { holding .draining [frame 0 .emitted, frame 1 .ready] with
        ali := { State.reset.ali with link := .up } };
      s.ali.grants ∧ (0 : DeckId) = s.ali.lastGranted + 1 + 0 ∧ (s.deck 0).store.offers (frame 1 .ready)
      ∧ (s.deck 0).table.shots[(frame 1 .ready).shot]?.bind Shot.binding = none ∧ (s.deck 0).ctx.defaultGrade = some 0)
    ∧ ((holding .draining [frame 0 .overrun]).deck 0).store.offers (frame 0 .overrun)
    ∧ (∀ (d : DeckId) r, ¬ (State.reset.deck d).store.offers r) := by
  refine ⟨⟨⟨rfl, rfl, rfl, rfl, fun _ _ _ _ h => nomatch h⟩, by decide, ⟨.inl rfl, [frame 0 .emitted], [], by decide +kernel, by decide⟩,
    by decide +kernel, by decide +kernel⟩, ⟨.inr rfl, [], [], by decide +kernel, by decide⟩, ?_⟩
  rintro d r ⟨_, before, rest, h, _⟩
  have : ∀ e, (State.reset.deck e).store.records = [] := by decide +kernel
  rw [this] at h
  exact absurd h (by simp)

/-- A frame with 17 lines before its first parcel, the same with none, an OVERRUN grant, and an aborted trailer that waits. -/
theorem witness_NextFrameParcelFollowsR187ToR191 :
    (let s := emitting 17 none;
      let e : Emission := ⟨0, 0, false, 17, 0, 0, false, false⟩;
      s.ali.frameFree ∧ s.ali.aborted = none ∧ s.ali.emission = some e ∧ e.sending = false
      ∧ ((s.deck 0).store.find 0).isSome = true ∧ s.gre.snapshot = some held ∧ 16 * e.next < e.lines
      ∧ s.profileOf 0 = some film)
    ∧ (let s := emitting 0 none;
      s.ali.frameFree ∧ s.gre.snapshot = some held ∧ (s.ali.emission.map fun e => decide (e.lines ≤ 16 * e.next)) = some true)
    ∧ ((emitting 0 none .overrun).ali.emission.map Emission.overrun) = some true
    ∧ (let s := aliWith fun a => { a with link := .up, aborted := some ⟨0, some 7, frame 0 .emitting, 16, none⟩ };
      s.ali.frameFree ∧ s.ali.aborted.isSome = true)
    ∧ ¬ State.reset.ali.frameFree
    ∧ (let r := { frame 0 .emitting with measures := some ⟨0, 0, 0, 0, 0, 0, 0, 0⟩, codes := some 0 };
      r.measures.isSome = true ∧ r.codes = some 0) := by decide +kernel

/-- A picture parcel on the wire with its emission, after the emission was cut off, and with an emission that is not sending. -/
theorem witness_PictureParcelSentFollowsR188 :
    (let s := emitting 16 (some (.picture ⟨0, 0, 0, []⟩));
      s.ali.link = .up ∧ s.ali.wire = some (.picture ⟨0, 0, 0, []⟩) ∧ s.ali.emission.map Emission.sending = some true
      ∧ s.gre.snapshot = some held
      ∧ ({ s.ali with emission := none } : Ali).emission = none
      ∧ ({ s.ali with emission := some ⟨0, 0, false, 16, 0, 0, false, false⟩ } : Ali).emission.map Emission.sending = some false)
    ∧ State.reset.ali.link ≠ .up := by decide +kernel

/-- A FULL trailer on the wire whose record may be freed, and one whose record may not. -/
theorem witness_FullTrailerSentFollowsR189 :
    (let s := emitting 0 (some (.trailer (.full 0 (some 7) (frame 0 .emitting) 0)));
      let e : Emission := ⟨0, 0, false, 0, 0, 0, true, false⟩;
      s.ali.link = .up ∧ s.ali.emission = some e ∧ e.sending = true ∧ e.voided = false
      ∧ (s.deck 0).store.find 0 = some (frame 0 .emitting) ∧ (frame 0 .emitting).phase = .emitting
      ∧ s.gre.snapshot = some held ∧ ((s.deck 0).table.shots[0]?).isSome = true ∧ (frame 0 .emitting).action = some .pass
      ∧ ((s.deck 0).store.find 1).isNone = true ∧ (s.deck 0).ctx.state ≠ .scanning)
    ∧ (let s := holding .draining [frame 0 .emitting, frame 1 .captured];
      ((s.deck 0).store.find 1).map FrameRecord.phase = some .captured
      ∧ ((s.deck 0).table.shots[0]?).map Shot.state = some .opened)
    ∧ ({ (emitting 0 none).ali with emission := some ⟨0, 0, false, 0, 0, 0, true, true⟩ } : Ali).emission.map Emission.voided
      = some true := by decide +kernel

theorem witness_OverrunAndAbortedTrailersFollowR190AndR191 :
    (let s := emitting 0 (some (.trailer (.overrun 0 (some 7) (frame 0 .overrun)))) .overrun;
      s.ali.link = .up ∧ s.ali.emission = some ⟨0, 0, true, 0, 0, 0, true, false⟩
      ∧ (s.deck 0).store.find 0 = some (frame 0 .overrun) ∧ ((s.deck 0).table.shots[0]?).isSome = true)
    ∧ (let s := aliWith fun a => { a with link := .up, wire := some (.trailer (.aborted 0 (some 7) (frame 0 .emitting) 16)) };
      s.ali.link = .up ∧ s.ali.wire = some (.trailer (.aborted 0 (some 7) (frame 0 .emitting) 16)) ∧ s.ali.emission = none) := by
  decide +kernel

/-- Deck 0 in a context state with the given levels of present and gateClosed and the given gate mirror. -/
def gateAt (state : ContextState) (present gateClosed locked : Bool) : State :=
  inState state fun k => { k with
    chan := { k.chan with sensors := ⟨present, gateClosed, false, false⟩ }, ctx := { k.ctx with gateLocked := locked } }

/-- Each case of a change that is no sensor fault. -/
theorem witness_SensorChangesFollowR12R15AndR22 :
    (let k := (gateAt .empty true false false).deck 0; k.ctx.state = .empty ∧ k.chan.sensors.gateClosed ≠ true)
    ∧ (let k := (gateAt .loaded true true false).deck 0; k.ctx.state = .loaded ∧ k.chan.sensors.present ≠ false)
    ∧ (let k := (gateAt .bound true true false).deck 0; k.ctx.state = .bound ∧ k.ctx.gateLocked = false)
    ∧ (let k := (gateAt .released true true false).deck 0; k.ctx.state = .released ∧ k.chan.sensors.present ≠ false)
    ∧ ((gateAt .aborted true true false).deck 0).ctx.state = .aborted
    ∧ (let k := (gateAt .scanning true true false).deck 0;
      k.ctx.state ∈ [ContextState.bound, .scanning, .draining, .finished] ∧ k.ctx.gateLocked = false ∧ k.ctx.state ≠ .bound)
    ∧ (let k := (inState .finished fun k => { k with
        ctx := { k.ctx with gateLocked := true }
        chan := k.chan.sendContext .unlockGate (some .finished) }).deck 0;
      k.ctx.gateLocked = true ∧ k.chan.outstandingIs .unlockGate = true) := by decide +kernel

theorem witness_SensorFaultAborts :
    (let k := (gateAt .finished true true true).deck 0;
      { k.chan.sensors with present := false } ≠ k.chan.sensors ∧ k.ctx.gateLocked = true
      ∧ k.chan.outstandingIs .unlockGate = false ∧ k.ctx.state ∈ [ContextState.bound, .scanning, .draining, .finished]) := by
  decide +kernel

theorem witness_PowerFaultAndAttentionFollowR10R19AndR21 :
    ((inState .scanning).deck 0).chan.sensors.powerFault = false ∧ ((inState .scanning).deck 0).ctx.state = .scanning
    ∧ ((inState .draining).deck 0).ctx.state ≠ .scanning
    ∧ ((inState .scanning fun k => { k with chan := { k.chan with sensors := ⟨true, true, false, true⟩ } }).deck
      0).chan.sensors.powerFault = true := by decide +kernel

/-- Deck 0 with a command outstanding. -/
def sending (state : ContextState) (cmd : SlotCommand) (release : Option ReleaseFrom := none) (levels : Bool := true) : State :=
  inState state fun k => { k with
    ctx := { k.ctx with gateLocked := true }
    chan := { k.chan with
      sensors := ⟨levels, true, false, false⟩, outstanding := some ⟨⟨cmd, .context, release⟩, 2⟩ } }

theorem witness_CommandEndsFollowR3R4AndR9 :
    ((sending .bound .lockGate).deck 0).chan.outstanding = some ⟨⟨.lockGate, .context, none⟩, 2⟩
    ∧ ((inState .bound).deck 0).chan.outstanding = none ∧ SlotCommand.lockGate ≠ .unlockGate := by decide +kernel

/-- A release, a plain unlock, a fall that waited for the unlock, and one that waited for its failure. -/
theorem witness_UnlockEndsFollowR4AndR16 :
    (let k := (sending .finished .unlockGate (some .finished)).deck 0;
      k.chan.outstanding.map (fun o => (o.command.cmd, o.command.release)) = some (.unlockGate, some .finished)
      ∧ k.ctx.state = .finished)
    ∧ (let k := (sending .bound .unlockGate).deck 0;
      k.chan.outstanding.map (fun o => (o.command.cmd, o.command.release)) = some (.unlockGate, none)
      ∧ k.chan.sensors.present = true ∧ k.chan.sensors.gateClosed = true)
    ∧ (let k := (sending .bound .unlockGate none false).deck 0;
      k.ctx.state = .bound ∧ k.ctx.gateLocked = true ∧ k.chan.sensors.present = false) := by decide +kernel

theorem witness_SlotCommandPlacesFollowR5AndR6 :
    ((inState .bound).deck 0).chan.outstanding = none
    ∧ (((sending .bound .run).deck 0).chan.outstanding).isSome = true := by decide +kernel

/-- Sixteen lines of two samples, and another width; a frame with a wrong CRC, one of kind 4, one with a payload of 3 bytes. -/
theorem witness_LaneParcelsFollowR32AndR199 :
    (let lines : List Line := List.replicate 16 [⟨1, 2, 3, 4⟩, ⟨5, 6, 7, 8⟩];
      lines.length = 16 ∧ (∀ l ∈ lines, l.length = (2 : Word16).toNat) ∧ 3 ≠ (2 : Word16).toNat)
    ∧ (let f : LaneFrame := { seen 5 with crc := (seen 5).crc + 1 };
      f.crc ≠ (laneParcel f.kind f.reserved f.payload).crc)
    ∧ (laneParcel 4 0 []).kind.toNat ∉ [1, 2, 3] ∧ (laneParcel 1 0 [0, 0, 0]).payload.length ≠ 4
    ∧ (laneParcel 2 0 []).payload.length ≠ 8 + 128 * 1024 := by decide +kernel

/-- A lane that is UP and one that is not; an arrival that completes one parcel and leaves nine bytes of the next, at an intake that holds five; and at
an empty intake a parcel that is discarded, a header one too great and stray bytes. -/
theorem witness_LaneParcelsFollowR32AndR199_stream :
    (let s := inState .scanning fun k => { k with intake := (seen 5).bytes.take 5 };
      let bytes := (seen 5).bytes.drop 5 ++ (seen 6).bytes.take 9;
      (s.deck 0).lane = .up ∧ (∀ f ∈ [seen 5], f.fits) ∧ (seen 6).fits ∧ 9 < (seen 6).bytes.length
      ∧ (s.deck 0).intake ++ bytes = [seen 5].flatMap LaneFrame.bytes ++ (seen 6).bytes.take 9)
    ∧ (State.reset.deck 0).lane ≠ .up ∧ .tail 0 [1] ∈ laneRows 0 [1]
    ∧ ((inState .scanning).deck 0).lane = .up ∧ ((inState .scanning).deck 0).intake = []
    ∧ (laneParcel 4 0 []).fits ∧ (laneParcel 4 0 []).discarded ∧ 1048584 < (1048585 : Word32).toNat
    ∧ ¬ ((0x96 : Byte) = 0x96 ∧ (0x96 : Byte) = 0x5B) :=
  ⟨by decide +kernel, by decide +kernel, by decide +kernel, by decide +kernel, by decide +kernel, by decide +kernel,
    ⟨by decide +kernel, by decide +kernel, by decide +kernel, fun width => by simp [readBand, laneParcel]⟩, by decide,
    by decide⟩

/-- A first sighting, one that leaves the chain short, one that locks, and one when the numbers are exhausted. -/
theorem witness_AcquisitionFollowsR33R35AndR36 :
    (let k := acquiring.deck 0;
      k.intake = [] ∧ (seen 14050).fits ∧ (mark 1).fits ∧ readMark (mark 1) = some 1
      ∧ k.lane = .up ∧ k.ctx.state = .scanning ∧ readSighting (seen 14050) = some 14050 ∧ acquiring.profileOf 0 = some film
      ∧ k.rgu.lock = .acquire ∧ k.rgu.numbersExhausted = false ∧ k.rgu.prev = some 10000
      ∧ film.lockCount ≤ (if ((14050 - 10000 : FilmPos).toInt - film.nominalPitch).natAbs ≤ film.pitchTolerance
        then k.rgu.chain + 1 else 1)
      ∧ (if ((14051 - 10000 : FilmPos).toInt - film.nominalPitch).natAbs ≤ film.pitchTolerance then k.rgu.chain + 1 else 1)
        < film.lockCount)
    ∧ (let r := ((inState .scanning fun k => { k with rgu := { k.rgu with lock := .acquire } }).deck 0).rgu;
      r.lock = .acquire ∧ r.prev = none)
    ∧ (let r := ((inState .scanning fun k => { k with rgu := { k.rgu with lock := .acquire, numbersExhausted := true } }).deck
        0).rgu;
      r.lock = .acquire ∧ r.numbersExhausted = true)
    ∧ ((inState .bound).deck 0).ctx.state ≠ .scanning := by decide +kernel

/-- An accepted sighting, an early one, a late one and one that confirms a splice; the shrinkage of the nominal pitch. -/
theorem witness_TrackingFollowsR37ToR43 :
    (let s := lockedAt .locked;
      let k := s.deck 0;
      k.intake = [] ∧ (seen 14050).fits ∧ k.lane = .up ∧ k.ctx.state = .scanning
      ∧ readSighting (seen 14050) = some 14050 ∧ s.profileOf 0 = some film
      ∧ k.rgu.prev = some 10000 ∧ k.rgu.avg = some 4000 ∧ k.rgu.lock = .locked ∧ 0 < film.nominalPitch
      ∧ k.rgu.candidate = none
      ∧ ((14050 : FilmPos) - (10000 + BitVec.ofNat 32 4000)).toInt.natAbs ≤ film.pitchTolerance
      ∧ ((13949 : FilmPos) - (10000 + BitVec.ofNat 32 4000)).toInt < -(film.pitchTolerance : Int)
      ∧ (film.pitchTolerance : Int) < ((14051 : FilmPos) - (10000 + BitVec.ofNat 32 4000)).toInt)
    ∧ (let r := ((lockedAt .coast (some 11000)).deck 0).rgu;
      r.lock = .coast ∧ r.candidate = some 11000
      ∧ ((15050 - 11000 : FilmPos).toInt - (4000 : Nat)).natAbs ≤ film.pitchTolerance)
    ∧ shrinkRule film 4000 0 :=
  ⟨by decide +kernel, by decide +kernel, 0, by decide +kernel⟩

/-- A pending boundary; a current frame with its record CAPTURING in slot 0, and one whose record is not. -/
theorem witness_BoundariesFollowR45ToR53 :
    (let b := boundaryOf film 10000 .none 0 0 false (some 0);
      let k := (holding .scanning [frame 3 .capturing] fun k =>
        { k with rgu := { k.rgu with current := some ⟨3, 0, none⟩, boundary := some b } }).deck 0;
      k.rgu.boundary = some b ∧ k.rgu.current = some ⟨3, 0, none⟩
      ∧ k.store.find 3 = some (frame 3 .capturing) ∧ (frame 3 .capturing).slot = some 0)
    ∧ (State.reset.deck 0).rgu.boundary = none ∧ (State.reset.deck 0).rgu.current = none := by decide +kernel

/-- Deck 0 with all its slots HELD but those from the given one on. -/
def slotsFreeFrom (n : Nat) (records : List FrameRecord) : State :=
  holding .scanning records fun k =>
    { k with store := { k.store with slots := Vector.ofFn fun i : Fin 8 => ⟨decide (i.val < n), [], []⟩ } }

theorem witness_RecordsAreMadeAsR59Says :
    12 ≤ ((slotsFreeFrom 8 ((List.range 12).map fun n => frame n .ready)).deck 0).store.records.length
    ∧ (let k := (slotsFreeFrom 8 ((List.range 11).map fun n => frame n .ready)).deck 0;
      k.store.records.length < 12 ∧ ∀ i : Fin 8, k.store.slots[i].held = true)
    ∧ (let k := (slotsFreeFrom 7 ((List.range 11).map fun n => frame n .ready)).deck 0;
      k.store.slots[(7 : Fin 8)].held = false ∧ ∀ j, j < (7 : Fin 8) → k.store.slots[j].held = true) := by decide +kernel

/-- A cue for frame 4; a shot that is OPEN, a full table, and no OPEN shot; a last consumed number. -/
theorem witness_ShotsFollowR73ToR77 :
    ((cued [4]).deck 0).table.cues.head? = some ⟨4, none⟩ ∧ (4 : Nat) = 4
    ∧ opensWith .none (some ⟨4, none⟩) = some .cue ∧ opensWith .none none = none
    ∧ (((holding .scanning []).deck 0).table.shots[0]?).map Shot.state = some .opened
    ∧ 256 ≤ (List.replicate 256 (⟨0, some 0, .start, .closed, none, 0, 0⟩ : Shot)).length
    ∧ (∀ i : Nat, ¬ ∃ sh, ((cued [4]).deck 0).table.shots[i]? = some sh ∧ sh.state = .opened)
    ∧ (({ (State.reset.deck 0).store with lastConsumed := some 5 } : DeckStore).lastConsumed) = some 5 := by
  refine ⟨by decide +kernel, rfl, rfl, rfl, by decide +kernel, by decide +kernel, ?_, rfl⟩
  rintro i ⟨sh, h, _⟩
  have : ((cued [4]).deck 0).table.shots = [] := by decide +kernel
  rw [this] at h
  exact absurd h (by simp)

/-- A record that may be freed and one that may not; one that is decidable; a CLOSED shot; a drained reel; a record to discard. -/
theorem witness_ExaminationsFollowR66R78AndR106 :
    (let k := (holding .draining [frame 0 .emitted]).deck 0;
      k.store.find 0 = some (frame 0 .emitted) ∧ (k.store.find 1).isNone = true ∧ k.ctx.state ≠ .scanning)
    ∧ (let k := (holding .scanning [frame 0 .emitted, frame 1 .captured]).deck 0;
      (k.store.find 1).map FrameRecord.phase = some .captured ∧ (k.table.shots[0]?).map Shot.last = some none)
    ∧ (let r := { frame 0 .analyzed with action := none };
      let s := holding .draining [r];
      (s.deck 0).store.find 0 = some r ∧ r.phase = .analyzed ∧ (s.deck 0).ctx.state ≠ .scanning ∧ r.action = none
      ∧ ⟨0, 0⟩ ∉ s.rpe.queue)
    ∧ (let k := (holding .draining [] fun k => { k with table := { k.table with
        shots := [⟨0, some 4, .start, .closed, none, 0, 5⟩] } }).deck 0;
      k.store.records = [] ∧ k.ctx.state = .draining
      ∧ (k.table.shots[0]?).map Shot.state = some .closed)
    ∧ classRule (holding .draining []).shp.policies (scoreOf ((holding .draining []).deck 0).ctx) 0 7
    ∧ positionRule (holding .draining []).shp.shelf 7 none
    ∧ (let k := (holding .scanning [frame 3 .capturing]).deck 0;
      k.store.find 3 = some (frame 3 .capturing) ∧ (k.store.find 4).isNone = true) :=
  ⟨by decide +kernel, by decide +kernel, by decide +kernel, by decide +kernel, reset_policies_give_class_7 _ _,
    no_class_7_is_free _ rfl, by decide +kernel⟩

/-- A band of 1024-sample lines at line 0 with the given samples. -/
def bandOf (samples : List Byte) : LaneFrame :=
  let payload : List Byte := put32 0 ++ put16 1024 ++ [0, 0] ++ samples
  ⟨2, 0, payload, crc16 (2 :: 0 :: put32 payload.length ++ payload)⟩

theorem bandOf_length (samples : List Byte) (h : samples.length = 131072) : (bandOf samples).payload.length = 131080 := by
  simp [bandOf, put32, put16, h]

theorem bandOf_isRead (samples : List Byte) (h : samples.length = 131072) : (readBand (bandOf samples) 1024).isSome = true := by
  have hc : crcHolds (bandOf samples) = true := by simp only [crcHolds, laneCrc, bandOf, beq_iff_eq]
  have hl := bandOf_length samples h
  have hw : le16 (bandOf samples).payload 4 = 1024 := by simp [bandOf, le16, byteAt, put32, put16, nthByte]
  have hk : ((bandOf samples).kind == bandKind) = true := by rfl
  simp only [readBand, hw, hl, hc, hk]
  rfl

/-- A band that is read at the profile's width, for the current frame in slot 0; and a band when nothing is scanned. -/
theorem witness_BandFollowsR46R51AndR55 :
    (∃ samples : List Byte, (readBand (bandOf samples) film.lineWidth).isSome = true ∧ (bandOf samples).kind = 2
      ∧ (bandOf samples).fits)
    ∧ (let s := holding .scanning [frame 3 .capturing] fun k => { k with rgu := { k.rgu with current := some ⟨3, 0, none⟩ } };
      let k := s.deck 0;
      s.profileOf 0 = some film ∧ k.intake = [] ∧ k.lane = .up ∧ k.ctx.state = .scanning ∧ k.rgu.boundary = none
      ∧ k.rgu.current = some ⟨3, 0, none⟩ ∧ k.store.find 3 = some (frame 3 .capturing)
      ∧ (frame 3 .capturing).slot = some 0 ∧ (0 : Int) ≤ ((0 : LineNo) - 0).toInt
      ∧ SlotMem.wf k.store.slots[(0 : Fin 8)].mem = true)
    ∧ ((inState .bound).deck 0).ctx.state ≠ .scanning :=
  ⟨⟨List.replicate 131072 0, bandOf_isRead _ List.length_replicate, rfl,
      (bandOf_length _ List.length_replicate).le.trans (by decide)⟩, by decide +kernel, by decide +kernel⟩

/-- A frame CAPTURED that the Damage Analyzer has active, with its one record and its shot; condition codes without comparators. -/
theorem witness_AnalysisFollowsR89ToR105 :
    (let s := { holding .scanning [frame 0 .captured] with dan := { State.reset.dan with active := some ⟨0, 0⟩ } };
      let k := s.deck 0;
      s.dan.active = some ⟨0, 0⟩ ∧ s.profileOf 0 = some film ∧ k.store.find 0 = some (frame 0 .captured)
      ∧ (frame 0 .captured).phase = .captured ∧ (k.table.shots[0]?).isSome = true
      ∧ (∀ q ∈ k.store.records, q.number = 0 → q = frame 0 .captured)
      ∧ (∀ i : Fin 8, (0 : Byte).getLsbD i.val = false ∧ s.dan.comparators[i].enabled = false))
    ∧ State.reset.dan.active = none := by decide +kernel

/-- Lines of one width, and a deck with the shot of a record. -/
theorem witness_MeasuresFollowR93ToR97 :
    evenLines [(0, List.replicate 1024 ⟨1, 1, 1, 1⟩)] film.lineWidth
    ∧ (((holding .scanning []).deck 0).table.shots[(frame 0 .captured).shot]?).isSome = true :=
  ⟨fun _ h => by rw [List.mem_singleton.1 h]; exact List.length_replicate, by decide +kernel⟩

/-- A record ANALYZED at the head of the decision queue, with its shot and codes, that no rule matches; and one with a rule that matches. -/
theorem witness_DecisionFollowsR112ToR118 :
    (let r := { frame 0 .analyzed with action := none, codes := some 0 };
      let s := { holding .draining [r] with rpe := { State.reset.rpe with queue := [⟨0, 0⟩] } };
      s.rpe.active = none ∧ s.rpe.queue = ⟨0, 0⟩ :: [] ∧ (s.deck 0).store.find 0 = some r ∧ r.phase = .analyzed
      ∧ ((s.deck 0).table.shots[r.shot]?).isSome = true ∧ r.codes = some 0
      ∧ (∀ x ∈ (s.deck 0).table.shots, ¬ (x.origin = .splice ∧ x.first = 0 + 1))
      ∧ ∀ i : Fin 32, s.rpe.rules[i].enabled = false)
    ∧ ruleMatches ⟨true, noClasses, none, .mark, none, .pass⟩ noClasses 0
    ∧ ruleTestPasses ⟨true, noClasses, none, .mark, none, .pass⟩ 0
    ∧ State.reset.rpe.queue = [] := by
  refine ⟨by decide +kernel, ⟨rfl, ?_⟩, ?_, rfl⟩
  · simp [noClasses, ruleTestPasses]
  · simp [ruleTestPasses]

/-- A record REPAIRING in slot 0 whose content is in its form, with the frame before it in the queue. -/
theorem witness_RepairEndFollowsR119ToR123 :
    (let r := { frame 1 .repairing with action := some .holdPrevious };
      let s := { holding .draining [frame 0 .emitted, r] with rpe := { State.reset.rpe with active := some ⟨0, 1⟩ } };
      let k := s.deck 0;
      s.rpe.active = some ⟨0, 1⟩ ∧ s.profileOf 0 = some film ∧ k.store.find 1 = some r ∧ r.phase = .repairing
      ∧ r.slot = some 0 ∧ SlotMem.wf k.store.slots[(0 : Fin 8)].mem = true
      ∧ k.store.slots[(0 : Fin 8)].mem = [] ∧ k.store.find 0 = some (frame 0 .emitted))
    ∧ State.reset.rpe.active = none := by decide +kernel

/-- A channel with the least and greatest values of its fields, and a curve. -/
theorem witness_GradingFollowsR141ToR148 :
    ChannelGrade.inRange ⟨4095, 7, -16384, 15, 15⟩ ∧ ChannelGrade.inRange ⟨0, 0, 16383, 0, 0⟩
    ∧ (some curveInitial : Option Curve) = some curveInitial := by decide

/-- A state that is not the reset state and is sound. -/
theorem witness_StepKeepsTheStateSound :
    (given bindParcel).ali.bounded ∧ (∀ d, ((given bindParcel).deck d).roomy) ∧ (∀ d, ((given bindParcel).deck d).excursionsInRange)
    ∧ (∀ d, ((given bindParcel).deck d).slotsWellFormed) ∧ (∀ d, ((given bindParcel).deck d).waitsBehind)
    ∧ (given bindParcel).gre.gradesInRange ∧ (given bindParcel).shp.bounded := by decide +kernel

theorem witness_ResetStateIsSound : State.reset.pending = [] := rfl

end Sys2Proof.Tests
end

section
namespace Sys2Proof.Machine

theorem Keeps.sound {s t : State} (h : Keeps s t) (hs : Sound s) : Sound t where
  reports := h.reports hs.reports
  roomy d := (h.decks d).roomy (hs.roomy d)
  excursions d := (h.decks d).excursions (hs.excursions d)
  slots d := (h.decks d).slots (hs.slots d)
  waits d := (h.decks d).waits (hs.waits d)
  grades := h.grades hs.grades
  directives := h.directives hs.directives

/-- No bound and no form speaks of the commands that wait. -/
theorem Sound.setPending {s : State} (h : Sound s) (rest : List Instr) : Sound { s with pending := rest } :=
  ⟨h.reports, h.roomy, h.excursions, h.slots, h.waits, h.grades, h.directives⟩

/-- Settles O59: every command keeps each bound and form by itself (answers_exec), and a step carries out one command or idles. -/
theorem stepKeepsTheStateSound : Obligations.StepKeepsTheStateSound := by
  intro s t sound hstep
  cases hq : s.pending with
  | nil =>
    have same : s = t := by simpa [step, hq] using hstep
    exact same ▸ sound
  | cons c rest =>
    obtain ⟨u, hu, keeps⟩ := answers_exec c { s with pending := rest }
    have left : u = t := by simpa [step, hq, hu] using hstep
    exact left ▸ keeps.sound (sound.setPending rest)

theorem deck_reset (d : DeckId) : State.reset.deck d = deckInitial resetLevels (laneInitial false) := by
  simp [State.reset, State.deck]

theorem slots_initial (i : Fin 8) : storeInitial.slots[i] = slotFree := by simp [storeInitial]

theorem powerOn_nothingFound (s : State) (h : s.pending = []) :
    s.powerOn ⟨Vector.replicate 4 resetLevels, Vector.replicate 4 false, false⟩ = State.reset := by
  have decks : (Vector.ofFn fun d : Fin 4 => deckInitial (Vector.replicate 4 resetLevels)[d]
      (laneInitial (Vector.replicate 4 false)[d])) = Vector.replicate 4 (deckInitial resetLevels (laneInitial false)) := by
    ext1 i hi; simp
  simp only [State.powerOn, State.reset, decks, h]

/-- Settles O60. -/
theorem resetStateIsSound : Obligations.ResetStateIsSound := by
  refine ⟨?_, fun s h => congrArg _ (powerOn_nothingFound s h)⟩
  exact {
    reports := ⟨Nat.zero_le _, Nat.zero_le _, Nat.zero_le _⟩
    roomy := fun d => by rw [deck_reset]; exact ⟨Nat.zero_le _, Nat.zero_le _, Nat.zero_le _, Nat.zero_le _⟩
    excursions := fun d => by rw [deck_reset]; exact fun _ h => absurd h List.not_mem_nil
    slots := fun d i => by
      rw [deck_reset]
      exact (congrArg (fun sl => SlotMem.wf sl.mem) (slots_initial i)).trans rfl
    waits := fun d => by rw [deck_reset]; exact fun _ => rfl
    grades := greInitial_sound
    directives := Nat.zero_le _ }

theorem sendContext_free {c : Channel} (h : c.outstanding = none) (cmd : SlotCommand) (release : Option ReleaseFrom) :
    c.sendContext cmd release = { c with outstanding := some ⟨⟨cmd, .context, release⟩, c.timeout⟩ } := by
  simp [Channel.sendContext, Channel.issue, h]

theorem sendContext_taken {c : Channel} {o : Outstanding} (h : c.outstanding = some o) (cmd : SlotCommand)
    (release : Option ReleaseFrom) : c.sendContext cmd release = { c with waiting := some ⟨cmd, .context, release⟩ } := by
  simp [Channel.sendContext, h]

theorem sendFlow_free {c : Channel} (h : c.outstanding = none) (cmd : SlotCommand) :
    c.sendFlow cmd = { c with outstanding := some ⟨⟨cmd, .flow, none⟩, c.timeout⟩ } := by
  simp [Channel.sendFlow, Channel.issue, h]

theorem sendFlow_taken {c : Channel} {o : Outstanding} (h : c.outstanding = some o) (cmd : SlotCommand) :
    c.sendFlow cmd = if c.waiting = none then { c with waiting := some ⟨cmd, .flow, none⟩ } else c := by
  cases hw : c.waiting <;> simp [Channel.sendFlow, h, hw]

theorem withdraw_eq_filter (c : Channel) (kinds : List SlotCommand) :
    c.withdraw kinds = { c with waiting := c.waiting.filter fun w => !kinds.contains w.cmd } := by
  obtain ⟨sensors, out, waiting, motion, timeout, mask⟩ := c
  cases waiting with
  | none => rfl
  | some w => by_cases hw : w.cmd ∈ kinds <;> simp [Channel.withdraw, Option.filter, hw]

/-- Settles O45. -/
theorem slotCommandPlacesFollowR5AndR6 : Obligations.SlotCommandPlacesFollowR5AndR6 := fun c cmd release kinds =>
  ⟨fun h => ⟨sendContext_free h cmd release, sendFlow_free h cmd⟩,
    fun _ h => ⟨sendContext_taken h cmd release, sendFlow_taken h cmd⟩, withdraw_eq_filter c kinds⟩

end Sys2Proof.Machine
end

section
namespace Sys2Proof.Machine

/-! ### Takes of the requests of chapter 1 -/

theorem takeChecks_deckParcel {form : RequestForm} {body : List Byte} (d : DeckId) (tag code : Byte)
    (length : body.length = form.length) (reserved : form.reservedZero body = true) :
    takeChecks form (deckParcel d tag code body) = none := by
  have hb : (deckParcel d tag code body).body = body := rfl
  simp [takeChecks, hb, length, reserved]

/-- A deck-scoped request whose body has the table's length and clear reserved bytes reaches its owning block (R196). -/
theorem takeDeckRequest_delivered {code : Byte} {deliver : DeckId → ControlParcel → State → State} {s : State} {d : DeckId}
    {tag : Byte} {body : List Byte} {rest : List ControlParcel} {form : RequestForm}
    (h : s.takeable (deckParcel d tag code body) rest) (hform : requestForm code = some form)
    (length : body.length = form.length) (reserved : form.reservedZero body = true) :
    takeDeckRequest code deliver s =
      .next (deliver d (deckParcel d tag code body) (s.modAli fun a => a.afterTake rest)) :=
  takeDeckRequest_delivers h hform (takeChecks_deckParcel d tag code length reserved)

theorem asIndex_of_lt {n v : Nat} (h : v < n) : asIndex n v = some ⟨v, h⟩ := dif_pos h

theorem asIndex_of_le {n v : Nat} (h : n ≤ v) : asIndex n v = none := dif_neg (Nat.not_lt.2 h)

theorem le16_bytes16_zero (v : Word16) (rest : List Byte) : BitVec.ofNat 16 (le16 (bytes16 v ++ rest) 0) = v := by
  rw [le16_bytes16, BitVec.ofNat_toNat, BitVec.setWidth_eq]

theorem le32_bytes32_zero (v : Word32) (rest : List Byte) : BitVec.ofNat 32 (le32 (bytes32 v ++ rest) 0) = v := by
  rw [le32_bytes32, BitVec.ofNat_toNat, BitVec.setWidth_eq]

/-- Settles O9. -/
theorem setDeckEventsFollowsR8 : Obligations.SetDeckEventsFollowsR8 := by
  intro s d tag timeout mask rest p k h hmask
  have reserved : (zeroAt [3] (bytes16 mask ++ [timeout, 0]) && le16 (bytes16 mask ++ [timeout, 0]) 0 / 512 == 0) = true := by
    have : mask.toNat / 512 = 0 := by omega
    rw [le16_bytes16, this]; rfl
  have setting : byteAt p.body 2 = timeout.toNat := byteAt_bytes16 mask [timeout, 0] 0
  have bits : BitVec.ofNat 16 (le16 p.body 0) = mask := le16_bytes16_zero mask [timeout, 0]
  show execSetDeckEvents s = _
  rw [execSetDeckEvents, takeDeckRequest_delivered h rfl rfl reserved, setting, bits]
  by_cases high : 3 < timeout.toNat
  · rw [asIndex_of_le high, dif_pos high]
    exact congrArg _ (refuse_afterTake s p rest .range)
  · rw [asIndex_of_lt (by omega), dif_neg high, replyOk_afterTake]
    rfl

/-- Settles O14. -/
theorem readContextFollowsR26 : Obligations.ReadContextFollowsR26 := by
  intro s d tag rest p k place h
  show execReadContext s = _
  rw [execReadContext, takeDeckRequest_delivered h rfl rfl rfl]
  unfold State.replyReadouts
  rw [reply_afterTake]
  rfl

/-! ### What each accepted request does to its deck -/

theorem moveContext_eq (s : State) (d : DeckId) (state : ContextState) :
    s.moveContext d state = (s.setDeck d { s.deck d with ctx := { (s.deck d).ctx with state := state } }).notify d
      (.contextState state (s.deck d).ctx.reel) := by
  simp [State.moveContext, State.modDeck]

theorem bindReel_eq (s : State) (d : DeckId) (reel : ReelId) (profile : Fin 8) (grade : Fin 64) :
    s.bindReel d reel profile grade = (s.setDeck d { s.deck d with
      ctx := { (s.deck d).ctx.bind reel profile grade with state := .bound }
      table := tableEmpty
      map := mapCleared (some reel)
      store := { (s.deck d).store with lastConsumed := none }
      chan := (s.deck d).chan.sendContext .lockGate none }).notify d (.contextState .bound (some reel)) := by
  simp only [State.bindReel, moveContext_eq, modChan_eq, modCtx_eq, modTable_eq, modStore_eq, modMap_eq, State.modDeck,
    deck_setDeck_same, setDeck_setDeck]
  rfl

theorem unbindReel_eq (s : State) (d : DeckId) :
    let c := (s.deck d).chan.withdraw [.lockGate]
    s.unbindReel d = (s.setDeck d { s.deck d with
      ctx := { (s.deck d).ctx with state := .loaded, reel := none, profile := none, defaultGrade := none }
      chan := if (s.deck d).ctx.gateLocked && !c.outstandingIs .unlockGate then c.sendContext .unlockGate none else c
      }).notify d (.contextState .loaded none) := by
  simp only [State.unbindReel, moveContext_eq, modChan_eq, modCtx_eq, State.modDeck, deck_setDeck_same, setDeck_setDeck]
  rfl

theorem startScan_eq (s : State) (d : DeckId) :
    s.startScan d = (s.setDeck d { s.deck d with
      ctx := { (s.deck d).ctx with state := .scanning }
      store := { (s.deck d).store with flow := .clear, fate := .none }
      rgu := (s.deck d).rgu.enable
      chan := (s.deck d).chan.sendContext .run none }).notify d (.contextState .scanning (s.deck d).ctx.reel) := by
  simp only [State.startScan, moveContext_eq, modChan_eq, modRgu_eq, modStore_eq, State.modDeck, deck_setDeck_same,
    deck_notify, setDeck_notify, sendContext_mask, setDeck_setDeck]

/-! ### The requests of a reel's life -/

/-- Settles O5. -/
theorem bindReelFollowsR13 : Obligations.BindReelFollowsR13 := by
  intro s d tag reel profile grade rest p k h
  have reelField : BitVec.ofNat 32 (le32 p.body 0) = reel := le32_bytes32_zero reel [profile, grade, 0, 0]
  have profileField : byteAt p.body 4 = profile.toNat := byteAt_bytes32 reel [profile, grade, 0, 0] 0
  have gradeField : byteAt p.body 5 = grade.toNat := byteAt_bytes32 reel [profile, grade, 0, 0] 1
  show execBindReel s = _
  rw [execBindReel, takeDeckRequest_delivered h rfl rfl rfl, reelField, profileField, gradeField]
  refine congrArg _ ?_
  have refused (status : Status) := refuse_afterTake s p rest status
  by_cases outside : 7 < profile.toNat ∨ 63 < grade.toNat
  · rw [dif_pos (.inr outside), ← refused]
    rcases outside with high | high
    · rw [asIndex_of_le high]
    · rw [asIndex_of_le high]
      cases asIndex 8 profile.toNat <;> rfl
  · obtain ⟨hprofile, hgrade⟩ := not_or.1 outside
    rw [asIndex_of_lt (show profile.toNat < 8 by omega), asIndex_of_lt (show grade.toNat < 64 by omega)]
    by_cases zero : reel = 0
    · rw [dif_pos (.inl zero)]
      exact (if_pos zero).trans (refused .range)
    · rw [dif_neg (not_or.2 ⟨zero, outside⟩)]
      refine (if_neg zero).trans ?_
      refine if_congr Iff.rfl (refused _) (if_congr Option.isNone_iff_eq_none (refused _)
        (if_congr (reelHeld_iff _ reel) (refused _) ?_))
      rw [replyOk_afterTake, bindReel_eq]
      rfl

/-- Settles O6. -/
theorem unbindReelFollowsR14 : Obligations.UnbindReelFollowsR14 := by
  intro s d tag rest p k c h
  show execUnbindReel s = _
  rw [execUnbindReel, takeDeckRequest_delivered h rfl rfl rfl, replyOk_afterTake, unbindReel_eq, deck_answered]
  refine congrArg _ (if_congr Iff.rfl (refuse_afterTake s p rest _) ?_)
  simp only [Bool.and_eq_true, Bool.not_eq_true', c, k]
  rfl

/-- Settles O7. -/
theorem startScanFollowsR17 : Obligations.StartScanFollowsR17 := by
  intro s d tag rest p k h
  have refused (status : Status) := refuse_afterTake s p rest status
  show execStartScan s = _
  rw [execStartScan, takeDeckRequest_delivered h rfl rfl rfl, replyOk_afterTake, startScan_eq, deck_answered]
  refine congrArg _ (if_congr Iff.rfl (refused _) (if_congr ?_ (refused _) (if_congr Iff.rfl (refused _) rfl)))
  simp [k]

/-- A code that DECK_COMMAND does not issue: none of the ten, LOCK_GATE, UNLOCK_GATE or STOP (R7). -/
theorem readSlotCommand_notCommandable {n : Nat} (h : n ∈ [0, 1, 6] ∨ 9 < n) :
    readSlotCommand n = none ∨ ∃ cmd, readSlotCommand n = some cmd ∧ commandable cmd = false := by
  rcases h with h | h
  · right
    simp only [List.mem_cons, List.not_mem_nil, or_false] at h
    rcases h with rfl | rfl | rfl <;> exact ⟨_, rfl, rfl⟩
  · left
    obtain ⟨m, rfl⟩ : ∃ m, n = m + 10 := ⟨n - 10, by omega⟩
    rfl

theorem readSlotCommand_commandable {n : Nat} {cmd : SlotCommand} (h : (n, cmd) ∈ [(2, SlotCommand.powerOn), (3, .powerOff),
    (4, .run), (5, .pause), (7, .indicatorOff), (8, .indicatorOn), (9, .indicatorBlink)]) :
    readSlotCommand n = some cmd ∧ commandable cmd = true := by
  simp only [List.mem_cons, List.not_mem_nil, or_false, Prod.mk.injEq] at h
  rcases h with ⟨rfl, rfl⟩ | ⟨rfl, rfl⟩ | ⟨rfl, rfl⟩ | ⟨rfl, rfl⟩ | ⟨rfl, rfl⟩ | ⟨rfl, rfl⟩ | ⟨rfl, rfl⟩ <;>
    exact ⟨rfl, rfl⟩

/-- Settles O8. -/
theorem deckCommandFollowsR7 : Obligations.DeckCommandFollowsR7 := by
  intro s d tag code rest p k h
  have refused (status : Status) := refuse_afterTake s p rest status
  have field : byteAt p.body 0 = code.toNat := rfl
  have run : exec .deckCommand s = execDeckCommand s := rfl
  rw [run, execDeckCommand, takeDeckRequest_delivered h rfl rfl rfl, field]
  constructor
  · intro hcode
    rcases readSlotCommand_notCommandable hcode with hr | ⟨cmd, hr, hc⟩
    · rw [hr]; exact congrArg _ (refused _)
    · rw [hr]; simp only [hc]; exact congrArg _ (refused _)
  · intro cmd hcmd
    obtain ⟨hr, hc⟩ := readSlotCommand_commandable hcmd
    rw [hr, replyOk_afterTake]
    simp only [hc, Bool.not_true, Bool.false_eq_true, if_false]
    refine congrArg _ (if_congr ?_ (refused _) (if_congr Iff.rfl (refused _) (if_congr Iff.rfl (refused _) rfl)))
    simp [k, Option.isSome_iff_ne_none]

theorem releaseReel_finished {s : State} {d : DeckId} (h : (s.deck d).ctx.state = .finished) :
    s.releaseReel d = s.setDeck d { s.deck d with chan := (s.deck d).chan.sendContext .unlockGate (some .finished) } := by
  simp only [State.releaseReel, h, reduceCtorEq, if_false, modChan_eq, State.modDeck]

theorem releaseReel_aborted {s : State} {d : DeckId} (h : (s.deck d).ctx.state = .aborted) :
    s.releaseReel d =
      if (s.deck d).ctx.gateLocked = true ∨ (s.deck d).chan.outstandingIs .lockGate = true then
        s.setDeck d { s.deck d with chan := (s.deck d).chan.sendContext .unlockGate (some .aborted) }
      else s.released d := by
  have unlocked : ((!(s.deck d).ctx.gateLocked && !(s.deck d).chan.outstandingIs .lockGate) = true) ↔
      ¬ ((s.deck d).ctx.gateLocked = true ∨ (s.deck d).chan.outstandingIs .lockGate = true) := by simp
  simp only [State.releaseReel, h, if_true, enterReleased_eq, modChan_eq, State.modDeck]
  rw [if_congr unlocked rfl rfl, ite_not]

/-- Settles O12. -/
theorem releaseReelFollowsR21AndR25 : Obligations.ReleaseReelFollowsR21AndR25 := by
  intro s d tag rest p k a h
  have refused (status : Status) := refuse_afterTake s p rest status
  have busy : (k.chan.releaseBusy = true) ↔ k.chan.releasing := releaseBusy_iff _
  have run : exec .releaseReel s = execReleaseReel s := rfl
  rw [run, execReleaseReel, takeDeckRequest_delivered h rfl rfl rfl, replyOk_afterTake]
  refine ⟨fun hf ha => ?_, fun hf => ?_, fun ha => ?_⟩
  · exact congrArg _ ((if_pos ⟨hf, ha⟩).trans (refused _))
  · refine congrArg _ ((if_neg fun c => c.1 hf).trans (if_congr ?_ (refused _) (if_congr busy (refused _)
      (releaseReel_finished (s := a) hf))))
    simp [k, hf]
  · have notFinished : k.ctx.state ≠ .finished := by simp [ha]
    exact congrArg _ ((if_neg fun c => c.2 ha).trans ((if_neg fun c => notFinished c.1).trans
      (if_congr busy (refused _) (releaseReel_aborted (s := a) ha))))

/-! ### Profiles -/

theorem profileInUse_iff (s : State) (i : Fin 8) : s.profileInUse i = true ↔
    ∃ d : DeckId, ((s.deck d).ctx.state = .scanning ∨ (s.deck d).ctx.state = .draining)
      ∧ (s.deck d).ctx.profile.map Fin.val = some i.val := by
  have named (o : Option (Fin 8)) : o.map Fin.val = some i.val ↔ o = some i := by
    cases o <;> simp [Fin.ext_iff]
  simp only [State.profileInUse, List.any_eq_true, Vector.mem_toList_iff, Vector.mem_iff_getElem, named, Bool.and_eq_true,
    Bool.or_eq_true, beq_iff_eq, State.deck]
  constructor
  · rintro ⟨k, ⟨d, hd, rfl⟩, hk⟩
    exact ⟨⟨d, hd⟩, hk⟩
  · rintro ⟨d, hd⟩
    exact ⟨_, ⟨d.val, d.isLt, rfl⟩, hd⟩

/-- The ranges of section 1.4 and the product bound (R11), one by one. -/
theorem inRange_iff (p : Profile) : p.inRange = true ↔
    (1 ≤ p.perfsPerFrame ∧ p.perfsPerFrame ≤ 8) ∧ (256 ≤ p.nominalPitch ∧ p.nominalPitch ≤ 16383)
    ∧ (1 ≤ p.pitchTolerance ∧ p.pitchTolerance ≤ 255) ∧ (2 ≤ p.lockCount ∧ p.lockCount ≤ 15) ∧ p.coastLimit ≤ 7
    ∧ p.frameLineOffset ≤ 65535 ∧ (1024 ≤ p.lineWidth ∧ p.lineWidth ≤ 8192 ∧ p.lineWidth % 64 = 0)
    ∧ (1 ≤ p.irLimit ∧ p.irLimit ≤ 65535) ∧ (1 ≤ p.tileFlagLimit ∧ p.tileFlagLimit ≤ 65535)
    ∧ (1 ≤ p.blotchLimit ∧ p.blotchLimit ≤ 65535)
    ∧ (p.nominalPitch + p.pitchTolerance) * p.perfsPerFrame ≤ 65536 := by
  simp only [Profile.inRange, Bool.and_eq_true, decide_eq_true_eq, beq_iff_eq, and_assoc]

/-- Settles O15. -/
theorem loadProfileFollowsR11 : Obligations.LoadProfileFollowsR11 := by
  intro s deck tag index perfs lock coast tolerance pitch offset width ir tile blotch rest p outOfRange h
  have refused (status : Status) := refuse_afterTake s p rest status
  have indexField : byteAt p.body 0 = index.toNat := rfl
  have fields : readProfile p.body = ⟨perfs.toNat, pitch.toNat, tolerance.toNat, lock.toNat, coast.toNat, offset.toNat,
      width.toNat, ir.toNat, tile.toNat, blotch.toNat⟩ := by
    have pitchField : le16 p.body 4 = pitch.toNat := toNat_bytes16 pitch
    have offsetField : le16 p.body 8 = offset.toNat := toNat_bytes16 offset
    have widthField : le16 p.body 10 = width.toNat := toNat_bytes16 width
    have irField : le16 p.body 12 = ir.toNat := toNat_bytes16 ir
    have tileField : le16 p.body 14 = tile.toNat := toNat_bytes16 tile
    have blotchField : le16 p.body 16 = blotch.toNat := toNat_bytes16 blotch
    simp only [readProfile, pitchField, offsetField, widthField, irField, tileField, blotchField]
    rfl
  have bad : (!(readProfile p.body).inRange) = true ↔ outOfRange := by
    have zero8 (b : Byte) : b = 0 ↔ b.toNat = 0 := BitVec.toNat_eq
    have zero16 (w : Word16) : w = 0 ↔ w.toNat = 0 := BitVec.toNat_eq
    have := tolerance.isLt
    have := offset.isLt
    have := ir.isLt
    have := tile.isLt
    have := blotch.isLt
    rw [Bool.not_eq_true', ← Bool.not_eq_true, inRange_iff, fields]
    simp only [outOfRange, zero8, zero16]
    omega
  have run : exec .loadProfile s = execLoadProfile s := rfl
  rw [run, execLoadProfile, takeRequest_delivers h rfl rfl rfl, indexField, replyOk_afterTake]
  refine congrArg _ ?_
  by_cases high : 7 < index.toNat
  · rw [asIndex_of_le high, dif_pos (.inl high)]
    exact refused _
  · rw [asIndex_of_lt (show index.toNat < 8 by omega)]
    by_cases outside : outOfRange
    · rw [dif_pos (.inr outside)]
      exact (if_pos (bad.2 outside)).trans (refused _)
    · rw [dif_neg (not_or.2 ⟨high, outside⟩)]
      refine (if_neg (mt bad.1 outside)).trans (if_congr (profileInUse_iff _ _) (refused _) ?_)
      rw [fields]
      rfl

end Sys2Proof.Machine
end

section
namespace Sys2Proof.Machine

/-! ### Finding a record -/

theorem find_number {k : DeckStore} {n : Nat} {r : FrameRecord} (h : k.find n = some r) : r.number = n := by
  simpa using List.find?_some h

theorem find_none_of_empty {k : DeckStore} (h : k.records = []) (n : Nat) : k.find n = none := by
  simp [DeckStore.find, h]

theorem consumed_iff (k : DeckStore) (n : Nat) : k.consumed n = true ↔ ∃ m, k.lastConsumed = some m ∧ n ≤ m := by
  cases h : k.lastConsumed <;> simp [DeckStore.consumed, h]

/-! ### What an examination asks -/

theorem lastOfClosedShot_iff (k : Deck) (r : FrameRecord) : k.lastOfClosedShot r = true ↔
    ∃ sh, k.table.shots[r.shot]? = some sh ∧ sh.state ≠ .opened ∧ sh.last = some r.number := by
  unfold Deck.lastOfClosedShot
  cases k.table.shots[r.shot]? <;> simp

theorem firstOfShot_iff (k : Deck) (r : FrameRecord) : k.firstOfShot r = true ↔
    ∃ sh, k.table.shots[r.shot]? = some sh ∧ sh.first = r.number := by
  unfold Deck.firstOfShot
  cases k.table.shots[r.shot]? <;> simp

/-- The conditions of R66 as the statements have them. -/
theorem releasable_iff (k : Deck) (r : FrameRecord) :
    k.releasable r = true ↔ r.phase = .emitted ∧ k.mayFree r.number k.table.shots[r.shot]? := by
  simp only [Deck.releasable, Deck.mayFree, Bool.and_eq_true, Bool.or_eq_true, beq_iff_eq, lastOfClosedShot_iff]
  cases k.store.find (r.number + 1) with
  | none => simp [consumed_iff, or_comm, or_assoc]
  | some q => simp [or_assoc]

theorem analyzedOrLater_iff (p : Phase) : p.analyzedOrLater = true ↔ p ≠ .capturing ∧ p ≠ .captured := by
  cases p <;> simp [Phase.analyzedOrLater]

theorem previousReady_iff (k : Deck) (r : FrameRecord) : k.previousReady r = true ↔
    r.number = 0 ∨ (∃ sh, k.table.shots[r.shot]? = some sh ∧ sh.first = r.number)
    ∨ ∀ q, k.store.find (r.number - 1) = some q → q.action ≠ none := by
  simp only [Deck.previousReady, Bool.or_eq_true, beq_iff_eq, firstOfShot_iff, or_assoc]
  cases k.store.find (r.number - 1) <;> simp [Option.isSome_iff_ne_none]

theorem nextReady_iff (k : Deck) (r : FrameRecord) : k.nextReady r = true ↔
    r.number = 16777215
    ∨ (∃ sh, k.table.shots[r.shot]? = some sh ∧ sh.state ≠ .opened ∧ sh.last = some r.number)
    ∨ (∃ q, k.store.find (r.number + 1) = some q ∧ q.phase ≠ .capturing ∧ q.phase ≠ .captured)
    ∨ (k.store.find (r.number + 1) = none
      ∧ (k.ctx.state ≠ .scanning ∨ ∃ m, k.store.lastConsumed = some m ∧ r.number + 1 ≤ m)) := by
  simp only [Deck.nextReady, Bool.or_eq_true, beq_iff_eq, lastOfClosedShot_iff, or_assoc, Config.max24]
  cases k.store.find (r.number + 1) <;> simp [consumed_iff, analyzedOrLater_iff, or_comm]

theorem holdsShot_eq_false_iff (k : DeckStore) (i : Nat) :
    k.holdsShot i = false ↔ ∀ r ∈ k.records, r.shot = i → r.phase = .emitted := by
  simp [DeckStore.holdsShot]

/-! ### What an examination does -/

theorem releaseExam_frees {s : State} {d : DeckId} {n : Nat} {r : FrameRecord} (h : (s.deck d).store.find n = some r)
    (free : (s.deck d).releasable r = true) : s.releaseExam d n = (s.dropRecord d n).emptyHandoff d := by
  simp [State.releaseExam, h, free]

theorem releaseExam_keeps {s : State} {d : DeckId} {n : Nat}
    (h : ∀ r, (s.deck d).store.find n = some r → (s.deck d).releasable r ≠ true) : s.releaseExam d n = s := by
  unfold State.releaseExam
  dsimp only
  split
  · next r hr => exact if_neg (h r hr)
  · rfl

theorem decideExam_joins {s : State} {d : DeckId} {n : Nat} {r : FrameRecord} (h : (s.deck d).store.find n = some r)
    (decidable : (s.deck d).decidable r = true) (undecided : r.action = none) (once : ⟨d, n⟩ ∉ s.rpe.queue) :
    s.decideExam d n = { s with rpe := { s.rpe with queue := s.rpe.queue ++ [⟨d, n⟩] } } := by
  simp [State.decideExam, h, decidable, undecided, once, State.modRpe]

theorem decideExam_keeps {s : State} {d : DeckId} {n : Nat}
    (h : ∀ r, (s.deck d).store.find n = some r → (s.deck d).decidable r ≠ true ∨ ⟨d, n⟩ ∈ s.rpe.queue) :
    s.decideExam d n = s := by
  unfold State.decideExam
  dsimp only
  split
  · next r hr =>
    refine if_neg ?_
    rcases h r hr with hd | hq
    · simp [hd]
    · simp [hq]
  · rfl

theorem completeExam_eq {s : State} {d : DeckId} {i : Nat} {sh : Shot} (h : (s.deck d).table.shots[i]? = some sh) :
    s.completeExam d i =
      if sh.state = .closed ∧ ∀ r ∈ (s.deck d).store.records, r.shot = i → r.phase = .emitted then
        (s.setDeck d { s.deck d with table := { (s.deck d).table with
          shots := (s.deck d).table.shots.set i { sh with state := .complete } } }).notify d
            (.shotClosed i { sh with state := .complete } (s.deck d).ctx.reel)
      else s := by
  have replaced (l : List Shot) (x : Shot) : l.modify i (fun _ => x) = l.set i x := by
    apply List.ext_getElem?
    intro j
    rw [List.getElem?_modify, List.getElem?_set]
    by_cases hij : i = j
    · subst hij
      by_cases hl : i < l.length <;> simp [hl]
    · simp [hij]
  simp only [State.completeExam, h, Bool.not_eq_true', holdsShot_eq_false_iff, modTable_eq, State.modDeck, ShotTable.modShot,
    replaced]

theorem records_drop (k : DeckStore) (n : Nat) : (k.drop n).records = k.records.filter fun q => q.number ≠ n := by
  have test : (fun q : FrameRecord => q.number != n) = fun q => decide (q.number ≠ n) := by
    funext q; simp [bne, beq_eq_decide]
  unfold DeckStore.drop
  rw [test]
  cases (k.find n).bind FrameRecord.slot <;> rfl

theorem slots_drop {k : DeckStore} {n : Nat} {r : FrameRecord} (h : k.find n = some r) :
    (∀ i, r.slot = some i → (k.drop n).slots = k.slots.set i.val ⟨false, [], []⟩ i.isLt)
    ∧ (r.slot = none → (k.drop n).slots = k.slots) := by
  constructor
  · intro i hi
    simp only [DeckStore.drop, h, Option.bind_some, hi]
    rfl
  · intro hn
    simp only [DeckStore.drop, h, Option.bind_some, hn]

/-- What a leave keeps of the slots and records: the fate, the newest number and the flow state. -/
theorem rest_drop (k : DeckStore) (n : Nat) : (k.drop n).fate = k.fate ∧ (k.drop n).lastConsumed = k.lastConsumed
    ∧ (k.drop n).flow = k.flow := by
  unfold DeckStore.drop
  cases (k.find n).bind FrameRecord.slot <;> exact ⟨rfl, rfl, rfl⟩

theorem deckStore_ext {a b : DeckStore} (slots : a.slots = b.slots) (records : a.records = b.records) (fate : a.fate = b.fate)
    (lastConsumed : a.lastConsumed = b.lastConsumed) (flow : a.flow = b.flow) : a = b := by
  cases a; cases b; simp_all

theorem dropRecord_eq (s : State) (d : DeckId) (n : Nat) :
    let k := s.deck d
    let store := k.store.drop n
    s.dropRecord d n =
      if k.store.freeCount < 5 ∧ 5 ≤ store.freeCount ∧ k.store.flow = .pauseAsked ∧ k.ctx.state = .scanning then
        s.setDeck d { k with store := { store with flow := .clear }, chan := k.chan.sendFlow .run }
      else s.setDeck d { k with store := store } := by
  have flow := (rest_drop (s.deck d).store n).2.2
  simp only [State.dropRecord, modStore_eq, State.modDeck, deck_setDeck_same, flow, State.flowRequest, modChan_eq,
    setDeck_setDeck, Config.resumeMark]

/-- Deck d after a record left it: the queue and slots without the record, and where a FLOW RUN was asked for the flow state and the channel (R69). -/
theorem deck_dropRecord (s : State) (d : DeckId) (n : Nat) : ∃ chan flow,
    (s.dropRecord d n).deck d =
      { s.deck d with chan := chan, store := { (s.deck d).store.drop n with flow := flow } } := by
  rw [dropRecord_eq]
  split
  · exact ⟨_, _, deck_setDeck_same ..⟩
  · exact ⟨_, _, deck_setDeck_same ..⟩

theorem blocks_dropRecord (s : State) (d : DeckId) (n : Nat) :
    (s.dropRecord d n).dan = s.dan ∧ (s.dropRecord d n).rpe = s.rpe ∧ (s.dropRecord d n).gre = s.gre
    ∧ (s.dropRecord d n).shp = s.shp ∧ (s.dropRecord d n).ali = s.ali := by
  rw [dropRecord_eq]
  split <;> exact ⟨rfl, rfl, rfl, rfl, rfl⟩

theorem ite_eq_filter (a : Option FrameRef) (f : FrameRef) [Decidable (a = some f)] :
    (if a = some f then none else a) = a.filter fun x => x != f := by
  cases a with
  | none => simp
  | some x => by_cases hx : x = f <;> simp [Option.filter, hx]

/-- The state t as the discard of frame n of deck d leaves it before its examinations: the fate told when the frame is the newest (R60), and the
frame given up by both engines (R91, R108, R124). -/
def State.toldDiscard (t : State) (d : DeckId) (n : Nat) : State :=
  let k := t.deck d
  let stays (f : FrameRef) : Bool := f != ⟨d, n⟩
  { t.setDeck d { k with store := { k.store with
      fate := if k.store.lastConsumed = some n then .discarded else k.store.fate } } with
    dan := { t.dan with queue := t.dan.queue.filter stays, active := t.dan.active.filter stays }
    rpe := { t.rpe with queue := t.rpe.queue.filter stays, active := t.rpe.active.filter stays } }

theorem enginesForget_eq_toldDiscard (t : State) (d : DeckId) (n : Nat) :
    ((t.modStore d fun k => if k.lastConsumed = some n then { k with fate := .discarded } else k).enginesForget d n)
      = t.toldDiscard d n := by
  have store (k : DeckStore) : (if k.lastConsumed = some n then { k with fate := .discarded } else k)
      = { k with fate := if k.lastConsumed = some n then .discarded else k.fate } := by split <;> rfl
  simp only [State.enginesForget, modStore_eq, State.modDeck, State.modDan, State.modRpe, store, ite_eq_filter]
  rfl

/-- The discard of a record, step by step (R63): it leaves, what is told, and the examinations of its predecessor and its shot. -/
theorem discard_eq {s : State} {d : DeckId} {n : Nat} {r : FrameRecord} (h : (s.deck d).store.find n = some r) :
    s.discard d n = (((((s.dropRecord d n).toldDiscard d n).decideExamBefore d n).releaseExamBefore d n).completeExam d
      r.shot).emptyHandoff d := by
  simp only [State.discard, h]
  rw [enginesForget_eq_toldDiscard]

theorem discard_gone {s : State} {d : DeckId} {n : Nat} (h : (s.deck d).store.find n = none) : s.discard d n = s := by
  simp [State.discard, h]

theorem emptyHandoff_keeps {s : State} {d : DeckId} (h : ¬ ((s.deck d).store.records = [] ∧ (s.deck d).ctx.state = .draining)) :
    s.emptyHandoff d = s := by
  unfold State.emptyHandoff
  exact if_neg (by simpa using h)

theorem modShp_notify (s : State) (d : DeckId) (body : NoticeBody) (f : Shp → Shp) :
    (s.notify d body).modShp f = (s.modShp f).notify d body := by
  simp only [notify_eq, State.modShp]
  rfl

theorem modShp_setDeck (s : State) (d : DeckId) (k : Deck) (f : Shp → Shp) :
    (s.setDeck d k).modShp f = (s.modShp f).setDeck d k := rfl

/-- The directive that the planning of deck d's reel makes (R164). -/
def State.newDirective (s : State) (d : DeckId) : Directive :=
  let c := (s.deck d).ctx
  let cls := chooseClass s.shp.policies (c.score.getD 0) c.maxShrink
  ⟨none, d, cls, lowestFreePosition cls s.shp.shelf, c.score.getD 0, c.maxShrink, c.interrupted, .onDeck⟩

/-- A planning, in one piece (R164). -/
theorem plan_eq (s : State) (d : DeckId) :
    let k := s.deck d
    let dir := s.newDirective d
    s.plan d = ((s.modShp fun p => { p with
        directives := p.directives ++ [dir], shelf := Shelf.reserve p.shelf dir.position }).setDeck d { k with ctx := { k.ctx with
      storageClass := some dir.storageClass, hasDirective := true, planPending := false } }).notify d
        (.directive .created dir k.ctx.reel) := by
  simp only [State.plan, State.newDirective, State.notifyDirective, State.directiveReel, modCtx_eq, State.modDeck,
    deck_setDeck_same]
  generalize lowestFreePosition _ _ = position
  cases position <;> rfl

/-- An emptied DRAINING deck is handed over: FINISHED with its score, then planned or waiting (R20, R155, R164, R165). -/
theorem emptyHandoff_hands {s : State} {d : DeckId} (records : (s.deck d).store.records = [])
    (draining : (s.deck d).ctx.state = .draining) :
    let k := s.deck d
    let finished : ReelContext := { k.ctx with state := .finished, score := some (scoreOf k.ctx) }
    let cls := chooseClass s.shp.policies (scoreOf k.ctx) k.ctx.maxShrink
    let position := lowestFreePosition cls s.shp.shelf
    let dir : Directive := ⟨none, d, cls, position, scoreOf k.ctx, k.ctx.maxShrink, k.ctx.interrupted, .onDeck⟩
    s.emptyHandoff d =
      if s.shp.directives.length < 16 then
        (((s.modShp fun p => { p with directives := p.directives ++ [dir], shelf := Shelf.reserve p.shelf position }).setDeck d
          { k with ctx := { finished with
            storageClass := some cls, hasDirective := true, planPending := false } }).notify d
              (.contextState .finished k.ctx.reel)).notify d (.directive .created dir k.ctx.reel)
      else
        ((s.modShp fun p => { p with waiting := p.waiting ++ [d] }).setDeck d
          { k with ctx := { finished with planPending := true } }).notify d (.contextState .finished k.ctx.reel) := by
  intro k finished cls position dir
  have entry : s.emptyHandoff d = (s.moveContext d .finished).planFinished d := by
    simp [State.emptyHandoff, records, draining]
  have scored : ((s.moveContext d .finished).modCtx d fun c => { c with score := some (conditionScore c) })
      = (s.setDeck d { k with ctx := finished }).notify d (.contextState .finished k.ctx.reel) := by
    simp only [State.moveContext, modCtx_eq, State.modDeck, deck_setDeck_same, deck_notify, setDeck_notify, setDeck_setDeck,
      conditionScore_eq]
    rfl
  rw [entry, State.planFinished]
  rw [scored, shp_notify]
  refine if_congr Iff.rfl ?_ ?_
  · have made : ((s.setDeck d { k with ctx := finished }).notify d (.contextState .finished k.ctx.reel)).newDirective d = dir := by
      simp only [State.newDirective, deck_notify, deck_setDeck_same, shp_notify]
      rfl
    rw [plan_eq, made, modShp_notify, setDeck_notify _ _ _ _ (by simp), deck_notify, deck_setDeck_same,
      modShp_setDeck, setDeck_setDeck]
  · rw [modCtx_eq, State.modDeck, setDeck_notify _ _ _ _ (by simp), modShp_notify, deck_notify, deck_setDeck_same,
      setDeck_setDeck, modShp_setDeck]

end Sys2Proof.Machine
end

section
namespace Sys2Proof.Machine

/-- Settles O52: each examination by what it asks (releasable_iff, previousReady_iff, nextReady_iff) and what it does. -/
theorem examinationsFollowR66R78AndR106 : Obligations.ExaminationsFollowR66R78AndR106 := by
  intro s d n k shotOf
  refine ⟨fun r hr emitted free => ?_, fun no => ?_, fun r hr => ?_, fun i sh hsh => completeExam_eq hsh, fun r hr => ?_,
    rfl, rfl, discard_gone, fun r hr => ?_, emptyHandoff_keeps, fun cls position empty draining hcls hposition => ?_⟩
  · obtain rfl := find_number hr
    exact releaseExam_frees hr ((releasable_iff _ _).2 ⟨emitted, free⟩)
  · refine releaseExam_keeps fun r hr can => no r hr ?_
    obtain rfl := find_number hr
    exact (releasable_iff _ _).1 can
  · obtain rfl := find_number hr
    intro previous following
    have decidable : k.decidable r = true ↔ r.phase = .analyzed ∧ previous ∧ following := by
      simp only [Deck.decidable, Bool.and_eq_true, beq_iff_eq, previousReady_iff, nextReady_iff, and_assoc]
      rfl
    refine ⟨fun analyzed before after undecided once => ?_, fun no => decideExam_keeps fun q hq => ?_⟩
    · exact decideExam_joins hr (decidable.2 ⟨analyzed, before, after⟩) undecided once
    · obtain rfl : r = q := Option.some.inj (hr.symm.trans hq)
      exact no.imp_left (mt decidable.1)
  · intro store
    obtain ⟨fate, newest, flow⟩ := rest_drop k.store n
    have left : k.store.drop n = store := by
      obtain ⟨held, free⟩ := slots_drop hr
      refine deckStore_ext ?_ (records_drop _ _) fate newest flow
      cases hs : r.slot with
      | some i => simp only [held i hs, store, hs]
      | none => simp only [free hs, store, hs]
    rw [dropRecord_eq, left]
  · obtain ⟨hdan, hrpe, -⟩ := blocks_dropRecord s d n
    rw [discard_eq hr]
    have newest : ((s.dropRecord d n).deck d).store.lastConsumed = k.store.lastConsumed := by
      obtain ⟨chan, flow, hl⟩ := deck_dropRecord s d n
      simp only [hl, (rest_drop _ n).2.1, k]
    simp only [State.toldDiscard, newest, hdan, hrpe]
  · obtain rfl := classRule_unique hcls (chooseClass_rule _ _ _)
    rw [positionRule_unique hposition (lowestFreePosition_rule _ _)]
    exact emptyHandoff_hands empty draining

end Sys2Proof.Machine
end

section
namespace Sys2Proof.Machine

/-! ### Changes of a deck behind a notice -/

theorem moveContext_notified (s : State) (d : DeckId) (k : Deck) (body : NoticeBody) (state : ContextState) :
    ((s.setDeck d k).notify d body).moveContext d state =
      ((s.setDeck d { k with ctx := { k.ctx with state := state } }).notify d body).notify d
        (.contextState state k.ctx.reel) := by
  simp only [moveContext_eq, deck_notify, deck_setDeck_same, setDeck_notify, setDeck_setDeck]

theorem loseBoundReel_eq (s : State) (d : DeckId) :
    s.loseBoundReel d = (s.setDeck d { s.deck d with
      chan := (s.deck d).chan.withdraw [.lockGate]
      ctx := { (s.deck d).ctx with state := .empty, reel := none, profile := none, defaultGrade := none } }).notify d
        (.contextState .empty none) := by
  simp only [State.loseBoundReel, moveContext_eq, modChan_eq, modCtx_eq, State.modDeck, deck_setDeck_same, setDeck_setDeck]
  rfl

/-! ### Sensor changes -/

theorem sense_eq (s : State) (d : DeckId) (sensor : Sensor) (level : Bool) (record : Sensors → Sensors) :
    s.sense d sensor level record = (s.setDeck d { s.deck d with
      chan := { (s.deck d).chan with sensors := record (s.deck d).chan.sensors } }).notify d (.slotEvent sensor level) := rfl

theorem sensorFallen_iff (c : Channel) : c.sensorFallen = true ↔ c.sensors.present = false ∨ c.sensors.gateClosed = false := by
  simp [Channel.sensorFallen]

theorem sensorFaults_iff (c : ContextState) :
    c.sensorFaults = true ↔ c ∈ [ContextState.bound, .scanning, .draining, .finished] := by
  cases c <;> decide

/-- The levels of a deck with present or gateClosed at a new level. -/
def levelsWith (v : Sensors) (ofPresent level : Bool) : Sensors :=
  if ofPresent then { v with present := level } else { v with gateClosed := level }

/-! What a change does to the context, by the context's state (R12, R15, R16, R22). -/

theorem sensorEffect_empty {s : State} {d : DeckId} (h : (s.deck d).ctx.state = .empty) (sensor : Sensor) (level : Bool) :
    s.sensorEffect d sensor level = if (s.deck d).chan.sensorFallen then s else s.moveContext d .loaded := by
  simp only [State.sensorEffect, h]

theorem sensorEffect_loaded {s : State} {d : DeckId} (h : (s.deck d).ctx.state = .loaded) (sensor : Sensor) (level : Bool) :
    s.sensorEffect d sensor level = if level then s else s.moveContext d .empty := by
  simp only [State.sensorEffect, h]

theorem sensorEffect_released {s : State} {d : DeckId} (h : (s.deck d).ctx.state = .released) (sensor : Sensor) (level : Bool) :
    s.sensorEffect d sensor level = if sensor = .present then s.departReleased d else s := by
  simp only [State.sensorEffect, h]

theorem sensorEffect_aborted {s : State} {d : DeckId} (h : (s.deck d).ctx.state = .aborted) (sensor : Sensor) (level : Bool) :
    s.sensorEffect d sensor level = s := by
  simp only [State.sensorEffect, h]

theorem sensorEffect_faulting {s : State} {d : DeckId} (h : (s.deck d).ctx.state.sensorFaults = true) (sensor : Sensor)
    (level : Bool) : s.sensorEffect d sensor level = if level then s else s.sensorFall d := by
  unfold State.sensorEffect
  dsimp only
  split <;> simp_all [ContextState.sensorFaults]

theorem sensorFall_unlocked {s : State} {d : DeckId} (h : (s.deck d).ctx.gateLocked = false) :
    s.sensorFall d = if (s.deck d).ctx.state = .bound then s.loseBoundReel d else s := by
  simp [State.sensorFall, h]

theorem sensorFall_locked {s : State} {d : DeckId} (h : (s.deck d).ctx.gateLocked = true)
    (faults : (s.deck d).ctx.state.sensorFaults = true) :
    s.sensorFall d = if (s.deck d).chan.outstandingIs .unlockGate then s else s.abort d := by
  simp [State.sensorFall, h, faults]

/-- A change of present or gateClosed is seen when the level differs; then it is recorded and reported before what it does to the context (R1). -/
theorem exec_sensorChange (s : State) (d : DeckId) (ofPresent level : Bool) :
    exec (if ofPresent then .presentChange d level else .gateClosedChange d level) s = .next (
      if (if ofPresent then (s.deck d).chan.sensors.present else (s.deck d).chan.sensors.gateClosed) = level then s
      else (s.sense d (if ofPresent then .present else .gateClosed) level fun v => levelsWith v ofPresent level).sensorEffect d
        (if ofPresent then .present else .gateClosed) level) := by
  cases ofPresent
  · show execGateClosedChange d level s = _
    unfold execGateClosedChange
    exact (apply_ite Host.Outcome.next ..).symm
  · show execPresentChange d level s = _
    unfold execPresentChange
    exact (apply_ite Host.Outcome.next ..).symm

/-- Settles O40. -/
theorem sensorChangesFollowR12R15AndR22 : Obligations.SensorChangesFollowR12R15AndR22 := by
  intro s d ofPresent level k event sensor seen levels chan changed base
  have run : exec event s = .next (if seen = level then s else base.sensorEffect d sensor level) := by
    have := exec_sensorChange s d ofPresent level
    rw [sense_eq] at this
    exact this
  have deckBase : base.deck d = { k with chan := chan } := by simp [base, changed]
  refine ⟨fun same => by rw [run, if_pos same], fun differs => ?_⟩
  rw [run, if_neg differs]
  have state : (base.deck d).ctx.state = k.ctx.state := by rw [deckBase]
  have locked : (base.deck d).ctx.gateLocked = k.ctx.gateLocked := by rw [deckBase]
  have seenLevels : (base.deck d).chan.sensors = levels := by rw [deckBase]
  have unlocking : (base.deck d).chan.outstandingIs .unlockGate = k.chan.outstandingIs .unlockGate := by rw [deckBase]; rfl
  have moved (state : ContextState) : base.moveContext d state
      = (changed chan { k.ctx with state := state }).notify d (.contextState state k.ctx.reel) :=
    moveContext_notified s d { k with chan := chan } _ state
  refine ⟨fun h => congrArg _ ?_, fun h => congrArg _ ?_, fun h fall unlocked => congrArg _ ?_, fun h => congrArg _ ?_,
    fun h => congrArg _ (sensorEffect_aborted (state.trans h) _ _), fun h quiet => congrArg _ ?_⟩
  · have fallen : ((base.deck d).chan.sensorFallen = true) ↔ ¬ (levels.present = true ∧ levels.gateClosed = true) := by
      rw [sensorFallen_iff, seenLevels]
      cases levels.present <;> cases levels.gateClosed <;> decide
    rw [sensorEffect_empty (state.trans h), if_congr fallen rfl rfl, ite_not, moved]
  · rw [sensorEffect_loaded (state.trans h), moved]
    cases level <;> rfl
  · have faults : (base.deck d).ctx.state.sensorFaults = true := by rw [state, h]; rfl
    rw [sensorEffect_faulting faults, fall, if_neg (by decide), sensorFall_unlocked (locked.trans unlocked),
      if_pos (state.trans h), loseBoundReel_eq, deckBase]
    simp only [base, changed, setDeck_notify, deck_setDeck_same, withdraw_mask, setDeck_setDeck]
  · rw [sensorEffect_released (state.trans h), departReleased_eq _ _ (state.trans h), seenLevels]
    cases ofPresent <;> cases level <;> rfl
  · have faults : (base.deck d).ctx.state.sensorFaults = true := by rw [state, sensorFaults_iff]; exact h
    rw [sensorEffect_faulting faults]
    rcases quiet with rise | ⟨unlocked, notBound⟩ | ⟨isLocked, isUnlocking⟩
    · rw [if_pos rise]
    · rw [sensorFall_unlocked (locked.trans unlocked), state, if_neg notBound, ite_self]
    · rw [sensorFall_locked (locked.trans isLocked) faults, unlocking, if_pos isUnlocking, ite_self]

end Sys2Proof.Machine
end

section
namespace Sys2Proof.Machine

/-! ### The end of a slot command -/

theorem issueWaiting_free {c : Channel} (h : c.outstanding = none) :
    c.issueWaiting = { c with outstanding := c.waiting.map fun w => ⟨w, c.timeout⟩, waiting := none } := by
  cases hw : c.waiting with
  | none => simp only [Channel.issueWaiting, h, hw, Option.map_none]; rw [← h, ← hw]
  | some w => simp only [Channel.issueWaiting, h, hw, Channel.issue, Option.map_some]

/-- The motion mirror after a command is DONE (R9). -/
def motionAfter (motion : Motion) (cmd : SlotCommand) : Motion :=
  match cmd with
  | .run => .running
  | .pause => .paused
  | .stop => .stopped
  | .powerOff => .stopped
  | _ => motion

theorem channel_mirrorDone_eq (c : Channel) (cmd : SlotCommand) :
    c.mirrorDone cmd = { c with motion := motionAfter c.motion cmd } := by cases cmd <;> rfl

theorem mirrorDone_eq (s : State) (d : DeckId) (cmd : SlotCommand) :
    s.mirrorDone d cmd = s.setDeck d { s.deck d with
      chan := { (s.deck d).chan with motion := motionAfter (s.deck d).chan.motion cmd }
      ctx := (s.deck d).ctx.mirrorDone (s.deck d).chan.sensors.powerFault cmd } := by
  simp only [State.mirrorDone, modChan_eq, modCtx_eq, State.modDeck, deck_setDeck_same, setDeck_setDeck, channel_mirrorDone_eq]

/-- The deck when its outstanding command has ended, its mirrors as the end leaves them (R4 step 1). -/
def Deck.commandOver (k : Deck) (cmd : SlotCommand) (result : CommandResult) : Deck :=
  { k with
    chan := { k.chan with
      outstanding := none, motion := if result = .done then motionAfter k.chan.motion cmd else k.chan.motion }
    ctx := if result = .done then k.ctx.mirrorDone k.chan.sensors.powerFault cmd else k.ctx }

theorem commandOver_eq (s : State) (d : DeckId) (cmd : SlotCommand) (result : CommandResult) :
    (let t := s.modChan d fun c => { c with outstanding := none }
      if result = .done then t.mirrorDone d cmd else t) = s.setDeck d ((s.deck d).commandOver cmd result) := by
  by_cases h : result = .done
  · simp only [h, if_true, mirrorDone_eq, modChan_eq, State.modDeck, deck_setDeck_same, setDeck_setDeck, Deck.commandOver]
  · simp only [h, if_false, modChan_eq, State.modDeck, Deck.commandOver]

/-- The end of a command is its steps (R4): the mirrors, what an UNLOCK_GATE carries out, the notice, the pending command, and the gate
correction. -/
theorem endCommand_eq (s : State) (d : DeckId) (o : Command) (result : CommandResult) :
    s.endCommand d o result =
      (let closed := s.setDeck d ((s.deck d).commandOver o.cmd result)
        let ended := if o.cmd = .unlockGate then closed.unlockEnded d o result else closed
        ((ended.notify d (.slotCommandDone o.cmd o.origin result)).modChan d Channel.issueWaiting).gateCorrection d o.cmd result) := by
  rw [← commandOver_eq]; rfl

/-- The event that ends a command with a result (R3, R4). -/
def endEvent (d : DeckId) (cmd : SlotCommand) : CommandResult → Instr
  | .done => .deckAnswerDone d cmd
  | .fault => .deckAnswerFault d cmd
  | .failed => .commandTimeout d

theorem exec_endEvent_none {s : State} {d : DeckId} (h : (s.deck d).chan.outstanding = none) (cmd : SlotCommand)
    (result : CommandResult) : exec (endEvent d cmd result) s = .next s := by
  have ignored (result : CommandResult) : s.answer d cmd result = s := by simp only [State.answer, h]
  cases result with
  | done => exact congrArg _ (ignored .done)
  | fault => exact congrArg _ (ignored .fault)
  | failed =>
    show execCommandTimeout d s = _
    simp only [execCommandTimeout, h]

/-- An answer that names another command is ignored (R4). -/
theorem exec_endEvent_other {s : State} {d : DeckId} {o : Outstanding} (h : (s.deck d).chan.outstanding = some o)
    {cmd : SlotCommand} (other : o.command.cmd ≠ cmd) {result : CommandResult} (answer : result ≠ .failed) :
    exec (endEvent d cmd result) s = .next s := by
  have ignored (result : CommandResult) : s.answer d cmd result = s := by simp only [State.answer, h, other, if_false]
  cases result with
  | done => exact congrArg _ (ignored .done)
  | fault => exact congrArg _ (ignored .fault)
  | failed => exact absurd rfl answer

/-- An answer ends the outstanding command when it names it; the timer's expiry ends whatever is outstanding (R3, R4). -/
theorem exec_endEvent {s : State} {d : DeckId} {o : Outstanding} (h : (s.deck d).chan.outstanding = some o)
    (result : CommandResult) : exec (endEvent d o.command.cmd result) s = .next (s.endCommand d o.command result) := by
  have answered (result : CommandResult) : s.answer d o.command.cmd result = s.endCommand d o.command result := by
    simp only [State.answer, h, if_true]
  cases result with
  | done => exact congrArg _ (answered .done)
  | fault => exact congrArg _ (answered .fault)
  | failed =>
    show execCommandTimeout d s = _
    simp only [execCommandTimeout, h]

/-- The channel with its gate correction, when one is made (R9). -/
def Deck.corrected (k : Deck) (cmd : SlotCommand) (result : CommandResult) : Channel :=
  if cmd = .lockGate ∧ result = .done ∧ (k.ctx.state = .empty ∨ k.ctx.state = .loaded) then k.chan.sendContext .unlockGate none
  else k.chan

theorem gateCorrection_eq (s : State) (d : DeckId) (cmd : SlotCommand) (result : CommandResult) :
    s.gateCorrection d cmd result = s.setDeck d { s.deck d with chan := (s.deck d).corrected cmd result } := by
  simp only [State.gateCorrection, modChan_eq, State.modDeck, Deck.corrected]
  split
  · rfl
  · exact (setDeck_deck s d).symm

theorem corrected_mask (k : Deck) (cmd : SlotCommand) (result : CommandResult) :
    (k.corrected cmd result).mask = k.chan.mask := by
  unfold Deck.corrected
  split
  · exact sendContext_mask ..
  · rfl

theorem state_mirrorDone (c : ReelContext) (powerFault : Bool) (cmd : SlotCommand) :
    (c.mirrorDone powerFault cmd).state = c.state := by cases cmd <;> cases powerFault <;> rfl

/-- Settles O43. -/
theorem commandEndsFollowR3R4AndR9 : Obligations.CommandEndsFollowR3R4AndR9 := by
  intro s d result cmd k event
  have named : event = endEvent d cmd result := by cases result <;> rfl
  rw [named]
  refine ⟨fun idle => exec_endEvent_none idle cmd result, fun o out other answer => exec_endEvent_other out other answer,
    fun o out same notUnlock => ?_⟩
  intro ctx motion chan correct
  have mirrors : (k.commandOver cmd result).ctx = ctx ∧ (k.commandOver cmd result).chan.motion = motion := by
    by_cases done : result = .done
    · simp only [Deck.commandOver, done, if_true, ctx, motion]
      cases cmd
      case unlockGate => exact absurd rfl notUnlock
      all_goals exact ⟨rfl, rfl⟩
    · simp [Deck.commandOver, done, ctx, motion]
  have state : ctx.state = k.ctx.state := by
    rw [← mirrors.1]
    unfold Deck.commandOver
    split
    · exact state_mirrorDone ..
    · rfl
  have issued : (k.commandOver cmd result).chan.issueWaiting = chan := by
    rw [issueWaiting_free rfl, mirrors.2]
    rfl
  have left : { k.commandOver cmd result with chan := chan } = { k with ctx := ctx, chan := chan } := by
    rw [← mirrors.1]; rfl
  have ends : exec (endEvent d cmd result) s = .next (s.endCommand d o.command result) := by
    rw [← same]; exact exec_endEvent out result
  rw [ends, endCommand_eq]
  simp only [same, notUnlock, if_false, gateCorrection_eq, modChan_eq, State.modDeck, deck_notify, deck_setDeck_same]
  rw [issued, left, setDeck_setDeck, setDeck_notify _ _ _ _ (by rw [deck_setDeck_same]; exact corrected_mask ..), setDeck_setDeck]
  have mirrored : ((s.deck d).commandOver cmd result).ctx = ctx := mirrors.1
  simp only [Deck.corrected, state, mirrored]
  rfl

end Sys2Proof.Machine
end

section
namespace Sys2Proof.Machine

/-! ### What every leave and examination keeps

A leave of a record and the examinations that follow it consist of five steps. A relation between states that is reflexive and transitive and
holds over each of them holds over all that is made of them. -/

/-- A relation that holds over each step of the leaves and examinations of deck d. -/
structure LeaveClosed (R : State → State → Prop) (d : DeckId) : Prop where
  refl : ∀ s, R s s
  trans : ∀ {a b c}, R a b → R b c → R a c
  dropRecord : ∀ s n, R s (s.dropRecord d n)
  emptyHandoff : ∀ s, R s (s.emptyHandoff d)
  decideExam : ∀ s n, R s (s.decideExam d n)
  completeExam : ∀ s i, R s (s.completeExam d i)
  toldDiscard : ∀ s n, R s (s.toldDiscard d n)

section
variable {R : State → State → Prop} {d : DeckId} (closed : LeaveClosed R d)
include closed

theorem LeaveClosed.releaseExam (s : State) (n : Nat) : R s (s.releaseExam d n) := by
  unfold State.releaseExam
  dsimp only
  split
  · split
    · exact closed.trans (closed.dropRecord s n) (closed.emptyHandoff _)
    · exact closed.refl s
  · exact closed.refl s

theorem LeaveClosed.decideExamBefore (s : State) (n : Nat) : R s (s.decideExamBefore d n) := by
  unfold State.decideExamBefore
  split
  · exact closed.refl s
  · exact closed.decideExam s _

theorem LeaveClosed.releaseExamBefore (s : State) (n : Nat) : R s (s.releaseExamBefore d n) := by
  unfold State.releaseExamBefore
  split
  · exact closed.refl s
  · exact closed.releaseExam s _

theorem LeaveClosed.discard (s : State) (n : Nat) : R s (s.discard d n) := by
  cases h : (s.deck d).store.find n with
  | none => rw [discard_gone h]; exact closed.refl s
  | some r =>
    rw [discard_eq h]
    exact closed.trans (closed.trans (closed.trans (closed.trans (closed.trans (closed.dropRecord s n)
      (closed.toldDiscard _ n)) (closed.decideExamBefore _ n)) (closed.releaseExamBefore _ n))
      (closed.completeExam _ r.shot)) (closed.emptyHandoff _)

theorem LeaveClosed.afterClose (s : State) (i last : Nat) : R s (s.afterClose d i last) :=
  closed.trans (closed.trans (closed.releaseExam s last) (closed.decideExam _ last)) (closed.completeExam _ i)

theorem LeaveClosed.foldl {f : State → Nat → State} (h : ∀ s n, R s (f s n)) (l : List Nat) (s : State) :
    R s (l.foldl f s) := by
  induction l generalizing s with
  | nil => exact closed.refl s
  | cons n rest ih => exact closed.trans (h s n) (ih _)

/-- The close of the OPEN shot is a change of the shots and what follows a close (R77). -/
theorem LeaveClosed.closeShotAtEnd
    (shots : ∀ (s : State) (shots : List Shot), R s (s.modTable d fun t => { t with shots := shots })) (s : State) (cut : Bool) :
    R s (s.closeShotAtEnd d cut) := by
  unfold State.closeShotAtEnd
  dsimp only
  split
  · split
    · exact closed.refl s
    · exact iteInduction (motive := R s) (fun _ => shots s _) fun _ =>
        closed.trans (shots s _) (closed.afterClose _ _ _)
  · exact closed.refl s

end

/-! ### Notices and the report queue -/

theorem sameButNotices_trans {a b c : Ali} (h : a.sameButNotices b) (g : b.sameButNotices c) : a.sameButNotices c := by
  unfold Ali.sameButNotices at *
  rw [← g] at h
  exact h

theorem sameButNotices_join (a : Ali) (deck : Option DeckId) (body : NoticeBody) : a.sameButNotices (a.join deck body) := by
  unfold Ali.join
  split
  · rfl
  · split <;> rfl

theorem sameButNotices_notify (s : State) (d : DeckId) (body : NoticeBody) : s.ali.sameButNotices (s.notify d body).ali := by
  rw [ali_notify]
  split
  · exact sameButNotices_join ..
  · rfl

/-! ### The leave's frame -/

/-- Frames of other decks. -/
def otherDecks (d : DeckId) (f : FrameRef) : Bool := f.deck != d

/-- What leaves and examinations of deck d keep of the engines, of the interface and of the deck's queue, beside what LeaveFrame says. -/
structure LeaveRest (d : DeckId) (s t : State) : Prop where
  comparators : t.dan.comparators = s.dan.comparators
  rules : t.rpe.rules = s.rpe.rules
  policies : t.shp.policies = s.shp.policies
  queues : QueuesKept s t d
  analyzing : t.dan.active.filter (otherDecks d) = s.dan.active.filter (otherDecks d)
  repairing : t.rpe.active.filter (otherDecks d) = s.rpe.active.filter (otherDecks d)
  interface : s.ali.sameButNotices t.ali
  records : (t.deck d).store.records.Sublist (s.deck d).store.records
  slots : ∀ i : Fin 8, (s.deck d).store.slots[i] = slotFree → (t.deck d).store.slots[i] = slotFree
  fate : (t.deck d).store.fate = (s.deck d).store.fate ∨ (t.deck d).store.fate = .discarded

/-- A change that touches the engines and the slots and records of deck d not at all. -/
theorem LeaveRest.of_store_eq {d : DeckId} {s t : State} (dan : t.dan = s.dan) (rpe : t.rpe = s.rpe)
    (policies : t.shp.policies = s.shp.policies) (interface : s.ali.sameButNotices t.ali)
    (store : (t.deck d).store = (s.deck d).store) : LeaveRest d s t where
  comparators := by rw [dan]
  rules := by rw [rpe]
  policies := policies
  queues := ⟨by rw [dan], by rw [rpe]⟩
  analyzing := by rw [dan]
  repairing := by rw [rpe]
  interface := interface
  records := by rw [store]
  slots _ := by rw [store]; exact id
  fate := .inl (by rw [store])

theorem leaveRest_refl (d : DeckId) (s : State) : LeaveRest d s s := .of_store_eq rfl rfl rfl rfl rfl

theorem leaveRest_notify (d e : DeckId) (s : State) (body : NoticeBody) : LeaveRest d s (s.notify e body) :=
  .of_store_eq (dan_notify ..) (rpe_notify ..) (by rw [shp_notify]) (sameButNotices_notify ..) (by rw [deck_notify])

/-- A change of deck d that leaves its slots and records alone. -/
theorem leaveRest_setDeck (d : DeckId) (s : State) (k : Deck) (h : k.store = (s.deck d).store) :
    LeaveRest d s (s.setDeck d k) := .of_store_eq rfl rfl rfl rfl (by rw [deck_setDeck_same, h])

/-- A change of the Shelf Planner that leaves its policies alone. -/
theorem leaveRest_modShp (d : DeckId) (s : State) (f : Shp → Shp) (h : (f s.shp).policies = s.shp.policies) :
    LeaveRest d s (s.modShp f) := .of_store_eq rfl rfl h rfl rfl

theorem LeaveRest.trans {d : DeckId} {a b c : State} (h : LeaveRest d a b) (g : LeaveRest d b c) : LeaveRest d a c where
  comparators := g.comparators.trans h.comparators
  rules := g.rules.trans h.rules
  policies := g.policies.trans h.policies
  queues := ⟨g.queues.analysis.trans h.queues.analysis, g.queues.decision.trans h.queues.decision⟩
  analyzing := g.analyzing.trans h.analyzing
  repairing := g.repairing.trans h.repairing
  interface := sameButNotices_trans h.interface g.interface
  records := g.records.trans h.records
  slots i := g.slots i ∘ h.slots i
  fate := by
    rcases g.fate with hg | hg
    · rw [hg]; exact h.fate
    · exact .inr hg

theorem free_drop (k : DeckStore) (n : Nat) (i : Fin 8) (h : k.slots[i] = slotFree) : (k.drop n).slots[i] = slotFree := by
  unfold DeckStore.drop
  cases (k.find n).bind FrameRecord.slot with
  | none => exact h
  | some j =>
    change (k.modSlot j fun _ => slotFree).slots[i] = slotFree
    rw [slots_modSlot]
    split
    · rfl
    · exact h

theorem leaveRest_dropRecord (d : DeckId) (s : State) (n : Nat) : LeaveRest d s (s.dropRecord d n) := by
  obtain ⟨chan, flow, left⟩ := deck_dropRecord s d n
  obtain ⟨dan, rpe, -, shp, ali⟩ := blocks_dropRecord s d n
  refine ⟨by rw [dan], by rw [rpe], by rw [shp], ⟨by rw [dan], by rw [rpe]⟩, by rw [dan], by rw [rpe],
    by rw [ali], ?_, fun i free => ?_, .inl ?_⟩ <;> rw [left]
  · rw [show _ = ((s.deck d).store.drop n).records from rfl, records_drop]
    exact List.filter_sublist
  · exact free_drop _ n i free
  · exact (rest_drop _ n).1

theorem leaveRest_emptyHandoff (d : DeckId) (s : State) : LeaveRest d s (s.emptyHandoff d) := by
  by_cases h : (s.deck d).store.records = [] ∧ (s.deck d).ctx.state = .draining
  · rw [emptyHandoff_hands h.1 h.2]
    split
    · refine .trans ?_ (leaveRest_notify d d _ _)
      refine .trans ?_ (leaveRest_notify d d _ _)
      refine .trans (leaveRest_modShp d s _ ?_) (leaveRest_setDeck d _ _ ?_)
      all_goals dsimp only [deck_modShp]
    · refine .trans ?_ (leaveRest_notify d d _ _)
      refine .trans (leaveRest_modShp d s _ ?_) (leaveRest_setDeck d _ _ ?_)
      all_goals dsimp only [deck_modShp]
  · rw [emptyHandoff_keeps h]
    exact leaveRest_refl d s

theorem leaveRest_decideExam (d : DeckId) (s : State) (n : Nat) : LeaveRest d s (s.decideExam d n) := by
  unfold State.decideExam
  dsimp only
  split
  · split
    · exact ⟨rfl, rfl, rfl, ⟨rfl, by simp⟩, rfl, rfl, rfl, .refl _, fun _ => id, .inl rfl⟩
    · exact leaveRest_refl d s
  · exact leaveRest_refl d s

theorem leaveRest_completeExam (d : DeckId) (s : State) (i : Nat) : LeaveRest d s (s.completeExam d i) := by
  cases h : (s.deck d).table.shots[i]? with
  | none => simp only [State.completeExam, h]; exact leaveRest_refl d s
  | some sh =>
    rw [completeExam_eq h]
    split
    · refine .trans ?_ (leaveRest_notify d d _ _)
      exact leaveRest_setDeck d s _ rfl
    · exact leaveRest_refl d s

theorem leaveRest_toldDiscard (d : DeckId) (s : State) (n : Nat) : LeaveRest d s (s.toldDiscard d n) := by
  have others (f : FrameRef) : (f.deck != d && f != ⟨d, n⟩) = (f.deck != d) := by
    cases f with | mk e m => by_cases h : e = d <;> simp [h]
  have others' (f : FrameRef) : (f != ⟨d, n⟩ && otherDecks d f) = otherDecks d f := by
    rw [Bool.and_comm]; exact others f
  have store : ((s.toldDiscard d n).deck d).store = { (s.deck d).store with
      fate := if (s.deck d).store.lastConsumed = some n then .discarded else (s.deck d).store.fate } := by
    simp only [State.toldDiscard]
    exact congrArg Deck.store (deck_setDeck_same s d _)
  refine ⟨rfl, rfl, rfl, ⟨?_, ?_⟩, ?_, ?_, rfl, ?_, fun i => ?_, ?_⟩
  · simp [State.toldDiscard, List.filter_filter, others]
  · simp [State.toldDiscard, List.filter_filter, others]
  · simp only [State.toldDiscard, Option.filter_filter, others']
  · simp only [State.toldDiscard, Option.filter_filter, others']
  · rw [store]
  · rw [store]; exact id
  · rw [store]
    dsimp only
    split
    · exact .inr rfl
    · exact .inl rfl

theorem leaveRest_closed (d : DeckId) : LeaveClosed (LeaveRest d) d where
  refl := leaveRest_refl d
  trans := .trans
  dropRecord := leaveRest_dropRecord d
  emptyHandoff := leaveRest_emptyHandoff d
  decideExam := leaveRest_decideExam d
  completeExam := leaveRest_completeExam d
  toldDiscard := leaveRest_toldDiscard d

theorem leaveRest_modShots (d : DeckId) (s : State) (shots : List Shot) :
    LeaveRest d s (s.modTable d fun t => { t with shots := shots }) :=
  leaveRest_setDeck d s _ rfl

end Sys2Proof.Machine
end

section
namespace Sys2Proof.Machine

/-! ### Which shots are OPEN -/

/-- For each shot of deck d whether it is OPEN. -/
def openMarks (d : DeckId) (s : State) : List Bool := (s.deck d).table.shots.map fun sh => sh.state == .opened

theorem openMarks_of_table_eq {d : DeckId} {s t : State} (h : (t.deck d).table = (s.deck d).table) :
    openMarks d t = openMarks d s := by rw [openMarks, h]; rfl

theorem deck_emptyHandoff (s : State) (d : DeckId) : ∃ c, (s.emptyHandoff d).deck d = { s.deck d with ctx := c } := by
  by_cases h : (s.deck d).store.records = [] ∧ (s.deck d).ctx.state = .draining
  · rw [emptyHandoff_hands h.1 h.2]
    split
    · exact ⟨_, by rw [deck_notify, deck_notify, deck_setDeck_same]⟩
    · exact ⟨_, by rw [deck_notify, deck_setDeck_same]⟩
  · rw [emptyHandoff_keeps h]
    exact ⟨(s.deck d).ctx, rfl⟩

theorem deck_decideExam (s : State) (d e : DeckId) (n : Nat) : (s.decideExam d n).deck e = s.deck e := by
  unfold State.decideExam
  dsimp only
  split
  · split <;> rfl
  · rfl

theorem deck_completeExam (s : State) (d : DeckId) (i : Nat) :
    ∃ shots, (s.completeExam d i).deck d = { s.deck d with table := { (s.deck d).table with shots := shots } } := by
  cases h : (s.deck d).table.shots[i]? with
  | none => exact ⟨(s.deck d).table.shots, by simp only [State.completeExam, h]⟩
  | some sh =>
    rw [completeExam_eq h]
    split
    · exact ⟨_, by rw [deck_notify, deck_setDeck_same]⟩
    · exact ⟨(s.deck d).table.shots, rfl⟩

theorem deck_toldDiscard (s : State) (d : DeckId) (n : Nat) : (s.toldDiscard d n).deck d = { s.deck d with
    store := { (s.deck d).store with
      fate := if (s.deck d).store.lastConsumed = some n then .discarded else (s.deck d).store.fate } } :=
  deck_setDeck_same s d _

theorem openMarks_completeExam (d : DeckId) (s : State) (i : Nat) : openMarks d (s.completeExam d i) = openMarks d s := by
  cases h : (s.deck d).table.shots[i]? with
  | none => simp only [State.completeExam, h]
  | some sh =>
    rw [completeExam_eq h]
    split
    · next hc =>
      have same : (s.deck d).table.shots.map (fun sh => sh.state == .opened)
          = ((s.deck d).table.shots.set i { sh with state := .complete }).map fun sh => sh.state == .opened := by
        rw [List.map_set]
        obtain ⟨hi, hsh⟩ := List.getElem?_eq_some_iff.1 h
        refine (List.set_getElem_self (by simpa using hi)).symm.trans ?_
        congr 1
        simp [hsh, hc.1]
      simp only [openMarks, deck_notify, deck_setDeck_same]
      exact same.symm
    · rfl

/-- No leave and no examination opens a shot, closes one or takes one away. -/
theorem openMarks_closed (d : DeckId) : LeaveClosed (fun s t => openMarks d t = openMarks d s) d where
  refl _ := rfl
  trans h g := g.trans h
  dropRecord s n := by
    obtain ⟨_, _, h⟩ := deck_dropRecord s d n
    exact openMarks_of_table_eq (by rw [h])
  emptyHandoff s := by
    obtain ⟨_, h⟩ := deck_emptyHandoff s d
    exact openMarks_of_table_eq (by rw [h])
  decideExam s n := openMarks_of_table_eq (by rw [deck_decideExam])
  completeExam := openMarks_completeExam d
  toldDiscard s n := openMarks_of_table_eq (by rw [deck_toldDiscard])

/-- At most one shot is OPEN (R72). -/
def oneOpen (marks : List Bool) : Prop := ∀ i j : Nat, marks[i]? = some true → marks[j]? = some true → i = j

theorem oneOpen_openMarks {d : DeckId} {s : State} (h : ∀ (i j : Nat) x y, (s.deck d).table.shots[i]? = some x →
    (s.deck d).table.shots[j]? = some y → x.state = .opened → y.state = .opened → i = j) : oneOpen (openMarks d s) := by
  intro i j hi hj
  simp only [openMarks, List.getElem?_map, Option.map_eq_some_iff, beq_iff_eq] at hi hj
  obtain ⟨x, hx, ox⟩ := hi
  obtain ⟨y, hy, oy⟩ := hj
  exact h i j x y hx hy ox oy

theorem openMarks_none_iff (d : DeckId) (s : State) :
    true ∉ openMarks d s ↔ ∀ sh ∈ (s.deck d).table.shots, sh.state ≠ .opened := by
  simp [openMarks]

/-- The OPEN shot that a scan leaves, when a frame was consumed, is closed or removed, so that none is OPEN (R77). -/
theorem closeShotAtEnd_noneOpen (s : State) (d : DeckId) (cut : Bool) (consumed : (s.deck d).store.lastConsumed ≠ none)
    (one : oneOpen (openMarks d s)) : true ∉ openMarks d (s.closeShotAtEnd d cut) := by
  obtain ⟨n, hn⟩ := Option.ne_none_iff_exists'.1 consumed
  cases hi : (s.deck d).table.openIndex with
  | none =>
    have noneOpen : true ∉ openMarks d s := by
      rw [openMarks_none_iff]
      simpa [ShotTable.openIndex, List.findIdx?_eq_none_iff] using hi
    simpa only [State.closeShotAtEnd, hi] using noneOpen
  | some i =>
    obtain ⟨hlt, hopen, -⟩ := List.findIdx?_eq_some_iff_getElem.1 hi
    have hsh : (s.deck d).table.shots[i]? = some (s.deck d).table.shots[i] := List.getElem?_eq_getElem hlt
    have here : (openMarks d s)[i]? = some true := by simpa [openMarks, hsh] using hopen
    have gone : true ∉ (openMarks d s).eraseIdx i := fun hm => by
      obtain ⟨j, hne, hj⟩ := List.mem_eraseIdx_iff_getElem?.1 hm
      exact hne (one j i hj here)
    have erased : openMarks d (s.modTable d fun t => { t with shots := t.shots.eraseIdx i }) = (openMarks d s).eraseIdx i := by
      simp only [openMarks, modTable_eq, deck_modDeck_same, List.eraseIdx_map]
    have shut (last : Nat) : openMarks d (s.modTable d fun t => t.modShot i fun sh => sh.closeAt last)
        = (openMarks d s).set i false := by
      simp only [openMarks, modTable_eq, deck_modDeck_same, ShotTable.modShot]
      apply List.ext_getElem?
      intro j
      by_cases hij : i = j
      · subst hij; simp [hlt, Shot.closeAt]
      · simp [hij]
    simp only [State.closeShotAtEnd, hi, hn, hsh]
    refine iteInduction (motive := fun t => true ∉ openMarks d t) (fun _ => ?_) fun _ => ?_
    · rw [erased]; exact gone
    · rw [(openMarks_closed d).afterClose, shut]
      intro hm
      obtain ⟨j, hj⟩ := List.mem_iff_getElem?.1 hm
      by_cases hij : i = j
      · subst hij; simp [List.getElem?_set] at hj
      · rw [List.getElem?_set_ne hij] at hj
        exact hij (one i j here hj)

end Sys2Proof.Machine
end

section
namespace Sys2Proof.Machine

/-! ### What a discard comes to -/

theorem find_none_of_sublist {k k' : DeckStore} (h : k'.records.Sublist k.records) {n : Nat} (none : k.find n = none) :
    k'.find n = .none := by
  simp only [DeckStore.find, List.find?_eq_none] at *
  exact fun r hr => none r (h.subset hr)

/-- A discarded record has gone, its slot is FREE, and the fate is told when it was the newest (R60, R63). -/
theorem discard_effects {s : State} {d : DeckId} {n : Nat} {r : FrameRecord} (h : (s.deck d).store.find n = some r) :
    let t := s.discard d n
    (t.deck d).store.find n = none
    ∧ (∀ i : Fin 8, r.slot = some i → (t.deck d).store.slots[i] = slotFree)
    ∧ ((s.deck d).store.lastConsumed = some n → (t.deck d).store.fate = .discarded) := by
  have closed := leaveRest_closed d
  have examined : LeaveRest d ((s.dropRecord d n).toldDiscard d n) (s.discard d n) := by
    rw [discard_eq h]
    exact closed.trans (closed.trans (closed.trans (closed.decideExamBefore _ n) (closed.releaseExamBefore _ n))
      (closed.completeExam _ r.shot)) (closed.emptyHandoff _)
  obtain ⟨chan, flow, dropped⟩ := deck_dropRecord s d n
  have store : (((s.dropRecord d n).toldDiscard d n).deck d).store = { (s.deck d).store.drop n with
      flow := flow
      fate := if (s.deck d).store.lastConsumed = some n then .discarded else (s.deck d).store.fate } := by
    rw [deck_toldDiscard, dropped]
    simp only [rest_drop]
  refine ⟨find_none_of_sublist examined.records ?_, fun i hi => examined.slots i ?_, fun newest => ?_⟩
  · rw [store]
    simp [DeckStore.find, records_drop]
  · rw [store]
    simp only [(slots_drop h).1 i hi]
    exact Vector.getElem_set_self ..
  · have told : (((s.dropRecord d n).toldDiscard d n).deck d).store.fate = .discarded := by
      rw [store]; exact if_pos newest
    rcases examined.fate with same | discarded
    · exact same.trans told
    · exact discarded

/-! ### The hand-over of a drained reel -/

/-- Deck d, DRAINING in s, is FINISHED in t and its reel is handed over to the Shelf Planner (R20, R155, R164, R165). -/
structure Finished (d : DeckId) (s t : State) : Prop where
  draining : (s.deck d).ctx.state = .draining
  records : (t.deck d).store.records = []
  state : (t.deck d).ctx.state = .finished
  context : { (t.deck d).ctx.unplanned with state := .draining } = { (s.deck d).ctx.unplanned with state := .draining }
  score : (t.deck d).ctx.score = some (scoreOf (s.deck d).ctx)
  handOver : Shp.handedOver s.shp t.shp d (s.deck d).ctx
  planned : if s.shp.directives.length < 16 then
      (t.deck d).ctx.hasDirective = true ∧ (t.deck d).ctx.planPending = false
      ∧ (t.deck d).ctx.storageClass = t.shp.directives.getLast?.map Directive.storageClass
    else (t.deck d).ctx.planPending = true

theorem emptyHandoff_finished {s : State} {d : DeckId} (records : (s.deck d).store.records = [])
    (draining : (s.deck d).ctx.state = .draining) : Finished d s (s.emptyHandoff d) := by
  have handed := emptyHandoff_hands records draining
  dsimp only at handed
  by_cases room : s.shp.directives.length < 16
  · rw [if_pos room] at handed
    have deck := congrArg (fun t => t.deck d) handed
    have shp := congrArg State.shp handed
    simp only [deck_notify, deck_setDeck_same, shp_notify] at deck shp
    constructor
    · exact draining
    · rw [deck]; exact records
    · rw [deck]
    · rw [deck]; rfl
    · rw [deck]
    · unfold Shp.handedOver
      rw [if_pos room]
      exact ⟨_, _, chooseClass_rule _ _ _, lowestFreePosition_rule _ _, shp⟩
    · rw [if_pos room, deck, shp]
      simp [State.modShp, State.setDeck]
  · rw [if_neg room] at handed
    have deck := congrArg (fun t => t.deck d) handed
    have shp := congrArg State.shp handed
    simp only [deck_notify, deck_setDeck_same, shp_notify] at deck shp
    constructor
    · exact draining
    · rw [deck]; exact records
    · rw [deck]
    · rw [deck]; rfl
    · rw [deck]
    · unfold Shp.handedOver
      rw [if_neg room]
      exact shp
    · rw [if_neg room, deck]

/-- Over leaves and examinations of deck d, its context and the Shelf Planner are as they were, or its reel was handed over. -/
def HandedOrKept (d : DeckId) (s t : State) : Prop :=
  (t.deck d).store.records.Sublist (s.deck d).store.records
  ∧ ((t.deck d).ctx = (s.deck d).ctx ∧ t.shp = s.shp ∨ Finished d s t)

theorem HandedOrKept.of_eq {d : DeckId} {s t : State} (records : (t.deck d).store.records.Sublist (s.deck d).store.records)
    (ctx : (t.deck d).ctx = (s.deck d).ctx) (shp : t.shp = s.shp) : HandedOrKept d s t := ⟨records, .inl ⟨ctx, shp⟩⟩

theorem Finished.congr {d : DeckId} {s s' t t' : State} (h : Finished d s t) (ctx : (s'.deck d).ctx = (s.deck d).ctx)
    (shp : s'.shp = s.shp) (records : (t'.deck d).store.records = []) (ctx' : (t'.deck d).ctx = (t.deck d).ctx)
    (shp' : t'.shp = t.shp) : Finished d s' t' := by
  obtain ⟨draining, -, state, context, score, handOver, planned⟩ := h
  exact ⟨by rw [ctx]; exact draining, records, by rw [ctx']; exact state, by rw [ctx, ctx']; exact context,
    by rw [ctx, ctx']; exact score, by rw [shp, shp', ctx]; exact handOver, by rw [shp, shp', ctx']; exact planned⟩

theorem HandedOrKept.trans {d : DeckId} {a b c : State} (h : HandedOrKept d a b) (g : HandedOrKept d b c) :
    HandedOrKept d a c := by
  refine ⟨g.1.trans h.1, ?_⟩
  rcases h.2 with ⟨ctx, shp⟩ | finished <;> rcases g.2 with ⟨ctx', shp'⟩ | finished'
  · exact .inl ⟨ctx'.trans ctx, shp'.trans shp⟩
  · exact .inr (finished'.congr ctx.symm shp.symm finished'.records rfl rfl)
  · have empty : (c.deck d).store.records = [] := List.sublist_nil.1 (finished.records ▸ g.1)
    exact .inr (finished.congr rfl rfl empty ctx' shp')
  · have := finished'.draining
    rw [finished.state] at this
    cases this

theorem handedOrKept_closed (d : DeckId) : LeaveClosed (HandedOrKept d) d where
  refl _ := .of_eq (.refl _) rfl rfl
  trans := .trans
  dropRecord s n := by
    obtain ⟨_, _, h⟩ := deck_dropRecord s d n
    exact .of_eq (leaveRest_dropRecord d s n).records (by rw [h]) (blocks_dropRecord s d n).2.2.2.1
  emptyHandoff s := by
    refine ⟨(leaveRest_emptyHandoff d s).records, ?_⟩
    by_cases h : (s.deck d).store.records = [] ∧ (s.deck d).ctx.state = .draining
    · exact .inr (emptyHandoff_finished h.1 h.2)
    · rw [emptyHandoff_keeps h]; exact .inl ⟨rfl, rfl⟩
  decideExam s n := .of_eq (leaveRest_decideExam d s n).records (by rw [deck_decideExam]) (by
    unfold State.decideExam
    dsimp only
    split
    · split <;> rfl
    · rfl)
  completeExam s i := by
    obtain ⟨_, h⟩ := deck_completeExam s d i
    refine .of_eq (leaveRest_completeExam d s i).records (by rw [h]) ?_
    unfold State.completeExam
    dsimp only
    split
    · split
      · exact shp_notify ..
      · rfl
    · rfl
  toldDiscard s n := .of_eq (leaveRest_toldDiscard d s n).records (by rw [deck_toldDiscard]) rfl

/-- At the end of a drain's examinations: FINISHED and handed over with an empty queue, else as it was (R20). -/
theorem drained {d : DeckId} {s t : State} (h : HandedOrKept d s t) (draining : (s.deck d).ctx.state = .draining) :
    let u := t.emptyHandoff d
    Finished d s u ∨ (u.deck d).store.records ≠ [] ∧ (u.deck d).ctx = (s.deck d).ctx ∧ u.shp = s.shp := by
  intro u
  rcases (h.trans ((handedOrKept_closed d).emptyHandoff t)).2 with ⟨ctx, shp⟩ | finished
  · refine .inr ⟨fun empty => ?_, ctx, shp⟩
    by_cases ht : (t.deck d).store.records = [] ∧ (t.deck d).ctx.state = .draining
    · have := (emptyHandoff_finished ht.1 ht.2).state
      rw [ctx, draining] at this
      cases this
    · have same : t.deck d = u.deck d := (congrArg (fun x => x.deck d) (emptyHandoff_keeps ht)).symm
      exact ht ⟨by rw [same]; exact empty, by rw [same, ctx]; exact draining⟩
  · exact .inl finished

end Sys2Proof.Machine
end

section
namespace Sys2Proof.Machine

/-! ### The phases of a scan's end -/

/-- Deck d with its unit disabled and its flow state CLEAR, as the end of a scan leaves it first. -/
def State.scanIdle (s : State) (d : DeckId) : State :=
  s.setDeck d { s.deck d with rgu := (s.deck d).rgu.disabled, store := { (s.deck d).store with flow := .clear } }

/-- Then the CAPTURING frame is discarded. -/
def State.scanCleared (s : State) (d : DeckId) : State :=
  ((s.deck d).store.numbersOf .capturing).head?.elim (s.scanIdle d) fun n => (s.scanIdle d).discard d n

/-- Then the OPEN shot is closed or removed. -/
def State.scanShut (s : State) (d : DeckId) : State := (s.scanCleared d).closeShotAtEnd d (s.deck d).store.newestCut

/-- Then the channel is as given and the context DRAINING. -/
def State.scanDraining (s : State) (d : DeckId) (chan : Channel) : State :=
  let l := (s.scanShut d).deck d
  ((s.scanShut d).setDeck d { l with chan := chan, ctx := { l.ctx with state := .draining } }).notify d
    (.contextState .draining (s.deck d).ctx.reel)

/-- Deck d's EMITTED records examined for slot release and its ANALYZED ones for decidability (R67, R107). -/
def State.examined (u : State) (d : DeckId) : State :=
  let released := ((u.deck d).store.numbersOf .emitted).foldl (fun t n => t.releaseExam d n) u
  ((released.deck d).store.numbersOf .analyzed).foldl (fun t n => t.decideExam d n) released

theorem scanEnds_eq_phases (s : State) (d : DeckId) (chan : Channel) :
    s.scanEnds d chan = ((s.scanDraining d chan).examined d).emptyHandoff d := by
  unfold State.scanEnds State.examined State.scanDraining State.scanShut State.scanCleared State.scanIdle
  dsimp only
  cases ((s.deck d).store.numbersOf .capturing).head? <;> rfl

theorem deck_scanIdle (s : State) (d : DeckId) : (s.scanIdle d).deck d =
    { s.deck d with rgu := (s.deck d).rgu.disabled, store := { (s.deck d).store with flow := .clear } } :=
  deck_setDeck_same ..

theorem leaveRest_scanIdle (s : State) (d : DeckId) : LeaveRest d s (s.scanIdle d) := by
  refine ⟨rfl, rfl, rfl, ⟨rfl, rfl⟩, rfl, rfl, rfl, ?_, fun i => ?_, .inl ?_⟩ <;> rw [deck_scanIdle]
  exact id

theorem leaveRest_scanCleared (s : State) (d : DeckId) : LeaveRest d (s.scanIdle d) (s.scanCleared d) := by
  unfold State.scanCleared
  cases ((s.deck d).store.numbersOf .capturing).head? with
  | none => exact leaveRest_refl ..
  | some n => exact (leaveRest_closed d).discard _ n

theorem leaveFrame_scanCleared (s : State) (d : DeckId) : LeaveFrame (s.scanIdle d) (s.scanCleared d) d := by
  unfold State.scanCleared
  cases ((s.deck d).store.numbersOf .capturing).head? with
  | none => exact .refl ..
  | some n => exact leaveFrame_discard ..

theorem openMarks_scanCleared (s : State) (d : DeckId) : openMarks d (s.scanCleared d) = openMarks d s := by
  have idle : openMarks d (s.scanIdle d) = openMarks d s := openMarks_of_table_eq (by rw [deck_scanIdle])
  unfold State.scanCleared
  cases ((s.deck d).store.numbersOf .capturing).head? with
  | none => exact idle
  | some n => exact ((openMarks_closed d).discard _ n).trans idle

theorem leaveFrame_scanShut (s : State) (d : DeckId) : LeaveFrame (s.scanIdle d) (s.scanShut d) d :=
  (leaveFrame_scanCleared s d).trans (leaveFrame_closeShotAtEnd ..)

theorem leaveRest_scanShut (s : State) (d : DeckId) : LeaveRest d (s.scanCleared d) (s.scanShut d) :=
  (leaveRest_closed d).closeShotAtEnd (leaveRest_modShots d) _ _

/-- No FLOW RUN is sent and nothing is handed over before the context is DRAINING: the flow state is CLEAR and the context SCANNING (log 14). -/
theorem deck_scanDraining {s : State} {d : DeckId} (h : (s.deck d).ctx.state = .scanning) (chan : Channel) :
    (s.scanDraining d chan).deck d = { (s.scanShut d).deck d with
      chan := chan, ctx := { (s.deck d).ctx with state := .draining } } := by
  have ctx : ((s.scanShut d).deck d).ctx = (s.deck d).ctx := by
    rw [((leaveFrame_scanShut s d).context (by rw [deck_scanIdle]; simp [h])).1, deck_scanIdle]
  simp only [State.scanDraining, deck_notify, deck_setDeck_same, ctx]

theorem leaveRest_scanDraining (s : State) (d : DeckId) (chan : Channel) :
    LeaveRest d (s.scanShut d) (s.scanDraining d chan) := by
  unfold State.scanDraining
  refine .trans ?_ (leaveRest_notify d d _ _)
  exact leaveRest_setDeck d _ _ (by dsimp only)

theorem LeaveClosed.examined {R : State → State → Prop} {d : DeckId} (closed : LeaveClosed R d) (u : State) :
    R u (u.examined d) :=
  closed.trans (closed.foldl closed.releaseExam _ _) (closed.foldl closed.decideExam _ _)

theorem leaveFrame_examined (u : State) (d : DeckId) : LeaveFrame u (u.examined d) d :=
  (LeaveFrame.foldl (fun s n => leaveFrame_releaseExam s d n) _ _).trans
    (LeaveFrame.foldl (fun s n => leaveFrame_decideExam s d n) _ _)

/-- Everything after the discard of the CAPTURING frame keeps the rest of the leaves. -/
theorem leaveRest_scanEnds (s : State) (d : DeckId) (chan : Channel) : LeaveRest d (s.scanCleared d) (s.scanEnds d chan) := by
  have closed := leaveRest_closed d
  rw [scanEnds_eq_phases]
  exact (leaveRest_scanShut s d).trans ((leaveRest_scanDraining s d chan).trans
    (closed.trans (closed.examined _) (closed.emptyHandoff _)))

theorem leaveFrame_scanEnds (s : State) (d : DeckId) (chan : Channel) :
    LeaveFrame (s.scanDraining d chan) (s.scanEnds d chan) d := by
  rw [scanEnds_eq_phases]
  exact (leaveFrame_examined _ d).trans (leaveFrame_emptyHandoff _ d)

/-- The CAPTURING frame has gone, its slot is FREE, and the fate is told when it was the newest (R63). -/
theorem scanEnds_discarded {s : State} {d : DeckId} (chan : Channel) {n : Nat} {r : FrameRecord}
    (first : ((s.deck d).store.numbersOf .capturing).head? = some n) (found : (s.deck d).store.find n = some r) :
    let t := s.scanEnds d chan
    (t.deck d).store.find n = none
    ∧ (∀ i : Fin 8, r.slot = some i → (t.deck d).store.slots[i] = slotFree)
    ∧ ((s.deck d).store.lastConsumed = some n → (t.deck d).store.fate = .discarded) := by
  have later := leaveRest_scanEnds s d chan
  have here : ((s.scanIdle d).deck d).store.find n = some r := by rw [deck_scanIdle]; exact found
  obtain ⟨gone, free, told⟩ := discard_effects here
  have cleared : s.scanCleared d = (s.scanIdle d).discard d n := by rw [State.scanCleared, first]; rfl
  rw [cleared] at later
  refine ⟨find_none_of_sublist later.records gone, fun i hi => later.slots i (free i hi), fun newest => ?_⟩
  have discarded := told (by rw [deck_scanIdle]; exact newest)
  rcases later.fate with same | changed
  · exact same.trans discarded
  · exact changed

/-- No shot is OPEN after the end of a scan that consumed a frame (R77). -/
theorem scanEnds_noneOpen {s : State} {d : DeckId} (chan : Channel) (consumed : (s.deck d).store.lastConsumed ≠ none)
    (one : oneOpen (openMarks d s)) : true ∉ openMarks d (s.scanEnds d chan) := by
  have closed := openMarks_closed d
  have newest : ((s.scanCleared d).deck d).store.lastConsumed = (s.deck d).store.lastConsumed := by
    rw [(leaveFrame_scanCleared s d).lastConsumed, deck_scanIdle]
  have shut : true ∉ openMarks d (s.scanShut d) :=
    closeShotAtEnd_noneOpen _ d _ (newest ▸ consumed) ((openMarks_scanCleared s d).symm ▸ one)
  have draining : openMarks d (s.scanDraining d chan) = openMarks d (s.scanShut d) :=
    openMarks_of_table_eq (by simp [State.scanDraining])
  rw [scanEnds_eq_phases, closed.emptyHandoff, closed.examined, draining]
  exact shut

/-- The Shelf Planner is as before when the context becomes DRAINING. -/
theorem shp_scanDraining {s : State} {d : DeckId} (h : (s.deck d).ctx.state = .scanning) (chan : Channel) :
    (s.scanDraining d chan).shp = s.shp :=
  (shp_notify ..).trans ((leaveFrame_scanShut s d).context (by rw [deck_scanIdle]; simp [h])).2

theorem scanEnds_drained {s : State} {d : DeckId} (h : (s.deck d).ctx.state = .scanning) (chan : Channel) :
    let t := s.scanEnds d chan
    Finished d (s.scanDraining d chan) t
    ∨ (t.deck d).store.records ≠ [] ∧ (t.deck d).ctx = { (s.deck d).ctx with state := .draining } ∧ t.shp = s.shp := by
  have draining := deck_scanDraining h chan
  have ends := drained ((handedOrKept_closed d).examined (s.scanDraining d chan)) (by rw [draining])
  dsimp only at ends ⊢
  rw [← scanEnds_eq_phases, shp_scanDraining h] at ends
  exact ends.imp_right fun ⟨queued, ctx, shp⟩ => ⟨queued, by rw [ctx, draining], shp⟩

/-- A hand-over, seen from the scan whose end it is. -/
theorem Finished.ofScanning {d : DeckId} {u t : State} {c : ReelContext} (h : Finished d u t)
    (draining : (u.deck d).ctx = { c with state := .draining }) :
    { (t.deck d).ctx.unplanned with state := .scanning } = { c.unplanned with state := .scanning }
    ∧ (t.deck d).ctx.score = some (scoreOf c) ∧ Shp.handedOver u.shp t.shp d c := by
  obtain ⟨-, -, -, context, score, handOver, -⟩ := h
  rw [draining] at context score handOver
  exact ⟨congrArg (fun c : ReelContext => { c with state := .scanning }) context, score, handOver⟩

/-- What the end of a scan leaves, by whichever event it came (R18, R19). -/
theorem scanEnds_effects {s : State} {d : DeckId} (h : (s.deck d).ctx.state = .scanning) (chan : Channel) :
    ScanEnded s (s.scanEnds d chan) d chan := by
  have before := leaveFrame_scanShut s d
  have after := leaveFrame_scanEnds s d chan
  have rest := ((leaveRest_scanIdle s d).trans (leaveRest_scanCleared s d)).trans (leaveRest_scanEnds s d chan)
  have idle := deck_scanIdle s d
  have draining := deck_scanDraining h chan
  have shp := shp_scanDraining h chan
  have others (e : DeckId) (he : e ≠ d) : (s.scanDraining d chan).deck e = s.deck e := by
    rw [State.scanDraining, deck_notify, deck_setDeck_ne _ _ he, before.others e he, State.scanIdle, deck_setDeck_ne _ _ he]
  have gre : (s.scanDraining d chan).gre = s.gre := (gre_notify ..).trans before.gre
  have profiles : (s.scanDraining d chan).profiles = s.profiles := (profiles_notify ..).trans before.profiles
  have pending : (s.scanDraining d chan).pending = s.pending := (pending_notify ..).trans before.pending
  have flow : ((s.scanDraining d chan).deck d).store.flow = .clear := by
    rw [draining, (before.flow (by rw [idle]; simp)).2, idle]
  obtain ⟨chanKept, flowKept⟩ := after.flow (by rw [flow]; simp)
  have ends := scanEnds_drained h chan
  have noneOpen := scanEnds_noneOpen (s := s) (d := d) chan
  have discarded n r := scanEnds_discarded (s := s) (d := d) chan (n := n) (r := r)
  generalize hu : s.scanDraining d chan = u at *
  generalize ht : s.scanEnds d chan = t at *
  have context : (u.deck d).ctx = { (s.deck d).ctx with state := .draining } := by rw [draining]
  refine { steps := ht.symm, state := ?_, context := ?_, handOver := ?_, planned := ?_, noHandOver := ?_,
           discarded := discarded, shots := ?_, registration := ?_, flow := flowKept.trans flow,
           channel := ?_, lane := ⟨?_, ?_⟩, map := ?_, cues := ?_, others := fun e he => (after.others e he).trans (others e he),
           tables := ⟨after.profiles.trans profiles, rest.comparators, rest.rules, by rw [after.gre, gre], by rw [after.gre, gre],
             rest.policies⟩,
           snapshot := by rw [after.gre, gre], queues := rest.queues, interface := rest.interface,
           pending := after.pending.trans pending }
  · rcases ends with finished | ⟨queued, ctx, -⟩
    · rw [if_pos finished.records, finished.state]
    · rw [if_neg queued, ctx]
  · rcases ends with finished | ⟨-, ctx, -⟩
    · exact (finished.ofScanning context).1
    · rw [ctx]; rfl
  · intro isFinished
    rcases ends with finished | ⟨-, ctx, -⟩
    · exact shp ▸ (finished.ofScanning context).2
    · rw [ctx] at isFinished; cases isFinished
  · intro isFinished
    rcases ends with finished | ⟨-, ctx, -⟩
    · exact shp ▸ finished.planned
    · rw [ctx] at isFinished; cases isFinished
  · intro isDraining
    rcases ends with finished | ⟨-, -, shp⟩
    · rw [finished.state] at isDraining; cases isDraining
    · exact shp
  · intro consumed one
    exact (openMarks_none_iff ..).1 (noneOpen consumed (oneOpen_openMarks one))
  · rw [after.rgu, draining, before.rgu, idle]
  · rw [chanKept, draining]
  · rw [after.lane.1, draining, before.lane.1, idle]
  · rw [after.lane.2, draining, before.lane.2, idle]
  · rw [after.map, draining, before.map, idle]
  · rw [after.cues, draining, before.cues, idle]

end Sys2Proof.Machine
end

section
namespace Sys2Proof.Machine

theorem kind_of_readMark {f : LaneFrame} {n : Nat} (h : readMark f = some n) : f.kind = markKind := by
  unfold readMark at h
  split at h
  · next hc => simp_all
  · cases h

theorem laneParcel_notScanning {s : State} {d : DeckId} (h : (s.deck d).ctx.state ≠ .scanning) (f : LaneFrame) :
    s.laneParcel d f = s := if_pos h

/-- A TAIL mark in a scan ends it (R18, R32). -/
theorem laneParcel_tail {s : State} {d : DeckId} {f : LaneFrame} (h : (s.deck d).ctx.state = .scanning)
    (tail : readMark f = some 2) : s.laneParcel d f = s.endScan d := by
  have kind := kind_of_readMark tail
  have mark : s.takeMark d f = s.endScan d := by simp only [State.takeMark, tail]
  rw [State.laneParcel, if_neg (not_not.2 h), if_neg (by rw [kind]; decide), if_neg (by rw [kind]; decide), if_pos kind, mark]

theorem endScan_effects {s : State} {d : DeckId} (h : (s.deck d).ctx.state = .scanning) :
    ScanEnded s (s.endScan d) d (((s.deck d).chan.withdraw [.run, .pause]).sendContext .stop none) := by
  rw [endScan_eq s d h]
  exact scanEnds_effects h _

/-- Settles O10: both events come to endScan, whose effects scanEnds_effects says. -/
theorem endScanAndTailFollowR18 : Obligations.EndScanAndTailFollowR18 := by
  intro s d k chan
  constructor
  · intro tag rest p h
    have run : exec .endScan s = .next (if k.ctx.state ≠ .scanning then s.refused p rest .badState
        else (s.answered p rest .ok .none).endScan d) := by
      have run : exec .endScan s = execEndScan s := rfl
      rw [run, execEndScan, takeDeckRequest_delivered h rfl rfl rfl, replyOk_afterTake]
      exact congrArg _ (if_congr Iff.rfl (refuse_afterTake s p rest _) rfl)
    refine ⟨fun other => by rw [run, if_pos other], fun scanning => ?_⟩
    rw [run, if_neg (not_not.2 scanning)]
    have ended := endScan_effects (s := s.answered p rest .ok .none) (d := d) scanning
    rw [deck_answered] at ended
    exact ⟨_, rfl, ended⟩
  · intro frame empty fits tail
    have run : exec (.tail d frame.bytes) s = .next (s.laneArrive d frame.bytes) := rfl
    rw [run]
    refine ⟨fun dropped => congrArg _ ?_, fun up scanning => ⟨_, rfl, ?_⟩⟩
    · by_cases up : k.lane = .up
      · rw [laneArrive_frame s d frame up empty fits, laneParcel_notScanning fun scanning => dropped ⟨up, scanning⟩]
      · exact laneArrive_notUp s d frame.bytes up
    · rw [laneArrive_frame s d frame up empty fits, laneParcel_tail scanning tail]
      exact endScan_effects scanning

/-! ### powerFault and the attention button -/

theorem losePower_eq (s : State) (d : DeckId) : s.losePower d = s.setDeck d { s.deck d with
    ctx := { (s.deck d).ctx with powerOn := false }, chan := { (s.deck d).chan with motion := .stopped } } := by
  simp only [State.losePower, modChan_eq, modCtx_eq, State.modDeck, deck_setDeck_same, setDeck_setDeck]

/-- A scan that loses its power is interrupted and ends with RUN and PAUSE withdrawn, without a STOP (R19). -/
theorem powerFaultDrain_eq {s : State} {d : DeckId} (h : (s.deck d).ctx.state = .scanning) :
    s.powerFaultDrain d =
      (s.setDeck d { s.deck d with ctx := { (s.deck d).ctx with interrupted := true } }).scanEnds d
        ((s.deck d).chan.withdraw [.run, .pause]) := by
  have scanning : ((s.setDeck d { s.deck d with ctx := { (s.deck d).ctx with interrupted := true } }).deck d).ctx.state
      = .scanning := by rw [deck_setDeck_same]; exact h
  have ends := scanEnds_eq _ d (fun c => c.withdraw [.run, .pause]) scanning
  rw [deck_setDeck_same] at ends
  rw [← ends, State.powerFaultDrain, modCtx_eq, State.modDeck]

theorem sendContext_sensors (c : Channel) (v : Sensors) (cmd : SlotCommand) (release : Option ReleaseFrom) :
    { c with sensors := v }.sendContext cmd release = { c.sendContext cmd release with sensors := v } := by
  simp only [Channel.sendContext, Channel.issue]
  split <;> rfl

/-- Settles O42: the drain of a power fault is the end of a scan with another channel (powerFaultDrain_eq). -/
theorem powerFaultAndAttentionFollowR10R19AndR21 : Obligations.PowerFaultAndAttentionFollowR10R19AndR21 := by
  intro s d k off rise drain pressed
  have lost : (s.sense d .powerFault true fun v => { v with powerFault := true }).losePower d = rise := by
    rw [losePower_eq, sense_eq, setDeck_notify _ _ _ _ (by simp), deck_notify, deck_setDeck_same, setDeck_setDeck]
  have deckRise : rise.deck d = off := by simp only [rise, deck_notify, deck_setDeck_same]
  have rises (level : k.chan.sensors.powerFault = false) : exec (.powerFaultRise d) s
      = .next (if k.ctx.state = .scanning then rise.powerFaultDrain d else rise) := by
    have run : exec (.powerFaultRise d) s = execPowerFaultRise d s := rfl
    rw [run, execPowerFaultRise, if_neg (by rw [level]; decide)]
    dsimp only
    rw [lost, deckRise]
  refine ⟨fun level => if_pos level, fun level other => by rw [rises level, if_neg other], fun level scanning => ?_, ?_, ?_, rfl⟩
  · have drains : rise.powerFaultDrain d = drain.scanEnds d (off.chan.withdraw [.run, .pause]) := by
      rw [powerFaultDrain_eq (by rw [deckRise]; exact scanning), deckRise, setDeck_notify _ _ _ _ (by simp [off]), setDeck_setDeck]
    rw [rises level, if_pos scanning, drains]
    refine ⟨_, rfl, scanEnds_effects ?_ _⟩
    simp only [drain, deck_notify, deck_setDeck_same]
    exact scanning
  · exact (apply_ite Host.Outcome.next ..).symm
  · have run : exec (.attentionPress d) s = execAttentionPress d s := rfl
    have seen : s.sense d .attention true (fun v => { v with attention := true }) = pressed k.chan := sense_eq ..
    have deckPressed : (pressed k.chan).deck d = { k with chan := { k.chan with
        sensors := { k.chan.sensors with attention := true } } } := by simp only [pressed, deck_notify, deck_setDeck_same]
    have free : (k.chan.releaseBusy = false) ↔ ¬ k.chan.releasing := by rw [← releaseBusy_iff, Bool.not_eq_true]
    have released (finished : k.ctx.state = .finished) :
        (pressed k.chan).releaseReel d = pressed (k.chan.sendContext .unlockGate (some .finished)) := by
      rw [releaseReel_finished (by rw [deckPressed]; exact finished), deckPressed]
      simp only [pressed, setDeck_notify, deck_setDeck_same, sendContext_mask, setDeck_setDeck, sendContext_sensors]
    rw [run, execAttentionPress, seen]
    refine (apply_ite Host.Outcome.next ..).symm.trans (congrArg _ (if_congr Iff.rfl rfl ?_))
    rw [deckPressed]
    by_cases finished : k.ctx.state = .finished
    · rw [released finished]
      refine if_congr ?_ rfl rfl
      rw [Bool.not_eq_true', ← free]
      rfl
    · rw [if_neg fun c => finished c.1, if_neg fun c => finished c.1]

end Sys2Proof.Machine
end

section
namespace Sys2Proof.Machine

/-! ### What the Shelf Planner's steps keep -/

/-- Deck e has its place in the plan waiting list, or no plan of it is pending. -/
def State.listed (s : State) (e : DeckId) : Prop := e ∈ s.shp.waiting ∨ (s.deck e).ctx.planPending = false

/-- What the planner's steps keep of all that is not its own. -/
structure PlanFrame (s t : State) : Prop where
  decks : ∀ e, { t.deck e with ctx := (t.deck e).ctx.unplanned } = { s.deck e with ctx := (s.deck e).ctx.unplanned }
  score : ∀ e, (t.deck e).ctx.score = (s.deck e).ctx.score
  listed : ∀ e, s.listed e → t.listed e
  profiles : t.profiles = s.profiles
  dan : t.dan = s.dan
  rpe : t.rpe = s.rpe
  gre : t.gre = s.gre
  policies : t.shp.policies = s.shp.policies
  interface : s.ali.sameButNotices t.ali
  pending : t.pending = s.pending

theorem planFrame_refl (s : State) : PlanFrame s s :=
  ⟨fun _ => rfl, fun _ => rfl, fun _ => id, rfl, rfl, rfl, rfl, rfl, rfl, rfl⟩

theorem PlanFrame.trans {a b c : State} (h : PlanFrame a b) (g : PlanFrame b c) : PlanFrame a c where
  decks e := (g.decks e).trans (h.decks e)
  score e := (g.score e).trans (h.score e)
  listed e := g.listed e ∘ h.listed e
  profiles := g.profiles.trans h.profiles
  dan := g.dan.trans h.dan
  rpe := g.rpe.trans h.rpe
  gre := g.gre.trans h.gre
  policies := g.policies.trans h.policies
  interface := sameButNotices_trans h.interface g.interface
  pending := g.pending.trans h.pending

theorem planFrame_notify (s : State) (d : DeckId) (body : NoticeBody) : PlanFrame s (s.notify d body) where
  decks e := by rw [deck_notify]
  score e := by rw [deck_notify]
  listed _ := by unfold State.listed; rw [deck_notify, shp_notify]; exact id
  profiles := profiles_notify ..
  dan := dan_notify ..
  rpe := rpe_notify ..
  gre := gre_notify ..
  policies := by rw [shp_notify]
  interface := sameButNotices_notify ..
  pending := pending_notify ..

/-- A change of the planner's tables that keeps the policies and the waiting list. -/
theorem planFrame_modShp (s : State) (f : Shp → Shp) (policies : (f s.shp).policies = s.shp.policies)
    (waiting : (f s.shp).waiting = s.shp.waiting) : PlanFrame s (s.modShp f) where
  decks _ := rfl
  score _ := rfl
  listed _ h := h.imp_left fun h => waiting.symm ▸ h
  profiles := rfl
  dan := rfl
  rpe := rfl
  gre := rfl
  policies := policies
  interface := rfl
  pending := rfl

/-- A change of what the planner has of deck d's context, in which d may leave the waiting list. -/
theorem planFrame_plan (s : State) (d : DeckId) (p : Shp) (c : ReelContext) (policies : p.policies = s.shp.policies)
    (unplanned : c.unplanned = (s.deck d).ctx.unplanned) (score : c.score = (s.deck d).ctx.score)
    (waiting : ∀ e ∈ s.shp.waiting, e ∈ p.waiting ∨ e = d ∧ c.planPending = false)
    (planPending : (s.deck d).ctx.planPending = false → c.planPending = false) :
    PlanFrame s ((s.modShp fun _ => p).setDeck d { s.deck d with ctx := c }) where
  decks e := by
    by_cases he : e = d
    · subst he; rw [deck_setDeck_same, unplanned]
    · rw [deck_setDeck_ne _ _ he]; rfl
  score e := by
    by_cases he : e = d
    · subst he; rw [deck_setDeck_same, score]
    · rw [deck_setDeck_ne _ _ he]; rfl
  listed e h := by
    unfold State.listed at *
    by_cases he : e = d
    · subst he
      rw [deck_setDeck_same]
      rcases h with h | h
      · exact (waiting e h).imp_right And.right
      · exact .inr (planPending h)
    · rw [deck_setDeck_ne _ _ he]
      exact h.imp_left fun h => (waiting e h).resolve_right fun c => he c.1
  profiles := rfl
  dan := rfl
  rpe := rfl
  gre := rfl
  policies := policies
  interface := rfl
  pending := rfl

/-- The assignment pass gives positions and says so (R163). -/
theorem planFrame_assignmentPass (s : State) : PlanFrame s s.assignmentPass := by
  have told (l : List Directive) (u : State) :
      PlanFrame u (l.foldl (fun s dir => s.notifyDirective .positioned dir (s.directiveReel dir)) u) := by
    induction l generalizing u with
    | nil => exact planFrame_refl u
    | cons dir rest ih => exact (planFrame_notify u _ _).trans (ih _)
  exact (planFrame_modShp s _ (by rfl) (by rfl)).trans (told _ _)

theorem shp_assignmentPass (s : State) : s.assignmentPass.shp =
    let a := assign s.shp.directives s.shp.shelf
    { s.shp with directives := a.directives, shelf := a.shelf } := by
  unfold State.assignmentPass
  rw [shp_foldl_notify (fun s dir => s.directiveReel dir)]
  rfl

theorem planHead_none {s : State} (h : s.shp.waiting = []) : s.planHead = s := by
  simp only [State.planHead, h]

theorem planHead_next {s : State} {d : DeckId} {rest : List DeckId} (h : s.shp.waiting = d :: rest) :
    s.planHead = (s.modShp fun p => { p with waiting := rest }).plan d := by
  simp only [State.planHead, h]

theorem planFrame_planHead (s : State) : PlanFrame s s.planHead := by
  cases h : s.shp.waiting with
  | nil => rw [planHead_none h]; exact planFrame_refl s
  | cons d rest =>
    rw [planHead_next h, plan_eq]
    generalize (s.modShp fun p => { p with waiting := rest }).newDirective d = dir
    refine .trans ?_ (planFrame_notify _ d _)
    refine planFrame_plan s d { s.shp with
      waiting := rest, directives := s.shp.directives ++ [dir], shelf := Shelf.reserve s.shp.shelf dir.position } _ ?_ ?_ ?_ ?_ ?_
    · dsimp only
    · rfl
    · rfl
    · intro e he
      rw [h] at he
      exact (List.mem_cons.1 he).symm.imp_right fun same => ⟨same, by dsimp only⟩
    · exact fun _ => by dsimp only

theorem planFrame_leaveQueue (s : State) (place : Nat) (dir : Directive) (occupant : Option ReelId) (event : DirectiveEvent) :
    PlanFrame s (s.leaveQueue place dir occupant event) := by
  unfold State.leaveQueue
  dsimp only
  refine .trans ?_ (planFrame_planHead _)
  refine .trans ?_ (planFrame_notify _ _ _)
  have vacated := planFrame_modShp s (fun p =>
    { p with shelf := vacate p.shelf dir occupant, directives := p.directives.eraseIdx place }) rfl rfl
  exact iteInduction (motive := PlanFrame s) (fun _ => vacated.trans (planFrame_assignmentPass _)) fun _ => vacated

/-! ### An abort's plan -/

/-- Deck d's directive is cancelled, when it has one (R171). -/
def State.cancelPlan (s : State) (d : DeckId) : State :=
  if (s.deck d).ctx.hasDirective then
    let left :=
      match s.shp.directives.findIdx? (Directive.isOnDeck d) with
      | some i =>
        match s.shp.directives[i]? with
        | some dir => s.leaveQueue i dir none .cancelled
        | none => s
      | none => s
    left.modCtx d fun c => { c with hasDirective := false }
  else s

/-- Deck d's place in the plan waiting list is taken away, when it has one (R171). -/
def State.unlistPlan (s : State) (d : DeckId) : State :=
  if d ∈ s.shp.waiting then
    (s.modShp fun p => { p with waiting := p.waiting.filter fun e => e != d }).modCtx d fun c => { c with planPending := false }
  else s

theorem abortPlan_eq (s : State) (d : DeckId) : s.abortPlan d = (s.cancelPlan d).unlistPlan d := rfl

theorem planFrame_cancelPlan (s : State) (d : DeckId) : PlanFrame s (s.cancelPlan d) := by
  have undirected (u : State) : PlanFrame u (u.modCtx d fun c => { c with hasDirective := false }) :=
    planFrame_plan u d u.shp _ rfl rfl rfl (fun _ => .inl) id
  unfold State.cancelPlan
  split
  · refine .trans ?_ (undirected _)
    split
    · split
      · exact planFrame_leaveQueue ..
      · exact planFrame_refl s
    · exact planFrame_refl s
  · exact planFrame_refl s

theorem planFrame_unlistPlan (s : State) (d : DeckId) : PlanFrame s (s.unlistPlan d) := by
  unfold State.unlistPlan
  split
  · refine planFrame_plan s d { s.shp with waiting := s.shp.waiting.filter fun e => e != d } _ rfl rfl rfl (fun e he => ?_)
      fun _ => rfl
    by_cases same : e = d
    · exact .inr ⟨same, rfl⟩
    · exact .inl (by simp [he, same])
  · exact planFrame_refl s

theorem planFrame_abortPlan (s : State) (d : DeckId) : PlanFrame s (s.abortPlan d) := by
  rw [abortPlan_eq]
  exact (planFrame_cancelPlan s d).trans (planFrame_unlistPlan _ d)

theorem hasDirective_cancelPlan (s : State) (d : DeckId) : ((s.cancelPlan d).deck d).ctx.hasDirective = false := by
  unfold State.cancelPlan
  split
  · simp
  · next h => simpa using h

theorem unlistPlan_effects (s : State) (d : DeckId) :
    d ∉ (s.unlistPlan d).shp.waiting ∧ ((s.unlistPlan d).deck d).ctx.hasDirective = (s.deck d).ctx.hasDirective := by
  unfold State.unlistPlan
  split
  · exact ⟨by simp [State.modShp, State.modCtx, State.modDeck, State.setDeck], by simp⟩
  · next h => exact ⟨h, rfl⟩

/-- No directive names deck d afterwards, and it has no place in the waiting list nor a plan pending that it had there (R171). -/
theorem abortPlan_effects (s : State) (d : DeckId) :
    let t := s.abortPlan d
    (t.deck d).ctx.hasDirective = false ∧ (d ∈ s.shp.waiting → d ∉ t.shp.waiting ∧ (t.deck d).ctx.planPending = false) := by
  have frame := planFrame_abortPlan s d
  dsimp only
  rw [abortPlan_eq] at *
  obtain ⟨unlisted, directive⟩ := unlistPlan_effects (s.cancelPlan d) d
  exact ⟨directive.trans (hasDirective_cancelPlan s d), fun listed =>
    ⟨unlisted, (frame.listed d (.inl listed)).resolve_left unlisted⟩⟩

/-- Without a directive and a place in the waiting list there is nothing to plan. -/
theorem abortPlan_keeps {s : State} {d : DeckId} (directive : (s.deck d).ctx.hasDirective = false) (unlisted : d ∉ s.shp.waiting) :
    s.abortPlan d = s := by
  have same : s.cancelPlan d = s := if_neg (by rw [directive]; decide)
  rw [abortPlan_eq, same]
  exact if_neg unlisted

theorem vacate_freed (shelf : Shelf) (dir : Directive) : vacate shelf dir none = Shelf.freed shelf dir.position := by
  unfold vacate Shelf.freed
  cases dir.position <;> rfl

/-- The planner without the directive at a place of the queue, its position FREE. -/
def State.unqueued (s : State) (place : Nat) (dir : Directive) : State :=
  { s with shp := { s.shp with
    directives := s.shp.directives.eraseIdx place, shelf := Shelf.freed s.shp.shelf dir.position } }

/-- A directive leaves the queue, its position freed for the next pass; with no plan waiting that is all (R170). -/
theorem shp_leaveQueue {s : State} (idle : s.shp.waiting = []) (place : Nat) (dir : Directive) (event : DirectiveEvent) :
    (s.leaveQueue place dir none event).shp =
      (if dir.position = none then s.unqueued place dir else (s.unqueued place dir).assignmentPass).shp := by
  have unlisted : (if dir.position = none then s.unqueued place dir else (s.unqueued place dir).assignmentPass).shp.waiting = [] := by
    split
    · exact idle
    · rw [shp_assignmentPass]; exact idle
  have given : (dir.position.isSome && (none : Option ReelId).isNone) = true ↔ ¬ dir.position = none := by
    simp [Option.isSome_iff_ne_none]
  unfold State.leaveQueue State.notifyDirective
  simp only [vacate_freed]
  rw [if_congr given rfl rfl, ite_not]
  change (((if dir.position = none then s.unqueued place dir else (s.unqueued place dir).assignmentPass).notify _ _).planHead).shp = _
  rw [planHead_none (by rw [shp_notify]; exact unlisted), shp_notify]

theorem findIdx?_isOnDeck {d : DeckId} {before after : List Directive} {dir : Directive} (onDeck : dir.phase = .onDeck)
    (source : dir.source = d) (first : ∀ e ∈ before, ¬ (e.phase = .onDeck ∧ e.source = d)) :
    (before ++ dir :: after).findIdx? (Directive.isOnDeck d) = some before.length := by
  have none : before.findIdx? (Directive.isOnDeck d) = none := by
    simpa [List.findIdx?_eq_none_iff, Directive.isOnDeck] using first
  simp [List.findIdx?_append, none, List.findIdx?_cons, Directive.isOnDeck, onDeck, source]

/-- The directive of deck d leaves the queue (R171). -/
theorem abortPlan_cancels {s : State} {d : DeckId} (directive : (s.deck d).ctx.hasDirective = true) (idle : s.shp.waiting = [])
    {before after : List Directive} {dir : Directive} (split : s.shp.directives = before ++ dir :: after)
    (onDeck : dir.phase = .onDeck) (source : dir.source = d) (first : ∀ e ∈ before, ¬ (e.phase = .onDeck ∧ e.source = d)) :
    (s.abortPlan d).shp =
      (if dir.position = none then { s with shp := { s.shp with directives := before ++ after } }
      else { s with shp := { s.shp with
        directives := before ++ after, shelf := Shelf.freed s.shp.shelf dir.position } }.assignmentPass).shp := by
  have place : s.shp.directives.findIdx? (Directive.isOnDeck d) = some before.length := by
    rw [split]; exact findIdx?_isOnDeck onDeck source first
  have found : s.shp.directives[before.length]? = some dir := by simp [split]
  have erased : s.shp.directives.eraseIdx before.length = before ++ after := by simp [split, List.eraseIdx_append]
  have cancelled : s.cancelPlan d = (s.leaveQueue before.length dir none .cancelled).modCtx d fun c =>
      { c with hasDirective := false } := by
    simp only [State.cancelPlan, directive, if_true, place, found]
  have left := shp_leaveQueue idle before.length dir .cancelled
  rw [State.unqueued, erased] at left
  have unlisted : (s.cancelPlan d).shp.waiting = [] := by
    rw [cancelled]
    show (s.leaveQueue before.length dir none .cancelled).shp.waiting = []
    rw [left]
    split_ifs
    · exact idle
    · rw [shp_assignmentPass]; exact idle
  have kept : (s.cancelPlan d).unlistPlan d = s.cancelPlan d := if_neg (by rw [unlisted]; exact List.not_mem_nil)
  rw [abortPlan_eq, kept, cancelled]
  show (s.leaveQueue before.length dir none .cancelled).shp = _
  rw [left]
  cases dir.position <;> rfl

end Sys2Proof.Machine
end

section
namespace Sys2Proof.Machine

/-! ### The cut-off of an emission -/

theorem dropDeck_eq (g : Gre) (d : DeckId) : g.dropDeck d = { g with snapshot := g.snapshot.filter fun n => n.deck != d } := by
  obtain ⟨grades, curves, snapshot⟩ := g
  cases snapshot with
  | none => rfl
  | some n => by_cases h : n.deck = d <;> simp [Gre.dropDeck, Option.filter, h]

theorem trailerOnWire_iff (a : Ali) : a.trailerOnWire = true ↔ ∃ x, a.wire = some (.trailer x) := by
  unfold Ali.trailerOnWire
  split
  · next x h => simp [h]
  · next h => simpa using h

theorem linesInFlight_picture {a : Ali} {q : Picture} (h : a.wire = some (.picture q)) :
    a.linesInFlight = some q.lines.length := by
  simp only [Ali.linesInFlight, h]

/-- A trailer of the emission is being sent, so that its cut-off only voids it (R191). -/
def Ali.completes (a : Ali) (e : Emission) : Prop := e.sending = true ∧ ∃ x, a.wire = some (.trailer x)

theorem completes_iff (a : Ali) (e : Emission) : (e.sending && a.trailerOnWire) = true ↔ a.completes e := by
  rw [Bool.and_eq_true, trailerOnWire_iff]; rfl

theorem cutOff_trailer {a : Ali} {e : Emission} (h : a.completes e) (k : Deck) :
    a.cutOff k e = { a with emission := some { e with voided := true } } := if_pos ((completes_iff a e).2 h)

theorem cutOff_overrun {a : Ali} {e : Emission} (h : ¬ a.completes e) (overrun : e.overrun = true) (k : Deck) :
    a.cutOff k e = { a with emission := none } :=
  (if_neg (mt (completes_iff a e).1 h)).trans (if_pos overrun)

theorem cutOff_full {a : Ali} {e : Emission} (h : ¬ a.completes e) (full : e.overrun = false) {k : Deck} {r : FrameRecord}
    (found : k.store.find e.frame = some r) :
    a.cutOff k e = { a with emission := none, aborted := some (a.abortedWait e k.ctx.reel r) } := by
  rw [Ali.cutOff, if_neg (mt (completes_iff a e).1 h), full, found, if_neg (by decide)]

/-- A cut-off is of the emission and of the waiting aborted trailer only. -/
theorem sameButNotices_cutOff (a : Ali) (k : Deck) (e : Emission) :
    a.sameButNotices { a.cutOff k e with emission := a.emission, aborted := a.aborted } := by
  unfold Ali.cutOff
  split
  · rfl
  · split
    · rfl
    · split <;> rfl

/-- The queue of deck k when its emission is cut off: the record of a full frame has the aborted flag. -/
def Deck.recordCut (k : Deck) (e : Emission) : DeckStore :=
  if e.overrun then k.store else k.store.update e.frame fun r => { r with flags := { r.flags with aborted := true } }

/-- An emission of another deck, or none, is left alone. -/
theorem cutOff_other {s : State} {d : DeckId} (h : ∀ e ∈ s.ali.emission, e.deck ≠ d) :
    s.cutOff d = { s with gre := s.gre.dropDeck d } := by
  unfold State.cutOff
  cases he : s.ali.emission with
  | none => simp only [State.modGre, he]
  | some e => simp only [State.modGre, he, h e he, if_false]

theorem cutOff_own {s : State} {d : DeckId} {e : Emission} (he : s.ali.emission = some e) (own : e.deck = d) :
    s.cutOff d = { s.setDeck d { s.deck d with store := (s.deck d).recordCut e } with
      gre := s.gre.dropDeck d, ali := s.ali.cutOff (s.deck d) e } := by
  unfold State.cutOff
  simp only [State.modGre, he, own, if_true]
  rfl

/-- What a cut-off leaves alone. -/
structure CutFrame (d : DeckId) (s t : State) : Prop where
  others : ∀ e, e ≠ d → t.deck e = s.deck e
  profiles : t.profiles = s.profiles
  dan : t.dan = s.dan
  rpe : t.rpe = s.rpe
  gre : t.gre = s.gre.dropDeck d
  shp : t.shp = s.shp
  pending : t.pending = s.pending
  deck : ∃ records, t.deck d = { s.deck d with store := { (s.deck d).store with records := records } }
    ∧ records.map FrameRecord.number = (s.deck d).store.records.map FrameRecord.number

theorem recordCut_eq (k : Deck) (e : Emission) : ∃ records, k.recordCut e = { k.store with records := records }
    ∧ records.map FrameRecord.number = k.store.records.map FrameRecord.number := by
  unfold Deck.recordCut
  split
  · exact ⟨k.store.records, rfl, rfl⟩
  · refine ⟨_, rfl, ?_⟩
    rw [List.map_map]
    refine List.map_congr_left fun r _ => ?_
    simp only [Function.comp]
    split <;> rfl

theorem cutFrame_cutOff (s : State) (d : DeckId) : CutFrame d s (s.cutOff d) := by
  by_cases h : ∃ e, s.ali.emission = some e ∧ e.deck = d
  · obtain ⟨e, he, own⟩ := h
    obtain ⟨records, store, numbers⟩ := recordCut_eq (s.deck d) e
    rw [cutOff_own he own, store]
    exact ⟨fun e he => deck_setDeck_ne _ _ he, rfl, rfl, rfl, rfl, rfl, rfl, records, deck_setDeck_same .., numbers⟩
  · rw [cutOff_other fun e he own => h ⟨e, he, own⟩]
    exact ⟨fun _ _ => rfl, rfl, rfl, rfl, rfl, rfl, rfl, _, rfl, rfl⟩

/-- The emission of the aborted deck is cut off (R137, R191). -/
theorem emissionCutOff_cutOff (s : State) (d : DeckId) : EmissionCutOff s (s.cutOff d) d := by
  have snapshot : (s.cutOff d).gre.snapshot = s.gre.snapshot.filter fun n => n.deck != d := by
    rw [(cutFrame_cutOff s d).gre, dropDeck_eq]
  by_cases h : ∃ e, s.ali.emission = some e ∧ e.deck = d
  · obtain ⟨e, he, own⟩ := h
    have ali : (s.cutOff d).ali = s.ali.cutOff (s.deck d) e := by rw [cutOff_own he own]
    have only {e' : Emission} (he' : e' ∈ s.ali.emission) : e = e' := Option.some.inj (he.symm.trans he')
    refine ⟨snapshot, ?_, fun other => absurd own (other e he), ?_, ?_, ?_⟩
    · rw [ali]; exact sameButNotices_cutOff ..
    · intro e' he' _ sending wire
      obtain rfl := only he'
      rw [ali, cutOff_trailer ⟨sending, wire⟩]
      exact ⟨rfl, rfl⟩
    · intro e' he' _ cut overrun
      obtain rfl := only he'
      rw [ali, cutOff_overrun cut overrun]
      exact ⟨rfl, rfl⟩
    · intro e' he' _ cut full r found
      obtain rfl := only he'
      rw [ali, cutOff_full cut full found]
      refine ⟨rfl, _, rfl, own, rfl, rfl, rfl, fun idle => ?_, fun q sending wire => ?_⟩
      · simp [Ali.abortedWait, idle]
      · simp [Ali.abortedWait, sending, linesInFlight_picture wire]
  · have other : ∀ e ∈ s.ali.emission, e.deck ≠ d := fun e he own => h ⟨e, he, own⟩
    have ali : (s.cutOff d).ali = s.ali := by rw [cutOff_other other]
    exact ⟨snapshot, by rw [ali], fun _ => by rw [ali]; exact ⟨rfl, rfl⟩, fun e he own => absurd own (other e he),
      fun e he own => absurd own (other e he), fun e he own => absurd own (other e he)⟩

theorem emission_of_sameButNotices {a b : Ali} (h : a.sameButNotices b) :
    b.emission = a.emission ∧ b.aborted = a.aborted ∧ b.wire = a.wire := by
  rw [← h]; exact ⟨rfl, rfl, rfl⟩

/-- Notices before and after a cut-off do not change what it does. -/
theorem EmissionCutOff.between {s i c t : State} {d : DeckId} (h : EmissionCutOff i c d) (before : s.ali.sameButNotices i.ali)
    (gre : i.gre = s.gre) (find : ∀ n, (i.deck d).store.find n = (s.deck d).store.find n)
    (reel : (i.deck d).ctx.reel = (s.deck d).ctx.reel) (after : c.ali.sameButNotices t.ali) (gre' : t.gre = c.gre) :
    EmissionCutOff s t d := by
  obtain ⟨emission, aborted, wire⟩ := emission_of_sameButNotices before
  obtain ⟨emission', aborted', -⟩ := emission_of_sameButNotices after
  obtain ⟨snapshot, interface, otherDeck, trailer, overrun, full⟩ := h
  rw [emission, aborted] at interface
  rw [emission, aborted, ← emission', ← aborted'] at otherDeck
  rw [emission, aborted, wire, ← emission', ← aborted'] at trailer
  rw [emission, aborted, wire, ← emission', ← aborted'] at overrun
  rw [emission, wire, ← emission', ← aborted', reel] at full
  simp only [find] at full
  refine ⟨by rw [gre', snapshot, gre], sameButNotices_trans before (sameButNotices_trans interface ?_), otherDeck, trailer,
    overrun, full⟩
  unfold Ali.sameButNotices at *
  rw [← after]

/-- Whether a number has a record depends on the numbers of the records only. -/
theorem find_isSome_congr {k l : DeckStore} (h : k.records.map FrameRecord.number = l.records.map FrameRecord.number) (n : Nat) :
    (k.find n).isSome = (l.find n).isSome := by
  have numbers (k : DeckStore) : (k.find n).isSome = (k.records.map FrameRecord.number).contains n := by
    rw [Bool.eq_iff_iff]
    simp [DeckStore.find]
  rw [numbers, numbers, h]

end Sys2Proof.Machine
end

section
namespace Sys2Proof.Machine

/-! ### The close at a scan's end without records -/

theorem blocks_completeExam (s : State) (d : DeckId) (i : Nat) :
    (s.completeExam d i).dan = s.dan ∧ (s.completeExam d i).rpe = s.rpe := by
  cases h : (s.deck d).table.shots[i]? with
  | none => simp only [State.completeExam, h, and_self]
  | some sh =>
    rw [completeExam_eq h]
    split
    · exact ⟨dan_notify .., rpe_notify ..⟩
    · exact ⟨rfl, rfl⟩

/-- With an empty queue the close of the OPEN shot finds no record to examine. -/
theorem closeShotAtEnd_empty {s : State} {d : DeckId} (h : (s.deck d).store.records = []) (cut : Bool) :
    let t := s.closeShotAtEnd d cut
    t.dan = s.dan ∧ t.rpe = s.rpe ∧ (t.deck d).store = (s.deck d).store := by
  have closed {u : State} (empty : (u.deck d).store.records = []) (i last : Nat) :
      (u.afterClose d i last).dan = u.dan ∧ (u.afterClose d i last).rpe = u.rpe
      ∧ ((u.afterClose d i last).deck d).store = (u.deck d).store := by
    have gone (n : Nat) := find_none_of_empty empty n
    have released : u.releaseExam d last = u := releaseExam_keeps fun r hr => by rw [gone] at hr; cases hr
    have decided : u.decideExam d last = u := decideExam_keeps fun r hr => by rw [gone] at hr; cases hr
    obtain ⟨shots, deck⟩ := deck_completeExam u d i
    obtain ⟨dan, rpe⟩ := blocks_completeExam u d i
    rw [State.afterClose, released, decided]
    exact ⟨dan, rpe, by rw [deck]⟩
  have store (f : ShotTable → ShotTable) : ((s.modTable d f).deck d).store = (s.deck d).store := by
    rw [modTable_eq, deck_modDeck_same]
  unfold State.closeShotAtEnd
  dsimp only
  split
  · split
    · exact ⟨rfl, rfl, rfl⟩
    · refine iteInduction (motive := fun t : State => t.dan = s.dan ∧ t.rpe = s.rpe ∧ (t.deck d).store = (s.deck d).store)
        (fun _ => ⟨rfl, rfl, store _⟩) fun _ => ?_
      have empty := fun f => (congrArg DeckStore.records (store f)).trans h
      obtain ⟨dan, rpe, kept⟩ := closed (empty _) _ _
      exact ⟨dan, rpe, kept.trans (store _)⟩
  · exact ⟨rfl, rfl, rfl⟩

/-! ### The phases of an abort -/

/-- Deck d in ABORTED with no command waiting, its unit disabled and its flow state CLEAR (R24). -/
def Deck.aborting (k : Deck) : Deck :=
  { k with
    ctx := { k.ctx with state := .aborted }
    chan := { k.chan with waiting := none }
    rgu := k.rgu.disabled
    store := { k.store with flow := .clear } }

/-- An abort up to the cut-off of the emission. -/
def State.abortIdle (s : State) (d : DeckId) : State :=
  (s.setDeck d (s.deck d).aborting).notify d (.contextState .aborted (s.deck d).ctx.reel)

/-- An abort up to the discards and the STOP. -/
def State.abortEmpty (s : State) (d : DeckId) : State :=
  let empty := ((s.abortIdle d).cutOff d).storeAborted d
  empty.setDeck d { empty.deck d with chan := (empty.deck d).chan.stopped }

/-- An abort up to the close of the OPEN shot. -/
def State.abortShut (s : State) (d : DeckId) : State := (s.abortEmpty d).closeShotAtEnd d (s.deck d).store.newestCut

theorem aborted_eq_phases (s : State) (d : DeckId) : s.aborted d = (s.abortShut d).abortPlan d := by
  have idle : (let k := s.deck d
      let told := (s.setDeck d { k with ctx := { k.ctx with state := .aborted } }).notify d (.contextState .aborted k.ctx.reel)
      let l := told.deck d
      told.setDeck d { l with
        chan := { l.chan with waiting := none }, rgu := l.rgu.disabled, store := { l.store with flow := .clear } })
      = s.abortIdle d := by
    dsimp only
    rw [setDeck_notify _ _ _ _ (by simp), deck_notify, deck_setDeck_same, setDeck_setDeck]
    rfl
  dsimp only at idle
  unfold State.aborted State.abortShut State.abortEmpty
  dsimp only
  rw [idle]

theorem deck_abortIdle (s : State) (d : DeckId) : (s.abortIdle d).deck d = (s.deck d).aborting := by
  rw [State.abortIdle, deck_notify, deck_setDeck_same]

/-- The records of a deck are discarded one by one (R65). -/
def State.discardEach (s : State) (d : DeckId) : State :=
  ((s.deck d).store.records.map FrameRecord.number).foldl (fun u n => u.discard d n) s

theorem leaveFrame_discardEach (s : State) (d : DeckId) : LeaveFrame s (s.discardEach d) d :=
  .foldl (fun s n => leaveFrame_discard s d n) _ s

theorem LeaveClosed.discardEach {R : State → State → Prop} {d : DeckId} (closed : LeaveClosed R d) (s : State) :
    R s (s.discardEach d) := closed.foldl closed.discard _ s

/-- Deck d's slots and records after an abort's discards (R65). -/
def DeckStore.discarded (k : DeckStore) : DeckStore :=
  { k with
    slots := Vector.replicate 8 slotFree
    records := []
    fate := if (k.lastConsumed.bind k.find).isSome then .discarded else k.fate }

/-- What an abort's discards leave of a deck in ABORTED with its flow state CLEAR (R65, R92, R124). -/
structure Emptied (d : DeckId) (s t : State) : Prop where
  others : ∀ e, e ≠ d → t.deck e = s.deck e
  profiles : t.profiles = s.profiles
  dan : t.dan = { s.dan with queue := s.dan.queue.filter (otherDecks d), active := s.dan.active.filter (otherDecks d) }
  rpe : t.rpe = { s.rpe with queue := s.rpe.queue.filter (otherDecks d), active := s.rpe.active.filter (otherDecks d) }
  gre : t.gre = s.gre
  shp : t.shp = s.shp
  interface : s.ali.sameButNotices t.ali
  pending : t.pending = s.pending
  deck : t.deck d = { s.deck d with store := (s.deck d).store.discarded, table := (t.deck d).table }
  cues : (t.deck d).table.cues = (s.deck d).table.cues
  marks : openMarks d t = openMarks d s

theorem emptied_storeAborted {s : State} {d : DeckId} (aborted : (s.deck d).ctx.state = .aborted)
    (flow : (s.deck d).store.flow = .clear) : Emptied d s (s.storeAborted d) := by
  have frame := leaveFrame_discardEach s d
  have rest := (leaveRest_closed d).discardEach s
  have marks := (openMarks_closed d).discardEach s
  obtain ⟨ctx, shp⟩ := frame.context (by rw [aborted]; decide)
  obtain ⟨chan, flowKept⟩ := frame.flow (by rw [flow]; decide)
  have other (e : DeckId) (he : e ≠ d) : (s.storeAborted d).deck e = (s.discardEach d).deck e := deck_setDeck_ne _ _ he
  have own : (s.storeAborted d).deck d = { (s.discardEach d).deck d with store := { ((s.discardEach d).deck d).store with
      slots := (s.deck d).store.discarded.slots, records := [], fate := (s.deck d).store.discarded.fate } } :=
    deck_setDeck_same ..
  have dan : (s.storeAborted d).dan = { (s.discardEach d).dan with
      queue := (s.discardEach d).dan.queue.filter (otherDecks d)
      active := (s.discardEach d).dan.active.filter (otherDecks d) } := rfl
  have rpe : (s.storeAborted d).rpe = { (s.discardEach d).rpe with
      queue := (s.discardEach d).rpe.queue.filter (otherDecks d)
      active := (s.discardEach d).rpe.active.filter (otherDecks d) } := rfl
  have analysis : (s.discardEach d).dan.queue.filter (otherDecks d) = s.dan.queue.filter (otherDecks d) := rest.queues.analysis
  have decision : (s.discardEach d).rpe.queue.filter (otherDecks d) = s.rpe.queue.filter (otherDecks d) := rest.queues.decision
  refine ⟨fun e he => (other e he).trans (frame.others e he), frame.profiles, ?_, ?_, frame.gre, shp, rest.interface,
    frame.pending, ?_, by rw [own, frame.cues], (openMarks_of_table_eq (by rw [own])).trans marks⟩
  · dsimp only at dan ⊢
    rw [dan, analysis, rest.analyzing, rest.comparators]
  · dsimp only at rpe ⊢
    rw [rpe, decision, rest.repairing, rest.rules]
  · rw [own]
    dsimp only
    rw [frame.lastConsumed, flowKept, chan, ctx, frame.lane.1, frame.lane.2, frame.rgu, frame.map]
    rfl

theorem discarded_congr (k : DeckStore) (records : List FrameRecord)
    (h : records.map FrameRecord.number = k.records.map FrameRecord.number) :
    { k with records := records }.discarded = k.discarded := by
  have known : (k.lastConsumed.bind { k with records := records }.find).isSome = (k.lastConsumed.bind k.find).isSome := by
    cases k.lastConsumed with
    | none => rfl
    | some n => exact find_isSome_congr h n
  simp only [DeckStore.discarded, known]

/-- What an abort leaves up to the planner's part. -/
structure ShutDown (d : DeckId) (s t : State) : Prop where
  others : ∀ e, e ≠ d → t.deck e = s.deck e
  profiles : t.profiles = s.profiles
  dan : t.dan = { s.dan with queue := s.dan.queue.filter (otherDecks d), active := s.dan.active.filter (otherDecks d) }
  rpe : t.rpe = { s.rpe with queue := s.rpe.queue.filter (otherDecks d), active := s.rpe.active.filter (otherDecks d) }
  gre : t.gre = s.gre.dropDeck d
  shp : t.shp = s.shp
  pending : t.pending = s.pending
  deck : t.deck d = { (s.deck d).aborting with
    chan := (s.deck d).chan.stopped
    store := { (s.deck d).store.discarded with flow := .clear }
    table := (t.deck d).table }
  cues : (t.deck d).table.cues = (s.deck d).table.cues
  marks : (s.deck d).store.lastConsumed ≠ none → oneOpen (openMarks d s) → true ∉ openMarks d t
  emission : EmissionCutOff s t d

/-- The cut-off, the discards and the STOP. -/
theorem deck_abortEmpty (s : State) (d : DeckId) :
    let i := s.abortIdle d
    Emptied d (i.cutOff d) ((i.cutOff d).storeAborted d)
    ∧ (s.abortEmpty d).deck d = { (s.deck d).aborting with
        chan := (s.deck d).chan.stopped
        store := { (s.deck d).store.discarded with flow := .clear }
        table := ((s.abortEmpty d).deck d).table } := by
  intro i
  have cut := cutFrame_cutOff i d
  obtain ⟨records, deckCut, numbers⟩ := cut.deck
  have idle : i.deck d = (s.deck d).aborting := deck_abortIdle s d
  rw [idle] at deckCut numbers
  have emptied : Emptied d (i.cutOff d) ((i.cutOff d).storeAborted d) :=
    emptied_storeAborted (by rw [deckCut]; rfl) (by rw [deckCut]; rfl)
  have deck := emptied.deck
  rw [deckCut] at deck
  dsimp only at deck
  rw [discarded_congr _ _ numbers] at deck
  refine ⟨emptied, ?_⟩
  have own : (s.abortEmpty d).deck d = { ((i.cutOff d).storeAborted d).deck d with
      chan := (((i.cutOff d).storeAborted d).deck d).chan.stopped } := deck_setDeck_same ..
  rw [own, deck]
  rfl

theorem deck_of_parts {k l : Deck} (chan : l.chan = k.chan) (ctx : l.ctx = k.ctx) (lane : l.lane = k.lane ∧ l.intake = k.intake)
    (rgu : l.rgu = k.rgu) (store : l.store = k.store) (map : l.map = k.map) : l = { k with table := l.table } := by
  obtain ⟨lane, intake⟩ := lane
  rw [← chan, ← ctx, ← lane, ← intake, ← rgu, ← store, ← map]

theorem shutDown_abortShut (s : State) (d : DeckId) : ShutDown d s (s.abortShut d) := by
  have cut := cutFrame_cutOff (s.abortIdle d) d
  have cutEmission := emissionCutOff_cutOff (s.abortIdle d) d
  have idle := deck_abortIdle s d
  obtain ⟨emptied, deck⟩ := deck_abortEmpty s d
  have records : ((s.abortEmpty d).deck d).store.records = [] := by rw [deck]; rfl
  obtain ⟨dan, rpe, store⟩ := closeShotAtEnd_empty records (s.deck d).store.newestCut
  have frame : LeaveFrame (s.abortEmpty d) (s.abortShut d) d := leaveFrame_closeShotAtEnd ..
  have rest : LeaveRest d (s.abortEmpty d) (s.abortShut d) :=
    (leaveRest_closed d).closeShotAtEnd (leaveRest_modShots d) _ _
  have noneOpen := closeShotAtEnd_noneOpen (s.abortEmpty d) d (s.deck d).store.newestCut
  have marks : openMarks d (s.abortEmpty d) = openMarks d s := by
    obtain ⟨_, cutDeck, -⟩ := cut.deck
    have stopped : openMarks d (s.abortEmpty d) = openMarks d (((s.abortIdle d).cutOff d).storeAborted d) :=
      openMarks_of_table_eq (by rw [State.abortEmpty, deck_setDeck_same])
    have cutOff : openMarks d ((s.abortIdle d).cutOff d) = openMarks d (s.abortIdle d) :=
      openMarks_of_table_eq (by rw [cutDeck])
    rw [stopped, emptied.marks, cutOff]
    exact openMarks_of_table_eq (by rw [idle]; rfl)
  have idleGre : (s.abortIdle d).gre = s.gre := gre_notify ..
  have idleDan : (s.abortIdle d).dan = s.dan := dan_notify ..
  have idleRpe : (s.abortIdle d).rpe = s.rpe := rpe_notify ..
  have idleShp : (s.abortIdle d).shp = s.shp := shp_notify ..
  have before : s.ali.sameButNotices (s.abortIdle d).ali :=
    sameButNotices_notify (s.setDeck d (s.deck d).aborting) d (.contextState .aborted (s.deck d).ctx.reel)
  have find (n : Nat) : ((s.abortIdle d).deck d).store.find n = (s.deck d).store.find n := by rw [idle]; rfl
  obtain ⟨ctx, shp⟩ := frame.context (by rw [deck]; exact nofun)
  obtain ⟨chan, -⟩ := frame.flow (by rw [deck]; exact nofun)
  refine { others := fun e he => ?_, profiles := ?_, dan := ?_, rpe := ?_, gre := ?_, shp := ?_, pending := ?_, deck := ?_,
           cues := ?_, marks := fun consumed one => noneOpen ?_ (marks.symm ▸ one), emission := ?_ }
  · calc (s.abortShut d).deck e
      _ = (s.abortEmpty d).deck e := frame.others e he
      _ = (((s.abortIdle d).cutOff d).storeAborted d).deck e := deck_setDeck_ne _ _ he
      _ = (s.abortIdle d).deck e := (emptied.others e he).trans (cut.others e he)
      _ = s.deck e := by rw [State.abortIdle, deck_notify, deck_setDeck_ne _ _ he]
  · exact (frame.profiles.trans emptied.profiles).trans (cut.profiles.trans (profiles_notify ..))
  · exact dan.trans (emptied.dan.trans (by rw [cut.dan, idleDan]))
  · exact rpe.trans (emptied.rpe.trans (by rw [cut.rpe, idleRpe]))
  · exact (frame.gre.trans emptied.gre).trans (by rw [cut.gre, idleGre])
  · exact (shp.trans emptied.shp).trans (cut.shp.trans idleShp)
  · exact (frame.pending.trans emptied.pending).trans (cut.pending.trans (pending_notify ..))
  · refine (deck_of_parts chan ctx frame.lane frame.rgu store frame.map).trans ?_
    rw [deck]
  · obtain ⟨_, cutDeck, -⟩ := cut.deck
    have stopped : ((s.abortEmpty d).deck d).table = ((((s.abortIdle d).cutOff d).storeAborted d).deck d).table := by
      rw [State.abortEmpty, deck_setDeck_same]
    rw [frame.cues, stopped, emptied.cues, cutDeck, idle]
    rfl
  · rw [deck]
    exact consumed
  · exact cutEmission.between before idleGre find (by rw [idle]; rfl) (sameButNotices_trans emptied.interface rest.interface)
      (frame.gre.trans emptied.gre)

end Sys2Proof.Machine
end

section
namespace Sys2Proof.Machine

/-! ### What an abort leaves -/

theorem openMarks_abortPlan (s : State) (d : DeckId) : openMarks d (s.abortPlan d) = openMarks d s := by
  have table := congrArg Deck.table ((planFrame_abortPlan s d).decks d)
  exact openMarks_of_table_eq table

/-- The assignment pass depends on the planner only. -/
theorem shp_assignmentPass_congr {s t : State} (h : s.shp = t.shp) : s.assignmentPass.shp = t.assignmentPass.shp := by
  rw [shp_assignmentPass, shp_assignmentPass, h]

theorem abort_emission (s : State) (d : DeckId) : EmissionCutOff s (s.abort d) d := by
  have plan := planFrame_abortPlan (s.abortShut d) d
  rw [abort_eq, aborted_eq_phases]
  exact (shutDown_abortShut s d).emission.between rfl rfl (fun _ => rfl) rfl plan.interface plan.gre

/-- Every abort leaves what R24 says, from whatever context. -/
theorem abort_effects (s : State) (d : DeckId) : AbortEffects s (s.abort d) d := by
  have shut := shutDown_abortShut s d
  have plan := planFrame_abortPlan (s.abortShut d) d
  obtain ⟨directive, waiting⟩ := abortPlan_effects (s.abortShut d) d
  have marks := openMarks_abortPlan (s.abortShut d) d
  have keeps := abortPlan_keeps (s := s.abortShut d) (d := d)
  have cancels := abortPlan_cancels (s := s.abortShut d) (d := d)
  have steps : s.abort d = (s.abortShut d).abortPlan d := (abort_eq s d).trans (aborted_eq_phases s d)
  have aborted := abort_eq s d
  rw [← steps] at plan directive waiting marks keeps cancels
  generalize s.abort d = t at *
  generalize s.abortShut d = u at *
  have own := plan.decks d
  have deck := shut.deck
  have ctx : (u.deck d).ctx = { (s.deck d).ctx with state := .aborted } := by rw [deck]; rfl
  have unplanned : (t.deck d).ctx.unplanned = (u.deck d).ctx.unplanned := congrArg Deck.ctx own
  have state : (t.deck d).ctx.state = (u.deck d).ctx.state := (congrArg ReelContext.state unplanned :)
  have store : (t.deck d).store = { (s.deck d).store.discarded with flow := .clear } :=
    (congrArg Deck.store own).trans (by rw [deck])
  refine { steps := aborted, state := by rw [state, ctx], context := ?_, score := by rw [plan.score, ctx], directive := directive,
           planner := ?_, cancelled := ?_, waiting := ?_, registration := ?_, records := by rw [store]; rfl, slots := ?_,
           fate := by rw [store]; rfl, lastConsumed := by rw [store]; rfl, flow := by rw [store], shots := ?_, channel := ?_,
           lane := ⟨?_, ?_⟩, map := ?_, cues := ?_, others := ?_, tables := ?_, analysis := ?_, repair := ?_,
           pending := plan.pending.trans shut.pending }
  · rw [unplanned, ctx]; rfl
  · intro undirected unlisted
    rw [keeps (by rw [ctx]; exact undirected) (by rw [shut.shp]; exact unlisted), shut.shp]
  · intro directed idle before dir after split onDeck source first
    rw [cancels (by rw [ctx]; exact directed) (by rw [shut.shp]; exact idle) (by rw [shut.shp]; exact split) onDeck source first,
      shut.shp]
    split_ifs
    · rfl
    · exact shp_assignmentPass_congr rfl
  · intro listed
    exact waiting (by rw [shut.shp]; exact listed)
  · exact (congrArg Deck.rgu own).trans (by rw [deck]; rfl)
  · intro i
    rw [store]
    exact Vector.getElem_replicate ..
  · intro consumed one
    rw [← openMarks_none_iff, marks]
    exact shut.marks consumed (oneOpen_openMarks one)
  · exact (congrArg Deck.chan own).trans (by rw [deck])
  · exact (congrArg Deck.lane own).trans (by rw [deck]; rfl)
  · exact (congrArg Deck.intake own).trans (by rw [deck]; rfl)
  · exact (congrArg Deck.map own).trans (by rw [deck]; rfl)
  · exact (congrArg (fun k : Deck => k.table.cues) own).trans shut.cues
  · intro e he
    rw [plan.decks e, shut.others e he]
  · have gre : t.gre = s.gre.dropDeck d := plan.gre.trans shut.gre
    rw [dropDeck_eq] at gre
    exact ⟨plan.profiles.trans shut.profiles, by rw [plan.dan, shut.dan], by rw [plan.rpe, shut.rpe], by rw [gre], by rw [gre],
      by rw [plan.policies, shut.shp]⟩
  · rw [plan.dan, shut.dan]; exact ⟨rfl, rfl⟩
  · rw [plan.rpe, shut.rpe]; exact ⟨rfl, rfl⟩

/-- Settles O11 by what every abort leaves (abort_effects, abort_emission). -/
theorem abortDeckFollowsR23AndR24 : Obligations.AbortDeckFollowsR23AndR24 := by
  intro s d tag rest p k a h
  have run : exec .abortDeck s = .next (if k.ctx.state.sensorFaults then a.abort d else s.refused p rest .badState) := by
    have run : exec .abortDeck s = execAbortDeck s := rfl
    rw [run, execAbortDeck, takeDeckRequest_delivered h rfl rfl rfl, replyOk_afterTake]
    exact congrArg _ (if_congr Iff.rfl rfl (refuse_afterTake s p rest _))
  rw [run, ← sensorFaults_iff]
  exact ⟨fun no => by rw [if_neg no], fun yes => ⟨_, by rw [if_pos yes], abort_effects a d, abort_emission a d⟩⟩

/-- Settles O41: with the gate locked a fall is an abort (sensorFall_locked), whatever its event. -/
theorem sensorFaultAborts : Obligations.SensorFaultAborts := by
  intro s d ofPresent k event sensor levels base changes locked quiet inReel
  have deckBase : base.deck d = { k with chan := { k.chan with sensors := levels } } := by
    simp only [base, deck_notify, deck_setDeck_same]
  have seen : ¬ (if ofPresent then k.chan.sensors.present else k.chan.sensors.gateClosed) = false := by
    intro same
    refine changes ?_
    cases ofPresent
    · simp only [levels, Bool.false_eq_true, if_false] at same ⊢
      rw [← same]
    · simp only [levels, if_true] at same ⊢
      rw [← same]
  have faults : (base.deck d).ctx.state.sensorFaults = true := by rw [deckBase, sensorFaults_iff]; exact inReel
  have run : exec event s = .next (base.abort d) := by
    have change := exec_sensorChange s d ofPresent false
    rw [if_neg seen, sense_eq] at change
    have effect : base.sensorEffect d sensor false = base.abort d := by
      rw [sensorEffect_faulting faults, if_neg (by decide), sensorFall_locked (by rw [deckBase]; exact locked) faults, deckBase]
      exact if_neg (by rw [← Bool.not_eq_true] at quiet; exact quiet)
    exact change.trans (congrArg _ effect)
  exact ⟨_, run, abort_effects base d, abort_emission base d⟩

end Sys2Proof.Machine
end

section
namespace Sys2Proof.Machine

/-! ### Changes of a channel behind a release -/

/-- A change of a channel's commands, as the end of a command makes one, leaves its mask. -/
theorem modChan_notify (s : State) (d : DeckId) (body : NoticeBody) {f : Channel → Channel} (mask : ∀ c, (f c).mask = c.mask) :
    (s.notify d body).modChan d f = (s.modChan d f).notify d body := by
  simp only [modChan_eq, State.modDeck, deck_notify]
  exact setDeck_notify _ _ _ _ (mask _)

theorem modChan_setDeck (s : State) (d : DeckId) (k : Deck) (f : Channel → Channel) :
    (s.setDeck d k).modChan d f = s.setDeck d { k with chan := f k.chan } := by
  simp only [modChan_eq, State.modDeck, deck_setDeck_same, setDeck_setDeck]

theorem departed_modChan (s : State) (d : DeckId) {f : Channel → Channel} (mask : ∀ c, (f c).mask = c.mask) :
    (s.departed d).modChan d f = (s.modChan d f).departed d := by
  have deck : (s.modChan d f).deck d = { s.deck d with chan := f (s.deck d).chan } := deck_modDeck_same ..
  have gone : (((s.setDeck d { s.deck d with ctx := (s.deck d).ctx.cleared }).notify d (.contextState .empty none)).modChan d f)
      = ((s.modChan d f).setDeck d { (s.modChan d f).deck d with ctx := ((s.modChan d f).deck d).ctx.cleared }).notify d
        (.contextState .empty none) := by
    rw [modChan_notify _ _ _ mask, modChan_setDeck, deck, modChan_eq, State.modDeck, setDeck_setDeck]
  have shp : (s.modChan d f).shp = s.shp := rfl
  have reel : ((s.modChan d f).deck d).ctx = (s.deck d).ctx := by rw [deck]
  unfold State.departed
  dsimp only
  rw [shp, ← gone, reel]
  split
  · rfl
  · rw [modChan_notify _ _ _ mask]
    rfl

/-- A release does not depend on the channel's commands (R22). -/
theorem released_modChan (s : State) (d : DeckId) {f : Channel → Channel} (mask : ∀ c, (f c).mask = c.mask)
    (sensors : ∀ c, (f c).sensors = c.sensors) : (s.released d).modChan d f = (s.modChan d f).released d := by
  have deck : (s.modChan d f).deck d = { s.deck d with chan := f (s.deck d).chan } := deck_modDeck_same ..
  have entered : ((s.setDeck d { s.deck d with ctx := { (s.deck d).ctx with state := .released } }).notify d
        (.contextState .released (s.deck d).ctx.reel)).modChan d f
      = ((s.modChan d f).setDeck d { (s.modChan d f).deck d with
          ctx := { ((s.modChan d f).deck d).ctx with state := .released } }).notify d
        (.contextState .released ((s.modChan d f).deck d).ctx.reel) := by
    rw [modChan_notify _ _ _ mask, modChan_setDeck, deck, modChan_eq, State.modDeck, setDeck_setDeck]
  have present : ((s.modChan d f).deck d).chan.sensors = (s.deck d).chan.sensors := by rw [deck]; exact sensors _
  unfold State.released
  dsimp only
  rw [present, ← entered, ← departed_modChan _ _ mask]
  exact apply_ite (fun t : State => t.modChan d f) ..

theorem issueWaiting_sensors (c : Channel) : c.issueWaiting.sensors = c.sensors := by
  unfold Channel.issueWaiting
  split <;> rfl

theorem issueWaiting_none {c : Channel} (h : c.waiting = none) : c.issueWaiting = c := by
  unfold Channel.issueWaiting
  split
  · next hw => rw [h] at hw; cases hw
  · rfl

/-- The STOP of an abort goes out at once when nothing is outstanding (R24). -/
theorem stopped_waiting {c : Channel} (h : c.outstanding = none) : c.stopped.waiting = none := by
  have free : ({ c with waiting := none } : Channel).outstanding = none := h
  unfold Channel.stopped
  dsimp only
  split
  · rfl
  · rw [sendContext_free free]

/-! ### The end of an UNLOCK_GATE -/

/-- Nothing is corrected after an UNLOCK_GATE (R9). -/
theorem endUnlock_eq (s : State) (d : DeckId) {o : Command} (unlock : o.cmd = .unlockGate) (result : CommandResult) :
    s.endCommand d o result =
      (((s.setDeck d ((s.deck d).commandOver .unlockGate result)).unlockEnded d o result).notify d
        (.slotCommandDone .unlockGate o.origin result)).modChan d Channel.issueWaiting := by
  have uncorrected (u : State) : u.gateCorrection d .unlockGate result = u := by
    rw [gateCorrection_eq, Deck.corrected, if_neg (by simp)]
    exact setDeck_deck u d
  rw [endCommand_eq, unlock]
  simp only [if_true, uncorrected]

/-- The reel of the context is released by this command (R21, R25). -/
def Command.releases (o : Command) (state : ContextState) : Prop :=
  o.release = some .finished ∧ state = .finished ∨ o.release = some .aborted ∧ state = .aborted

theorem holds_iff (o : Command) (state : ContextState) :
    (o.release.map fun r => r.holds state).getD false = true ↔ o.releases state := by
  unfold Command.releases
  cases o.release with
  | none => simp
  | some r => cases r <;> simp [ReleaseFrom.holds]

section
variable {u : State} {d : DeckId} {o : Command}

/-! What an UNLOCK_GATE that ended carries out, before its notice (R15, R16, R21, R25). -/

theorem unlockEnded_releases (h : o.releases (u.deck d).ctx.state) : u.unlockEnded d o .done = u.released d := by
  rw [← enterReleased_eq]
  exact if_pos ((holds_iff o _).2 h)

theorem unlockEnded_boundFallen (h : ¬ o.releases (u.deck d).ctx.state) (bound : (u.deck d).ctx.state = .bound)
    (fallen : (u.deck d).chan.sensorFallen = true) : u.unlockEnded d o .done = u.loseBoundReel d :=
  (if_neg (mt (holds_iff o _).1 h)).trans (if_pos ⟨bound, fallen⟩)

theorem unlockEnded_nothing (h : ¬ o.releases (u.deck d).ctx.state)
    (other : ¬ ((u.deck d).ctx.state = .bound ∧ (u.deck d).chan.sensorFallen = true)) : u.unlockEnded d o .done = u :=
  (if_neg (mt (holds_iff o _).1 h)).trans (if_neg other)

theorem unlockEnded_fails {result : CommandResult} (fails : result ≠ .done) :
    u.unlockEnded d o result =
      if (u.deck d).ctx.state.sensorFaults ∧ (u.deck d).ctx.gateLocked ∧ (u.deck d).chan.sensorFallen then u.abort d else u := by
  cases result with
  | done => exact absurd rfl fails
  | fault => rfl
  | failed => rfl

end

theorem withdraw_lockGate (c : Channel) :
    c.withdraw [.lockGate] = { c with waiting := c.waiting.filter fun w => w.cmd != .lockGate } := by
  have kinds : (fun w : Command => !([SlotCommand.lockGate] : List SlotCommand).contains w.cmd)
      = fun w => w.cmd != SlotCommand.lockGate := by funext w; cases w.cmd <;> rfl
  rw [withdraw_eq_filter, kinds]

/-- Settles O44: what the unlock carries out does not depend on the channel's commands, so that the pending command may be issued before it; after
an abort none waits. -/
theorem unlockEndsFollowR4AndR16 : Obligations.UnlockEndsFollowR4AndR16 := by
  intro s d o k fallen issued unlocked told releases out unlock
  have ends (result : CommandResult) : exec (endEvent d .unlockGate result) s = .next
      ((((s.setDeck d (k.commandOver .unlockGate result)).unlockEnded d o.command result).notify d (told result)).modChan d
        Channel.issueWaiting) := by
    have run := exec_endEvent out result
    rw [unlock, endUnlock_eq s d unlock] at run
    exact run
  have deckClosed (result : CommandResult) : (s.setDeck d (k.commandOver .unlockGate result)).deck d = k.commandOver .unlockGate result :=
    deck_setDeck_same ..
  have done : k.commandOver .unlockGate .done = { k with ctx := unlocked, chan := { k.chan with outstanding := none } } := rfl
  have fell : (k.chan.sensorFallen = true) ↔ fallen := sensorFallen_iff k.chan
  have issues : (s.setDeck d (k.commandOver .unlockGate .done)).modChan d Channel.issueWaiting
      = s.setDeck d { k with ctx := unlocked, chan := issued k.chan.waiting } := by
    rw [modChan_setDeck, done, issueWaiting_free rfl]
  refine ⟨fun yes => ?_, fun no other => ?_, fun no bound hasFallen => ?_, fun result fails => ?_⟩
  · refine (ends .done).trans (congrArg _ ?_)
    rw [unlockEnded_releases (by rw [deckClosed]; exact yes), modChan_notify _ _ _ issueWaiting_mask,
      released_modChan _ _ issueWaiting_mask issueWaiting_sensors, issues]
  · refine (ends .done).trans (congrArg _ ?_)
    rw [unlockEnded_nothing (by rw [deckClosed]; exact no) (by rw [deckClosed]; exact mt (fun both => ⟨both.1, fell.1 both.2⟩) other),
      modChan_notify _ _ _ issueWaiting_mask, issues]
  · refine (ends .done).trans (congrArg _ ?_)
    rw [unlockEnded_boundFallen (by rw [deckClosed]; exact no) (by rw [deckClosed]; exact bound) (by rw [deckClosed]; exact fell.2 hasFallen),
      loseBoundReel_eq, deckClosed, setDeck_setDeck, modChan_notify _ _ _ issueWaiting_mask, modChan_notify _ _ _ issueWaiting_mask,
      modChan_setDeck, withdraw_lockGate, issueWaiting_free rfl]
    rfl
  · intro event faults ended
    have named : event = endEvent d .unlockGate result := by
      cases result with
      | done => exact absurd rfl fails
      | fault => rfl
      | failed => rfl
    have closed : s.setDeck d (k.commandOver .unlockGate result) = ended := by
      simp only [Deck.commandOver, fails, if_false, ended]
    have deckEnded : ended.deck d = { k with chan := { k.chan with outstanding := none } } := deck_setDeck_same ..
    have fault : ((ended.deck d).ctx.state.sensorFaults ∧ (ended.deck d).ctx.gateLocked ∧ (ended.deck d).chan.sensorFallen)
        ↔ faults := by
      rw [deckEnded, sensorFaults_iff]
      exact and_congr_right fun _ => and_congr_right fun _ => fell
    rw [named, ends, closed, unlockEnded_fails fails]
    refine ⟨fun no => ?_, fun yes => ⟨ended.abort d, ?_, abort_effects ended d, abort_emission ended d⟩⟩
    · rw [if_neg (mt fault.1 no), modChan_notify _ _ _ issueWaiting_mask, modChan_setDeck, issueWaiting_free rfl]
    · have chan : ((ended.abort d).deck d).chan.issueWaiting = ((ended.abort d).deck d).chan := by
        rw [(abort_effects ended d).channel]
        exact issueWaiting_none (stopped_waiting (by rw [deckEnded]))
      rw [if_pos (fault.2 yes), modChan_notify _ _ _ issueWaiting_mask, modChan_eq, State.modDeck, chan, setDeck_deck]

end Sys2Proof.Machine
end

section
namespace Sys2Proof.Machine

/-! ### What a loss of registration leaves -/

/-- The channel and the flow state are as before, or the transport runs again because the free slots rose to the resume mark (R69). -/
def FlowResumed (d : DeckId) (s t : State) : Prop :=
  (t.deck d).chan = (s.deck d).chan ∧ (t.deck d).store.flow = (s.deck d).store.flow
  ∨ (s.deck d).store.flow = .pauseAsked ∧ (t.deck d).store.flow = .clear ∧ (t.deck d).chan = (s.deck d).chan.sendFlow .run

theorem FlowResumed.trans {d : DeckId} {a b c : State} (h : FlowResumed d a b) (g : FlowResumed d b c) : FlowResumed d a c := by
  rcases h with ⟨chan, flow⟩ | ⟨asked, clear, sent⟩ <;> rcases g with ⟨chan', flow'⟩ | ⟨asked', clear', sent'⟩
  · exact .inl ⟨chan'.trans chan, flow'.trans flow⟩
  · exact .inr ⟨flow ▸ asked', clear', chan ▸ sent'⟩
  · exact .inr ⟨asked, flow'.trans clear, chan'.trans sent⟩
  · rw [clear] at asked'; cases asked'

theorem flowResumed_dropRecord (d : DeckId) (s : State) (n : Nat) : FlowResumed d s (s.dropRecord d n) := by
  rw [FlowResumed, dropRecord_eq]
  split
  · next rises => simp only [deck_setDeck_same, rises, true_and, or_true]
  · left
    simp only [deck_setDeck_same, rest_drop, and_self]

theorem flowResumed_closed (d : DeckId) : LeaveClosed (FlowResumed d) d where
  refl _ := .inl ⟨rfl, rfl⟩
  trans := .trans
  dropRecord := flowResumed_dropRecord d
  emptyHandoff s := by
    obtain ⟨c, deck⟩ := deck_emptyHandoff s d
    left
    simp only [deck, and_self]
  decideExam s n := by
    left
    simp only [deck_decideExam, and_self]
  completeExam s i := by
    obtain ⟨shots, deck⟩ := deck_completeExam s d i
    left
    simp only [deck, and_self]
  toldDiscard s n := by
    left
    simp only [deck_toldDiscard, and_self]

/-- The part with the current frame of deck d discarded when its record is CAPTURING, the first step of R42. -/
def State.registrationCleared (s : State) (d : DeckId) : State :=
  match (s.deck d).rgu.current with
  | some c =>
    if ((s.deck d).store.find c.number).map FrameRecord.phase = some Phase.capturing then s.discard d c.number else s
  | none => s

theorem registrationCleared_discards {s : State} {d : DeckId} {c : CurrentFrame} {r : FrameRecord}
    (current : (s.deck d).rgu.current = some c) (found : (s.deck d).store.find c.number = some r) (capturing : r.phase = .capturing) :
    s.registrationCleared d = s.discard d c.number := by
  simp only [State.registrationCleared, current, found, Option.map_some, capturing, if_true]

theorem registrationCleared_keeps {s : State} {d : DeckId}
    (h : ∀ c r, (s.deck d).rgu.current = some c → (s.deck d).store.find c.number = some r → r.phase ≠ .capturing) :
    s.registrationCleared d = s := by
  unfold State.registrationCleared
  split
  · next c current =>
    refine if_neg fun capturing => ?_
    obtain ⟨r, found, phase⟩ := Option.map_eq_some_iff.1 capturing
    exact h c r current found phase
  · rfl

/-- Whatever holds over every discard, and over none, holds over the first step of a loss of registration. -/
theorem registrationCleared_induction {R : State → State → Prop} {d : DeckId} (refl : ∀ s, R s s)
    (discard : ∀ s n, R s (s.discard d n)) (s : State) : R s (s.registrationCleared d) := by
  unfold State.registrationCleared
  split
  · split
    · exact discard s _
    · exact refl s
  · exact refl s

/-- What the loss of registration leaves, whatever its cause (R42, R44). -/
theorem registrationLost_effects {s : State} {d : DeckId} (notDraining : (s.deck d).ctx.state ≠ .draining) (cause : LossCause)
    (sighting : Option FilmPos) : RegistrationLost s (s.registrationLost d cause sighting) d cause sighting := by
  have frame : LeaveFrame s (s.registrationCleared d) d :=
    registrationCleared_induction (R := fun a b => LeaveFrame a b d) (.refl · d) (leaveFrame_discard · d ·) s
  have rest : LeaveRest d s (s.registrationCleared d) :=
    registrationCleared_induction (leaveRest_closed d).refl (leaveRest_closed d).discard s
  have flow : FlowResumed d s (s.registrationCleared d) :=
    registrationCleared_induction (flowResumed_closed d).refl (flowResumed_closed d).discard s
  obtain ⟨ctx, shp⟩ := frame.context notDraining
  have steps : s.registrationLost d cause sighting = ((s.registrationCleared d).setDeck d
      { (s.registrationCleared d).deck d with rgu := (s.deck d).rgu.lost sighting }).notify d
        (.registration .loss cause sighting (s.deck d).ctx.nextFrame) := rfl
  have deck : (s.registrationLost d cause sighting).deck d =
      { (s.registrationCleared d).deck d with rgu := (s.deck d).rgu.lost sighting } := by
    rw [steps, deck_notify, deck_setDeck_same]
  refine { steps := rfl, registration := by rw [deck], discarded := fun c r current found capturing => ?_, kept := fun none => ?_,
           context := by rw [deck]; exact ctx, channel := by rw [deck]; exact flow, lane := by rw [deck]; exact frame.lane,
           map := by rw [deck]; exact frame.map, cues := by rw [deck]; exact frame.cues, others := fun e he => ?_,
           tables := ?_, planner := by rw [steps, shp_notify]; exact shp,
           snapshot := by rw [steps, gre_notify]; exact congrArg Gre.snapshot frame.gre,
           queues := ?_, interface := ?_, pending := by rw [steps, pending_notify]; exact frame.pending }
  · rw [deck, registrationCleared_discards current found capturing]
    exact discard_effects found
  · rw [deck, registrationCleared_keeps none]
    exact ⟨rfl, rfl⟩
  · rw [steps, deck_notify, deck_setDeck_ne _ _ he, frame.others e he]
  · have gre : (s.registrationLost d cause sighting).gre = s.gre := by rw [steps, gre_notify]; exact frame.gre
    refine ⟨?_, ?_, ?_, by rw [gre], by rw [gre], ?_⟩ <;> rw [steps]
    · rw [profiles_notify]; exact frame.profiles
    · rw [dan_notify]; exact rest.comparators
    · rw [rpe_notify]; exact rest.rules
    · rw [shp_notify]; exact rest.policies
  · refine ⟨?_, ?_⟩ <;> rw [steps]
    · rw [dan_notify]; exact rest.queues.analysis
    · rw [rpe_notify]; exact rest.queues.decision
  · exact sameButNotices_trans rest.interface (sameButNotices_notify _ d _)

/-! ### The state of a lane -/

theorem moveLane_eq (s : State) (d : DeckId) (state : LaneState) (cause : LaneCause) :
    s.moveLane d state cause = (s.setDeck d { s.deck d with lane := state, intake := [] }).notify d (.laneState state cause) := rfl

theorem laneLeavesUp_keeps {s : State} {d : DeckId} (h : ¬ ((s.deck d).ctx.state = .scanning ∧ (s.deck d).rgu.lock ≠ .idle)) :
    s.laneLeavesUp d = s := by
  unfold State.laneLeavesUp
  dsimp only
  split
  · next scanning =>
    have idle : (s.deck d).rgu.lock = .idle := by_contra fun busy => h ⟨scanning, busy⟩
    rw [idle]
  · rfl

theorem laneLeavesUp_acquire {s : State} {d : DeckId} (scanning : (s.deck d).ctx.state = .scanning)
    (acquire : (s.deck d).rgu.lock = .acquire) : s.laneLeavesUp d = s.setDeck d { s.deck d with
      rgu := { (s.deck d).rgu with chain := 0, prev := none, relockPending := true } } := by
  simp only [State.laneLeavesUp, scanning, acquire, if_true, modRgu_eq, State.modDeck]

theorem laneLeavesUp_registered {s : State} {d : DeckId} (scanning : (s.deck d).ctx.state = .scanning)
    (lock : (s.deck d).rgu.lock = .locked ∨ (s.deck d).rgu.lock = .coast) :
    s.laneLeavesUp d = s.registrationLost d .lane none := by
  rw [← loseRegistration_eq s d .lane none (by simp [scanning])]
  rcases lock with lock | lock <;> simp only [State.laneLeavesUp, scanning, lock, if_true]

/-- A lane that leaves UP, by whichever event (R28, R30). -/
theorem laneLeaves_moveLane (s : State) (d : DeckId) (state : LaneState) (cause : LaneCause) :
    LaneLeaves s d state cause (.next ((s.moveLane d state cause).laneLeavesUp d)) := by
  have deck : (s.moveLane d state cause).deck d = { s.deck d with lane := state, intake := [] } := by
    rw [moveLane_eq, deck_notify, deck_setDeck_same]
  refine ⟨fun idle => ?_, fun scanning acquire => ?_, fun scanning lock => ?_⟩
  · rw [laneLeavesUp_keeps (by rw [deck]; exact idle)]
    rfl
  · rw [laneLeavesUp_acquire (by rw [deck]; exact scanning) (by rw [deck]; exact acquire), deck]
    simp only [moveLane_eq, deck_notify, deck_setDeck_same]
  · rw [laneLeavesUp_registered (by rw [deck]; exact scanning) (by rw [deck]; exact lock)]
    exact ⟨_, rfl, registrationLost_effects (by simp [scanning]) .lane none⟩

/-- Settles O13: both events that take a lane out of UP come to laneLeavesUp (laneLeaves_moveLane). -/
theorem laneStatesFollowR28ToR30 : Obligations.LaneStatesFollowR28ToR30 := by
  intro s d k
  have lost : exec (.laneSignalLost d) s = execLaneSignalLost d s := rfl
  refine ⟨?_, ?_, fun down => ?_, fun training => ?_, fun up => ?_, ?_⟩
  · exact (apply_ite Host.Outcome.next ..).symm
  · exact (apply_ite Host.Outcome.next ..).symm
  · rw [lost, execLaneSignalLost, show (s.deck d).lane = .down from down]
  · rw [lost, execLaneSignalLost, show (s.deck d).lane = .training from training, moveLane_eq]
  · rw [lost, execLaneSignalLost, show (s.deck d).lane = .up from up]
    exact laneLeaves_moveLane s d .down .signalLost
  · intro tag rest p h
    have run : exec .retrainLane s = execRetrainLane s := rfl
    rw [run, execRetrainLane, takeDeckRequest_delivered h rfl rfl rfl, refuse_afterTake, refuse_afterTake, replyOk_afterTake]
    have lane : ((s.modAli fun a => a.afterTake rest).deck d).lane = k.lane := rfl
    refine ⟨fun down => ?_, fun training => ?_, fun up => ?_⟩
    · rw [lane, down]
    · rw [lane, training]
    · rw [lane, up]
      exact laneLeaves_moveLane (s.answered p rest .ok .none) d .training .retrain

end Sys2Proof.Machine
end

section
namespace Sys2Proof.Machine

/-! ### What a lane parcel says -/

theorem laneCrc_eq (f : LaneFrame) : laneCrc f = (laneParcel f.kind f.reserved f.payload).crc := by
  simp only [laneCrc, laneParcel, crc16_eq, put32_eq, field32, List.cons_append, List.nil_append]

theorem crcHolds_iff (f : LaneFrame) : crcHolds f = true ↔ f.crc = (laneParcel f.kind f.reserved f.payload).crc := by
  rw [crcHolds, beq_iff_eq, laneCrc_eq]

theorem crcHolds_laneParcel (kind reserved : Byte) (payload : List Byte) : crcHolds (laneParcel kind reserved payload) = true :=
  (crcHolds_iff _).2 rfl

/-- What a SIGHTING must be to be read (R32, R199). -/
theorem readSighting_eq_some_iff (f : LaneFrame) (p : FilmPos) : readSighting f = some p ↔
    crcHolds f = true ∧ f.kind = 1 ∧ f.payload.length = 4 ∧ BitVec.ofNat 32 (le32 f.payload 0) = p := by
  simp [readSighting, sightingKind, and_assoc]

/-- What a MARK must be to be read (R32, R199). -/
theorem readMark_eq_some_iff (f : LaneFrame) (n : Nat) : readMark f = some n ↔
    crcHolds f = true ∧ f.kind = 3 ∧ f.payload.length = 4 ∧ byteAt f.payload 0 = n := by
  simp [readMark, markKind, and_assoc]

/-- What a BAND must be to be read (R32, R199). -/
theorem readBand_eq_some_iff (f : LaneFrame) (w : Nat) (b : BandLines) : readBand f w = some b ↔
    crcHolds f = true ∧ f.kind = 2 ∧ f.payload.length = 8 + 128 * w ∧ le16 f.payload 4 = w
    ∧ ⟨BitVec.ofNat 28 (le32 f.payload 0), cutLines w 16 (readSamples (f.payload.drop 8))⟩ = b := by
  have width : readBand f w = if crcHolds f = true ∧ f.kind = 2 ∧ f.payload.length = 8 + 128 * w ∧ le16 f.payload 4 = w then
      some ⟨BitVec.ofNat 28 (le32 f.payload 0), cutLines w 16 (readSamples (f.payload.drop 8))⟩ else none := by
    simp only [readBand, bandKind, Config.bandLines, Bool.and_eq_true, beq_iff_eq, decide_eq_true_eq]
    by_cases stated : le16 f.payload 4 = w
    · rw [stated]
      refine if_congr ?_ rfl rfl
      constructor
      · rintro ⟨⟨⟨⟨crc, kind⟩, -⟩, length⟩, -⟩
        exact ⟨crc, kind, length, rfl⟩
      · rintro ⟨crc, kind, length, -⟩
        exact ⟨⟨⟨⟨crc, kind⟩, by omega⟩, length⟩, rfl⟩
    · rw [if_neg fun c => stated c.2, if_neg fun c => stated c.2.2.2]
  rw [width]
  simp [and_assoc]

theorem readSighting_none_of {f : LaneFrame} (h : ¬ (crcHolds f = true ∧ f.kind = 1 ∧ f.payload.length = 4)) :
    readSighting f = none :=
  Option.eq_none_iff_forall_ne_some.2 fun p read =>
    let ⟨crc, kind, length, _⟩ := (readSighting_eq_some_iff f p).1 read
    h ⟨crc, kind, length⟩

theorem readMark_none_of {f : LaneFrame} (h : ¬ (crcHolds f = true ∧ f.kind = 3 ∧ f.payload.length = 4)) : readMark f = none :=
  Option.eq_none_iff_forall_ne_some.2 fun n read =>
    let ⟨crc, kind, length, _⟩ := (readMark_eq_some_iff f n).1 read
    h ⟨crc, kind, length⟩

theorem readBand_none_of {f : LaneFrame} {w : Nat}
    (h : ¬ (crcHolds f = true ∧ f.kind = 2 ∧ f.payload.length = 8 + 128 * w ∧ le16 f.payload 4 = w)) : readBand f w = none :=
  Option.eq_none_iff_forall_ne_some.2 fun b read =>
    let ⟨crc, kind, length, width, _⟩ := (readBand_eq_some_iff f w b).1 read
    h ⟨crc, kind, length, width⟩

/-! ### The samples of a band -/

theorem append_bytes16 (v : Word16) : v.extractLsb' 8 8 ++ v.extractLsb' 0 8 = v := by
  rw [BitVec.extractLsb'_append_extractLsb'_eq_extractLsb' (by rfl)]
  simp

theorem readSamples_sampleBytes (xs : List Sample) : readSamples (xs.flatMap sampleBytes) = xs := by
  induction xs with
  | nil => rfl
  | cons x rest ih =>
    have head : readSamples (sampleBytes x ++ rest.flatMap sampleBytes) = x :: readSamples (rest.flatMap sampleBytes) := by
      simp only [sampleBytes, bytes16, List.cons_append, List.nil_append, readSamples, append_bytes16]
    rw [List.flatMap_cons, head, ih]

theorem length_readSamples (bytes : List Byte) : (readSamples bytes).length = bytes.length / 8 := by
  induction bytes using readSamples.induct with
  | case1 r0 r1 g0 g1 b0 b1 i0 i1 rest ih => simp only [readSamples, List.length_cons, ih]; omega
  | case2 bytes short =>
    have few : bytes.length < 8 := by
      rcases bytes with _ | ⟨a, _ | ⟨b, _ | ⟨c, _ | ⟨e, _ | ⟨f, _ | ⟨g, _ | ⟨h, _ | ⟨i, rest⟩⟩⟩⟩⟩⟩⟩⟩ <;> try simp
      exact absurd rfl (short a b c e f g h i rest)
    rw [readSamples.eq_2 _ short, List.length_nil]
    omega

theorem length_sampleBytes (xs : List Sample) : (xs.flatMap sampleBytes).length = 8 * xs.length := by
  simp [List.length_flatMap, sampleBytes, bytes16, Nat.mul_comm]

theorem cutLines_flatten (w : Nat) (lines : List Line) (h : ∀ l ∈ lines, l.length = w) :
    cutLines w lines.length lines.flatten = lines := by
  induction lines with
  | nil => rfl
  | cons l rest ih =>
    have width : l.length = w := h l (List.mem_cons_self ..)
    rw [List.length_cons, List.flatten_cons, cutLines, List.take_left' width, List.drop_left' width,
      ih fun x hx => h x (List.mem_cons_of_mem _ hx)]

theorem length_cutLines (w n : Nat) (samples : List Sample) : (cutLines w n samples).length = n := by
  induction n generalizing samples with
  | zero => rfl
  | succ n ih => rw [cutLines, List.length_cons, ih]

theorem width_cutLines (w n : Nat) (samples : List Sample) (enough : n * w ≤ samples.length) :
    ∀ l ∈ cutLines w n samples, l.length = w := by
  induction n generalizing samples with
  | zero => exact fun l hl => absurd hl List.not_mem_nil
  | succ n ih =>
    rw [Nat.succ_mul] at enough
    intro l hl
    rcases List.mem_cons.1 hl with rfl | hl
    · rw [List.length_take]; omega
    · exact ih _ (by rw [List.length_drop]; omega) l hl

/-- A band that is read has 16 lines of its width. -/
theorem lines_of_readBand {f : LaneFrame} {w : Nat} {b : BandLines} (h : readBand f w = some b) :
    b.lines.length = 16 ∧ ∀ l ∈ b.lines, l.length = w := by
  obtain ⟨-, -, length, -, rfl⟩ := (readBand_eq_some_iff f w b).1 h
  refine ⟨length_cutLines .., width_cutLines _ _ _ ?_⟩
  rw [length_readSamples, List.length_drop]
  omega

/-! ### Parcels as a sound scan head sends them -/

theorem readSighting_laneParcel (p : FilmPos) (reserved : Byte) : readSighting (laneParcel 1 reserved (bytes32 p)) = some p :=
  (readSighting_eq_some_iff ..).2 ⟨crcHolds_laneParcel .., rfl, rfl, le32_bytes32_zero p []⟩

theorem readMark_laneParcel (code b1 b2 b3 reserved : Byte) :
    readMark (laneParcel 3 reserved [code, b1, b2, b3]) = some code.toNat :=
  (readMark_eq_some_iff ..).2 ⟨crcHolds_laneParcel .., rfl, rfl, rfl⟩

theorem readBand_laneParcel (first : Word32) (width : Word16) (b6 b7 reserved : Byte) (lines : List Line)
    (count : lines.length = 16) (even : ∀ l ∈ lines, l.length = width.toNat) :
    let band := laneParcel 2 reserved (bytes32 first ++ bytes16 width ++ [b6, b7] ++ lines.flatten.flatMap sampleBytes)
    readBand band width.toNat = some ⟨first.setWidth 28, lines⟩ ∧ ∀ w, w ≠ width.toNat → readBand band w = none := by
  intro band
  have stated : le16 band.payload 4 = width.toNat := le16_bytes16 width ([b6, b7] ++ lines.flatten.flatMap sampleBytes)
  have firstLine : BitVec.ofNat 28 (le32 band.payload 0) = first.setWidth 28 := by
    have field : le32 band.payload 0 = first.toNat :=
      le32_bytes32 first (bytes16 width ++ [b6, b7] ++ lines.flatten.flatMap sampleBytes)
    rw [field]
    rfl
  have samples : lines.flatten.length = 16 * width.toNat := by
    rw [List.length_flatten, List.map_eq_replicate_iff.2 even, List.sum_replicate, count, smul_eq_mul]
  have length : band.payload.length = 8 + 128 * width.toNat := by
    have tail : band.payload.length = 8 + (lines.flatten.flatMap sampleBytes).length := by
      simp [band, laneParcel, bytes32, bytes16]; omega
    rw [tail, length_sampleBytes, samples]
    omega
  have content : cutLines width.toNat 16 (readSamples (band.payload.drop 8)) = lines := by
    have body : band.payload.drop 8 = lines.flatten.flatMap sampleBytes := rfl
    have pieces := cutLines_flatten width.toNat lines even
    rw [body, readSamples_sampleBytes]
    rwa [count] at pieces
  refine ⟨(readBand_eq_some_iff ..).2 ⟨crcHolds_laneParcel .., rfl, length, stated, by rw [firstLine, content]⟩, fun w other => ?_⟩
  exact readBand_none_of fun ⟨_, _, _, width⟩ => other (width.symm.trans stated)

/-! ### Parcels that are discarded -/

theorem reads_none_of_crc {f : LaneFrame} (h : crcHolds f ≠ true) :
    readSighting f = none ∧ readMark f = none ∧ ∀ width, readBand f width = none :=
  ⟨readSighting_none_of fun c => h c.1, readMark_none_of fun c => h c.1, fun _ => readBand_none_of fun c => h c.1⟩

theorem reads_none_of_kind {f : LaneFrame} (h : f.kind.toNat ∉ [1, 2, 3]) :
    readSighting f = none ∧ readMark f = none ∧ ∀ width, readBand f width = none :=
  ⟨readSighting_none_of fun c => h (by rw [c.2.1]; decide), readMark_none_of fun c => h (by rw [c.2.1]; decide),
    fun _ => readBand_none_of fun c => h (by rw [c.2.1]; decide)⟩

theorem takeSighting_discarded {f : LaneFrame} (h : readSighting f = none) (s : State) (d : DeckId) :
    s.takeSighting d f = s := by
  simp only [State.takeSighting, h]

theorem takeBand_discarded {f : LaneFrame} (h : ∀ width, readBand f width = none) (s : State) (d : DeckId) :
    s.takeBand d f = s := by
  have none_read : ((s.profileOf d).bind fun pf => readBand f pf.lineWidth) = none := by
    cases s.profileOf d with
    | none => rfl
    | some pf => exact h _
  simp only [State.takeBand, none_read]

theorem takeMark_discarded {f : LaneFrame} (leader : readMark f ≠ some 1) (tail : readMark f ≠ some 2) (s : State) (d : DeckId) :
    s.takeMark d f = s := by
  unfold State.takeMark
  split
  · next h => exact absurd h leader
  · next h => exact absurd h tail
  · rfl

/-- A parcel that every check discards does nothing, in any state (R32). -/
theorem laneParcel_discarded {f : LaneFrame} (h : f.discarded) (s : State) (d : DeckId) : s.laneParcel d f = s := by
  obtain ⟨sighting, leader, tail, band⟩ := h
  simp only [State.laneParcel, takeSighting_discarded sighting, takeBand_discarded band, takeMark_discarded leader tail, ite_self]

/-! ### Cutting, parcel by parcel (R199) -/

theorem cutLane_frame {f : LaneFrame} (h : f.fits) (bytes : List Byte) :
    cutLane ((f.bytes ++ bytes).length + 1) (f.bytes ++ bytes)
      = ⟨f :: (cutLane (bytes.length + 1) bytes).frames, (cutLane (bytes.length + 1) bytes).rest⟩ := by
  have behind : (f.bytes ++ bytes).drop (10 + f.payload.length) = bytes := by rw [← bytes_length, List.drop_left]
  have shorter : bytes.length < (f.bytes ++ bytes).length := by rw [List.length_append, bytes_length]; omega
  rw [cutLane, huntLaneSync_bytes, laneHead_bytes f h bytes]
  dsimp only
  rw [behind, cutLane_fuel _ bytes shorter]

/-- A header that announces more than the longest parcel is given up, and nothing behind it. -/
theorem cutLane_overlong (kind reserved : Byte) {length : Word32} (h : 1048584 < length.toNat) (bytes : List Byte) :
    let all := [0x96, 0x5B, kind, reserved] ++ bytes32 length ++ bytes
    cutLane (all.length + 1) all = cutLane (bytes.length + 1) bytes := by
  intro all
  have sync : huntLaneSync all = all := hunt_at_sync _ _ _
  have size : all.length = 8 + bytes.length := by simp [all, bytes32]; omega
  have head : laneHead all = .overlong := by
    unfold laneHead
    dsimp only
    rw [show le32 all 4 = length.toNat from le32_header .., if_neg (by omega),
      if_pos (show Config.maxLanePayload < length.toNat from h)]
  have behind : all.drop 8 = bytes := rfl
  rw [cutLane, sync, head]
  dsimp only
  rw [behind, cutLane_fuel _ bytes (by omega)]

/-- A byte that does not begin a sync word is skipped. -/
theorem cutLane_skip {a b : Byte} (h : ¬ (a = 0x96 ∧ b = 0x5B)) (bytes : List Byte) :
    cutLane ((a :: b :: bytes).length + 1) (a :: b :: bytes) = cutLane ((b :: bytes).length + 1) (b :: bytes) := by
  have hunted : huntLaneSync (a :: b :: bytes) = huntLaneSync (b :: bytes) := if_neg h
  rw [← cutLane_fuel ((a :: b :: bytes).length + 1) (b :: bytes) (by simp), cutLane, hunted, cutLane]

/-! ### Arrivals at an intake that holds nothing -/

theorem laneArrive_empty {s : State} {d : DeckId} (up : (s.deck d).lane = .up) (empty : (s.deck d).intake = []) (bytes : List Byte) :
    let cut := cutLane (bytes.length + 1) bytes
    s.laneArrive d bytes = cut.frames.foldl (fun t f => t.laneParcel d f) (s.setDeck d { s.deck d with intake := cut.rest }) := by
  simp only [State.laneArrive, up, if_true, empty, List.nil_append, State.modDeck]

theorem laneArrive_congr {s : State} {d : DeckId} (up : (s.deck d).lane = .up) (empty : (s.deck d).intake = []) {a b : List Byte}
    (cut : cutLane (a.length + 1) a = cutLane (b.length + 1) b) : s.laneArrive d a = s.laneArrive d b := by
  rw [laneArrive_empty up empty a, laneArrive_empty up empty b, cut]

theorem laneArrive_nothing {s : State} {d : DeckId} (up : (s.deck d).lane = .up) (empty : (s.deck d).intake = []) :
    s.laneArrive d [] = s := by
  have same : s.setDeck d { s.deck d with intake := [] } = s := by
    rw [← empty]; exact setDeck_deck s d
  rw [laneArrive_empty up empty]
  exact same

theorem laneArrive_behindDiscarded {s : State} {d : DeckId} (up : (s.deck d).lane = .up) (empty : (s.deck d).intake = [])
    {f : LaneFrame} (fits : f.fits) (discarded : f.discarded) (bytes : List Byte) :
    s.laneArrive d (f.bytes ++ bytes) = s.laneArrive d bytes := by
  rw [laneArrive_empty up empty, laneArrive_empty up empty, cutLane_frame fits, List.foldl_cons, laneParcel_discarded discarded]

/-- Settles O46: the cutting goes on behind each parcel (cutLane_frame), overlong header (cutLane_overlong) and stray byte (cutLane_skip). -/
theorem laneParcelsFollowR32AndR199 : Obligations.LaneParcelsFollowR32AndR199 := by
  intro s d frame bytes k
  have arrives (bytes : List Byte) : exec (.discardedLaneParcel d bytes) s = .next (s.laneArrive d bytes) := rfl
  have overlong (kind reserved : Byte) (length : Word32) : exec (.overlongLaneHeader d kind reserved length) s
      = exec (.discardedLaneParcel d ([0x96, 0x5B, kind, reserved] ++ bytes32 length)) s := by
    rw [arrives, ← putWord32_eq]
    rfl
  have rows (row : Instr) (hrow : row ∈ laneRows d bytes) : exec row s = exec (.discardedLaneParcel d bytes) s := by
    simp only [laneRows, List.mem_cons, List.not_mem_nil, or_false] at hrow
    rcases hrow with rfl | rfl | rfl | rfl | rfl <;> rfl
  refine ⟨readSighting_laneParcel, readMark_laneParcel, readBand_laneParcel, ?_, fun short => ⟨?_, ?_⟩, fun width short => ?_,
    fun row hrow => ⟨rows row hrow, fun down => ?_⟩, overlong, fun up frames tail left fits tailFits part cut => ?_, fun up empty => ⟨?_, ?_, ?_⟩⟩
  · rintro (crc | kind)
    · exact reads_none_of_crc (mt (crcHolds_iff frame).1 crc)
    · exact reads_none_of_kind kind
  · exact readSighting_none_of fun c => short c.2.2
  · exact readMark_none_of fun c => short c.2.2
  · exact readBand_none_of fun c => short c.2.2.1
  · rw [rows row hrow, arrives, laneArrive_notUp s d bytes down]
  · rw [arrives, laneArrive_frames s d bytes frames tail left up fits tailFits part cut]
  · refine fun fits discarded => ⟨?_, ?_⟩
    · rw [arrives, laneArrive_frame s d frame up empty fits, laneParcel_discarded discarded]
    · rw [arrives, arrives, laneArrive_behindDiscarded up empty fits discarded]
  · refine fun kind reserved length long => ⟨?_, ?_⟩
    · rw [overlong, arrives, ← List.append_nil ([0x96, 0x5B, kind, reserved] ++ bytes32 length),
        laneArrive_congr up empty (cutLane_overlong kind reserved long []), laneArrive_nothing up empty]
    · rw [arrives, arrives, laneArrive_congr up empty (cutLane_overlong kind reserved long bytes)]
  · intro a b other
    rw [arrives, arrives, laneArrive_congr up empty (cutLane_skip other bytes)]

end Sys2Proof.Machine
end

section
namespace Sys2Proof.Machine

/-! ### The close of a frame -/

theorem closeRecord_keeps {s : State} {d : DeckId} {n : Nat}
    (h : ∀ r, (s.deck d).store.find n = some r → r.phase ≠ .capturing) (next first : LineNo) : s.closeRecord d n next first = s := by
  unfold State.closeRecord
  dsimp only
  split
  · rfl
  · next r found =>
    split
    · next capturing _ => exact absurd capturing (h r found)
    · rfl

/-- The line count of a closed frame lies between 0 and 4096 (R52). -/
theorem closedLines_eq (next first : LineNo) :
    closedLines next first = ((min (max (next - first).toInt 0) 4096).toNat, decide (4096 < (next - first).toInt)) := by
  have count : min (next - first).toInt.toNat 4096 = (min (max (next - first).toInt 0) 4096).toNat := by omega
  rw [← count]
  rfl

/-- A CAPTURING frame closed: CAPTURED with its lines and flags, no line marked as written, and in the analysis queue (R47, R52, R53, R88). -/
theorem closeRecord_closes {s : State} {d : DeckId} {n : Nat} {r : FrameRecord} {i : Fin 8}
    (found : (s.deck d).store.find n = some r) (capturing : r.phase = .capturing) (slot : r.slot = some i) (next first : LineNo) :
    let k := s.deck d
    let count := (next - first).toInt
    let lines := (min (max count 0) 4096).toNat
    let flags : FrameFlags :=
      { r.flags with
        truncated := r.flags.truncated || decide (4096 < count)
        missingLines := r.flags.missingLines || (List.range lines).any fun x => !k.store.slots[i].written.contains x }
    s.closeRecord d n next first =
      ({ s with dan := { s.dan with queue := s.dan.queue ++ [⟨d, n⟩] } } : State).setDeck d { k with store := { k.store with
        records := k.store.records.map fun q =>
          if q.number = n then { q with phase := .captured, lines := lines, flags := flags } else q
        slots := k.store.slots.set i.val { k.store.slots[i] with written := [] } i.isLt } } := by
  intro k count lines flags
  simp only [State.closeRecord, found, capturing, slot, closedLines_eq, linesMissing, modStore_eq, State.modDeck, State.modDan,
    DeckStore.update, DeckStore.modSlot, beq_iff_eq]
  rfl

theorem deck_closeRecord (s : State) (d : DeckId) (n : Nat) (next first : LineNo) :
    ∃ store, (s.closeRecord d n next first).deck d = { s.deck d with store := store } := by
  unfold State.closeRecord
  dsimp only
  split
  · exact ⟨_, rfl⟩
  · split
    · exact ⟨_, (deck_modDan ..).trans (deck_modDeck_same ..)⟩
    · exact ⟨_, rfl⟩

theorem profiles_closeRecord (s : State) (d : DeckId) (n : Nat) (next first : LineNo) :
    (s.closeRecord d n next first).profiles = s.profiles := by
  unfold State.closeRecord
  dsimp only
  split
  · rfl
  · split <;> rfl

/-! ### A boundary takes effect -/

/-- The part with the current frame of deck d closed at a line, the first step of R47. -/
def State.currentClosed (s : State) (d : DeckId) (line : LineNo) : State :=
  match (s.deck d).rgu.current with
  | some c => s.closeRecord d c.number line c.first
  | none => s

theorem deck_currentClosed (s : State) (d : DeckId) (line : LineNo) :
    ∃ store, (s.currentClosed d line).deck d = { s.deck d with store := store } := by
  unfold State.currentClosed
  split
  · exact deck_closeRecord ..
  · exact ⟨_, rfl⟩

theorem profiles_currentClosed (s : State) (d : DeckId) (line : LineNo) : (s.currentClosed d line).profiles = s.profiles := by
  unfold State.currentClosed
  split
  · exact profiles_closeRecord ..
  · rfl

theorem profileOf_currentClosed (s : State) (d : DeckId) (line : LineNo) : (s.currentClosed d line).profileOf d = s.profileOf d := by
  obtain ⟨store, deck⟩ := deck_currentClosed s d line
  simp only [State.profileOf, deck, profiles_currentClosed]

/-- A Registration Unit whose numbers are exhausted, as a boundary that takes effect leaves it (R50). -/
def Rgu.exhausted (r : Rgu) : Rgu :=
  { r with current := none, lock := .acquire, relockPending := true, avg := none, candidate := none, boundary := none }

theorem exhaust_eq (s : State) (d : DeckId) (sighting : Option FilmPos) :
    s.exhaust d sighting = (s.setDeck d { s.deck d with rgu := (s.deck d).rgu.exhausted }).notify d
      (.registration .loss .numbers sighting (s.deck d).ctx.nextFrame) := by
  simp only [State.exhaust, State.notifyRegistration, modRgu_eq, deck_modDeck_same]
  rfl

/-- What a boundary that takes effect does: the current frame is closed, and registration ends or the next frame opens (R47, R50). -/
theorem takeEffect_eq (s : State) (d : DeckId) (b : Boundary) (line : LineNo) :
    let closed := s.currentClosed d line
    s.takeEffect d b line =
      if (s.deck d).rgu.numbersExhausted = true then
        (closed.setDeck d { closed.deck d with rgu := (s.deck d).rgu.exhausted }).notify d (.registration .loss .numbers
          ((s.profileOf d).map fun pf => b.position - BitVec.ofNat 32 pf.frameLineOffset) (s.deck d).ctx.nextFrame)
      else closed.openFrame d b line := by
  intro closed
  obtain ⟨store, deck⟩ := deck_currentClosed s d line
  have effect : s.takeEffect d b line = if (closed.deck d).rgu.numbersExhausted = true then
      closed.exhaust d (closed.sightingOf d b) else closed.openFrame d b line := rfl
  rw [effect, exhaust_eq, State.sightingOf, profileOf_currentClosed, deck]

/-! ### The opening of a frame -/

/-- Deck d with the next number consumed (R47 step 3). -/
def State.frameNumbered (s : State) (d : DeckId) : State :=
  let k := s.deck d
  let n := k.ctx.nextFrame
  let last := decide (n = 16777215)
  s.setDeck d { k with
    ctx := { k.ctx with nextFrame := if last then n else n + 1 }
    rgu := { k.rgu with numbersExhausted := k.rgu.numbersExhausted || last }
    store := { k.store with lastConsumed := some n } }

theorem frameNumbered_eq (s : State) (d : DeckId) :
    (if (s.deck d).ctx.nextFrame = Config.max24 then s.modRgu d fun r => { r with numbersExhausted := true }
      else s.modCtx d fun c => { c with nextFrame := (s.deck d).ctx.nextFrame + 1 }).modStore d
        (fun k => { k with lastConsumed := some (s.deck d).ctx.nextFrame }) = s.frameNumbered d := by
  by_cases top : (s.deck d).ctx.nextFrame = 16777215
  · rw [if_pos (show _ = Config.max24 from top)]
    simp only [State.frameNumbered, top, modRgu_eq, modStore_eq, State.modDeck, deck_setDeck_same, setDeck_setDeck,
      decide_true, Bool.or_true, if_true]
    rw [← top]
  · rw [if_neg (show ¬ _ = Config.max24 from top)]
    simp only [State.frameNumbered, top, modCtx_eq, modStore_eq, State.modDeck, deck_setDeck_same, setDeck_setDeck,
      decide_false, Bool.or_false, Bool.false_eq_true, if_false]

/-- The declarations that the unit still owes, after a boundary has made one (R49). -/
def State.declares (s : State) (d : DeckId) : Declaration → State
  | .start => s.modRgu d fun r => { r with firstLock := false }
  | .relock => s.modRgu d fun r => { r with relockPending := false }
  | .splice | .none => s

theorem declares_eq (s : State) (d : DeckId) (declaration : Declaration) :
    s.declares d declaration = s.setDeck d { s.deck d with rgu :=
      { (s.deck d).rgu with
        firstLock := (s.deck d).rgu.firstLock && declaration != .start
        relockPending := (s.deck d).rgu.relockPending && declaration != .relock } } := by
  have other {x y : Declaration} (h : x ≠ y) : (x != y) = true := bne_iff_ne.2 h
  cases declaration with
  | start => simp [State.declares, State.modDeck, other]
  | relock => simp [State.declares, State.modDeck, other]
  | splice | none =>
    simp only [State.declares, ne_eq, reduceCtorEq, not_false_eq_true, other, Bool.and_true]
    exact (setDeck_deck s d).symm

/-- The greatest shrinkage, after a boundary with or without one (R48). -/
def State.shrinks (s : State) (d : DeckId) : Option Nat → State
  | some v => s.modCtx d fun c => { c with maxShrink := max c.maxShrink v }
  | none => s

theorem shrinks_eq (s : State) (d : DeckId) (shrink : Option Nat) :
    s.shrinks d shrink = s.setDeck d { s.deck d with ctx :=
      { (s.deck d).ctx with maxShrink := max (s.deck d).ctx.maxShrink (shrink.getD 0) } } := by
  cases shrink with
  | some v => rfl
  | none =>
    simp only [State.shrinks, Option.getD_none, Nat.max_zero]
    exact (setDeck_deck s d).symm

/-- The steps of R47 from the third on. -/
theorem openFrame_steps (s : State) (d : DeckId) (b : Boundary) (line : LineNo) :
    let n := (s.deck d).ctx.nextFrame
    let t := (((if n = Config.max24 then s.modRgu d fun r => { r with numbersExhausted := true }
      else s.modCtx d fun c => { c with nextFrame := n + 1 }).modStore d
        (fun k => { k with lastConsumed := some n })).tellShotTable d n b.declaration).declares d b.declaration
    s.openFrame d b line = ((t.createRecord d n ⟨b.position, b.offset, b.deviation, b.coasted, b.spurious,
      (t.deck d).table.lastIndex⟩).shrinks d b.shrink).modRgu d fun r =>
        { r with current := some ⟨n, line, none⟩, boundary := none } := rfl

/-- The opening of a frame, in one piece (R47, R48, R49). -/
theorem openFrame_eq (s : State) (d : DeckId) (b : Boundary) (line : LineNo) :
    let n := (s.deck d).ctx.nextFrame
    let told := (s.frameNumbered d).tellShotTable d n b.declaration
    let m := told.deck d
    let made := (told.setDeck d { m with rgu :=
      { m.rgu with
        firstLock := m.rgu.firstLock && b.declaration != .start
        relockPending := m.rgu.relockPending && b.declaration != .relock } }).createRecord d n
          ⟨b.position, b.offset, b.deviation, b.coasted, b.spurious, m.table.shots.length - 1⟩
    let o := made.deck d
    s.openFrame d b line = made.setDeck d { o with
      ctx := { o.ctx with maxShrink := max o.ctx.maxShrink (b.shrink.getD 0) }
      rgu := { o.rgu with current := some ⟨n, line, none⟩, boundary := none } } := by
  intro n told m made o
  have steps := openFrame_steps s d b line
  dsimp only at steps
  rw [frameNumbered_eq, declares_eq, shrinks_eq, modRgu_eq, State.modDeck, deck_setDeck_same, setDeck_setDeck,
    deck_setDeck_same] at steps
  exact steps

/-! ### Boundaries -/

theorem formBoundary_free {s : State} {d : DeckId} (h : (s.deck d).rgu.boundary = none) (b : Boundary) :
    s.formBoundary d b = s.setDeck d { s.deck d with rgu := { (s.deck d).rgu with boundary := some b } } := by
  simp only [State.formBoundary, h, modRgu_eq, State.modDeck]

/-- The first line of the frame that a boundary opens: after a current frame the later of the boundary's line and the end of what was written, else
the line given (R46). -/
def Rgu.openingLine (r : Rgu) (b : Boundary) (otherwise : LineNo) : LineNo :=
  match r.current with
  | some c => laterOf b.line (c.mark.getD c.first)
  | none => otherwise

/-- A boundary already pending takes effect when a new one is formed (R45). -/
theorem formBoundary_pending {s : State} {d : DeckId} {old : Boundary} (h : (s.deck d).rgu.boundary = some old) (b : Boundary) :
    let t := s.takeEffect d old ((s.deck d).rgu.openingLine old old.line)
    s.formBoundary d b = t.setDeck d { t.deck d with rgu := { (t.deck d).rgu with boundary := some b } } := by
  simp only [State.formBoundary, h, modRgu_eq, State.modDeck]
  rfl

/-- The two outcomes of the close of the current frame (R47, R52, R53, R58). -/
theorem currentClosed_eq {s closed : State} {d : DeckId} {line : LineNo}
    (h : (closed = s ∧ ∀ c r, (s.deck d).rgu.current = some c → (s.deck d).store.find c.number = some r → r.phase ≠ .capturing)
      ∨ ∃ c r i, (s.deck d).rgu.current = some c ∧ (s.deck d).store.find c.number = some r ∧ r.phase = .capturing ∧ r.slot = some i
        ∧ closed = s.closeRecord d c.number line c.first) : s.currentClosed d line = closed := by
  unfold State.currentClosed
  rcases h with ⟨rfl, other⟩ | ⟨c, r, i, current, found, capturing, slot, rfl⟩
  · split
    · next c current => exact closeRecord_keeps (fun r => other c r current) ..
    · rfl
  · rw [current]

/-- Settles O49: what is pending takes effect (formBoundary_pending), in the steps of takeEffect_eq and openFrame_eq. -/
theorem boundariesFollowR45ToR53 : Obligations.BoundariesFollowR45ToR53 := by
  intro s d b line k
  refine ⟨fun free => formBoundary_free free b, fun old pending => ?_, fun closed h => ?_, openFrame_eq s d b line⟩
  · exact formBoundary_pending pending b
  · have steps : s.currentClosed d line = closed := by
      refine currentClosed_eq (h.imp_right ?_)
      rintro ⟨c, r, i, current, found, capturing, slot, rfl⟩
      exact ⟨c, r, i, current, found, capturing, slot, (closeRecord_closes found capturing slot line c.first).symm⟩
    rw [takeEffect_eq, steps]
    rfl

end Sys2Proof.Machine
end

section
namespace Sys2Proof.Machine

/-! ### Sightings and marks that reach a deck -/

theorem kind_of_readSighting {f : LaneFrame} {p : FilmPos} (h : readSighting f = some p) : f.kind = sightingKind :=
  ((readSighting_eq_some_iff f p).1 h).2.1

/-- A sighting in a scan (R32, R35, R37). -/
theorem laneParcel_sighting {s : State} {d : DeckId} {f : LaneFrame} {p : FilmPos} (scanning : (s.deck d).ctx.state = .scanning)
    (read : readSighting f = some p) : s.laneParcel d f = (s.profileOf d).elim s fun pf => s.judgeSighting d pf p := by
  rw [State.laneParcel, if_neg (not_not.2 scanning), if_pos (kind_of_readSighting read), State.takeSighting, read]
  cases s.profileOf d <;> rfl

/-- A LEADER mark in a scan (R33). -/
theorem laneParcel_leader {s : State} {d : DeckId} {f : LaneFrame} (scanning : (s.deck d).ctx.state = .scanning)
    (leader : readMark f = some 1) : s.laneParcel d f =
      if (s.deck d).rgu.lock = .acquire then s.setDeck d { s.deck d with rgu := { (s.deck d).rgu with chain := 0, prev := none } }
      else s := by
  have kind := kind_of_readMark leader
  have mark : s.takeMark d f = if (s.deck d).rgu.lock = .acquire then
      s.setDeck d { s.deck d with rgu := { (s.deck d).rgu with chain := 0, prev := none } } else s := by
    simp only [State.takeMark, leader, modRgu_eq, State.modDeck]
  rw [State.laneParcel, if_neg (not_not.2 scanning), if_neg (by rw [kind]; decide), if_neg (by rw [kind]; decide), if_pos kind, mark]

/-- Bytes of a whole parcel at an intake that holds none, by whichever row: the parcel is read on a lane that is UP in a scan. -/
theorem laneArrive_parcel {s : State} {d : DeckId} {f : LaneFrame} (empty : (s.deck d).intake = []) (fits : f.fits) :
    s.laneArrive d f.bytes = if (s.deck d).lane = .up ∧ (s.deck d).ctx.state = .scanning then s.laneParcel d f else s := by
  by_cases up : (s.deck d).lane = .up
  · by_cases scanning : (s.deck d).ctx.state = .scanning
    · rw [if_pos ⟨up, scanning⟩, laneArrive_frame s d f up empty fits]
    · rw [if_neg fun c => scanning c.2, laneArrive_frame s d f up empty fits, laneParcel_notScanning scanning]
  · rw [if_neg fun c => up c.1, laneArrive_notUp s d f.bytes up]

/-- A sighting whose bytes arrive in a scan is judged by the profile bound to the deck. -/
theorem exec_sighting {s : State} {d : DeckId} {frame : LaneFrame} {p : FilmPos} {pf : Profile}
    (up : (s.deck d).lane = .up) (empty : (s.deck d).intake = []) (fits : frame.fits) (scanning : (s.deck d).ctx.state = .scanning)
    (read : readSighting frame = some p) (profile : s.profileOf d = some pf) :
    exec (.sighting d frame.bytes) s = .next (s.judgeSighting d pf p) := by
  have run : exec (.sighting d frame.bytes) s = .next (s.laneArrive d frame.bytes) := rfl
  rw [run, laneArrive_parcel empty fits, if_pos ⟨up, scanning⟩, laneParcel_sighting scanning read, profile]
  rfl

/-! ### Acquisition -/

section
variable {s : State} {d : DeckId} (pf : Profile) (p : FilmPos)

theorem judgeSighting_idle (lock : (s.deck d).rgu.lock = .idle) : s.judgeSighting d pf p = s := by
  simp only [State.judgeSighting, lock]

theorem judgeSighting_acquire (lock : (s.deck d).rgu.lock = .acquire) : s.judgeSighting d pf p = s.acquireSighting d pf p := by
  simp only [State.judgeSighting, lock]

theorem acquireSighting_exhausted (exhausted : (s.deck d).rgu.numbersExhausted = true) : s.acquireSighting d pf p = s := by
  simp only [State.acquireSighting, exhausted, if_true]

theorem acquireSighting_first (numbers : (s.deck d).rgu.numbersExhausted = false) (first : (s.deck d).rgu.prev = none) :
    s.acquireSighting d pf p = s.setDeck d { s.deck d with rgu := { (s.deck d).rgu with chain := 1, prev := some p } } := by
  simp only [State.acquireSighting, numbers, Bool.false_eq_true, if_false, first, modRgu_eq, State.modDeck]

/-- How far a sighting lies from the nominal pitch after the previous one (R35). -/
def pitchDeviation (pf : Profile) (p q : FilmPos) : Nat := ((p - q).toInt - pf.nominalPitch).natAbs

/-- The acquisition chain after a sighting behind another (R35). -/
def chainAfter (pf : Profile) (p q : FilmPos) (chain : Nat) : Nat :=
  if pitchDeviation pf p q ≤ pf.pitchTolerance then chain + 1 else 1

theorem roundHalfUp_eq (a : Int) (n : Nat) : roundHalfUp a n = (2 * a + n) / (2 * n) :=
  Int.fdiv_eq_ediv_of_nonneg _ (by omega)

/-- The shrinkage at the nominal pitch is 0 (R48). -/
theorem shrinkage_nominal (n : Nat) : shrinkage n n = 0 := by
  have half : (n : Int) / (2 * n) = 0 := by
    have : n / (2 * n) = 0 := Nat.div_eq_zero_iff.2 (by omega)
    exact_mod_cast this
  simp only [shrinkage, sub_self, zero_mul, roundHalfUp_eq, mul_zero, zero_add, half]
  rfl

/-- The unit LOCKED on a sighting (R36). -/
def Rgu.lockedOn (r : Rgu) (pf : Profile) (p : FilmPos) : Rgu :=
  { r with
    lock := .locked, chain := 0, prev := some p, prevAccepted := true, avg := some pf.nominalPitch, index := 0
    misses := 0, candidate := none }

/-- The lock on a sighting forms a boundary and tells it (R36, R44). -/
theorem lockOn_eq (deviation : Nat) :
    let r := (s.deck d).rgu
    let declaration : Declaration := if r.firstLock = true then .start else .relock
    let t := (s.setDeck d { s.deck d with rgu := { r.lockedOn pf p with prev := r.prev } }).formBoundary d
      (boundaryOf pf p declaration 0 deviation false (some 0))
    s.lockOn d pf p deviation = t.notify d (.registration .lock .none (some p) (t.deck d).ctx.nextFrame) := by
  intro r declaration t
  simp only [State.lockOn, shrinkage_nominal, modRgu_eq, State.modDeck]
  rfl

/-- A sighting behind another lengthens or restarts the chain, and locks when it is long enough (R35, R36). -/
theorem acquireSighting_next {q : FilmPos} (numbers : (s.deck d).rgu.numbersExhausted = false)
    (prev : (s.deck d).rgu.prev = some q) :
    let r := (s.deck d).rgu
    let chain := chainAfter pf p q r.chain
    let declaration : Declaration := if r.firstLock = true then .start else .relock
    let t := (s.setDeck d { s.deck d with rgu := r.lockedOn pf p }).formBoundary d
      (boundaryOf pf p declaration 0 (pitchDeviation pf p q) false (some 0))
    s.acquireSighting d pf p =
      if pf.lockCount ≤ chain then t.notify d (.registration .lock .none (some p) (t.deck d).ctx.nextFrame)
      else s.setDeck d { s.deck d with rgu := { r with chain := chain, prev := some p } } := by
  intro r chain declaration t
  have chained : s.acquireSighting d pf p =
      let u := s.setDeck d { s.deck d with rgu := { r with chain := chain, prev := some p } }
      if pf.lockCount ≤ chain then u.lockOn d pf p (pitchDeviation pf p q) else u := by
    unfold State.acquireSighting
    dsimp only
    rw [if_neg (by rw [numbers]; decide), prev]
    rfl
  rw [chained]
  dsimp only
  rw [lockOn_eq, deck_setDeck_same, setDeck_setDeck]
  rfl

end

/-- Settles O47: a sighting in ACQUIRE extends or restarts the chain, and locks (acquireSighting_next). -/
theorem acquisitionFollowsR33R35AndR36 : Obligations.AcquisitionFollowsR33R35AndR36 := by
  intro s d frame k r empty fits
  refine ⟨fun leader => ?_, fun p read idle => ?_, fun p pf up scanning read profile lock => ?_⟩
  · have run : exec (.leader d frame.bytes) s = .next (s.laneArrive d frame.bytes) := rfl
    rw [run, laneArrive_parcel empty fits]
    refine congrArg _ ?_
    by_cases reaches : k.lane = .up ∧ k.ctx.state = .scanning
    · rw [if_pos reaches, laneParcel_leader reaches.2 leader]
      exact if_congr ⟨fun acquire => ⟨reaches.1, reaches.2, acquire⟩, fun c => c.2.2⟩ rfl rfl
    · rw [if_neg reaches, if_neg fun c => reaches ⟨c.1, c.2.1⟩]
  · have run : exec (.sighting d frame.bytes) s = .next (s.laneArrive d frame.bytes) := rfl
    rw [run, laneArrive_parcel empty fits]
    refine congrArg _ (ite_eq_right_iff.2 fun ⟨up, scanning⟩ => ?_)
    have lock : r.lock = .idle := (idle.resolve_left (not_not.2 up)).resolve_left (not_not.2 scanning)
    rw [laneParcel_sighting scanning read]
    cases s.profileOf d with
    | none => rfl
    | some pf => exact judgeSighting_idle pf p lock
  · rw [exec_sighting up empty fits scanning read profile, judgeSighting_acquire pf p lock]
    refine ⟨fun exhausted => ?_, fun numbers first => ?_, ?_⟩
    · rw [acquireSighting_exhausted pf p exhausted]
    · rw [acquireSighting_first pf p numbers first]
    · intro q numbers prev deviation chain
      rw [acquireSighting_next pf p numbers prev]
      exact ⟨fun short => congrArg _ (if_neg (Nat.not_le.2 short)), fun long => congrArg _ (if_pos long)⟩

end Sys2Proof.Machine
end

section
namespace Sys2Proof.Machine

/-! ### Lines written into a slot -/

theorem mem_insertIndex (i x : Nat) (l : List Nat) : x ∈ insertIndex i l ↔ x = i ∨ x ∈ l := by
  induction l with
  | nil => simp [insertIndex]
  | cons j rest ih =>
    unfold insertIndex
    split
    · simp
    · split
      · next same => simp [same]
      · simp only [List.mem_cons, ih]; tauto

theorem eq_replicate_of_blackLine {l : Line} (h : blackLine l = true) : l = List.replicate l.length blackSample := by
  rw [List.eq_replicate_iff]
  exact ⟨rfl, by simpa [blackLine] using h⟩

/-- A line as the blocks read it after a write (R55). -/
theorem line_write {m : SlotMem} (wf : SlotMem.wf m = true) {w : Nat} {l : Line} (width : l.length = w) (i x : Nat) :
    SlotMem.line (SlotMem.write m i l) w x = if x = i then l else SlotMem.line m w x := by
  by_cases same : x = i
  · rw [if_pos same, SlotMem.line, same, find_write_same m i l wf]
    by_cases black : blackLine l = true
    · rw [if_pos black, Option.getD_none, ← width]
      exact (eq_replicate_of_blackLine black).symm
    · rw [if_neg black, Option.getD_some]
  · rw [if_neg same, SlotMem.line, find_write_ne m l same, SlotMem.line]

theorem held_writeLines (slot : Slot) (k : Nat) (lines : List Line) : (writeLines slot k lines).held = slot.held := by
  induction lines generalizing slot k with
  | nil => rfl
  | cons l rest ih =>
    rw [writeLines, ih]
    split <;> rfl

/-- Which lines are marked as written after a band's lines from index k on (R51, R52). -/
theorem written_writeLines (slot : Slot) (k : Nat) (lines : List Line) (x : Nat) :
    x ∈ (writeLines slot k lines).written ↔ x ∈ slot.written ∨ (k ≤ x ∧ x < k + lines.length ∧ x < 4096) := by
  induction lines generalizing slot k with
  | nil => simp [writeLines]; omega
  | cons l rest ih =>
    rw [writeLines, ih, List.length_cons, Config.maxLines]
    by_cases room : k < 4096
    · rw [if_pos room, mem_insertIndex]
      constructor
      · rintro ((rfl | old) | new)
        · exact .inr (by omega)
        · exact .inl old
        · exact .inr (by omega)
      · rintro (old | new)
        · exact .inl (.inr old)
        · by_cases first : x = k
          · exact .inl (.inl first)
          · exact .inr (by omega)
    · rw [if_neg room]
      refine or_congr Iff.rfl ?_
      omega

/-- What the lines of a slot read after a band's lines from index k on: the band's below index 4096, and the others as before (R51, R52, R55). -/
theorem line_writeLines {slot : Slot} (wf : SlotMem.wf slot.mem = true) {w : Nat} {lines : List Line}
    (width : ∀ l ∈ lines, l.length = w) (k x : Nat) :
    SlotMem.line (writeLines slot k lines).mem w x =
      if k ≤ x ∧ x < k + lines.length ∧ x < 4096 then lines.getD (x - k) [] else SlotMem.line slot.mem w x := by
  induction lines generalizing slot k with
  | nil => rw [if_neg (by simp; omega)]; rfl
  | cons l rest ih =>
    have width_rest : ∀ l ∈ rest, l.length = w := fun y hy => width y (List.mem_cons_of_mem _ hy)
    have width_head : l.length = w := width l (List.mem_cons_self ..)
    rw [writeLines, List.length_cons, Config.maxLines]
    by_cases room : k < 4096
    · rw [if_pos room, ih (write_wf k l wf) width_rest, line_write wf width_head]
      by_cases first : x = k
      · rw [if_neg (by omega), if_pos first, if_pos (by omega), first, Nat.sub_self, List.getD_cons_zero]
      · rw [if_neg first]
        by_cases later : k + 1 ≤ x ∧ x < k + 1 + rest.length ∧ x < 4096
        · have place : x - k = (x - (k + 1)) + 1 := by omega
          rw [if_pos later, if_pos (by omega), place, List.getD_cons_succ]
        · rw [if_neg later, if_neg (by omega)]
    · rw [if_neg room, ih wf width_rest, if_neg (by omega), if_neg (by omega)]

/-! ### A band reaches a boundary and the current frame -/

section
variable {s : State} {d : DeckId}

theorem bandReaches_reached {first : LineNo} {b : Boundary} (pending : (s.deck d).rgu.boundary = some b)
    (reached : 0 ≤ (first - b.line).toInt) :
    s.bandReaches d first = s.takeEffect d b ((s.deck d).rgu.openingLine b first) := by
  simp only [State.bandReaches, pending]
  exact if_pos reached

theorem bandReaches_waits {first : LineNo} (before : ∀ b, (s.deck d).rgu.boundary = some b → (first - b.line).toInt < 0) :
    s.bandReaches d first = s := by
  unfold State.bandReaches
  dsimp only
  split
  · next b pending => exact if_neg (not_le.2 (before b pending))
  · rfl

theorem assignBand_discarded {first : LineNo} (lines : List Line)
    (h : ∀ c r, (s.deck d).rgu.current = some c → (s.deck d).store.find c.number = some r → r.phase = .capturing →
      (first - c.first).toInt < 0) : s.assignBand d first lines = s := by
  unfold State.assignBand
  dsimp only
  split
  · rfl
  · next c current =>
    split
    · rfl
    · next r found =>
      split
      · next capturing _ => exact if_pos (h c r current found capturing)
      · rfl

theorem assignBand_writes {first : LineNo} {c : CurrentFrame} {r : FrameRecord} {i : Fin 8}
    (current : (s.deck d).rgu.current = some c) (found : (s.deck d).store.find c.number = some r) (capturing : r.phase = .capturing)
    (slot : r.slot = some i) (inside : 0 ≤ (first - c.first).toInt) (lines : List Line) :
    s.assignBand d first lines = s.setDeck d { s.deck d with
      rgu := { (s.deck d).rgu with current := some { c with mark := some (c.markAfter first) } }
      store := (s.deck d).store.writeBand c.number i (first - c.first).toInt.toNat lines } := by
  simp only [State.assignBand, current, found, capturing, slot, modRgu_eq, modStore_eq, State.modDeck, deck_setDeck_same,
    setDeck_setDeck]
  exact if_neg (not_lt.2 inside)

/-- A band written into a slot, and the truncated flag of a frame whose room it exceeds (R51, R52). -/
theorem writeBand_eq (store : DeckStore) (n : Nat) (i : Fin 8) (k : Nat) (lines : List Line) :
    store.writeBand n i k lines = { store with
      slots := store.slots.set i.val (writeLines store.slots[i] k lines) i.isLt
      records := if 4096 < k + lines.length then
          store.records.map fun q => if q.number = n then { q with flags := { q.flags with truncated := true } } else q
        else store.records } := by
  by_cases exceeds : 4096 < k + lines.length
  · simp only [DeckStore.writeBand, Config.maxLines, exceeds, if_true, DeckStore.update, DeckStore.modSlot, beq_iff_eq]
  · simp only [DeckStore.writeBand, Config.maxLines, exceeds, if_false, DeckStore.modSlot]

/-- A BAND parcel in a scan (R32, R46, R51). -/
theorem laneParcel_band {f : LaneFrame} {pf : Profile} (scanning : (s.deck d).ctx.state = .scanning) (kind : f.kind = 2)
    (profile : s.profileOf d = some pf) : s.laneParcel d f = (readBand f pf.lineWidth).elim s fun b =>
      (s.bandReaches d b.first).assignBand d b.first b.lines := by
  rw [State.laneParcel, if_neg (not_not.2 scanning), if_neg (by rw [kind]; decide), if_pos (show f.kind = bandKind from kind),
    State.takeBand, profile, Option.bind_some]
  cases readBand f pf.lineWidth <;> rfl

end

/-- Settles O53: the band reaches its boundary (bandReaches_reached) and its lines are written (assignBand_writes, line_writeLines). -/
theorem bandFollowsR46R51AndR55 : Obligations.BandFollowsR46R51AndR55 := by
  intro s d frame pf k profile empty fits kind
  have run : exec (.band d frame.bytes) s = .next (s.laneArrive d frame.bytes) := rfl
  rw [run, laneArrive_parcel empty fits]
  constructor
  · intro dropped
    refine congrArg _ (ite_eq_right_iff.2 fun ⟨up, scanning⟩ => ?_)
    have unread : readBand frame pf.lineWidth = none := (dropped.resolve_left (not_not.2 up)).resolve_left (not_not.2 scanning)
    rw [laneParcel_band scanning kind profile, unread]
    rfl
  · intro band m up scanning read reaches l
    have reached : s.bandReaches d band.first = m := by
      rcases reaches with ⟨b, pending, reached, rfl⟩ | ⟨rfl, before⟩
      · exact bandReaches_reached pending reached
      · exact bandReaches_waits before
    rw [if_pos ⟨up, scanning⟩, laneParcel_band scanning kind profile, read, Option.elim_some, reached]
    obtain ⟨count, width⟩ := lines_of_readBand read
    refine ⟨fun early => by rw [assignBand_discarded band.lines early], ?_⟩
    intro c r i current found capturing slot inside wf at0 after mark
    refine ⟨writeLines l.store.slots[i] at0 band.lines, ?_, held_writeLines .., fun x => ?_, fun x => ?_⟩
    · rw [assignBand_writes current found capturing slot inside, writeBand_eq, count]
      rfl
    · rw [written_writeLines, count]
    · rw [line_writeLines wf width, count]

end Sys2Proof.Machine
end

section
namespace Sys2Proof.Machine

/-! ### What a boundary keeps of the tracking -/

/-- A Registration Unit that tracks on: its misses are kept, and so are lock, pitch and candidate unless the numbers were exhausted and registration
ended (R50). -/
def Rgu.tracks (r q : Rgu) : Prop :=
  q.misses = r.misses ∧ (r.numbersExhausted = true → q.numbersExhausted = true)
  ∧ (q.lock = r.lock ∧ q.avg = r.avg ∧ q.candidate = r.candidate ∨ q.lock = .acquire ∧ q.numbersExhausted = true)

theorem Rgu.tracks_refl (r : Rgu) : r.tracks r := ⟨rfl, id, .inl ⟨rfl, rfl, rfl⟩⟩

theorem Rgu.tracks_trans {a b c : Rgu} (h : a.tracks b) (g : b.tracks c) : a.tracks c := by
  obtain ⟨misses, numbers, ends⟩ := h
  obtain ⟨misses', numbers', ends'⟩ := g
  refine ⟨misses'.trans misses, numbers' ∘ numbers, ?_⟩
  rcases ends' with ⟨lock', avg', candidate'⟩ | ended'
  · rcases ends with ⟨lock, avg, candidate⟩ | ⟨acquire, exhausted⟩
    · exact .inl ⟨lock'.trans lock, avg'.trans avg, candidate'.trans candidate⟩
    · exact .inr ⟨lock'.trans acquire, numbers' exhausted⟩
  · exact .inr ended'

/-- What a boundary on deck d keeps, so that a sighting can be judged again after it: the lane, the scan, the profile, and the tracking. -/
structure TrackFrame (d : DeckId) (s t : State) : Prop where
  lane : (t.deck d).lane = (s.deck d).lane ∧ (t.deck d).intake = (s.deck d).intake
  profiles : t.profiles = s.profiles
  context : (s.deck d).ctx.state = .scanning →
    (t.deck d).ctx.state = .scanning ∧ (t.deck d).ctx.profile = (s.deck d).ctx.profile
  rgu : (s.deck d).rgu.tracks (t.deck d).rgu

theorem TrackFrame.refl (d : DeckId) (s : State) : TrackFrame d s s := ⟨⟨rfl, rfl⟩, rfl, fun h => ⟨h, rfl⟩, Rgu.tracks_refl _⟩

theorem TrackFrame.trans {d : DeckId} {a b c : State} (h : TrackFrame d a b) (g : TrackFrame d b c) : TrackFrame d a c where
  lane := ⟨g.lane.1.trans h.lane.1, g.lane.2.trans h.lane.2⟩
  profiles := g.profiles.trans h.profiles
  context scanning :=
    have before := h.context scanning
    have after := g.context before.1
    ⟨after.1, after.2.trans before.2⟩
  rgu := Rgu.tracks_trans h.rgu g.rgu

/-- A change of deck d that keeps the lane, the context's state and profile, and the tracking. -/
theorem trackFrame_setDeck {d : DeckId} {s : State} {k : Deck} (lane : k.lane = (s.deck d).lane ∧ k.intake = (s.deck d).intake)
    (context : k.ctx.state = (s.deck d).ctx.state ∧ k.ctx.profile = (s.deck d).ctx.profile)
    (rgu : (s.deck d).rgu.tracks k.rgu) : TrackFrame d s (s.setDeck d k) := by
  refine ⟨?_, rfl, fun scanning => ?_, ?_⟩ <;> rw [deck_setDeck_same]
  · exact lane
  · exact ⟨context.1.trans scanning, context.2⟩
  · exact rgu

theorem trackFrame_notify (d : DeckId) (s : State) (body : NoticeBody) : TrackFrame d s (s.notify d body) := by
  refine ⟨?_, profiles_notify .., ?_, ?_⟩ <;> rw [deck_notify]
  · exact ⟨rfl, rfl⟩
  · exact fun scanning => ⟨scanning, rfl⟩
  · exact Rgu.tracks_refl _

/-- Leaves and examinations keep the tracking. -/
theorem LeaveFrame.tracks {d : DeckId} {s t : State} (h : LeaveFrame s t d) : TrackFrame d s t where
  lane := h.lane
  profiles := h.profiles
  context scanning := by
    rw [(h.context (by simp [scanning])).1]
    exact ⟨scanning, rfl⟩
  rgu := by
    rw [h.rgu]
    exact Rgu.tracks_refl _

theorem trackFrame_modTable (d : DeckId) (s : State) (f : ShotTable → ShotTable) : TrackFrame d s (s.modTable d f) :=
  trackFrame_setDeck ⟨rfl, rfl⟩ ⟨rfl, rfl⟩ (Rgu.tracks_refl _)

theorem trackFrame_modStore (d : DeckId) (s : State) (f : DeckStore → DeckStore) : TrackFrame d s (s.modStore d f) :=
  trackFrame_setDeck ⟨rfl, rfl⟩ ⟨rfl, rfl⟩ (Rgu.tracks_refl _)

theorem trackFrame_openShot (d : DeckId) (s : State) (n : Nat) (origin : ShotOrigin) (binding : Option (Fin 64)) :
    TrackFrame d s (s.openShot d n origin binding) := by
  unfold State.openShot
  dsimp only
  cases (s.deck d).table.openIndex with
  | none => exact trackFrame_modTable d s _
  | some i => exact (trackFrame_modTable d s _).trans (leaveFrame_afterClose _ d i (n - 1)).tracks

/-- The part with the cue for frame n, if it is at the head of the list, consumed (R73). -/
def State.cueTaken (s : State) (d : DeckId) (n : Nat) : State :=
  if ((s.deck d).table.headCue n).isSome then s.modTable d fun t => { t with cues := t.cues.tail } else s

theorem tellShotTable_eq (s : State) (d : DeckId) (n : Nat) (declaration : Declaration) :
    let cue := (s.deck d).table.headCue n
    let t := s.cueTaken d n
    s.tellShotTable d n declaration = (openingFor declaration cue).elim t fun origin =>
      if (t.deck d).table.shots.length < Config.shotRoom then t.openShot d n origin (cue.bind Cue.grade)
      else t.refuseOpening d n origin := by
  unfold State.tellShotTable
  dsimp only
  cases openingFor declaration ((s.deck d).table.headCue n) <;> rfl

theorem trackFrame_cueTaken (d : DeckId) (s : State) (n : Nat) : TrackFrame d s (s.cueTaken d n) := by
  unfold State.cueTaken
  split
  · exact trackFrame_modTable d s _
  · exact .refl d s

theorem trackFrame_refuseOpening (d : DeckId) (s : State) (n : Nat) (origin : ShotOrigin) :
    TrackFrame d s (s.refuseOpening d n origin) := by
  unfold State.refuseOpening
  split
  · exact .refl d s
  · exact (trackFrame_modTable d s _).trans (trackFrame_notify d _ _)

theorem trackFrame_tellShotTable (d : DeckId) (s : State) (n : Nat) (declaration : Declaration) :
    TrackFrame d s (s.tellShotTable d n declaration) := by
  rw [tellShotTable_eq]
  refine (trackFrame_cueTaken d s n).trans ?_
  cases openingFor declaration ((s.deck d).table.headCue n) with
  | none => exact .refl d _
  | some origin =>
    dsimp only [Option.elim_some]
    split
    · exact trackFrame_openShot ..
    · exact trackFrame_refuseOpening ..

theorem trackFrame_pauseAtMark (d : DeckId) (s : State) : TrackFrame d s (s.pauseAtMark d) := by
  unfold State.pauseAtMark
  dsimp only
  split
  · refine TrackFrame.trans ?_ (trackFrame_modStore d _ _)
    exact trackFrame_setDeck ⟨rfl, rfl⟩ ⟨rfl, rfl⟩ (Rgu.tracks_refl _)
  · exact .refl d s

theorem trackFrame_countOverrun (d : DeckId) (s : State) (n : Nat) (recorded : Bool) :
    TrackFrame d s (s.countOverrun d n recorded) := by
  unfold State.countOverrun
  dsimp only
  refine TrackFrame.trans ?_ (leaveFrame_releaseExamBefore _ d n).tracks
  refine TrackFrame.trans ?_ (leaveFrame_decideExamBefore _ d n).tracks
  refine TrackFrame.trans ?_ (trackFrame_notify d _ _)
  exact trackFrame_setDeck ⟨rfl, rfl⟩ ⟨rfl, rfl⟩ (Rgu.tracks_refl _)

theorem trackFrame_createRecord (d : DeckId) (s : State) (n : Nat) (q : RecordRequest) :
    TrackFrame d s (s.createRecord d n q) := by
  unfold State.createRecord
  dsimp only
  split
  · cases (s.deck d).store.lowestFree with
    | none => exact (trackFrame_modStore d s _).trans (trackFrame_countOverrun d _ n true)
    | some i => exact (trackFrame_modStore d s _).trans (trackFrame_pauseAtMark d _)
  · exact (trackFrame_modStore d s _).trans (trackFrame_countOverrun d _ n false)

theorem trackFrame_openFrame (d : DeckId) (s : State) (b : Boundary) (line : LineNo) : TrackFrame d s (s.openFrame d b line) := by
  rw [openFrame_eq]
  dsimp only
  have numbered : TrackFrame d s (s.frameNumbered d) :=
    trackFrame_setDeck ⟨rfl, rfl⟩ ⟨rfl, rfl⟩ ⟨rfl, fun h => by simp [h], .inl ⟨rfl, rfl, rfl⟩⟩
  have told := numbered.trans (trackFrame_tellShotTable d _ (s.deck d).ctx.nextFrame b.declaration)
  refine TrackFrame.trans ?_ (trackFrame_setDeck ⟨rfl, rfl⟩ ⟨rfl, rfl⟩ ⟨rfl, id, .inl ⟨rfl, rfl, rfl⟩⟩)
  refine TrackFrame.trans ?_ (trackFrame_createRecord d _ _ _)
  exact told.trans (trackFrame_setDeck ⟨rfl, rfl⟩ ⟨rfl, rfl⟩ ⟨rfl, id, .inl ⟨rfl, rfl, rfl⟩⟩)

theorem trackFrame_currentClosed (d : DeckId) (s : State) (line : LineNo) : TrackFrame d s (s.currentClosed d line) := by
  obtain ⟨store, deck⟩ := deck_currentClosed s d line
  refine ⟨?_, profiles_currentClosed .., ?_, ?_⟩ <;> rw [deck]
  · exact ⟨rfl, rfl⟩
  · exact fun scanning => ⟨scanning, rfl⟩
  · exact Rgu.tracks_refl _

theorem trackFrame_takeEffect (d : DeckId) (s : State) (b : Boundary) (line : LineNo) :
    TrackFrame d s (s.takeEffect d b line) := by
  obtain ⟨store, deck⟩ := deck_currentClosed s d line
  rw [takeEffect_eq]
  refine (trackFrame_currentClosed d s line).trans ?_
  dsimp only
  split
  · next exhausted =>
    refine TrackFrame.trans ?_ (trackFrame_notify d _ _)
    refine trackFrame_setDeck ⟨rfl, rfl⟩ ⟨rfl, rfl⟩ ?_
    rw [deck]
    exact ⟨rfl, id, .inr ⟨rfl, exhausted⟩⟩
  · exact trackFrame_openFrame d _ b line

theorem trackFrame_formBoundary (d : DeckId) (s : State) (b : Boundary) : TrackFrame d s (s.formBoundary d b) := by
  cases pending : (s.deck d).rgu.boundary with
  | none =>
    rw [formBoundary_free pending]
    exact trackFrame_setDeck ⟨rfl, rfl⟩ ⟨rfl, rfl⟩ ⟨rfl, id, .inl ⟨rfl, rfl, rfl⟩⟩
  | some old =>
    rw [formBoundary_pending pending]
    exact (trackFrame_takeEffect d s old _).trans
      (trackFrame_setDeck ⟨rfl, rfl⟩ ⟨rfl, rfl⟩ ⟨rfl, id, .inl ⟨rfl, rfl, rfl⟩⟩)

theorem TrackFrame.profileOf {d : DeckId} {s t : State} (h : TrackFrame d s t) (scanning : (s.deck d).ctx.state = .scanning) :
    t.profileOf d = s.profileOf d := by
  simp only [State.profileOf, (h.context scanning).2, h.profiles]

end Sys2Proof.Machine
end

section
namespace Sys2Proof.Machine

/-! ### The words of the tracking rules -/

/-- The shrinkage is the number that the rule asks for (R48). -/
theorem shrinkage_of_rule {pf : Profile} {avg v : Nat} (pitch : 0 < pf.nominalPitch) (h : shrinkRule pf avg v) :
    shrinkage pf.nominalPitch avg = v := by
  obtain ⟨q, low, high, held⟩ := h
  have two : (0 : Int) < 2 * pf.nominalPitch := by omega
  have quotient : (2 * (((pf.nominalPitch : Int) - avg) * 1000) + pf.nominalPitch) / (2 * pf.nominalPitch) = q := by
    have numerator : 2 * (((pf.nominalPitch : Int) - avg) * 1000) = 2000 * ((pf.nominalPitch : Int) - avg) := by ring
    rw [numerator]
    refine le_antisymm (Int.lt_add_one_iff.1 (Int.ediv_lt_of_lt_mul two ?_)) (Int.le_ediv_of_mul_le two ?_)
    · linarith
    · linarith
  rw [shrinkage, roundHalfUp_eq, quotient, clampInt]
  omega

/-- The tracked pitch, held within an eighth of the nominal pitch (R38). -/
theorem trackedPitch_eq (nominal avg : Nat) (e : Int) :
    trackedPitch nominal avg e =
      (min (max ((avg : Int) + Int.tdiv e 8) (nominal - nominal / 8 : Nat)) (nominal + nominal / 8 : Nat)).toNat := by
  simp only [trackedPitch, clampInt, truncDiv]
  generalize Int.tdiv e ((8 : Nat) : Int) = step
  omega

theorem confirms_iff (r : Rgu) (tolerance : Nat) (p : FilmPos) : r.confirms tolerance p = true ↔
    r.lock = .coast ∧ ∃ c, r.candidate = some c ∧ ((p - c).toInt - (r.avg.getD 0 : Nat)).natAbs ≤ tolerance := by
  unfold Rgu.confirms
  cases r.candidate with
  | none => simp
  | some c => simp [filmDiff]

theorem flagLatest_eq (s : State) (d : DeckId) : s.flagLatest d = s.setDeck d (s.deck d).flagged := by
  have told (n : Nat) (r : FrameRecord) : (if (r.number == n) = true then
      if r.phase = .overrun then r else { r with flags := { r.flags with spurious := true } } else r)
      = if r.number = n ∧ r.phase ≠ .overrun then { r with flags := { r.flags with spurious := true } } else r := by
    by_cases number : r.number = n
    · by_cases gone : r.phase = .overrun <;> simp [number, gone]
    · simp [number]
  cases pending : (s.deck d).rgu.boundary with
  | some b => simp only [State.flagLatest, Deck.flagged, pending, modRgu_eq, State.modDeck]
  | none =>
    cases current : (s.deck d).rgu.current with
    | none =>
      simp only [State.flagLatest, Deck.flagged, pending, current]
      exact (setDeck_deck s d).symm
    | some c =>
      simp only [State.flagLatest, Deck.flagged, pending, current, modStore_eq, State.modDeck, DeckStore.flagSpurious,
        DeckStore.update, told]

/-! ### A sighting on a unit that has registration -/

/-- The splice test comes first (R37). -/
theorem judgeSighting_registered {s : State} {d : DeckId} (pf : Profile) (p : FilmPos)
    (lock : (s.deck d).rgu.lock = .locked ∨ (s.deck d).rgu.lock = .coast) :
    s.judgeSighting d pf p = if (s.deck d).rgu.confirms pf.pitchTolerance p = true then s.declareSplice d pf p
      else State.testSighting d pf p (pf.coastLimit + 2) s := by
  rcases lock with lock | lock <;> simp only [State.judgeSighting, lock]

/-- Deck d's unit with the next perforation placed where it was predicted, one miss more (R41). -/
def State.placed (s : State) (d : DeckId) (pf : Profile) : State :=
  s.setDeck d { s.deck d with rgu :=
    { (s.deck d).rgu with
      prev := some (s.deck d).rgu.predicted, prevAccepted := false
      index := ((s.deck d).rgu.index + 1) % pf.perfsPerFrame, misses := (s.deck d).rgu.misses + 1, lock := .coast } }

/-- The part with the perforation placed, and its boundary formed when it begins a frame (R41). -/
def State.coasted (s : State) (d : DeckId) (pf : Profile) (p : FilmPos) : State :=
  if ((s.deck d).rgu.index + 1) % pf.perfsPerFrame = 0 then
    (s.placed d pf).formBoundary d
      (boundaryOf pf (s.deck d).rgu.predicted .none 0 (p - (s.deck d).rgu.predicted).toInt.natAbs true none)
  else s.placed d pf

/-- The tests of a sighting that is no splice, in their order (R38, R39, R41, R43). -/
theorem testSighting_succ (d : DeckId) (pf : Profile) (p : FilmPos) (fuel : Nat) (s : State) :
    let r := (s.deck d).rgu
    let e := (p - r.predicted).toInt
    State.testSighting d pf p (fuel + 1) s =
      if r.lock ≠ .locked ∧ r.lock ≠ .coast then s
      else if e.natAbs ≤ pf.pitchTolerance then s.acceptSighting d pf p e
      else if e < 0 then s.earlySighting d p
      else if pf.coastLimit < r.misses + 1 then (s.placed d pf).loseRegistration d .coast (some p)
      else State.testSighting d pf p fuel (s.coasted d pf p) := rfl

theorem trackFrame_coasted (s : State) (d : DeckId) (pf : Profile) (p : FilmPos) :
    TrackFrame d (s.placed d pf) (s.coasted d pf p) := by
  unfold State.coasted
  split
  · exact trackFrame_formBoundary ..
  · exact .refl ..

theorem deck_placed (s : State) (d : DeckId) (pf : Profile) : (s.placed d pf).deck d = { s.deck d with rgu :=
    { (s.deck d).rgu with
      prev := some (s.deck d).rgu.predicted, prevAccepted := false
      index := ((s.deck d).rgu.index + 1) % pf.perfsPerFrame, misses := (s.deck d).rgu.misses + 1, lock := .coast } } :=
  deck_setDeck_same ..

theorem misses_coasted (s : State) (d : DeckId) (pf : Profile) (p : FilmPos) :
    ((s.coasted d pf p).deck d).rgu.misses = (s.deck d).rgu.misses + 1 := by
  rw [(trackFrame_coasted s d pf p).rgu.1, deck_placed]

/-- Every prediction is a miss more, so that more fuel than misses left makes no difference (R43). -/
theorem testSighting_fuel (d : DeckId) (pf : Profile) (p : FilmPos) {a b : Nat} {s : State} (ha : 0 < a) (hb : 0 < b)
    (left_a : pf.coastLimit < a + (s.deck d).rgu.misses) (left_b : pf.coastLimit < b + (s.deck d).rgu.misses) :
    State.testSighting d pf p a s = State.testSighting d pf p b s := by
  induction a generalizing b s with
  | zero => omega
  | succ a ih =>
    obtain ⟨b, rfl⟩ : ∃ n, b = n + 1 := ⟨b - 1, by omega⟩
    rw [testSighting_succ, testSighting_succ]
    refine if_congr Iff.rfl rfl (if_congr Iff.rfl rfl (if_congr Iff.rfl rfl ?_))
    by_cases lost : pf.coastLimit < (s.deck d).rgu.misses + 1
    · rw [if_pos lost, if_pos lost]
    · rw [if_neg lost, if_neg lost]
      exact ih (by omega) (by omega) (by rw [misses_coasted]; omega) (by rw [misses_coasted]; omega)

/-- The same bytes are judged again where the predicted perforation is placed: lane, scan and profile are as before. -/
theorem exec_sighting_coasted {s : State} {d : DeckId} {frame : LaneFrame} {p : FilmPos} {pf : Profile}
    (up : (s.deck d).lane = .up) (empty : (s.deck d).intake = []) (fits : frame.fits) (scanning : (s.deck d).ctx.state = .scanning)
    (read : readSighting frame = some p) (profile : s.profileOf d = some pf) :
    exec (.sighting d frame.bytes) (s.coasted d pf p) = .next ((s.coasted d pf p).judgeSighting d pf p) := by
  have kept := trackFrame_coasted s d pf p
  have scanningPlaced : ((s.placed d pf).deck d).ctx.state = .scanning := by rw [deck_placed]; exact scanning
  have profilePlaced : (s.placed d pf).profileOf d = s.profileOf d := by
    simp only [State.profileOf, deck_placed]
    rfl
  have sameProfile : (s.coasted d pf p).profileOf d = some pf :=
    (kept.profileOf scanningPlaced).trans (profilePlaced.trans profile)
  refine exec_sighting ?_ ?_ fits (kept.context scanningPlaced).1 read sameProfile
  · rw [kept.lane.1, deck_placed]; exact up
  · rw [kept.lane.2, deck_placed]; exact empty

/-- An early sighting in LOCKED is a spurious perforation of the latest frame (R39, R40). -/
theorem earlySighting_locked {s : State} {d : DeckId} (p : FilmPos) (locked : (s.deck d).rgu.lock = .locked) :
    s.earlySighting d p = s.setDeck d (s.deck d).flagged := by
  simp only [State.earlySighting, locked, flagLatest_eq]

/-- An early sighting in COAST is the candidate of a splice (R39). -/
theorem earlySighting_coast {s : State} {d : DeckId} (p : FilmPos) (coast : (s.deck d).rgu.lock = .coast) :
    s.earlySighting d p = s.setDeck d { s.deck d with rgu := { (s.deck d).rgu with candidate := some p } } := by
  simp only [State.earlySighting, coast, modRgu_eq, State.modDeck]

/-- Where the next perforation is expected (R37). -/
theorem predicted_eq {r : Rgu} {q : FilmPos} {avg : Nat} (prev : r.prev = some q) (known : r.avg = some avg) :
    r.predicted = q + BitVec.ofNat 32 avg := by
  simp only [Rgu.predicted, prev, known, Option.getD_some]

section
variable {s : State} {d : DeckId} {pf : Profile} {p : FilmPos} {avg : Nat} (known : (s.deck d).rgu.avg = some avg)
include known

/-- The sighting is judged again after the predicted perforation: it is no splice then either, and without registration nothing happens (R50,
log 10). -/
theorem judgeSighting_coasted
    (unconfirmed : ¬ ∃ c, (s.deck d).rgu.candidate = some c ∧ ((p - c).toInt - avg).natAbs ≤ pf.pitchTolerance) :
    (s.coasted d pf p).judgeSighting d pf p = State.testSighting d pf p (pf.coastLimit + 1) (s.coasted d pf p) := by
  obtain ⟨-, -, tracked⟩ := (trackFrame_coasted s d pf p).rgu
  rw [deck_placed] at tracked
  have misses := misses_coasted s d pf p
  generalize s.coasted d pf p = u at *
  rcases tracked with ⟨lock, pitch, candidate⟩ | ⟨lock, exhausted⟩
  · have noSplice : (u.deck d).rgu.confirms pf.pitchTolerance p ≠ true := by
      rw [ne_eq, confirms_iff, pitch, candidate]
      simp only [known, Option.getD_some]
      exact fun confirmed => unconfirmed confirmed.2
    rw [judgeSighting_registered pf p (.inr lock), if_neg noSplice]
    exact testSighting_fuel d pf p (by omega) (by omega) (by omega) (by omega)
  · rw [judgeSighting_acquire pf p lock, acquireSighting_exhausted pf p exhausted, testSighting_succ]
    exact (if_pos (by simp [lock])).symm

/-- A Registration Unit after a sighting within tolerance (R38). -/
def Rgu.accepting (r : Rgu) (pf : Profile) (p : FilmPos) (newAvg : Nat) : Rgu :=
  { r with
    avg := some newAvg, prev := some p, prevAccepted := true, index := (r.index + 1) % pf.perfsPerFrame, misses := 0
    candidate := none, lock := .locked }

theorem acceptSighting_eq (e : Int) :
    let r := (s.deck d).rgu
    let newAvg := if r.prevAccepted = true then trackedPitch pf.nominalPitch avg e else avg
    let t := s.setDeck d { s.deck d with rgu := r.accepting pf p newAvg }
    s.acceptSighting d pf p e =
      if (r.index + 1) % pf.perfsPerFrame = 0 then
        t.formBoundary d (boundaryOf pf p .none e e.natAbs false (some (shrinkage pf.nominalPitch newAvg)))
      else t := by
  simp only [State.acceptSighting, known, Option.getD_some, modRgu_eq, State.modDeck]
  rfl

/-- A splice, step by step (R37, R40, R44). -/
theorem declareSplice_eq :
    let k := s.deck d
    let e := (p - k.rgu.predicted).toInt
    let spliced : Rgu :=
      { k.rgu with prev := some p, prevAccepted := true, lock := .locked, misses := 0, candidate := none, index := 0 }
    let flagged := Deck.flagged { k with
      rgu := spliced, ctx := { k.ctx with splices := min (k.ctx.splices + 1) 16777215 } }
    let t := (s.setDeck d flagged).formBoundary d
      (boundaryOf pf p .splice 0 e.natAbs false (some (shrinkage pf.nominalPitch avg)))
    s.declareSplice d pf p = t.notify d (.registration .splice .none (some p) (t.deck d).ctx.nextFrame) := by
  simp only [State.declareSplice, known, Option.getD_some, flagLatest_eq, modRgu_eq, modCtx_eq, State.modDeck, deck_setDeck_same,
    setDeck_setDeck]
  rfl

end

/-- Settles O48: the tests in their order (testSighting_succ), and the sighting judged again after a prediction (judgeSighting_coasted). -/
theorem trackingFollowsR37ToR43 : Obligations.TrackingFollowsR37ToR43 := by
  intro s d frame p q avg pf k r predicted e confirms index empty fits up scanning read profile prev known lock pitch
  have judged : exec (.sighting d frame.bytes) s = .next (s.judgeSighting d pf p) :=
    exec_sighting up empty fits scanning read profile
  have place : r.predicted = predicted := predicted_eq prev known
  have spliceTest : r.confirms pf.pitchTolerance p = true ↔ r.lock = .coast ∧ confirms := by
    rw [confirms_iff, known, Option.getD_some]
  have tested (unconfirmed : ¬ confirms) : s.judgeSighting d pf p =
      if e.natAbs ≤ pf.pitchTolerance then s.acceptSighting d pf p e
      else if e < 0 then s.earlySighting d p
      else if pf.coastLimit < r.misses + 1 then (s.placed d pf).loseRegistration d .coast (some p)
      else State.testSighting d pf p (pf.coastLimit + 1) (s.coasted d pf p) := by
    have noSplice : r.confirms pf.pitchTolerance p ≠ true := fun c => unconfirmed (spliceTest.1 c).2
    have registered : ¬ (r.lock ≠ .locked ∧ r.lock ≠ .coast) := by tauto
    have error : (p - (s.deck d).rgu.predicted).toInt = e := congrArg (fun x => (p - x).toInt) place
    rw [judgeSighting_registered pf p lock, if_neg noSplice, testSighting_succ, error]
    exact if_neg registered
  rw [judged]
  refine ⟨fun coast confirmed v rule => ?_, fun unconfirmed near v => ?_, fun unconfirmed early => ?_, fun unconfirmed late => ?_⟩
  · have splice : r.confirms pf.pitchTolerance p = true := spliceTest.2 ⟨coast, confirmed⟩
    rw [judgeSighting_registered pf p lock, if_pos splice, declareSplice_eq known, shrinkage_of_rule pitch rule, place]
  · intro reach tracked newAvg accepted rule
    rw [tested unconfirmed, if_pos near, acceptSighting_eq known, trackedPitch_eq, shrinkage_of_rule pitch rule]
    rfl
  · rw [tested unconfirmed, if_neg (by omega), if_pos (by omega)]
    refine congrArg _ ?_
    rcases lock with locked | coast
    · rw [if_pos locked, earlySighting_locked p locked]
    · rw [if_neg (by rw [coast]; decide), earlySighting_coast p coast]
  · intro placed
    have far : s.placed d pf = placed := by rw [State.placed, place]
    rw [tested unconfirmed, if_neg (by omega), if_neg (by omega)]
    refine ⟨fun lost => ?_, fun left => ?_⟩
    · have notDraining : (placed.deck d).ctx.state ≠ .draining := by
        rw [← far, deck_placed, show (s.deck d).ctx.state = .scanning from scanning]
        decide
      rw [if_pos lost, far, loseRegistration_eq placed d .coast (some p) notDraining]
      exact ⟨_, rfl, registrationLost_effects notDraining .coast (some p)⟩
    · have again : (if index = 0 then placed.formBoundary d (boundaryOf pf predicted .none 0 e.natAbs true none) else placed)
          = s.coasted d pf p := by
        rw [State.coasted, far, place]
      rw [if_neg (by omega), again, exec_sighting_coasted up empty fits scanning read profile,
        judgeSighting_coasted known unconfirmed]

end Sys2Proof.Machine
end

section
namespace Sys2Proof.Machine

/-! ### The creation of a record -/

/-- The lowest-numbered FREE slot, and none when all are HELD (R54). -/
theorem lowestFree_eq_some_iff (k : DeckStore) (i : Fin 8) :
    k.lowestFree = some i ↔ k.slots[i].held = false ∧ ∀ j, j < i → k.slots[j].held = true := by
  simp [DeckStore.lowestFree, find_finRange_some]

theorem lowestFree_eq_none_iff (k : DeckStore) : k.lowestFree = none ↔ ∀ i : Fin 8, k.slots[i].held = true := by
  simp [DeckStore.lowestFree]

/-- A request made while the free-slot count stands at the pause mark (R69). -/
theorem pauseAtMark_eq (s : State) (d : DeckId) :
    let k := s.deck d
    s.pauseAtMark d = if k.store.freeCount = 2 ∧ k.store.flow = .clear ∧ k.ctx.state = .scanning then
        s.setDeck d { k with store := { k.store with flow := .pauseAsked }, chan := k.chan.sendFlow .pause }
      else s := by
  simp only [State.pauseAtMark, State.flowRequest, modChan_eq, modStore_eq, State.modDeck, deck_setDeck_same,
    setDeck_setDeck]
  rfl

/-- The count, the notice and the examinations that follow a number without a slot (R59, R62, R67, R107). -/
theorem countOverrun_eq (s : State) (d : DeckId) (n : Nat) (recorded : Bool) :
    let k := s.deck d
    let count := min (k.ctx.overrunFrames + 1) 16777215
    s.countOverrun d n recorded =
      (((s.setDeck d { k with ctx := { k.ctx with overrunFrames := count } }).notify d
        (.overrun recorded n count)).decideExamBefore d n).releaseExamBefore d n := by
  simp only [State.countOverrun, modCtx_eq, State.modDeck, deck_setDeck_same]
  rfl

theorem createRecord_full {s : State} {d : DeckId} (full : 12 ≤ (s.deck d).store.records.length) (n : Nat)
    (q : RecordRequest) :
    s.createRecord d n q = (s.modStore d fun k => { k with fate := .unrecorded }).countOverrun d n false :=
  if_neg (Nat.not_lt.2 full)

theorem createRecord_slotless {s : State} {d : DeckId} (room : (s.deck d).store.records.length < 12)
    (held : (s.deck d).store.lowestFree = none) (n : Nat) (q : RecordRequest) :
    s.createRecord d n q = (s.modStore d fun k =>
      { k with records := k.records ++ [newRecord n q k.fate none], fate := .overrun }).countOverrun d n true := by
  simp only [State.createRecord, Config.recordRoom, room, held, if_true]

theorem createRecord_slotted {s : State} {d : DeckId} {i : Fin 8} (room : (s.deck d).store.records.length < 12)
    (free : (s.deck d).store.lowestFree = some i) (n : Nat) (q : RecordRequest) :
    s.createRecord d n q = (s.modStore d fun k =>
      { (k.modSlot i fun _ => (⟨true, [], []⟩ : Slot)) with
        records := k.records ++ [newRecord n q k.fate (some i)], fate := .slotted }).pauseAtMark d := by
  simp only [State.createRecord, Config.recordRoom, room, free, if_true]

/-- Settles O50: the three outcomes by the room of the queue and the lowest FREE slot. -/
theorem recordsAreMadeAsR59Says : Obligations.RecordsAreMadeAsR59Says := by
  intro s d n q k made gap overrunFrames missed
  have counted (store : DeckStore) (recorded : Bool) :
      (s.setDeck d { k with store := store }).countOverrun d n recorded = missed store recorded := by
    rw [countOverrun_eq, deck_setDeck_same, setDeck_setDeck]
  refine ⟨fun full => ?_, fun room held => ?_, fun i room free lower => ?_⟩
  · rw [createRecord_full full]
    exact counted _ false
  · rw [createRecord_slotless room ((lowestFree_eq_none_iff _).2 held)]
    exact counted _ true
  · intro store
    have taken : s.createRecord d n q = (s.setDeck d { k with store := store }).pauseAtMark d :=
      createRecord_slotted room ((lowestFree_eq_some_iff _ i).2 ⟨free, lower⟩) n q
    rw [taken, pauseAtMark_eq, deck_setDeck_same, setDeck_setDeck]

end Sys2Proof.Machine
end

section
namespace Sys2Proof.Machine

/-! ### A frame is handed to the defect map -/

/-- R125 to R127 as the statements have them. -/
theorem enter_eq_entered (m : DefectMap) (n : Nat) (classes : ClassSet) (action : Action) :
    m.enter n classes action = m.entered n classes action := by
  have empty : (classes.isEmpty || m.full) = true ↔
      classes = ⟨false, false, false, false, false, false⟩ ∨ m.full = true := by
    simp [ClassSet.isEmpty, noClasses]
  have extends_iff (run : Run) : run.extends n classes action = true ↔
      n = run.first + run.count ∧ classes = run.classes ∧ action = run.action ∧ run.count < 65535 := by
    simp only [Run.extends, Bool.and_eq_true, beq_iff_eq, decide_eq_true_eq, and_assoc,
      eq_comm (a := run.classes), eq_comm (a := run.action)]
    rfl
  unfold DefectMap.enter DefectMap.entered
  refine if_congr empty rfl ?_
  cases m.runs.getLast? with
  | none => rfl
  | some run =>
    refine if_congr (extends_iff run) rfl ?_
    by_cases room : m.runs.length < 512
    · exact (if_pos room).trans (if_neg (Nat.not_le.2 room)).symm
    · exact (if_neg room).trans (if_pos (Nat.not_lt.1 room)).symm

/-! ### A shot is examined -/

theorem shots_completeExam_ne (s : State) (d : DeckId) {i j : Nat} (h : j ≠ i) :
    ((s.completeExam d i).deck d).table.shots[j]? = (s.deck d).table.shots[j]? := by
  cases found : (s.deck d).table.shots[i]? with
  | none => simp only [State.completeExam, found]
  | some sh =>
    rw [completeExam_eq found]
    split
    · rw [deck_notify, deck_setDeck_same, List.getElem?_set_ne h.symm]
    · rfl

/-- An examined shot is COMPLETE exactly when R78 says so, and else as it was. -/
theorem shotSettled_completeExam {s : State} {d : DeckId} {i : Nat} {sh : Shot}
    (found : (s.deck d).table.shots[i]? = some sh) : ((s.completeExam d i).deck d).shotSettled i sh := by
  rw [completeExam_eq found]
  split
  · next complete =>
    have inTable : i < (s.deck d).table.shots.length := (List.getElem?_eq_some_iff.1 found).1
    rw [deck_notify, deck_setDeck_same]
    exact ⟨.complete, List.getElem?_set_self inTable, iff_of_true rfl (.inr complete), fun no => absurd rfl no⟩
  · next incomplete => exact ⟨sh.state, found, (or_iff_left incomplete).symm, fun _ => rfl⟩

/-! ### A record is examined for slot release -/

/-- An examination for slot release changes no more of its deck than the channel, the context, and the slots and records. -/
theorem deck_releaseExam (s : State) (d : DeckId) (n : Nat) : ∃ chan ctx store,
    (s.releaseExam d n).deck d = { s.deck d with chan := chan, ctx := ctx, store := store } := by
  unfold State.releaseExam
  dsimp only
  split
  · split
    · obtain ⟨chan, flow, dropped⟩ := deck_dropRecord s d n
      obtain ⟨ctx, handed⟩ := deck_emptyHandoff (s.dropRecord d n) d
      exact ⟨_, _, _, by rw [handed, dropped]⟩
    · exact ⟨_, _, _, rfl⟩
  · exact ⟨_, _, _, rfl⟩

theorem table_releaseExam (s : State) (d : DeckId) (n : Nat) : ((s.releaseExam d n).deck d).table = (s.deck d).table := by
  obtain ⟨_, _, _, deck⟩ := deck_releaseExam s d n
  rw [deck]

theorem table_releaseExamBefore (s : State) (d : DeckId) (n : Nat) :
    ((s.releaseExamBefore d n).deck d).table = (s.deck d).table := by
  unfold State.releaseExamBefore
  split
  · rfl
  · exact table_releaseExam ..

theorem store_emptyHandoff (s : State) (d : DeckId) : ((s.emptyHandoff d).deck d).store = (s.deck d).store := by
  obtain ⟨_, deck⟩ := deck_emptyHandoff s d
  rw [deck]

theorem records_dropRecord (s : State) (d : DeckId) (n : Nat) :
    ((s.dropRecord d n).deck d).store.records = (s.deck d).store.records.filter fun q => q.number ≠ n := by
  obtain ⟨_, _, deck⟩ := deck_dropRecord s d n
  rw [deck]
  exact records_drop ..

/-- The record of a frame that R66 lets go has left the queue. -/
theorem find_releaseExam_freed {s : State} {d : DeckId} {n : Nat} {r : FrameRecord} (found : (s.deck d).store.find n = some r)
    (free : (s.deck d).releasable r = true) : ((s.releaseExam d n).deck d).store.find n = none := by
  rw [releaseExam_frees found free, store_emptyHandoff]
  simp [DeckStore.find, records_dropRecord]

/-- The examination of a frame finds every other frame's record as it was. -/
theorem find_releaseExam_ne (s : State) (d : DeckId) {n m : Nat} (h : m ≠ n) :
    ((s.releaseExam d n).deck d).store.find m = (s.deck d).store.find m := by
  unfold State.releaseExam
  dsimp only
  split
  · split
    · rw [store_emptyHandoff, DeckStore.find, records_dropRecord, List.find?_filter]
      congr 1
      funext q
      by_cases same : q.number = m
      · simp [same, h]
      · simp [same]
    · rfl
  · rfl

theorem find_releaseExamBefore_self (s : State) (d : DeckId) (n : Nat) :
    ((s.releaseExamBefore d n).deck d).store.find n = (s.deck d).store.find n := by
  unfold State.releaseExamBefore
  split
  · rfl
  · next later => exact find_releaseExam_ne s d (by omega)

/-! ### What follows the going of a trailer

A trailer's end makes its record leave or stay, hands the frame to the defect map and settles its shot. What these steps keep is collected in
one relation that each of them has. -/

/-- No FLOW command is asked for outside SCANNING (R69). -/
def FlowHeld (d : DeckId) (s t : State) : Prop :=
  (s.deck d).ctx.state ≠ .scanning →
    (t.deck d).chan = (s.deck d).chan ∧ (t.deck d).store.flow = (s.deck d).store.flow ∧ (t.deck d).ctx.state ≠ .scanning

/-- A DRAINING deck is not left with an emptied queue (R20). -/
def NotLeftDrained (d : DeckId) (s t : State) : Prop :=
  (t.deck d).ctx.state = .draining → (t.deck d).store.records = [] → (s.deck d).store.records = []

/-- What the steps after a trailer's going keep, beside the records, the slots, the shots and the defect map of deck d. -/
structure TrailerFrame (d : DeckId) (s t : State) : Prop where
  others : ∀ e, e ≠ d → t.deck e = s.deck e
  rgu : (t.deck d).rgu = (s.deck d).rgu
  lane : (t.deck d).lane = (s.deck d).lane ∧ (t.deck d).intake = (s.deck d).intake
  cues : (t.deck d).table.cues = (s.deck d).table.cues
  profiles : t.profiles = s.profiles
  dan : t.dan = s.dan
  rpe : t.rpe = s.rpe
  gre : t.gre = s.gre
  policies : t.shp.policies = s.shp.policies
  pending : t.pending = s.pending
  interface : s.ali.sameButNotices t.ali
  flow : FlowResumed d s t
  flowHeld : FlowHeld d s t
  handed : HandedOrKept d s t
  drained : NotLeftDrained d s t

theorem TrailerFrame.trans {d : DeckId} {a b c : State} (h : TrailerFrame d a b) (g : TrailerFrame d b c) : TrailerFrame d a c where
  others e he := (g.others e he).trans (h.others e he)
  rgu := g.rgu.trans h.rgu
  lane := ⟨g.lane.1.trans h.lane.1, g.lane.2.trans h.lane.2⟩
  cues := g.cues.trans h.cues
  profiles := g.profiles.trans h.profiles
  dan := g.dan.trans h.dan
  rpe := g.rpe.trans h.rpe
  gre := g.gre.trans h.gre
  policies := g.policies.trans h.policies
  pending := g.pending.trans h.pending
  interface := sameButNotices_trans h.interface g.interface
  flow := h.flow.trans g.flow
  flowHeld := fun still => by
    obtain ⟨chan, flow, still'⟩ := h.flowHeld still
    obtain ⟨chan', flow', still''⟩ := g.flowHeld still'
    exact ⟨chan'.trans chan, flow'.trans flow, still''⟩
  handed := h.handed.trans g.handed
  drained := fun draining empty => by
    have emptied := g.drained draining empty
    refine h.drained ?_ emptied
    rcases g.handed.2 with ⟨ctx, -⟩ | finished
    · rw [← ctx]; exact draining
    · exact finished.draining

/-- A change of deck d's shots or of its defect map is no leave. -/
theorem trailerFrame_setDeck (s : State) (d : DeckId) (shots : List Shot) (map : DefectMap) :
    TrailerFrame d s (s.setDeck d { s.deck d with table := { (s.deck d).table with shots := shots }, map := map }) := by
  have deck := deck_setDeck_same s d { s.deck d with table := { (s.deck d).table with shots := shots }, map := map }
  refine { others := fun e he => deck_setDeck_ne s _ he, rgu := by rw [deck], lane := by rw [deck]; exact ⟨rfl, rfl⟩,
           cues := by rw [deck], profiles := rfl, dan := rfl, rpe := rfl, gre := rfl, policies := rfl, pending := rfl,
           interface := rfl, flow := .inl (by rw [deck]; exact ⟨rfl, rfl⟩), flowHeld := fun still => ?_,
           handed := .of_eq (by rw [deck]) (by rw [deck]) rfl, drained := fun _ => ?_ } <;> rw [deck]
  · exact ⟨rfl, rfl, still⟩
  · exact id

/-- Nothing is examined, or nothing comes of it. -/
theorem trailerFrame_refl (d : DeckId) (s : State) : TrailerFrame d s s := by
  have same := trailerFrame_setDeck s d (s.deck d).table.shots (s.deck d).map
  rwa [setDeck_deck] at same

/-! The leave of a record with the hand-over that follows it. -/

theorem engines_emptyHandoff (s : State) (d : DeckId) :
    (s.emptyHandoff d).dan = s.dan ∧ (s.emptyHandoff d).rpe = s.rpe := by
  have planned (f : Shp → Shp) (k : Deck) :
      ((s.modShp f).setDeck d k).dan = s.dan ∧ ((s.modShp f).setDeck d k).rpe = s.rpe := ⟨rfl, rfl⟩
  by_cases h : (s.deck d).store.records = [] ∧ (s.deck d).ctx.state = .draining
  · rw [emptyHandoff_hands h.1 h.2]
    split
    · rw [dan_notify, dan_notify, rpe_notify, rpe_notify]
      exact planned _ _
    · rw [dan_notify, rpe_notify]
      exact planned _ _
  · rw [emptyHandoff_keeps h]
    exact ⟨rfl, rfl⟩

theorem flowHeld_dropRecord (d : DeckId) (s : State) (n : Nat) : FlowHeld d s (s.dropRecord d n) := by
  intro still
  rw [dropRecord_eq, if_neg fun rises => still rises.2.2.2, deck_setDeck_same]
  exact ⟨rfl, (rest_drop _ n).2.2, still⟩

theorem flowHeld_emptyHandoff (d : DeckId) (s : State) : FlowHeld d s (s.emptyHandoff d) := by
  intro still
  obtain ⟨c, deck⟩ := deck_emptyHandoff s d
  refine ⟨by rw [deck], by rw [deck], ?_⟩
  rcases ((handedOrKept_closed d).emptyHandoff s).2 with ⟨ctx, -⟩ | finished
  · rw [ctx]; exact still
  · rw [finished.state]; decide

/-- After the hand-over no emptied deck is DRAINING, whatever was before. -/
theorem emptyHandoff_notDrained (s : State) (d : DeckId) (empty : ((s.emptyHandoff d).deck d).store.records = []) :
    ((s.emptyHandoff d).deck d).ctx.state ≠ .draining := by
  have records : (s.deck d).store.records = [] := store_emptyHandoff s d ▸ empty
  by_cases draining : (s.deck d).ctx.state = .draining
  · rw [(emptyHandoff_finished records draining).state]; decide
  · rw [emptyHandoff_keeps fun h => draining h.2]; exact draining

theorem trailerFrame_leave (d : DeckId) (s : State) (n : Nat) : TrailerFrame d s ((s.dropRecord d n).emptyHandoff d) := by
  have frame := (leaveFrame_dropRecord s d n).trans (leaveFrame_emptyHandoff _ d)
  have rest := (leaveRest_dropRecord d s n).trans (leaveRest_emptyHandoff d _)
  have handed := (handedOrKept_closed d).trans ((handedOrKept_closed d).dropRecord s n) ((handedOrKept_closed d).emptyHandoff _)
  have flow := ((flowResumed_closed d).dropRecord s n).trans ((flowResumed_closed d).emptyHandoff _)
  obtain ⟨dan, rpe, -⟩ := blocks_dropRecord s d n
  obtain ⟨dan', rpe'⟩ := engines_emptyHandoff (s.dropRecord d n) d
  refine { others := frame.others, rgu := frame.rgu, lane := frame.lane, cues := frame.cues, profiles := frame.profiles,
           dan := dan'.trans dan, rpe := rpe'.trans rpe, gre := frame.gre, policies := rest.policies, pending := frame.pending,
           interface := rest.interface, flow := flow, flowHeld := fun still => ?_, handed := handed,
           drained := fun draining empty => absurd draining (emptyHandoff_notDrained _ d empty) }
  obtain ⟨chan, held, still'⟩ := flowHeld_dropRecord d s n still
  obtain ⟨chan', held', still''⟩ := flowHeld_emptyHandoff d _ still'
  exact ⟨chan'.trans chan, held'.trans held, still''⟩

theorem trailerFrame_releaseExam (d : DeckId) (s : State) (n : Nat) : TrailerFrame d s (s.releaseExam d n) := by
  unfold State.releaseExam
  dsimp only
  split
  · split
    · exact trailerFrame_leave d s n
    · exact trailerFrame_refl d s
  · exact trailerFrame_refl d s

theorem trailerFrame_releaseExamBefore (d : DeckId) (s : State) (n : Nat) : TrailerFrame d s (s.releaseExamBefore d n) := by
  unfold State.releaseExamBefore
  split
  · exact trailerFrame_refl d s
  · exact trailerFrame_releaseExam d s _

theorem trailerFrame_notify (d : DeckId) (s : State) (body : NoticeBody) : TrailerFrame d s (s.notify d body) where
  others e _ := deck_notify ..
  rgu := by rw [deck_notify]
  lane := by rw [deck_notify]; exact ⟨rfl, rfl⟩
  cues := by rw [deck_notify]
  profiles := profiles_notify ..
  dan := dan_notify ..
  rpe := rpe_notify ..
  gre := gre_notify ..
  policies := by rw [shp_notify]
  pending := pending_notify ..
  interface := sameButNotices_notify ..
  flow := .inl (by rw [deck_notify]; exact ⟨rfl, rfl⟩)
  flowHeld still := by rw [deck_notify]; exact ⟨rfl, rfl, still⟩
  handed := .of_eq (by rw [deck_notify]) (by rw [deck_notify]) (shp_notify ..)
  drained _ := by rw [deck_notify]; exact id

theorem trailerFrame_completeExam (d : DeckId) (s : State) (i : Nat) : TrailerFrame d s (s.completeExam d i) := by
  cases h : (s.deck d).table.shots[i]? with
  | none => simp only [State.completeExam, h]; exact trailerFrame_refl d s
  | some sh =>
    rw [completeExam_eq h]
    split
    · exact (trailerFrame_setDeck s d _ (s.deck d).map).trans (trailerFrame_notify d _ _)
    · exact trailerFrame_refl d s

/-! ### The end of an emission -/

/-- Without an emission only the waiting aborted trailer can begin (R191). -/
theorem beginFrameParcel_noEmission {s : State} (h : s.ali.emission = none) :
    ∃ wire aborted, s.beginFrameParcel = { s with ali := { s.ali with wire := wire, aborted := aborted } } := by
  unfold State.beginFrameParcel
  split
  · cases waiting : s.ali.aborted with
    | some w => exact ⟨_, _, rfl⟩
    | none => rw [h]; exact ⟨s.ali.wire, s.ali.aborted, rfl⟩
  · exact ⟨s.ali.wire, s.ali.aborted, rfl⟩

/-- The part with the parcel on the wire sent whole and deck d's records as given. -/
def State.trailerGone (s : State) (d : DeckId) (p : UpParcel) (records : List FrameRecord) : State :=
  ({ s with ali := { s.ali with wire := none, sent := .parcel p :: s.ali.sent } } : State).setDeck d
    { s.deck d with store := { (s.deck d).store with records := records } }

theorem deck_trailerGone (s : State) (d : DeckId) (p : UpParcel) (records : List FrameRecord) :
    (s.trailerGone d p records).deck d = { s.deck d with store := { (s.deck d).store with records := records } } :=
  deck_setDeck_same ..

theorem deck_trailerGone_ne (s : State) {d e : DeckId} (h : e ≠ d) (p : UpParcel) (records : List FrameRecord) :
    (s.trailerGone d p records).deck e = s.deck e := deck_setDeck_ne _ _ h

/-- The emission over, with the snapshot as given, and the next frame parcel begun. -/
def State.emissionOver (t : State) (snapshot : Option Snapshot) : State :=
  ({ t with ali := { t.ali with emission := none }, gre := { t.gre with snapshot := snapshot } } : State).beginFrameParcel

theorem emissionOver_eq (t : State) (snapshot : Option Snapshot) : ∃ wire aborted, t.emissionOver snapshot =
    { t with
      ali := { t.ali with wire := wire, aborted := aborted, emission := none }
      gre := { t.gre with snapshot := snapshot } } :=
  beginFrameParcel_noEmission rfl

/-- The context and the planner after a trailer's going: the emptied DRAINING deck is handed over, or nothing of them has changed (R20). -/
theorem finished_or_kept {s t : State} {d : DeckId} {p : UpParcel} {records : List FrameRecord}
    (h : TrailerFrame d (s.trailerGone d p records) t) (queued : records ≠ []) :
    Finished d (s.trailerGone d p records) t
    ∨ ¬ ((s.deck d).ctx.state = .draining ∧ (t.deck d).store.records = [])
      ∧ (t.deck d).ctx = (s.deck d).ctx ∧ t.shp = s.shp := by
  have gone := deck_trailerGone s d p records
  rcases h.handed.2 with ⟨ctx, planner⟩ | finished
  · rw [gone] at ctx
    refine .inr ⟨fun ⟨draining, empty⟩ => queued ?_, ctx, planner⟩
    have emptied := h.drained (by rw [ctx]; exact draining) empty
    rwa [gone] at emptied
  · exact .inl finished

/-- What a trailer's going leaves, whichever steps lie between it and the end of the emission. -/
theorem emissionEnded_of_trailerFrame {s t : State} {d : DeckId} {p : UpParcel} {records : List FrameRecord}
    (h : TrailerFrame d (s.trailerGone d p records) t) (queued : records ≠ []) (snapshot : Option Snapshot) :
    EmissionEnded s (t.emissionOver snapshot) d p := by
  obtain ⟨wire, aborted, ended⟩ := emissionOver_eq t snapshot
  have gone := deck_trailerGone s d p records
  have deck (e : DeckId) : (t.emissionOver snapshot).deck e = t.deck e := by rw [ended]; rfl
  have shp : (t.emissionOver snapshot).shp = t.shp := by rw [ended]
  have ali {α : Type} (f : Ali → α) := congrArg f h.interface
  have ends := finished_or_kept h queued
  constructor
  case sent => rw [ended]; exact ali Ali.sent
  case emission => rw [ended]
  case input =>
    rw [ended]
    exact ⟨ali Ali.input, ali Ali.link, ali Ali.workstationHalt, ali Ali.upstreamHalt, ali Ali.lastGranted, ali Ali.readouts⟩
  case state =>
    rw [deck]
    rcases ends with finished | ⟨no, ctx, -⟩
    · have draining := finished.draining
      rw [gone] at draining
      rw [if_pos ⟨draining, finished.records⟩, finished.state]
    · rw [if_neg no, ctx]
  case context =>
    rw [deck]
    rcases ends with finished | ⟨-, ctx, -⟩
    · have context := congrArg (fun c : ReelContext => { c with state := .empty }) finished.context
      rwa [gone] at context
    · rw [ctx]
  case handOver =>
    rw [deck, shp]
    intro draining empty
    rcases ends with finished | ⟨no, -⟩
    · have score := finished.score
      have handOver := finished.handOver
      rw [gone] at score handOver
      exact ⟨score, handOver⟩
    · exact absurd ⟨draining, empty⟩ no
  case noHandOver =>
    rw [deck, shp]
    intro no
    rcases ends with finished | ⟨-, -, planner⟩
    · have draining := finished.draining
      rw [gone] at draining
      exact absurd ⟨draining, finished.records⟩ no
    · exact planner
  case channel =>
    have resumed := h.flow
    have held := h.flowHeld
    rw [FlowResumed, gone] at resumed
    rw [FlowHeld, gone] at held
    rw [deck]
    by_cases scanning : (s.deck d).ctx.state = .scanning
    · exact resumed.imp_right fun resumed => ⟨scanning, resumed⟩
    · exact .inl ⟨(held scanning).1, (held scanning).2.1⟩
  case lane => rw [deck]; simpa only [gone] using h.lane
  case registration => rw [deck]; simpa only [gone] using h.rgu
  case cues => rw [deck]; simpa only [gone] using h.cues
  case others => exact fun e he => by rw [deck, h.others e he, deck_trailerGone_ne s he]
  case tables =>
    have grades : t.gre.grades = s.gre.grades := congrArg Gre.grades h.gre
    have curves : t.gre.curves = s.gre.curves := congrArg Gre.curves h.gre
    rw [ended]
    exact ⟨h.profiles, congrArg Dan.comparators h.dan, congrArg Rpe.rules h.rpe, grades, curves, h.policies⟩
  case analysis => rw [ended]; exact h.dan
  case repair => rw [ended]; exact h.rpe
  case pending => rw [ended]; exact h.pending

/-! ### The record of an emitted frame -/

/-- The record of frame n is EMITTED; another is as it was (R189 step 1). -/
def FrameRecord.emittedAs (n : Nat) (q : FrameRecord) : FrameRecord :=
  if q.number = n then { q with phase := .emitted } else q

theorem number_emittedAs (n : Nat) (q : FrameRecord) : (q.emittedAs n).number = q.number := by
  unfold FrameRecord.emittedAs
  split <;> rfl

/-- Deck k with the record of frame n EMITTED. -/
def Deck.emitted (k : Deck) (n : Nat) : Deck :=
  { k with store := { k.store with records := k.store.records.map (FrameRecord.emittedAs n) } }

theorem find_emitted (k : Deck) (n m : Nat) : (k.emitted n).store.find m = (k.store.find m).map (FrameRecord.emittedAs n) := by
  simp only [DeckStore.find, Deck.emitted, List.find?_map, Function.comp_def, number_emittedAs]

theorem find_emitted_self {k : Deck} {n : Nat} {r : FrameRecord} (found : k.store.find n = some r) :
    (k.emitted n).store.find n = some { r with phase := .emitted } := by
  rw [find_emitted, found, Option.map_some, FrameRecord.emittedAs, if_pos (find_number found)]

theorem find_emitted_ne (k : Deck) {n m : Nat} (h : m ≠ n) : (k.emitted n).store.find m = k.store.find m := by
  rw [find_emitted]
  cases found : k.store.find m with
  | none => rfl
  | some q =>
    have other : q.number ≠ n := find_number found ▸ h
    rw [Option.map_some, FrameRecord.emittedAs, if_neg other]

/-- Whether frame n may give its slot back does not depend on its own phase (R66). -/
theorem mayFree_emitted (k : Deck) (n : Nat) (sh : Option Shot) : (k.emitted n).mayFree n sh ↔ k.mayFree n sh := by
  simp only [Deck.mayFree, find_emitted_ne k (Nat.succ_ne_self n)]
  rfl

/-- The record just EMITTED may give its slot back under R66 in the deck as it stood. -/
theorem releasable_emitted {k : Deck} {n : Nat} {r : FrameRecord} (found : k.store.find n = some r) :
    (k.emitted n).releasable { r with phase := .emitted } = true ↔ k.mayFree n k.table.shots[r.shot]? := by
  obtain rfl := find_number found
  rw [releasable_iff, ← mayFree_emitted k]
  exact and_iff_right rfl

/-! ### The end of a FULL trailer's sending -/

/-- The shot's account and its examination, in one piece (R80, R189 step 2). -/
theorem accountShot_eq {s : State} {d : DeckId} {r : FrameRecord} {n : Snapshot} {sh : Shot} (snapshot : s.gre.snapshot = some n)
    (shot : (s.deck d).table.shots[r.shot]? = some sh) :
    s.accountShot d r = (s.setDeck d { s.deck d with table := { (s.deck d).table with
      shots := (s.deck d).table.shots.set r.shot (sh.account (decide (n.record.clipLimit < r.clipHigh))
        (decide (n.record.clipLimit < r.clipLow))) } }).completeExam d r.shot := by
  have replaced (f : Shot → Shot) :
      (s.deck d).table.shots.modify r.shot f = (s.deck d).table.shots.set r.shot (f sh) := by
    rw [List.modify_eq_set_getElem?, shot]; rfl
  simp only [State.accountShot, snapshot, modTable_eq, State.modDeck, ShotTable.modShot, replaced, Snapshot.findings]

/-- The part with frame n of deck d and its predecessor examined for slot release (R66, R189 step 1). -/
def State.releasesExamined (s : State) (d : DeckId) (n : Nat) : State := (s.releaseExam d n).releaseExamBefore d n

/-- The part after steps 1 to 3 of R189: examined for slot release, the shot accounted, the frame in the defect map. -/
def State.fullHanded (sent : State) (d : DeckId) (r : FrameRecord) (act : Action) : State :=
  let told := (sent.releasesExamined d r.number).accountShot d r
  told.setDeck d { told.deck d with map := (told.deck d).map.entered r.number r.classes act }

/-- The steps of R189 for a record that is EMITTING. -/
theorem fullSent_eq {s : State} {e : Emission} {r : FrameRecord} {act : Action} (found : (s.deck e.deck).store.find e.frame = some r)
    (emitting : r.phase = .emitting) (action : r.action = some act) :
    s.fullSent e = ((s.setDeck e.deck ((s.deck e.deck).emitted e.frame)).fullHanded e.deck r act).endEmission := by
  have emitted : (s.deck e.deck).store.update e.frame (fun q => { q with phase := .emitted })
      = ((s.deck e.deck).emitted e.frame).store := by
    simp only [DeckStore.update, Deck.emitted, beq_iff_eq]
    rfl
  simp only [State.fullSent, found, emitting, if_true, action, Option.getD_some, modStore_eq, modMap_eq, State.modDeck, emitted,
    enter_eq_entered, State.fullHanded, State.releasesExamined, find_number found]
  rfl

theorem exec_fullTrailerSent_absent {s : State}
    (h : s.ali.link ≠ .up ∨ ∀ d reel r g, s.ali.wire ≠ some (.trailer (.full d reel r g))) :
    exec .fullTrailerSent s = .next s := by
  show execFullTrailerSent s = _
  unfold execFullTrailerSent
  split
  · next d reel r g wire =>
    rcases h with down | absent
    · exact if_neg down
    · exact absurd wire (absent d reel r g)
  · rfl

section
variable {s : State} {d : DeckId} {reel : Option ReelId} {r : FrameRecord} {g : Fin 64}

/-- The part with its FULL trailer sent whole. -/
def State.fullGone (s : State) (d : DeckId) (reel : Option ReelId) (r : FrameRecord) (g : Fin 64) : State :=
  { s with ali := s.ali.completeParcel (.trailer (.full d reel r g)) }

/-- A trailer that outlived a soft reset hands nothing on (R192). -/
theorem exec_fullTrailerSent_without (up : s.ali.link = .up) (wire : s.ali.wire = some (.trailer (.full d reel r g)))
    (h : s.ali.emission = none ∨ ∃ e, s.ali.emission = some e ∧ e.sending = false) :
    exec .fullTrailerSent s = .next (s.fullGone d reel r g).beginFrameParcel := by
  show execFullTrailerSent s = _
  rcases h with none | ⟨e, emission, idle⟩
  · simp only [execFullTrailerSent, wire, up, none, if_true]
    rfl
  · simp only [execFullTrailerSent, wire, up, emission, idle, if_true, Bool.not_false]
    rfl

/-- A voided trailer hands nothing on (R191). -/
theorem exec_fullTrailerSent_voided (up : s.ali.link = .up) (wire : s.ali.wire = some (.trailer (.full d reel r g))) {e : Emission}
    (emission : s.ali.emission = some e) (sending : e.sending = true) (voided : e.voided = true) :
    exec .fullTrailerSent s = .next (s.fullGone d reel r g).endEmission.beginFrameParcel := by
  show execFullTrailerSent s = _
  simp only [execFullTrailerSent, wire, up, emission, sending, voided, if_true, Bool.not_true, Bool.false_eq_true, if_false]
  rfl

theorem exec_fullTrailerSent_sending (up : s.ali.link = .up) (wire : s.ali.wire = some (.trailer (.full d reel r g))) {e : Emission}
    (emission : s.ali.emission = some e) (sending : e.sending = true) (voided : e.voided = false) :
    exec .fullTrailerSent s = .next ((s.fullGone d reel r g).fullSent e).beginFrameParcel := by
  show execFullTrailerSent s = _
  simp only [execFullTrailerSent, wire, up, emission, sending, voided, if_true, Bool.not_true, Bool.false_eq_true, if_false]
  rfl

end

/-- The account settles the record's shot and leaves the others (R78, R80). -/
theorem shots_accountShot {s : State} {d : DeckId} {r : FrameRecord} {n : Snapshot} {sh : Shot} (snapshot : s.gre.snapshot = some n)
    (shot : (s.deck d).table.shots[r.shot]? = some sh) :
    ((s.accountShot d r).deck d).shotSettled r.shot (sh.account (decide (n.record.clipLimit < r.clipHigh))
      (decide (n.record.clipLimit < r.clipLow)))
    ∧ ∀ i, i ≠ r.shot → ((s.accountShot d r).deck d).table.shots[i]? = (s.deck d).table.shots[i]? := by
  rw [accountShot_eq snapshot shot]
  refine ⟨shotSettled_completeExam ?_, fun i other => ?_⟩
  · rw [deck_setDeck_same]
    exact List.getElem?_set_self (List.getElem?_eq_some_iff.1 shot).1
  · rw [shots_completeExam_ne _ _ other, deck_setDeck_same]
    exact List.getElem?_set_ne other.symm

theorem leaveFrame_accountShot (s : State) (d : DeckId) (r : FrameRecord) : LeaveFrame s (s.accountShot d r) d := by
  unfold State.accountShot
  split
  · exact (leaveFrame_modShots s d _ rfl).trans (leaveFrame_completeExam _ d _)
  · exact .refl s d

theorem trailerFrame_accountShot (d : DeckId) (s : State) (r : FrameRecord) : TrailerFrame d s (s.accountShot d r) := by
  unfold State.accountShot
  split
  · exact (trailerFrame_setDeck s d _ (s.deck d).map).trans (trailerFrame_completeExam d _ _)
  · exact trailerFrame_refl d s

theorem leaveFrame_releasesExamined (s : State) (d : DeckId) (n : Nat) : LeaveFrame s (s.releasesExamined d n) d :=
  (leaveFrame_releaseExam s d n).trans (leaveFrame_releaseExamBefore _ d n)

theorem table_releasesExamined (s : State) (d : DeckId) (n : Nat) :
    ((s.releasesExamined d n).deck d).table = (s.deck d).table :=
  (table_releaseExamBefore ..).trans (table_releaseExam ..)

/-- Steps 1 to 3 of R189 keep what the steps after a trailer keep. -/
theorem trailerFrame_fullHanded (s : State) (d : DeckId) (r : FrameRecord) (act : Action) :
    TrailerFrame d s (s.fullHanded d r act) := by
  have told := ((trailerFrame_releaseExam d s r.number).trans (trailerFrame_releaseExamBefore d _ r.number)).trans
    (trailerFrame_accountShot d _ r)
  exact told.trans (trailerFrame_setDeck _ d _ _)

theorem store_completeExam (s : State) (d : DeckId) (i : Nat) : ((s.completeExam d i).deck d).store = (s.deck d).store := by
  obtain ⟨_, deck⟩ := deck_completeExam s d i
  rw [deck]

theorem store_accountShot (s : State) (d : DeckId) (r : FrameRecord) : ((s.accountShot d r).deck d).store = (s.deck d).store := by
  unfold State.accountShot
  split
  · rw [store_completeExam, modTable_eq, deck_modDeck_same]
  · rfl

theorem store_fullHanded (s : State) (d : DeckId) (r : FrameRecord) (act : Action) :
    ((s.fullHanded d r act).deck d).store = ((s.releasesExamined d r.number).deck d).store := by
  rw [State.fullHanded, deck_setDeck_same, store_accountShot]

theorem map_fullHanded (s : State) (d : DeckId) (r : FrameRecord) (act : Action) :
    ((s.fullHanded d r act).deck d).map = (s.deck d).map.entered r.number r.classes act := by
  have kept := ((leaveFrame_releasesExamined s d r.number).trans (leaveFrame_accountShot _ d r)).map
  rw [State.fullHanded, deck_setDeck_same, ← kept]

theorem shots_fullHanded {s : State} {d : DeckId} {r : FrameRecord} {n : Snapshot} {sh : Shot} (snapshot : s.gre.snapshot = some n)
    (shot : (s.deck d).table.shots[r.shot]? = some sh) (act : Action) :
    ((s.fullHanded d r act).deck d).shotSettled r.shot (sh.account (decide (n.record.clipLimit < r.clipHigh))
      (decide (n.record.clipLimit < r.clipLow)))
    ∧ ∀ i, i ≠ r.shot → ((s.fullHanded d r act).deck d).table.shots[i]? = (s.deck d).table.shots[i]? := by
  have gre := (leaveFrame_releasesExamined s d r.number).gre
  have table := table_releasesExamined s d r.number
  obtain ⟨settled, others⟩ := shots_accountShot (gre ▸ snapshot) (table ▸ shot)
  rw [State.fullHanded, deck_setDeck_same]
  exact ⟨settled, fun i other => (others i other).trans (by rw [table])⟩

/-- The record after step 1 of R189: freed when R66 lets it go, else EMITTED in the queue. -/
theorem find_releasesExamined {s : State} {k : Deck} {d : DeckId} {n : Nat} {r : FrameRecord}
    (sent : s.deck d = k.emitted n) (found : k.store.find n = some r) :
    (k.mayFree n k.table.shots[r.shot]? → ((s.releasesExamined d n).deck d).store.find n = none)
    ∧ (¬ k.mayFree n k.table.shots[r.shot]? →
      ((s.releasesExamined d n).deck d).store.find n = some { r with phase := .emitted }) := by
  have here : (s.deck d).store.find n = some { r with phase := .emitted } := sent ▸ find_emitted_self found
  have frees : (s.deck d).releasable { r with phase := .emitted } = true ↔ k.mayFree n k.table.shots[r.shot]? :=
    sent ▸ releasable_emitted found
  rw [State.releasesExamined, find_releaseExamBefore_self]
  refine ⟨fun free => find_releaseExam_freed here (frees.2 free), fun held => ?_⟩
  have kept : s.releaseExam d n = s := releaseExam_keeps fun q hq can => by
    obtain rfl := Option.some.inj (here.symm.trans hq)
    exact held (frees.1 can)
  rw [kept, here]

/-- Settles O38: a trailer that hands nothing on (exec_fullTrailerSent_without, exec_fullTrailerSent_voided), and the steps of R189 (fullSent_eq) with
what each leaves. -/
theorem fullTrailerSentFollowsR189 : Obligations.FullTrailerSentFollowsR189 := by
  intro s
  refine ⟨exec_fullTrailerSent_absent, fun d reel r0 g up wire => ?_⟩
  intro parcel done
  refine ⟨exec_fullTrailerSent_without up wire, fun e => exec_fullTrailerSent_voided up wire, ?_⟩
  intro e r n sh act emission sending unvoided found emitting snapshot shot action k high low upward accounted sent examined l
    told m handed
  have number : r.number = e.frame := find_number found
  have sentDeck : sent.deck e.deck = k.emitted e.frame := deck_setDeck_same ..
  have sentShot : (sent.deck e.deck).table.shots[r.shot]? = some sh := by rw [sentDeck]; exact shot
  have handedEq : sent.fullHanded e.deck r act = handed := by
    have gre : examined.gre = sent.gre := (leaveFrame_releasesExamined sent e.deck e.frame).gre
    have table : l.table = (sent.deck e.deck).table := table_releasesExamined sent e.deck e.frame
    have accounts : examined.accountShot e.deck r = told :=
      accountShot_eq (show examined.gre.snapshot = some n by rw [gre]; exact snapshot)
        (show l.table.shots[r.shot]? = some sh by rw [table]; exact sentShot)
    rw [State.fullHanded, number, show sent.releasesExamined e.deck e.frame = examined from rfl, accounts]
    exact congrArg (told.setDeck e.deck) (by rw [← number])
  have ran : exec .fullTrailerSent s = .next (handed.emissionOver none) := by
    rw [exec_fullTrailerSent_sending up wire emission sending unvoided,
      fullSent_eq (s := s.fullGone d reel r0 g) found emitting action, ← handedEq]
    rfl
  obtain ⟨_, _, ended⟩ := emissionOver_eq handed none
  have deck : (handed.emissionOver none).deck e.deck = (sent.fullHanded e.deck r act).deck e.deck := by
    rw [ended, handedEq]; rfl
  have store : ((sent.fullHanded e.deck r act).deck e.deck).store = ((sent.releasesExamined e.deck e.frame).deck e.deck).store := by
    rw [store_fullHanded, number]
  have queued : k.store.records.map (FrameRecord.emittedAs e.frame) ≠ [] := fun empty => by
    rw [find_none_of_empty (List.map_eq_nil_iff.1 empty)] at found
    cases found
  obtain ⟨freed, kept⟩ := find_releasesExamined sentDeck found
  obtain ⟨settled, others⟩ := shots_fullHanded (s := sent) snapshot sentShot act
  refine ⟨_, ran, rfl, ?_, by rw [ended], fun free => ?_, fun held => ?_, ?_, fun i other => ?_, ?_⟩
  · exact emissionEnded_of_trailerFrame (handedEq ▸ trailerFrame_fullHanded sent e.deck r act) queued none
  · rw [deck, store]
    exact freed (shot ▸ free)
  · rw [deck, store]
    exact kept (shot ▸ held)
  · rw [deck]
    exact settled
  · rw [deck, others i other, sentDeck]
    rfl
  · rw [deck, map_fullHanded, sentDeck]
    rfl

end Sys2Proof.Machine
end

section
namespace Sys2Proof.Machine

/-! ### What a frame boundary asks of the Shot Table -/

/-- Shot i of the table is there and OPEN (R72). -/
def ShotTable.openAt (t : ShotTable) (i : Nat) : Prop := ∃ sh, t.shots[i]? = some sh ∧ sh.state = .opened

theorem openIndex_eq_none_iff (t : ShotTable) : t.openIndex = none ↔ ∀ i, ¬ t.openAt i := by
  simp only [ShotTable.openIndex, List.findIdx?_eq_none_iff, beq_eq_false_iff_ne, ShotTable.openAt, not_exists, not_and]
  exact ⟨fun h i sh at_i => h sh (List.mem_of_getElem? at_i), fun h sh mem => by
    obtain ⟨i, at_i⟩ := List.mem_iff_getElem?.1 mem
    exact h i sh at_i⟩

theorem openIndex_eq_some {t : ShotTable} {i : Nat} (here : t.openAt i) (first : ∀ j, j < i → ¬ t.openAt j) :
    t.openIndex = some i := by
  obtain ⟨sh, at_i, opened⟩ := here
  obtain ⟨room, rfl⟩ := List.getElem?_eq_some_iff.1 at_i
  refine List.findIdx?_eq_some_iff_getElem.2 ⟨room, beq_iff_eq.2 opened, fun j before marked => ?_⟩
  exact first j before ⟨_, List.getElem?_eq_getElem (before.trans room), beq_iff_eq.1 marked⟩

/-- The cue for frame n stands at the head of the list or nowhere (R73, R83). -/
theorem headCue_eq {t : ShotTable} {n : Nat} {cue : Option Cue}
    (h : cue = none ∧ (∀ c, t.cues.head? = some c → c.frame ≠ n) ∨ ∃ c, t.cues.head? = some c ∧ c.frame = n ∧ cue = some c) :
    t.headCue n = cue := by
  unfold ShotTable.headCue
  cases cues : t.cues with
  | nil =>
    rcases h with ⟨absent, -⟩ | ⟨c, head, -⟩
    · exact absent.symm
    · rw [cues] at head; cases head
  | cons c later =>
    rw [cues, List.head?_cons] at h
    rcases h with ⟨absent, other⟩ | ⟨_, ⟨⟩, here, found⟩
    · exact (if_neg (other c rfl)).trans absent.symm
    · exact (if_pos here).trans found.symm

theorem openingFor_eq_opensWith (declaration : Declaration) (cue : Option Cue) :
    openingFor declaration cue = opensWith declaration cue := by
  cases declaration with
  | none => cases cue <;> rfl
  | start | relock | splice => rfl

theorem cueTaken_eq {s : State} {d : DeckId} {n : Nat} {cue : Option Cue} (head : (s.deck d).table.headCue n = cue) :
    let t := (s.deck d).table
    s.cueTaken d n =
      s.setDeck d { s.deck d with table := { t with cues := if cue = none then t.cues else t.cues.tail } } := by
  subst head
  intro t
  cases head : t.headCue n with
  | none => exact (if_neg (by rw [head]; decide)).trans (setDeck_deck s d).symm
  | some c => exact if_pos (by rw [head]; rfl)

section
variable {s : State} {d : DeckId} {n : Nat} {declaration : Declaration} {cue : Option Cue}

theorem tellShotTable_joins (head : (s.deck d).table.headCue n = cue) (joins : opensWith declaration cue = none) :
    s.tellShotTable d n declaration = s.cueTaken d n := by
  have asked : openingFor declaration cue = none := (openingFor_eq_opensWith declaration cue).trans joins
  rw [tellShotTable_eq]
  simp only [head, asked, Option.elim_none]

/-- A shot opens at the boundary when the table has room, else its opening is refused (R74, R76). -/
theorem tellShotTable_opens {origin : ShotOrigin} (head : (s.deck d).table.headCue n = cue)
    (opens : opensWith declaration cue = some origin) :
    s.tellShotTable d n declaration =
      if (s.deck d).table.shots.length < 256 then (s.cueTaken d n).openShot d n origin (cue.bind Cue.grade)
      else (s.cueTaken d n).refuseOpening d n origin := by
  have asked : openingFor declaration cue = some origin := (openingFor_eq_opensWith declaration cue).trans opens
  have shots : ((s.cueTaken d n).deck d).table.shots = (s.deck d).table.shots := by rw [cueTaken_eq head, deck_setDeck_same]
  rw [tellShotTable_eq]
  simp only [head, asked, Option.elim_some, shots]
  rfl

end

/-! ### Openings, refused openings and closes -/

/-- The shot that opens at frame n (R74). -/
def shotOpening (n : Nat) (origin : ShotOrigin) (binding : Option (Fin 64)) : Shot := ⟨n, none, origin, .opened, binding, 0, 0⟩

theorem openShot_first {s : State} {d : DeckId} (none : (s.deck d).table.openIndex = none) (n : Nat) (origin : ShotOrigin)
    (binding : Option (Fin 64)) :
    let t := (s.deck d).table
    s.openShot d n origin binding =
      s.setDeck d { s.deck d with table := { t with shots := t.shots ++ [shotOpening n origin binding] } } := by
  simp only [State.openShot, none]
  rfl

theorem openShot_next {s : State} {d : DeckId} {i : Nat} (opened : (s.deck d).table.openIndex = some i) (n : Nat)
    (origin : ShotOrigin) (binding : Option (Fin 64)) :
    let t := (s.deck d).table
    s.openShot d n origin binding = (s.setDeck d { s.deck d with table := { t with
      shots := t.shots.modify i (Shot.closeAt · (n - 1)) ++ [shotOpening n origin binding] } }).afterClose d i (n - 1) := by
  simp only [State.openShot, opened]
  rfl

theorem refuseOpening_eq (s : State) (d : DeckId) (n : Nat) (origin : ShotOrigin) :
    let t : State := s.setDeck d { s.deck d with table := { (s.deck d).table with fullNotice := true } }
    s.refuseOpening d n origin = if (s.deck d).table.fullNotice = true then t else t.notify d (.shotTableFull origin n) := by
  intro t
  refine if_ctx_congr Iff.rfl (fun told => ?_) fun _ => rfl
  have same : { s.deck d with table := { (s.deck d).table with fullNotice := true } } = s.deck d := by rw [← told]
  exact (setDeck_deck s d).symm.trans (congrArg (s.setDeck d) same.symm)

theorem closeShotAtEnd_keeps {s : State} {d : DeckId}
    (h : (s.deck d).table.openIndex = none ∨ (s.deck d).store.lastConsumed = none) (cut : Bool) :
    s.closeShotAtEnd d cut = s := by
  rcases h with h | h
  · simp only [State.closeShotAtEnd, h]
  · simp only [State.closeShotAtEnd, h]
    split
    · next absurd => cases absurd
    · rfl

/-- The OPEN shot at the end of capture: removed when it contains no frame, else closed (R77). -/
theorem closeShotAtEnd_open {s : State} {d : DeckId} {i m : Nat} {sh : Shot} (opened : (s.deck d).table.openIndex = some i)
    (shot : (s.deck d).table.shots[i]? = some sh) (newest : (s.deck d).store.lastConsumed = some m) (cut : Bool) :
    let t := (s.deck d).table
    let last : Int := if cut then (m : Int) - 1 else m
    s.closeShotAtEnd d cut =
      if last < sh.first then s.setDeck d { s.deck d with table := { t with shots := t.shots.eraseIdx i } }
      else (s.setDeck d { s.deck d with table := { t with shots := t.shots.modify i (Shot.closeAt · last.toNat) } }).afterClose
        d i last.toNat := by
  intro t last
  have number : last.toNat = if cut then m - 1 else m := by cases cut <;> simp [last]
  have empty : m + 1 ≤ sh.first + (if cut then 1 else 0) ↔ last < sh.first := by cases cut <;> simp [last]
  simp only [State.closeShotAtEnd, opened, newest, shot]
  rw [number]
  exact if_congr empty rfl rfl

/-- Settles O51: the cue is taken (cueTaken_eq), and what is then to open does so (openShot_first, openShot_next) or is refused
(refuseOpening_eq). -/
theorem shotsFollowR73ToR77 : Obligations.ShotsFollowR73ToR77 := by
  intro s d n declaration cue cut k opened examined closed
  refine ⟨fun atHead => ?_, fun h => ?_, fun i sh m shot isOpen first newest => ?_⟩
  · intro cues told
    have head : k.table.headCue n = cue := headCue_eq atHead
    have taken : s.cueTaken d n = told k.table.shots k.table.fullNotice := cueTaken_eq head
    have table : ((told k.table.shots k.table.fullNotice).deck d) = { k with table := { k.table with cues := cues } } :=
      deck_setDeck_same ..
    refine ⟨fun joins => (tellShotTable_joins head joins).trans taken, fun origin opens => ?_⟩
    intro new
    rw [tellShotTable_opens head opens, taken]
    refine ⟨fun full => ?_, fun room noneOpen => ?_, fun i room here first => ?_⟩
    · rw [if_neg (Nat.not_lt.2 full), refuseOpening_eq, table, setDeck_setDeck]
    · have index := (openIndex_eq_none_iff k.table).2 noneOpen
      rw [if_pos room, openShot_first (by rw [table]; exact index), table, setDeck_setDeck]
      rfl
    · have index := openIndex_eq_some (t := k.table) here first
      rw [if_pos room, openShot_next (by rw [table]; exact index), table, setDeck_setDeck]
      rfl
  · exact closeShotAtEnd_keeps (h.imp_left (openIndex_eq_none_iff k.table).2) cut
  · exact closeShotAtEnd_open (openIndex_eq_some (t := k.table) ⟨sh, shot, isOpen⟩ first) shot newest cut

end Sys2Proof.Machine
end

section
namespace Sys2Proof.Machine

/-! ### The requests of the Shot Table -/

/-- The field of an optional grade record as the statements name it (section 10.3). -/
theorem readGrade_eq_some {grade : Byte} {g : Option (Fin 64)}
    (h : grade = 0xFF ∧ g = none ∨ ∃ i : Fin 64, grade.toNat = i.val ∧ g = some i) : readGrade grade.toNat = some g := by
  rcases h with ⟨rfl, rfl⟩ | ⟨i, field, rfl⟩
  · rfl
  · have record : grade.toNat ≠ 255 := by have := i.isLt; omega
    rw [readGrade, if_neg record, field, asIndex_of_lt i.isLt, Option.map_some]

theorem readGrade_eq_none {grade : Byte} (h : 63 < grade.toNat ∧ grade ≠ 0xFF) : readGrade grade.toNat = none := by
  have record : grade.toNat ≠ 255 := fun c => h.2 (BitVec.eq_of_toNat_eq c)
  rw [readGrade, if_neg record, asIndex_of_le (by omega), Option.map_none]

theorem acceptsCues_iff (c : ContextState) : (!c.acceptsCues) = true ↔ c ≠ .bound ∧ c ≠ .scanning := by
  simp [ContextState.acceptsCues]

theorem cueFor_iff (cues : List Cue) (n : Nat) : (cues.any fun c => c.frame == n) = true ↔ ∃ c ∈ cues, c.frame = n := by
  simp only [List.any_eq_true, beq_iff_eq]

theorem insertCue_perm (c : Cue) (cues : List Cue) : (insertCue c cues).Perm (c :: cues) := by
  induction cues with
  | nil => exact .refl _
  | cons e later ih =>
    rw [insertCue]
    split
    · exact .refl _
    · exact (ih.cons e).trans (.swap c e later)

/-- A cue of a new frame inserted in its place leaves the list in the order of frame numbers (R81). -/
theorem insertCue_pairwise {c : Cue} {cues : List Cue} (new : ∀ e ∈ cues, e.frame ≠ c.frame)
    (ordered : cues.Pairwise fun x y => x.frame < y.frame) : (insertCue c cues).Pairwise fun x y => x.frame < y.frame := by
  induction cues with
  | nil => exact List.pairwise_singleton _ _
  | cons e later ih =>
    obtain ⟨below, rest⟩ := List.pairwise_cons.1 ordered
    rw [insertCue]
    split
    · next before =>
      refine List.pairwise_cons.2 ⟨fun x hx => ?_, ordered⟩
      rcases List.mem_cons.1 hx with rfl | hx
      · exact before
      · exact before.trans (below x hx)
    · next notBefore =>
      have after : e.frame < c.frame := lt_of_le_of_ne (not_lt.1 notBefore) (new e List.mem_cons_self)
      refine List.pairwise_cons.2 ⟨fun x hx => ?_, ih (fun x hx => new x (List.mem_cons_of_mem e hx)) rest⟩
      rcases List.mem_cons.1 ((insertCue_perm c later).mem_iff.1 hx) with rfl | hx
      · exact after
      · exact below x hx

section
variable {s : State} {d : DeckId} {tag : Byte} {frame : Word32} {rest : List ControlParcel}

theorem exec_addCue_unread {grade : Byte} (h : s.takeable (deckParcel d tag 0x20 (bytes32 frame ++ [grade, 0, 0, 0])) rest)
    (bad : readGrade grade.toNat = none) :
    exec .addCue s = .next (s.refused (deckParcel d tag 0x20 (bytes32 frame ++ [grade, 0, 0, 0])) rest .range) := by
  have field : byteAt (bytes32 frame ++ [grade, 0, 0, 0]) 4 = grade.toNat := byteAt_bytes32 frame [grade, 0, 0, 0] 0
  show execAddCue s = _
  rw [execAddCue, takeDeckRequest_delivered h rfl rfl rfl]
  simp only [deckParcel, field, bad]
  exact congrArg _ (refuse_afterTake ..)

/-- ADD_CUE with a grade field in range: the checks in the order of R81. -/
theorem exec_addCue_read {grade : Byte} {g : Option (Fin 64)}
    (h : s.takeable (deckParcel d tag 0x20 (bytes32 frame ++ [grade, 0, 0, 0])) rest) (read : readGrade grade.toNat = some g) :
    let p := deckParcel d tag 0x20 (bytes32 frame ++ [grade, 0, 0, 0])
    let k := s.deck d
    exec .addCue s = .next (
      if 16777215 < frame.toNat then s.refused p rest .range
      else if k.ctx.state ≠ .bound ∧ k.ctx.state ≠ .scanning then s.refused p rest .late
      else if frame.toNat < k.ctx.nextFrame ∨ k.rgu.numbersExhausted = true then s.refused p rest .late
      else if ∃ c ∈ k.table.cues, c.frame = frame.toNat then s.refused p rest .duplicate
      else if 16 ≤ k.table.cues.length then s.refused p rest .full
      else (s.answered p rest .ok .none).setDeck d { k with table := { k.table with
        cues := insertCue ⟨frame.toNat, g⟩ k.table.cues } }) := by
  intro p k
  have refused (status : Status) := refuse_afterTake s p rest status
  have number : le32 p.body 0 = frame.toNat := le32_bytes32 frame [grade, 0, 0, 0]
  have field : byteAt p.body 4 = grade.toNat := byteAt_bytes32 frame [grade, 0, 0, 0] 0
  show execAddCue s = _
  rw [execAddCue, takeDeckRequest_delivered h rfl rfl rfl, number, field, read, replyOk_afterTake]
  exact congrArg _ (if_congr Iff.rfl (refused _) (if_congr (acceptsCues_iff _) (refused _) (if_congr Iff.rfl (refused _)
    (if_congr (cueFor_iff _ _) (refused _) (if_congr Iff.rfl (refused _) rfl)))))

theorem exec_dropCue (h : s.takeable (deckParcel d tag 0x21 (bytes32 frame)) rest) :
    let p := deckParcel d tag 0x21 (bytes32 frame)
    let k := s.deck d
    exec .dropCue s = .next (
      if ∃ c ∈ k.table.cues, c.frame = frame.toNat then
        (s.answered p rest .ok .none).setDeck d { k with
          table := { k.table with cues := k.table.cues.filter fun c => c.frame ≠ frame.toNat } }
      else s.refused p rest .range) := by
  intro p k
  have number : le32 p.body 0 = frame.toNat := le32_bytes32 frame []
  have others : (fun c : Cue => c.frame != frame.toNat) = fun c => decide (c.frame ≠ frame.toNat) := by
    funext c; simp [bne, beq_eq_decide]
  show execDropCue s = _
  rw [execDropCue, takeDeckRequest_delivered h rfl rfl rfl, number, replyOk_afterTake, ← others]
  exact congrArg _ (if_congr (cueFor_iff _ _) rfl (refuse_afterTake s p rest _))

end

/-- Settles O20: the checks of R81 in their order (exec_addCue_read), and the insertion (insertCue_perm, insertCue_pairwise). -/
theorem cuesFollowR81AndR82 : Obligations.CuesFollowR81AndR82 := by
  intro s d tag frame rest k
  refine ⟨?_, exec_dropCue⟩
  intro grade p a h
  refine ⟨fun outside => ?_, ?_⟩
  · rcases outside with bad | high
    · exact exec_addCue_unread h (readGrade_eq_none bad)
    · cases read : readGrade grade.toNat with
      | none => exact exec_addCue_unread h read
      | some g => rw [exec_addCue_read h read, if_pos high]
  intro g field inRange late
  have checked : exec .addCue s = _ := exec_addCue_read h (readGrade_eq_some field)
  rw [if_neg (Nat.not_lt.2 inRange)] at checked
  have absent (new : ∀ c ∈ k.table.cues, c.frame ≠ frame.toNat) : ¬ ∃ c ∈ k.table.cues, c.frame = frame.toNat :=
    fun ⟨c, mem, same⟩ => new c mem same
  refine ⟨fun isLate => ?_, fun notLate there => ?_, fun notLate new full => ?_, fun notLate new room => ?_⟩
  · rw [checked]
    rcases isLate with state | number
    · rw [if_pos state]
    · rw [if_pos number, ite_self]
  all_goals
    obtain ⟨state, number⟩ := not_or.1 notLate
    rw [if_neg state, if_neg number] at checked
  · rw [checked, if_pos there]
  · rw [checked, if_neg (absent new), if_pos full]
  · rw [if_neg (absent new), if_neg (Nat.not_le.2 room)] at checked
    exact ⟨_, checked, insertCue_perm _ _, insertCue_pairwise new⟩

/-- Settles O21: the grade field is read (readGrade_eq_some, readGrade_eq_none), and the binding of the named shot replaced. -/
theorem gradeBindingFollowsR84AndR85 : Obligations.GradeBindingFollowsR84AndR85 := by
  intro s d tag grade rest k
  refine ⟨?_, ?_⟩
  · intro index p h
    have run : exec .bindGrade s = execBindGrade s := rfl
    have shotField : byteAt p.body 0 = index.toNat := rfl
    have gradeField : byteAt p.body 1 = grade.toNat := rfl
    have refused (status : Status) := refuse_afterTake s p rest status
    rw [run, execBindGrade, takeDeckRequest_delivered h rfl rfl rfl, shotField, gradeField, replyOk_afterTake]
    refine ⟨fun outside => congrArg _ ?_, fun g sh field shot => congrArg _ ?_⟩
    · rw [← refused]
      rcases outside with bad | beyond
      · rw [readGrade_eq_none bad]
      · have gone : ((s.modAli fun a => a.afterTake rest).deck d).table.shots[index.toNat]? = none :=
          List.getElem?_eq_none beyond
        simp only [gone]
        cases readGrade grade.toNat <;> rfl
    · have replaced : k.table.shots.modify index.toNat (fun x => { x with binding := g })
          = k.table.shots.set index.toNat { sh with binding := g } := by
        rw [List.modify_eq_set_getElem?, shot]; rfl
      have here : ((s.modAli fun a => a.afterTake rest).deck d).table.shots[index.toNat]? = some sh := shot
      simp only [readGrade_eq_some field, here, ← replaced]
      exact if_congr Iff.rfl (refused _) rfl
  · intro p h
    have field : byteAt p.body 0 = grade.toNat := rfl
    have refused (status : Status) := refuse_afterTake s p rest status
    show execSetDefaultGrade s = _
    rw [execSetDefaultGrade, takeDeckRequest_delivered h rfl rfl rfl, field, replyOk_afterTake]
    by_cases high : 63 < grade.toNat
    · rw [asIndex_of_le high, dif_pos high]
      exact congrArg _ (refused _)
    · rw [asIndex_of_lt (show grade.toNat < 64 by omega), dif_neg high]
      exact congrArg _ (if_congr Option.isNone_iff_eq_none (refused _) rfl)

/-! ### The deck's read requests -/

theorem numberReadouts_eq_zipIdx (tag : Byte) (n : Nat) (bodies : List (Byte × ReadoutBody)) :
    numberReadouts tag n bodies = (bodies.zipIdx n).map fun x => ⟨x.1.1, tag, x.2, x.1.2⟩ := by
  induction bodies generalizing n with
  | nil => rfl
  | cons body later ih => rw [numberReadouts, ih, List.zipIdx_cons, List.map_cons]

/-- The reply of a read request with its readouts, in one piece (R180). -/
theorem replyReadouts_afterTake (s : State) (p : ControlParcel) (rest : List ControlParcel) (bodies : List (Byte × ReadoutBody)) :
    (s.modAli fun a => a.afterTake rest).replyReadouts p bodies = s.answeredWith p rest bodies := by
  rw [State.replyReadouts, reply_afterTake, numberReadouts_eq_zipIdx]
  rfl

/-- The indices of a table of n entries among the 16 from `first` on. -/
theorem filter_range_window (n first : Nat) :
    (List.range n).filter (fun i => first ≤ i ∧ i < first + 16) = List.range' first (min (n - first) 16) := by
  refine (List.pairwise_lt_range.filter _).eq_of_mem_iff List.pairwise_lt_range' fun i => ?_
  simp only [List.mem_filter, List.mem_range, decide_eq_true_eq, List.mem_range'_1]
  omega

/-- The entries that a read request gives, by their indices (R87, R129). -/
theorem runFrom_eq {α : Type} (xs : List α) (first : Nat) (fallback : α) :
    runFrom xs first =
      ((List.range xs.length).filter fun i => first ≤ i ∧ i < first + 16).map fun i => (i, xs.getD i fallback) := by
  rw [filter_range_window]
  refine List.ext_getElem (by simp [runFrom, Config.readoutRun, Nat.min_comm]) fun j inRun inWindow => ?_
  have room : first + j < xs.length := by
    rw [List.length_map, List.length_range'] at inWindow
    omega
  simp [runFrom, List.getD_eq_getElem?_getD, List.getElem?_eq_getElem room]

/-- Settles O22: the readouts by their indices (runFrom_eq), numbered in the reply's order (replyReadouts_afterTake). -/
theorem deckReadsFollowR87AndR129 : Obligations.DeckReadsFollowR87AndR129 := by
  intro s d tag rest k
  refine ⟨?_, ?_⟩ <;> intro index p h
  · have field : byteAt p.body 0 = index.toNat := rfl
    show execReadShots s = _
    rw [execReadShots, takeDeckRequest_delivered h rfl rfl rfl, field, replyReadouts_afterTake, runFrom_eq _ _ default,
      List.map_map]
    rfl
  · have field : le16 p.body 0 = index.toNat := le16_bytes16 index [0, 0]
    show execReadDefectMap s = _
    rw [execReadDefectMap, takeDeckRequest_delivered h rfl rfl rfl, field]
    refine congrArg _ (if_congr Iff.rfl (refuse_afterTake s p rest _) ((replyReadouts_afterTake ..).trans ?_))
    rw [runFrom_eq _ _ default, List.map_map]
    rfl

end Sys2Proof.Machine
end

section
namespace Sys2Proof.Machine

/-! ### The arbiter's choice -/

theorem mayGrant_iff (a : Ali) : a.mayGrant = true ↔ a.grants := by
  have free : a.abortedOnWire = false ↔ ∀ d reel r n, a.wire ≠ some (.trailer (.aborted d reel r n)) := by
    unfold Ali.abortedOnWire
    split
    · next d reel r n wire => exact iff_of_false Bool.noConfusion fun no => no d reel r n wire
    · next no => exact iff_of_true rfl no
  simp only [Ali.mayGrant, Ali.suspended, Bool.and_eq_true, Bool.not_eq_true', Bool.or_eq_false_iff, bne_eq_false_iff_eq,
    Option.isNone_iff_eq_none, free, Ali.grants]
  tauto

theorem eligible_eq_some_iff (k : DeckStore) (r : FrameRecord) : k.eligible = some r ↔ k.offers r := by
  have found : k.records.find? (fun q => q.phase != .emitted) = some r ↔
      r.phase ≠ .emitted ∧ ∃ before after, k.records = before ++ r :: after ∧ ∀ q ∈ before, q.phase = .emitted := by
    rw [List.find?_eq_some_iff_append]
    simp
  have eligible : k.eligible = some r ↔
      k.records.find? (fun q => q.phase != .emitted) = some r ∧ (r.phase = .ready ∨ r.phase = .overrun) := by
    unfold DeckStore.eligible
    cases k.records.find? fun q => q.phase != .emitted with
    | none => simp
    | some q =>
      simp only [Option.ite_none_right_eq_some, Bool.or_eq_true, decide_eq_true_eq, Option.some.injEq]
      exact ⟨fun ⟨phase, same⟩ => ⟨same, same ▸ phase⟩, fun ⟨same, phase⟩ => ⟨same ▸ phase, same⟩⟩
  rw [eligible, found, DeckStore.offers]
  constructor
  · rintro ⟨⟨-, queue⟩, phase⟩
    exact ⟨phase, queue⟩
  · rintro ⟨phase, queue⟩
    refine ⟨⟨?_, queue⟩, phase⟩
    rcases phase with phase | phase <;> rw [phase] <;> decide

theorem eligible_eq_none {k : DeckStore} (h : ∀ r, ¬ k.offers r) : k.eligible = none :=
  Option.eq_none_iff_forall_ne_some.2 fun r found => h r ((eligible_eq_some_iff k r).1 found)

theorem decksAfter_eq_map (d : DeckId) : decksAfter d = (List.finRange 4).map fun i => d + 1 + i := by
  revert d; decide

theorem nextGrant_eq_none {s : State} (h : ∀ d r, ¬ (s.deck d).store.offers r) : s.nextGrant = none := by
  refine List.findSome?_eq_none_iff.2 fun d _ => ?_
  rw [eligible_eq_none (h d), Option.map_none]

/-- The first deck in turn that has an eligible record is granted (R186). -/
theorem nextGrant_eq_some {s : State} {after : DeckId} {r : FrameRecord}
    (passed : ∀ i, i < after → ∀ q, ¬ (s.deck (s.ali.lastGranted + 1 + i)).store.offers q)
    (offers : (s.deck (s.ali.lastGranted + 1 + after)).store.offers r) :
    s.nextGrant = some (s.ali.lastGranted + 1 + after, r) := by
  rw [State.nextGrant, decksAfter_eq_map, List.findSome?_map]
  have order : ∀ a : DeckId, List.finRange 4 =
      (List.finRange 4).filter (· < a) ++ a :: (List.finRange 4).filter (a < ·) := by decide
  refine List.findSome?_eq_some_iff.2 ⟨_, after, _, order after, ?_, fun i before => ?_⟩
  · simp only [Function.comp_apply, (eligible_eq_some_iff _ r).2 offers, Option.map_some]
  · have earlier : i < after := of_decide_eq_true (List.mem_filter.1 before).2
    simp only [Function.comp_apply, eligible_eq_none (passed i earlier), Option.map_none]

/-! ### What a grant does -/

theorem grant_overrun {s : State} {r : FrameRecord} (phase : r.phase = .overrun) (d : DeckId) :
    s.grant d r = { s with ali := { s.ali with
      emission := some ⟨d, r.number, true, r.lines, 0, 0, false, false⟩, lastGranted := d } } := by
  simp [State.grant, phase, State.modAli]

theorem resolveGrade_eq {k : Deck} {r : FrameRecord} {g : Fin 64}
    (h : (k.table.shots[r.shot]?).bind Shot.binding = some g
      ∨ (k.table.shots[r.shot]?).bind Shot.binding = none ∧ k.ctx.defaultGrade = some g) : k.resolveGrade r = g := by
  unfold Deck.resolveGrade
  rcases h with bound | ⟨unbound, default⟩
  · rw [bound]
  · rw [unbound, default, Option.getD_some]

/-- The record of frame n EMITTING, with the clip counts of a frame that has no lines; another is as it was (R149, R186). -/
def FrameRecord.emittingAs (n lines : Nat) (q : FrameRecord) : FrameRecord :=
  if q.number = n then
    { q with
      phase := .emitting
      clipHigh := if lines = 0 then 0 else q.clipHigh
      clipLow := if lines = 0 then 0 else q.clipLow }
  else q

theorem update_emitting (k : DeckStore) {n lines : Nat} (h : lines ≠ 0) :
    k.update n (fun q => { q with phase := .emitting }) = { k with records := k.records.map (FrameRecord.emittingAs n lines) } := by
  simp only [DeckStore.update, beq_iff_eq]
  congr 2
  funext q
  simp only [FrameRecord.emittingAs, h, if_false]

theorem update_emitting_empty (k : DeckStore) (n : Nat) :
    (k.update n fun q => { q with phase := .emitting }).update n (fun q => { q with clipHigh := 0, clipLow := 0 })
      = { k with records := k.records.map (FrameRecord.emittingAs n 0) } := by
  simp only [DeckStore.update, beq_iff_eq, List.map_map]
  congr 2
  funext q
  by_cases h : q.number = n <;> simp [FrameRecord.emittingAs, h]

theorem modGre_setDeck (s : State) (d : DeckId) (k : Deck) (f : Gre → Gre) :
    (s.setDeck d k).modGre f = (s.modGre f).setDeck d k := rfl

/-- The grant of a READY record: its emission, the snapshot of its resolved grade, and the record EMITTING (R135, R149). -/
theorem grant_ready {s : State} {d : DeckId} {r : FrameRecord} {g : Fin 64} (phase : r.phase = .ready)
    (grade : (s.deck d).resolveGrade r = g) :
    let k := s.deck d
    s.grant d r = ({ s with
        ali := { s.ali with emission := some ⟨d, r.number, false, r.lines, 0, 0, false, false⟩, lastGranted := d }
        gre := { s.gre with snapshot := some (s.gre.snapshotOf d r.number g) } } : State).setDeck d
      { k with store := { k.store with records := k.store.records.map (FrameRecord.emittingAs r.number r.lines) } } := by
  intro k
  have full : decide (r.phase = .ready) = true := decide_eq_true phase
  subst grade
  by_cases empty : r.lines = 0
  · rw [empty, ← update_emitting_empty]
    simp only [State.grant, full, empty, if_true, State.writeClipCounts, modStore_eq, State.modDeck, modGre_setDeck,
      deck_setDeck_same, setDeck_setDeck]
    rfl
  · rw [← update_emitting _ empty]
    simp only [State.grant, full, empty, if_true, if_false]
    rfl

theorem exec_grant_keeps {s : State} (h : ¬ s.ali.grants ∨ ∀ d r, ¬ (s.deck d).store.offers r) : exec .grant s = .next s := by
  show execGrant s = _
  unfold execGrant
  rcases h with h | h
  · exact if_neg (mt (mayGrant_iff s.ali).1 h)
  · rw [nextGrant_eq_none h, ite_self]

theorem exec_grant_next {s : State} {d : DeckId} {r : FrameRecord} (grants : s.ali.grants) (next : s.nextGrant = some (d, r)) :
    exec .grant s = .next (s.grant d r).beginFrameParcel := by
  show execGrant s = _
  rw [execGrant, if_pos ((mayGrant_iff s.ali).2 grants), next]

/-- Settles O35: the first deck in turn (nextGrant_eq_some), and the grant by the phase of its record. -/
theorem grantFollowsR186 : Obligations.GrantFollowsR186 := by
  intro s
  refine ⟨exec_grant_keeps, fun d after r grants turn passed offers => ?_⟩
  subst turn
  intro k granted
  have ran := exec_grant_next grants (nextGrant_eq_some passed offers)
  refine ⟨fun overrun => ?_, fun g ready grade => ?_⟩
  · rw [ran, grant_overrun overrun]
    rfl
  · rw [ran, grant_ready ready (resolveGrade_eq grade)]
    rfl

end Sys2Proof.Machine
end

section
namespace Sys2Proof.Machine

/-! ### Tile areas -/

/-- The entries of a window of a list that pass a test, counted by their places. -/
theorem countP_window {α : Type} (p : α → Bool) (l : List α) (fallback : α) {a b : Nat} (inside : b ≤ l.length) :
    ((l.drop a).take (b - a)).countP p = ((Finset.Ico a b).filter fun j => p (l.getD j fallback) = true).card := by
  have window : (l.drop a).take (b - a) = (List.range' a (b - a)).map fun j => l.getD j fallback := by
    refine List.ext_getElem (by simp; omega) fun j inWindow _ => ?_
    have room : a + j < l.length := by simp at inWindow; omega
    simp [List.getD_eq_getElem?_getD, List.getElem?_eq_getElem room]
  have counted : ((Finset.Ico a b).filter fun j => p (l.getD j fallback) = true).card =
      ((List.range' a (b - a)).filter fun j => decide (p (l.getD j fallback) = true)).length := rfl
  rw [window, counted, List.countP_map, List.countP_eq_length_filter]
  simp only [Bool.decide_eq_true, Function.comp_def]

theorem length_line {m : SlotMem} {width : Nat} (even : evenLines m width) (i : Nat) :
    (SlotMem.line m width i).length = width := by
  unfold SlotMem.line SlotMem.find
  cases found : m.find? fun e => e.1 == i with
  | none => exact List.length_replicate
  | some e => exact even e (List.mem_of_find?_eq_some found)

/-- No tile row or column ends beyond the frame (R93). -/
theorem tileEnd_le (size : Nat) {k : Nat} (h : k < 8) : (k + 1) * size / 8 ≤ size :=
  Nat.div_le_of_le_mul (Nat.mul_le_mul_right size h)

/-- The dark samples of a line in a tile column, by their positions (R93, R94). -/
theorem darkInColumn_eq_card (pf : Profile) (lines : Nat) {m : SlotMem} (even : evenLines m pf.lineWidth) (i : Nat) {c : Nat}
    (column : c < 8) :
    (tileGeometry pf lines).darkInColumn (SlotMem.line m pf.lineWidth i) c =
      ((Finset.Ico (c * pf.lineWidth / 8) ((c + 1) * pf.lineWidth / 8)).filter fun j =>
        (sampleAt m pf.lineWidth i j).ir.toNat < pf.irLimit).card := by
  have inside : (c + 1) * pf.lineWidth / 8 ≤ (SlotMem.line m pf.lineWidth i).length :=
    (tileEnd_le pf.lineWidth column).trans (length_line even i).ge
  refine (countP_window (darkSample pf.irLimit) _ blackSample inside).trans ?_
  simp only [darkSample, decide_eq_true_eq]
  rfl

/-- A tile's area is the number of its dark samples, up to 65535 (R94). -/
theorem area_eq_card (pf : Profile) (lines : Nat) {m : SlotMem} (even : evenLines m pf.lineWidth) {x c : Nat} (row : x < 8)
    (column : c < 8) :
    (tileGeometry pf lines).area m x c = min 65535
      (((Finset.range lines ×ˢ Finset.range pf.lineWidth).filter fun p =>
        inTile lines pf.lineWidth x c p.1 p.2 ∧ (sampleAt m pf.lineWidth p.1 p.2).ir.toNat < pf.irLimit).card) := by
  have tile : (Finset.range lines ×ˢ Finset.range pf.lineWidth).filter (fun p =>
        inTile lines pf.lineWidth x c p.1 p.2 ∧ (sampleAt m pf.lineWidth p.1 p.2).ir.toNat < pf.irLimit)
      = (Finset.Ico (x * lines / 8) ((x + 1) * lines / 8)
          ×ˢ Finset.Ico (c * pf.lineWidth / 8) ((c + 1) * pf.lineWidth / 8)).filter fun p =>
        (sampleAt m pf.lineWidth p.1 p.2).ir.toNat < pf.irLimit := by
    have := tileEnd_le lines row
    have := tileEnd_le pf.lineWidth column
    ext p
    simp only [Finset.mem_filter, Finset.mem_product, Finset.mem_range, Finset.mem_Ico, inTile]
    omega
  have rows : (tileGeometry pf lines).area m x c =
      min (∑ i ∈ Finset.Ico (x * lines / 8) ((x + 1) * lines / 8),
        (tileGeometry pf lines).darkInColumn (SlotMem.line m pf.lineWidth i) c) 65535 := rfl
  rw [rows, tile, Nat.min_comm, Finset.card_filter, Finset.sum_product]
  simp only [darkInColumn_eq_card pf lines even _ column, Finset.card_filter]

/-! ### The eight measures -/

/-- The 64 areas in one list, tile by tile (R93). -/
theorem flatten_areas (g : TileGeometry) (m : SlotMem) :
    (g.areas m).flatten = (List.range 8 ×ˢ List.range 8).map fun p => g.area m p.1 p.2 := rfl

theorem flatten_flags (g : TileGeometry) (areas : List (List Nat)) :
    (g.flags areas).flatten = areas.flatten.map fun a => decide (g.flagLimit ≤ a) := List.map_flatten.symm

theorem mem_flatten_areas (g : TileGeometry) (m : SlotMem) (a : Nat) :
    a ∈ (g.areas m).flatten ↔ ∃ x c, (x < 8 ∧ c < 8) ∧ g.area m x c = a := by
  simp only [flatten_areas, List.mem_map, Prod.exists, List.mem_product, List.mem_range]

theorem sum_areas (g : TileGeometry) (m : SlotMem) :
    (g.areas m).flatten.sum = ∑ x ∈ Finset.range 8, ∑ c ∈ Finset.range 8, g.area m x c := by
  rw [flatten_areas, ← Finset.sum_product']
  rfl

theorem countP_flags (g : TileGeometry) (m : SlotMem) :
    (g.flags (g.areas m)).flatten.countP id
      = ((Finset.range 8 ×ˢ Finset.range 8).filter fun p => g.flagLimit ≤ g.area m p.1 p.2).card := by
  rw [flatten_flags, flatten_areas, List.map_map, List.countP_map, List.countP_eq_length_filter]
  rfl

/-- The greatest entry of a list is bounded below by exactly what bounds one of its entries below. -/
theorem le_foldl_max_iff (l : List Nat) (a n : Nat) : n ≤ l.foldl max a ↔ n ≤ a ∨ ∃ x ∈ l, n ≤ x := by
  induction l generalizing a with
  | nil => simp
  | cons b rest ih => simp only [List.foldl_cons, ih, le_max_iff, List.exists_mem_cons_iff, or_assoc]

/-! ### The longest run -/

/-- A run that begins at the head of a list ends before the first no. -/
theorem replicate_prefix_iff (n k : Nat) (l : List Bool) :
    List.replicate n true <+: List.replicate k true ++ false :: l ↔ n ≤ k := by
  induction n generalizing k with
  | zero => simp
  | succ n ih =>
    cases k with
    | zero => simp [List.replicate_succ]
    | succ k => simp only [List.replicate_succ, List.cons_append, List.cons_prefix_cons, true_and, ih, Nat.succ_le_succ_iff]

/-- A run of yes does not go across a no. -/
theorem replicate_infix_iff (n k : Nat) (l : List Bool) :
    List.replicate n true <:+: List.replicate k true ++ false :: l ↔ n ≤ k ∨ List.replicate n true <:+: l := by
  induction k with
  | zero => exact List.infix_cons_iff.trans (or_congr (replicate_prefix_iff n 0 l) Iff.rfl)
  | succ k ih =>
    rw [List.replicate_succ, List.cons_append, List.infix_cons_iff, ih, ← List.cons_append, ← List.replicate_succ,
      replicate_prefix_iff, ← or_assoc]
    exact or_congr (by omega) Iff.rfl

/-- The longest run is the length of the longest stretch of yes in the list with the run that stands before it (R96). -/
theorem le_longestRun_iff (n k : Nat) (l : List Bool) :
    n ≤ longestRun k l ↔ List.replicate n true <:+: List.replicate k true ++ l := by
  induction l generalizing k with
  | nil =>
    rw [longestRun, List.append_nil]
    refine ⟨fun h => ?_, fun h => by simpa using h.length_le⟩
    rw [← Nat.add_sub_cancel' h, List.replicate_add]
    exact (List.prefix_append _ _).isInfix
  | cons b rest ih =>
    cases b with
    | true => rw [longestRun, ih, List.replicate_succ', List.append_assoc, List.singleton_append]
    | false => rw [longestRun, le_max_iff, ih, replicate_infix_iff]; rfl

/-- SCRATCH_RUN is at least n when one column has n flagged tiles in consecutive rows, and only then (R96). -/
theorem le_scratchRun_iff (g : TileGeometry) (m : SlotMem) (n : Nat) :
    n ≤ scratchRun (g.flags (g.areas m)) ↔
      ∃ c x, c < 8 ∧ x + n ≤ 8 ∧ ∀ j, j < n → g.flagLimit ≤ g.area m (x + j) c := by
  have columns (c : Nat) (h : c < 8) : column (g.flags (g.areas m)) c =
      (List.range 8).map fun x => decide (g.flagLimit ≤ g.area m x c) := by
    simp [column, TileGeometry.flags, TileGeometry.areas, h, List.getD_eq_getElem?_getD]
  have inColumn (c : Nat) (h : c < 8) : n ≤ longestRun 0 (column (g.flags (g.areas m)) c) ↔
      ∃ x, x + n ≤ 8 ∧ ∀ j, j < n → g.flagLimit ≤ g.area m (x + j) c := by
    rw [le_longestRun_iff, columns c h, List.replicate_zero, List.nil_append, List.infix_iff_getElem?]
    simp only [List.length_replicate, List.length_map, List.length_range, List.getElem_replicate]
    refine exists_congr fun x => ?_
    rw [Nat.add_comm n x]
    refine and_congr_right fun room => forall₂_congr fun j inRun => ?_
    have here : x + j < 8 := by omega
    simp [here, Nat.add_comm j x]
  rw [scratchRun, le_foldl_max_iff]
  simp only [List.mem_map, List.mem_range, exists_exists_and_eq_and]
  constructor
  · rintro (none | ⟨c, h, long⟩)
    · exact ⟨0, 0, by omega, by omega, fun j inRun => by omega⟩
    · obtain ⟨x, run⟩ := (inColumn c h).1 long
      exact ⟨c, x, h, run⟩
  · rintro ⟨c, x, h, run⟩
    exact .inr ⟨c, h, (inColumn c h).2 ⟨x, run⟩⟩

theorem shotPosition_of_shot {k : Deck} {r : FrameRecord} {sh : Shot} (shot : k.table.shots[r.shot]? = some sh) :
    k.shotPosition r = r.number - sh.first := by rw [Deck.shotPosition, shot]

/-- Settles O55: the areas (area_eq_card), their total and greatest (sum_areas, le_foldl_max_iff), and the longest run (le_scratchRun_iff). -/
theorem measuresFollowR93ToR97 : Obligations.MeasuresFollowR93ToR97 := by
  intro pf mem r shotPos even g m area flagged run
  have greatest (n : Nat) : n ≤ m.maxTile ↔ n ≤ 0 ∨ ∃ a ∈ (g.areas mem).flatten, n ≤ a := le_foldl_max_iff _ 0 n
  have bounded (x c : Nat) (row : x < 8) (column : c < 8) : area x c ≤ m.maxTile :=
    (greatest _).2 (.inr ⟨_, (mem_flatten_areas g mem _).2 ⟨x, c, ⟨row, column⟩, rfl⟩, le_rfl⟩)
  have reached : ∃ x c, x < 8 ∧ c < 8 ∧ m.maxTile = area x c := by
    rcases (greatest _).1 le_rfl with zero | ⟨a, mem_areas, below⟩
    · exact ⟨0, 0, by omega, by omega, le_antisymm (zero.trans (Nat.zero_le _)) (bounded 0 0 (by omega) (by omega))⟩
    · obtain ⟨x, c, ⟨row, column⟩, rfl⟩ := (mem_flatten_areas g mem a).1 mem_areas
      exact ⟨x, c, row, column, le_antisymm below (bounded x c row column)⟩
  have longest (n : Nat) : n ≤ m.scratchRun ↔ run n := le_scratchRun_iff g mem n
  have total : m.totalArea = min 16777215 (∑ x ∈ Finset.range 8, ∑ c ∈ Finset.range 8, area x c) := by
    rw [← sum_areas, Nat.min_comm]
    rfl
  refine ⟨fun x c row column => area_eq_card pf r.lines even row column, total, bounded, reached, countP_flags g mem,
    (longest _).1 le_rfl, fun n => (longest n).2, rfl, rfl, ?_, rfl, fun k sh => shotPosition_of_shot⟩
  show r.flags.coasted.toNat = _
  cases r.flags.coasted <;> rfl

end Sys2Proof.Machine
end

section
namespace Sys2Proof.Machine

/-! ### Condition codes -/

/-- The answer of a comparator: enabled, and its relation holds of its measure (R105). -/
theorem answer_iff (c : Comparator) (m : Measures) : c.answer m = true ↔
    c.enabled = true ∧ (c.relation = .atLeast ∧ c.limit ≤ m.value c.measure
      ∨ c.relation = .below ∧ m.value c.measure < c.limit) := by
  unfold Comparator.answer
  cases c.relation <;> simp

theorem getLsbD_conditionCodes (cs : Vector Comparator 8) (m : Measures) (i : Fin 8) :
    (conditionCodes cs m).getLsbD i.val = cs[i].answer m := by
  rw [conditionCodes, BitVec.getLsbD_setWidth, BitVec.getLsbD_ofBoolListLE]
  simp [List.getD_eq_getElem?_getD]

/-- The condition codes are the one byte that holds every comparator's answer (R105). -/
theorem eq_conditionCodes {cs : Vector Comparator 8} {m : Measures} {codes : Byte}
    (h : ∀ i : Fin 8, codes.getLsbD i.val = true ↔ cs[i].answer m = true) : codes = conditionCodes cs m :=
  BitVec.eq_of_getLsbD_eq fun i bit => by
    rw [getLsbD_conditionCodes cs m ⟨i, bit⟩]
    exact Bool.eq_iff_iff.2 (h ⟨i, bit⟩)

/-! ### The results of an analysis -/

section
variable {k : Deck} {r : FrameRecord} {sh : Shot} (shot : k.table.shots[r.shot]? = some sh)
include shot

theorem firstOfShot_of_shot : k.firstOfShot r = decide (sh.first = r.number) := by
  rw [Deck.firstOfShot, shot]; exact beq_eq_decide ..

theorem shotSpliced_of_shot : k.shotSpliced r = decide (sh.origin = .splice) := by
  rw [Deck.shotSpliced, shot]; exact beq_eq_decide ..

/-- A record with the results of its analysis, from its shot and the answers of the comparators (R90, R98 to R101, R105). -/
theorem analyzed_of_shot (pf : Profile) {cs : Vector Comparator 8} {codes : Byte} {m : Measures}
    (measured : measuresOf (tileGeometry pf r.lines) (k.store.content r) r (r.number - sh.first) = m)
    (answers : ∀ i : Fin 8, codes.getLsbD i.val = true ↔ cs[i].answer m = true) :
    k.analyzed pf cs r = { r with
      measures := some m, codes := some codes, phase := .analyzed
      classes := analysisClasses pf m r.flags r.predecessor (decide (sh.first = r.number)) (decide (sh.origin = .splice)) } := by
  rw [Deck.analyzed, shotPosition_of_shot shot, measured, firstOfShot_of_shot shot, shotSpliced_of_shot shot,
    eq_conditionCodes answers]

end

theorem gapFate_eq_decide (f : Fate) : (f == .overrun || f == .unrecorded || f == .discarded) =
    decide (f = .overrun ∨ f = .unrecorded ∨ f = .discarded) := by
  cases f <;> rfl

/-- An update of a number that one record alone has replaces that record. -/
theorem update_of_unique {k : DeckStore} {n : Nat} {r : FrameRecord} (only : ∀ q ∈ k.records, q.number = n → q = r)
    (f : FrameRecord → FrameRecord) :
    k.update n f = { k with records := k.records.map fun q => if q.number = n then f r else q } := by
  rw [DeckStore.update]
  congr 1
  refine List.map_congr_left fun q mem => ?_
  by_cases here : q.number = n
  · rw [if_pos (beq_iff_eq.2 here), if_pos here, only q mem here]
  · rw [if_neg (mt beq_iff_eq.1 here), if_neg here]

/-! ### The commands -/

theorem exec_analysisComplete_idle {s : State} (idle : s.dan.active = none) : exec .analysisComplete s = .next s := by
  show execAnalysisComplete s = _
  rw [execAnalysisComplete, idle]

theorem exec_analysisComplete {s : State} {f : FrameRef} {pf : Profile} (active : s.dan.active = some f)
    (profile : s.profileOf f.deck = some pf) :
    exec .analysisComplete s = .next ((s.modDan fun a => { a with active := none }).finishAnalysis f pf) := by
  show execAnalysisComplete s = _
  simp only [execAnalysisComplete, active, profile]

section
variable {s : State} {f : FrameRef}

/-- Results for a record that has gone, or is no longer CAPTURED, are dropped (R90). -/
theorem finishAnalysis_dropped (gone : ∀ r, (s.deck f.deck).store.find f.frame = some r → r.phase ≠ .captured) (pf : Profile) :
    s.finishAnalysis f pf = s := by
  unfold State.finishAnalysis
  dsimp only
  split
  · next r found => exact if_neg (gone r found)
  · rfl

theorem finishAnalysis_captured {k : Deck} {r result : FrameRecord} {pf : Profile} (deck : s.deck f.deck = k)
    (found : k.store.find f.frame = some r) (captured : r.phase = .captured)
    (only : ∀ q ∈ k.store.records, q.number = f.frame → q = r) (analyzed : k.analyzed pf s.dan.comparators r = result) :
    s.finishAnalysis f pf = ((s.setDeck f.deck { k with store := { k.store with
      records := k.store.records.map fun q => if q.number = f.frame then result else q } }).decideExam
        f.deck f.frame).decideExamBefore f.deck f.frame := by
  simp only [State.finishAnalysis, deck, found, captured, if_true, modStore_eq, State.modDeck]
  rw [update_of_unique only, analyzed]

end

/-- Settles O54: the results dropped (finishAnalysis_dropped), or written into the record (finishAnalysis_captured, analyzed_of_shot). -/
theorem analysisFollowsR89ToR105 : Obligations.AnalysisFollowsR89ToR105 := by
  intro s
  refine ⟨?_, exec_analysisComplete_idle, fun f pf active profile => ?_⟩
  · show execAnalysisStart s = _
    unfold execAnalysisStart
    cases s.dan.active <;> cases s.dan.queue <;> rfl
  intro k idle
  rw [exec_analysisComplete active profile]
  refine ⟨fun gone => congrArg _ (finishAnalysis_dropped (s := idle) gone pf), ?_⟩
  intro r sh codes found captured shot only m answers scratch blotch first lost result
  have codesAnswer (i : Fin 8) : codes.getLsbD i.val = true ↔ s.dan.comparators[i].answer m = true :=
    (answers i).trans (answer_iff _ m).symm
  have analyzed : k.analyzed pf s.dan.comparators r = result := by
    rw [analyzed_of_shot shot pf rfl codesAnswer, analysisClasses, gapFate_eq_decide]
  exact congrArg _ (finishAnalysis_captured (s := idle) rfl found captured only analyzed)

end Sys2Proof.Machine
end

section
namespace Sys2Proof.Machine

/-! ### Coded fields

A field of one byte reads as the value whose code it is, and only then (section 10.1). -/

theorem readFlag_eq_some_iff {v : Nat} {b : Bool} : readFlag v = some b ↔ v ≤ 1 ∧ b = (v == 1) := by
  unfold readFlag
  split
  · simp [eq_comm]
  · simp [eq_comm]
  · next nonzero notOne =>
    refine iff_of_false nofun fun ⟨flag, _⟩ => ?_
    rcases Nat.le_one_iff_eq_zero_or_eq_one.1 flag with zero | one
    · exact nonzero zero
    · exact notOne one

theorem readMeasure_eq_some_iff {v : Nat} {m : Measure} : readMeasure v = some m ↔ (v, m) ∈ measureCodes := by
  have codes : ∀ x ∈ measureCodes, readMeasure x.1 = some x.2 := by decide
  refine ⟨fun read => ?_, codes _⟩
  unfold readMeasure at read
  split at read <;> simp_all [measureCodes]

theorem readRelation_eq_some_iff {v : Nat} {r : Relation} :
    readRelation v = some r ↔ (v, r) ∈ [(0, Relation.atLeast), (1, .below)] := by
  have codes : ∀ x ∈ [(0, Relation.atLeast), (1, .below)], readRelation x.1 = some x.2 := by decide
  refine ⟨fun read => ?_, codes _⟩
  unfold readRelation at read
  split at read <;> simp_all

theorem readAction_eq_some_iff {v : Nat} {a : Action} : readAction v = some a ↔ (v, a) ∈ actionCodes := by
  have codes : ∀ x ∈ actionCodes, readAction x.1 = some x.2 := by decide
  refine ⟨fun read => ?_, codes _⟩
  unfold readAction at read
  split at read <;> simp_all [actionCodes]

theorem readFallback_eq_some_iff {v : Nat} {a : Action} :
    readFallback v = some a ↔ (v, a) ∈ [(0, Action.pass), (2, .concealSpatial), (4, .mark)] := by
  have codes : ∀ x ∈ [(0, Action.pass), (2, .concealSpatial), (4, .mark)], readFallback x.1 = some x.2 := by decide
  refine ⟨fun read => ?_, codes _⟩
  unfold readFallback at read
  split at read <;> simp_all

theorem le_four_of_readAction {v : Nat} {a : Action} (h : readAction v = some a) : v ≤ 4 :=
  (by decide : ∀ x ∈ actionCodes, x.1 ≤ 4) _ (readAction_eq_some_iff.1 h)

theorem readClasses_eq_some {b : Byte} (h : b.toNat ≤ 63) : readClasses b.toNat = some
    ⟨b.getLsbD 0, b.getLsbD 1, b.getLsbD 2, b.getLsbD 3, b.getLsbD 4, b.getLsbD 5⟩ := if_neg (by omega)

theorem le_63_of_readClasses {v : Nat} {c : ClassSet} (h : readClasses v = some c) : v ≤ 63 := by
  unfold readClasses at h
  split at h
  · cases h
  · omega

/-- The test byte without a test, and with one (R111). -/
theorem readTest_eq_some {b : Byte} {test : Option RuleTest}
    (h : b.msb = false ∧ test = none
      ∨ b.msb = true ∧ ∃ code : Fin 8, b.toNat % 64 = code.val ∧ test = some ⟨code, !b.getLsbD 6⟩) :
    readTest b.toNat = some test := by
  rw [BitVec.msb_eq_decide] at h
  rcases h with ⟨without, rfl⟩ | ⟨present, code, field, rfl⟩
  · exact if_pos (by simpa using without)
  · rw [readTest, if_neg (by simpa using present), field, asIndex_of_lt code.isLt]
    rfl

/-- A test byte that names a test names a condition code, and without bit 7 it names none (R111). -/
theorem bounds_of_readTest {b : Byte} {test : Option RuleTest} (h : readTest b.toNat = some test) :
    (b.msb = true → b.toNat % 64 ≤ 7) ∧ (b.msb = false → test = none) := by
  rw [BitVec.msb_eq_decide]
  unfold readTest at h
  split at h
  · next without =>
    refine ⟨fun present => ?_, fun _ => (Option.some.inj h).symm⟩
    exact absurd (of_decide_eq_true present) (Nat.not_le.2 without)
  · next present =>
    obtain ⟨code, field, -⟩ := Option.map_eq_some_iff.1 h
    refine ⟨fun _ => Nat.le_of_lt_succ (asIndex_val field).2, fun without => ?_⟩
    exact absurd (Nat.not_lt.1 present) (of_decide_eq_false without)

/-- The fail action of LOAD_RULE: 0xFF for none, else the code of an action (section 10.3). -/
def readFail (v : Nat) : Option (Option Action) := if v = 255 then some none else (readAction v).map some

theorem readFail_eq_some {b : Byte} {fail : Option Action}
    (h : b = 0xFF ∧ fail = none ∨ ∃ a, (b.toNat, a) ∈ actionCodes ∧ fail = some a) : readFail b.toNat = some fail := by
  rcases h with ⟨rfl, rfl⟩ | ⟨a, code, rfl⟩
  · rfl
  · have read := readAction_eq_some_iff.2 code
    have := le_four_of_readAction read
    rw [readFail, if_neg (by omega), read, Option.map_some]

theorem bounds_of_readFail {b : Byte} {fail : Option Action} (h : readFail b.toNat = some fail) :
    b = 0xFF ∨ b.toNat ≤ 4 ∧ fail.isSome = true := by
  unfold readFail at h
  split at h
  · next none => exact .inl (BitVec.eq_of_toNat_eq none)
  · obtain ⟨a, read, rfl⟩ := Option.map_eq_some_iff.1 h
    exact .inr ⟨le_four_of_readAction read, rfl⟩

/-! ### LOAD_COMPARATOR -/

section
variable {index enabled measure relation : Byte} {limit : Word32}

/-- The fields of LOAD_COMPARATOR, read one after another (section 10.3). -/
theorem readComparator_fields : readComparator ([index, enabled, measure, relation] ++ bytes32 limit) =
    (asIndex 8 index.toNat).bind fun i => (readFlag enabled.toNat).bind fun e => (readMeasure measure.toNat).bind fun m =>
      (readRelation relation.toNat).bind fun r => (asIndex (Config.max24 + 1) limit.toNat).bind fun l =>
        some (i, ⟨e, m, r, l.val⟩) := by
  have limitField : le32 ([index, enabled, measure, relation] ++ bytes32 limit) 4 = limit.toNat := le32_bytes32 limit []
  rw [← limitField]
  rfl

theorem readComparator_eq_some {m : Measure} {r : Relation} (measureField : (measure.toNat, m) ∈ measureCodes)
    (relationField : (relation.toNat, r) ∈ [(0, Relation.atLeast), (1, .below)]) (flag : enabled.toNat ≤ 1)
    (bound : limit.toNat ≤ 16777215) (room : index.toNat < 8) :
    readComparator ([index, enabled, measure, relation] ++ bytes32 limit)
      = some (⟨index.toNat, room⟩, ⟨enabled.toNat == 1, m, r, limit.toNat⟩) := by
  rw [readComparator_fields, asIndex_of_lt room, readFlag_eq_some_iff.2 ⟨flag, rfl⟩, readMeasure_eq_some_iff.2 measureField,
    readRelation_eq_some_iff.2 relationField, asIndex_of_lt (show limit.toNat < Config.max24 + 1 from Nat.lt_succ_of_le bound)]
  rfl

/-- A body of LOAD_COMPARATOR that is read has every field in its range (R104). -/
theorem bounds_of_readComparator {x : Fin 8 × Comparator}
    (h : readComparator ([index, enabled, measure, relation] ++ bytes32 limit) = some x) :
    index.toNat < 8 ∧ enabled.toNat ≤ 1 ∧ measure.toNat ≤ 7 ∧ relation.toNat ≤ 1 ∧ limit.toNat ≤ 16777215 := by
  simp only [readComparator_fields, Option.bind_eq_some_iff] at h
  obtain ⟨i, indexField, e, flagField, m, measureField, r, relationField, l, bound, -⟩ := h
  have measures : ∀ x ∈ measureCodes, x.1 ≤ 7 := by decide
  have relations : ∀ x ∈ [(0, Relation.atLeast), (1, .below)], x.1 ≤ 1 := by decide
  exact ⟨(asIndex_val indexField).2, (readFlag_eq_some_iff.1 flagField).1, measures _ (readMeasure_eq_some_iff.1 measureField),
    relations _ (readRelation_eq_some_iff.1 relationField), Nat.le_of_lt_succ (asIndex_val bound).2⟩

theorem readComparator_eq_none (bad : 7 < index.toNat ∨ 1 < enabled.toNat ∨ 7 < measure.toNat ∨ 1 < relation.toNat
    ∨ 16777215 < limit.toNat) : readComparator ([index, enabled, measure, relation] ++ bytes32 limit) = none :=
  Option.eq_none_iff_forall_ne_some.2 fun x read => by
    have := bounds_of_readComparator read
    omega

/-- The take of LOAD_COMPARATOR: refused when a field is out of range, else the entry is replaced (R104). -/
theorem exec_loadComparator {s : State} {deck tag : Byte} {rest : List ControlParcel} :
    let p : ControlParcel := ⟨deck, tag, 0x11, [index, enabled, measure, relation] ++ bytes32 limit⟩
    s.takeable p rest → exec .loadComparator s = .next ((readComparator p.body).elim (s.refused p rest .range) fun x =>
      (s.answered p rest .ok .none).modDan fun a => { a with comparators := a.comparators.set x.1.val x.2 x.1.isLt }) := by
  intro p h
  show execLoadComparator s = _
  rw [execLoadComparator, takeRequest_delivers h rfl rfl rfl]
  cases readComparator p.body with
  | none => exact congrArg _ (refuse_afterTake s p rest .range)
  | some x => rw [replyOk_afterTake]; rfl

end

/-! ### LOAD_RULE -/

section
variable {index enabled classes test pass fail fallback : Byte}

/-- The fields of LOAD_RULE, read one after another; a fail action wants a test (section 10.3, R111). -/
theorem readRule_fields : readRule [index, enabled, classes, test, pass, fail, fallback, 0] =
    (asIndex 32 index.toNat).bind fun i => (readFlag enabled.toNat).bind fun e => (readClasses classes.toNat).bind fun c =>
      (readTest test.toNat).bind fun t => (readAction pass.toNat).bind fun a => (readFail fail.toNat).bind fun f =>
        (readFallback fallback.toNat).bind fun b =>
          if t.isNone && f.isSome then none else some (i, ⟨e, c, t, a, f, b⟩) := by
  have failField : byteAt [index, enabled, classes, test, pass, fail, fallback, 0] 5 = fail.toNat := rfl
  unfold readRule readFail
  rw [failField]
  by_cases absent : fail.toNat = 255
  · simp only [absent, if_true]
    rfl
  · simp only [absent, if_false]
    rfl

theorem readRule_eq_some {passAction : Action} {failAction : Option Action} {fallbackAction : Action} {ruleTest : Option RuleTest}
    (passField : (pass.toNat, passAction) ∈ actionCodes)
    (failField : fail = 0xFF ∧ failAction = none ∨ ∃ a, (fail.toNat, a) ∈ actionCodes ∧ failAction = some a)
    (fallbackField : (fallback.toNat, fallbackAction) ∈ [(0, Action.pass), (2, .concealSpatial), (4, .mark)])
    (flag : enabled.toNat ≤ 1) (classField : classes.toNat ≤ 63) (tested : test.msb = true ∨ failAction = none)
    (room : index.toNat < 32)
    (testField : test.msb = false ∧ ruleTest = none
      ∨ test.msb = true ∧ ∃ code : Fin 8, test.toNat % 64 = code.val ∧ ruleTest = some ⟨code, !test.getLsbD 6⟩) :
    readRule [index, enabled, classes, test, pass, fail, fallback, 0] = some (⟨index.toNat, room⟩,
      ⟨enabled.toNat == 1, ⟨classes.getLsbD 0, classes.getLsbD 1, classes.getLsbD 2, classes.getLsbD 3,
        classes.getLsbD 4, classes.getLsbD 5⟩, ruleTest, passAction, failAction, fallbackAction⟩) := by
  have kept : ¬ (ruleTest.isNone && failAction.isSome) = true := by
    rcases tested with present | rfl
    · rcases testField with ⟨without, -⟩ | ⟨-, code, -, rfl⟩
      · exact absurd (present.symm.trans without) Bool.noConfusion
      · exact Bool.false_ne_true
    · simp
  rw [readRule_fields, asIndex_of_lt room, readFlag_eq_some_iff.2 ⟨flag, rfl⟩, readClasses_eq_some classField, readTest_eq_some testField,
    readAction_eq_some_iff.2 passField, readFail_eq_some failField, readFallback_eq_some_iff.2 fallbackField]
  exact if_neg kept

/-- A body of LOAD_RULE that is read has every field in its range, and a fail action only with a test (R111). -/
theorem bounds_of_readRule {x : Fin 32 × Rule} (h : readRule [index, enabled, classes, test, pass, fail, fallback, 0] = some x) :
    index.toNat < 32 ∧ enabled.toNat ≤ 1 ∧ classes.toNat ≤ 63 ∧ (test.msb = true → test.toNat % 64 ≤ 7) ∧ pass.toNat ≤ 4
      ∧ (fail = 0xFF ∨ fail.toNat ≤ 4) ∧ fallback.toNat ∈ [0, 2, 4] ∧ (test.msb = false → fail = 0xFF) := by
  simp only [readRule_fields, Option.bind_eq_some_iff] at h
  obtain ⟨i, indexField, e, flagField, c, classField, t, testField, a, passField, f, failField, b, fallbackField, kept⟩ := h
  obtain ⟨code, without⟩ := bounds_of_readTest testField
  have failBounds := bounds_of_readFail failField
  have fallbacks : ∀ x ∈ [(0, Action.pass), (2, .concealSpatial), (4, .mark)], x.1 ∈ [0, 2, 4] := by decide
  refine ⟨(asIndex_val indexField).2, (readFlag_eq_some_iff.1 flagField).1, le_63_of_readClasses classField, code,
    le_four_of_readAction passField, failBounds.imp_right And.left, fallbacks _ (readFallback_eq_some_iff.1 fallbackField), fun clear => ?_⟩
  refine failBounds.resolve_right fun ⟨_, named⟩ => ?_
  rw [without clear, named] at kept
  cases kept

theorem readRule_eq_none (bad : 31 < index.toNat ∨ 1 < enabled.toNat ∨ 63 < classes.toNat
    ∨ (test.msb = true ∧ 7 < test.toNat % 64) ∨ 4 < pass.toNat ∨ (4 < fail.toNat ∧ fail ≠ 0xFF) ∨ fallback.toNat ∉ [0, 2, 4]
    ∨ (test.msb = false ∧ fail ≠ 0xFF)) : readRule [index, enabled, classes, test, pass, fail, fallback, 0] = none := by
  refine Option.eq_none_iff_forall_ne_some.2 fun x read => ?_
  obtain ⟨room, flag, classField, code, action, failAction, fallbackAction, tested⟩ := bounds_of_readRule read
  rcases bad with high | high | high | ⟨present, high⟩ | high | ⟨high, named⟩ | unknown | ⟨clear, named⟩
  · omega
  · omega
  · omega
  · exact absurd (code present) (Nat.not_le.2 high)
  · omega
  · exact absurd (failAction.resolve_left named) (Nat.not_le.2 high)
  · exact unknown fallbackAction
  · exact named (tested clear)

/-- The reserved bits of LOAD_RULE are clear when its test byte is 0 or names a test (section 10.3, R196 step 4). -/
theorem takeChecks_loadRule (deck tag : Byte) (reserved : test.msb = false → test = 0) :
    takeChecks ⟨false, 8, fun b => zeroAt [7] b && (128 ≤ byteAt b 3 || byteAt b 3 == 0)⟩
      ⟨deck, tag, 0x12, [index, enabled, classes, test, pass, fail, fallback, 0]⟩ = none := by
  have testClear : 128 ≤ test.toNat ∨ test.toNat = 0 := by
    rw [BitVec.msb_eq_decide] at reserved
    by_cases present : 128 ≤ test.toNat
    · exact .inl present
    · exact .inr (congrArg BitVec.toNat (reserved (decide_eq_false present)))
  have clear : (decide (128 ≤ test.toNat) || test.toNat == 0) = true := by simpa using testClear
  simp [takeChecks, zeroAt, byteAt, clear]

/-- The take of LOAD_RULE: refused when a field is out of range, else the entry is replaced (R111). -/
theorem exec_loadRule {s : State} {deck tag : Byte} {rest : List ControlParcel} (reserved : test.msb = false → test = 0) :
    let p : ControlParcel := ⟨deck, tag, 0x12, [index, enabled, classes, test, pass, fail, fallback, 0]⟩
    s.takeable p rest → exec .loadRule s = .next ((readRule p.body).elim (s.refused p rest .range) fun x =>
      (s.answered p rest .ok .none).modRpe fun e => { e with rules := e.rules.set x.1.val x.2 x.1.isLt }) := by
  intro p h
  show execLoadRule s = _
  rw [execLoadRule, takeRequest_delivers h rfl rfl (takeChecks_loadRule deck tag reserved)]
  cases readRule p.body with
  | none => exact congrArg _ (refuse_afterTake s p rest .range)
  | some x => rw [replyOk_afterTake]; rfl

end

/-- Settles O16: a field out of range is not read (readComparator_eq_none, readRule_eq_none), and the fields in range are the entry
(readComparator_eq_some, readRule_eq_some). -/
theorem loadComparatorAndRuleStoreTheEntry : Obligations.LoadComparatorAndRuleStoreTheEntry := by
  intro s deck tag index enabled rest
  refine ⟨?_, ?_⟩
  · intro measure relation limit p h
    refine ⟨fun bad => ?_, fun m r measureField relationField flag bound room => ?_⟩
    · rw [exec_loadComparator h, readComparator_eq_none bad]
      rfl
    · rw [exec_loadComparator h, readComparator_eq_some measureField relationField flag bound room]
      rfl
  · intro classes test pass fail fallback p h reserved
    refine ⟨fun bad => ?_, ?_⟩
    · rw [exec_loadRule reserved h, readRule_eq_none bad]
      rfl
    · intro passAction failAction fallbackAction passField failField fallbackField flag classField tested room ruleTest testField
      rw [exec_loadRule reserved h,
        readRule_eq_some passField failField fallbackField flag classField tested room testField]
      rfl

end Sys2Proof.Machine
end

section
namespace Sys2Proof.Machine

/-! ### The choice of a rule and its action -/

theorem subset_iff (a b : ClassSet) : a.subset b = true ↔
    (a.dust → b.dust) ∧ (a.scratch → b.scratch) ∧ (a.blotch → b.blotch) ∧ (a.perf → b.perf) ∧ (a.splice → b.splice)
      ∧ (a.gap → b.gap) := by
  have implies (x y : Bool) : (!x || y) = true ↔ (x = true → y = true) := by cases x <;> simp
  simp only [ClassSet.subset, Bool.and_eq_true, implies, and_assoc]

theorem testPasses_iff (r : Rule) (codes : Byte) : r.testPasses codes = true ↔ ruleTestPasses r codes := by
  unfold Rule.testPasses ruleTestPasses
  cases r.test <;> simp

/-- An entry matches as R112 and R113 say. -/
theorem matchesFrame_iff (r : Rule) (classes : ClassSet) (codes : Byte) :
    r.matchesFrame classes codes = true ↔ ruleMatches r classes codes := by
  simp only [Rule.matchesFrame, ruleMatches, Bool.and_eq_true, Bool.or_eq_true, subset_iff, testPasses_iff,
    Option.isSome_iff_ne_none, and_assoc]

section
variable {rules : Vector Rule 32} {classes : ClassSet} {codes : Byte}

theorem matchedRule_eq_none (unmatched : ∀ i : Fin 32, ¬ ruleMatches rules[i] classes codes) :
    matchedRule rules classes codes = none :=
  find_finRange_none.2 fun i => Bool.eq_false_iff.2 (mt (matchesFrame_iff ..).1 (unmatched i))

theorem matchedRule_eq_some {i : Fin 32} (matched : ruleMatches rules[i] classes codes)
    (first : ∀ j, j < i → ¬ ruleMatches rules[j] classes codes) : matchedRule rules classes codes = some i :=
  find_finRange_some.2 ⟨(matchesFrame_iff ..).2 matched, fun j before =>
    Bool.eq_false_iff.2 (mt (matchesFrame_iff ..).1 (first j before))⟩

end

/-- The test of an entry selects between its two actions (R112). -/
theorem chosen_eq {r : Rule} {codes : Byte} {chosen : Action}
    (h : ruleTestPasses r codes ∧ chosen = r.passAction ∨ ¬ ruleTestPasses r codes ∧ r.failAction = some chosen) :
    r.chosen codes = chosen := by
  rcases h with ⟨passes, rfl⟩ | ⟨fails, action⟩
  · exact if_pos ((testPasses_iff ..).2 passes)
  · rw [Rule.chosen, if_neg (mt (testPasses_iff ..).1 fails), action, Option.getD_some]

/-! ### Feasibility -/

theorem spans_iff (sh : Shot) (n : Nat) : sh.spans n = true ↔ sh.first ≤ n ∧ ∀ l, sh.last = some l → n ≤ l := by
  unfold Shot.spans
  cases sh.last <;> simp

section
variable {k : Deck} {r : FrameRecord} {sh : Shot} (shot : k.table.shots[r.shot]? = some sh)
include shot

/-- A neighbour is usable as R114 and R115 say. -/
theorem usable_iff (n : Nat) : k.usable r n = true ↔ k.neighbour sh n := by
  have slotted : ((k.store.find n).map fun q => q.slot.isSome && q.phase != .overrun).getD false = true ↔
      ∃ q, k.store.find n = some q ∧ q.slot ≠ none ∧ q.phase ≠ .overrun := by
    cases k.store.find n <;> simp [Option.isSome_iff_ne_none]
  simp only [Deck.usable, Deck.neighbour, Bool.and_eq_true, slotted, shot, Option.map_some, Option.getD_some, spans_iff]

theorem previousUsable_iff : k.previousUsable r = true ↔ r.number ≠ 0 ∧ k.neighbour sh (r.number - 1) := by
  simp only [Deck.previousUsable, Bool.and_eq_true, bne_iff_ne, usable_iff shot]

/-- An action is feasible as R114 to R116 say. -/
theorem feasible_iff (classes : ClassSet) (action : Action) :
    k.feasible r classes action = true ↔ k.canDo sh r.number classes action := by
  cases action with
  | concealTemporal =>
    simp only [Deck.feasible, Deck.canDo, Bool.and_eq_true, Bool.not_eq_true', previousUsable_iff shot, usable_iff shot,
      and_assoc]
  | holdPrevious => simp only [Deck.feasible, Deck.canDo, Bool.and_eq_true, Bool.not_eq_true', previousUsable_iff shot, and_assoc]
  | pass | concealSpatial | mark | lost => exact iff_of_true rfl trivial

/-- The chosen action where it is feasible, and the fallback where it is not (R116). -/
theorem applied_eq {classes : ClassSet} {chosen fallback action : Action}
    (h : k.canDo sh r.number classes chosen ∧ action = chosen ∨ ¬ k.canDo sh r.number classes chosen ∧ action = fallback) :
    (if k.feasible r classes chosen then chosen else fallback) = action := by
  rcases h with ⟨feasible, rfl⟩ | ⟨infeasible, rfl⟩
  · exact if_pos ((feasible_iff shot ..).2 feasible)
  · exact if_neg (mt (feasible_iff shot ..).1 infeasible)

end

/-! ### The decision -/

/-- The final class set is the analysed one with SPLICE added when a SPLICE shot begins at the next frame (R102, R112). -/
theorem finalClasses_eq {k : Deck} {r : FrameRecord} {classes : ClassSet}
    (rest : { classes with splice := r.classes.splice } = r.classes)
    (splice : classes.splice = true ↔ r.classes.splice = true
      ∨ ∃ x ∈ k.table.shots, x.origin = .splice ∧ x.first = r.number + 1) : k.finalClasses r = classes := by
  have added : (r.classes.splice || k.table.spliceAt (r.number + 1)) = classes.splice := by
    rw [Bool.eq_iff_iff, splice]
    simp [ShotTable.spliceAt, and_comm]
  rw [Deck.finalClasses, added, ← rest]

section
variable {k : Deck} {rules : Vector Rule 32} {r : FrameRecord} {classes : ClassSet} {codes : Byte}
  (final : k.finalClasses r = classes) (coded : r.codes = some codes)
include final coded

theorem decision_unmatched (unmatched : ∀ i : Fin 32, ¬ ruleMatches rules[i] classes codes) :
    k.decision rules r = ⟨classes, none, .pass⟩ := by
  simp only [Deck.decision, final, coded, Option.getD_some, matchedRule_eq_none unmatched]

theorem decision_matched {i : Fin 32} (matched : ruleMatches rules[i] classes codes)
    (first : ∀ j, j < i → ¬ ruleMatches rules[j] classes codes) : k.decision rules r = ⟨classes, some i,
      if k.feasible r classes (rules[i].chosen codes) then rules[i].chosen codes else rules[i].fallback⟩ := by
  simp only [Deck.decision, final, coded, Option.getD_some, matchedRule_eq_some matched first]

end

/-- A counter of a reel raised under a condition, saturating (R118). -/
def raised (x : Nat) (when : Bool) : Nat := if when then min (x + 1) 16777215 else x

/-- The counters that a decision raises: all decisions, those of each applied action, and PERF (R118). -/
theorem countDecision_eq (c : ReelContext) (dec : Decision) : c.countDecision dec =
    { c with
      framesDecided := raised c.framesDecided true
      concealedTemporal := raised c.concealedTemporal (dec.action = .concealTemporal)
      concealedSpatial := raised c.concealedSpatial (dec.action = .concealSpatial)
      heldFrames := raised c.heldFrames (dec.action = .holdPrevious)
      markedFrames := raised c.markedFrames (dec.action = .mark)
      perfFrames := raised c.perfFrames dec.classes.perf } := by
  obtain ⟨classes, rule, action⟩ := dec
  cases action <;> rfl

section
variable {s : State} {f : FrameRef}

/-- A decision for a record that has gone, or is no longer ANALYZED, is dropped (R117). -/
theorem decideHead_dropped (gone : ∀ r, (s.deck f.deck).store.find f.frame = some r → r.phase ≠ .analyzed) :
    s.decideHead f = s := by
  unfold State.decideHead
  dsimp only
  split
  · next r found => exact if_neg (gone r found)
  · rfl

theorem decideHead_analyzed {k : Deck} {r : FrameRecord} {dec : Decision} (deck : s.deck f.deck = k)
    (found : k.store.find f.frame = some r) (analyzed : r.phase = .analyzed) (decided : k.decision s.rpe.rules r = dec) :
    s.decideHead f = ((s.modRpe fun e => { e with active := some f }).setDeck f.deck { k with
      ctx := k.ctx.countDecision dec
      store := { k.store with
        records := k.store.records.map fun q => if q.number = f.frame then q.decided dec else q } }).decideExam
          f.deck (f.frame + 1) := by
  simp only [State.decideHead, deck, found, analyzed, if_true, decided, modStore_eq, modCtx_eq, State.modDeck, deck_setDeck_same,
    setDeck_setDeck, DeckStore.update, beq_iff_eq]
  rfl

theorem exec_decision_keeps (h : s.rpe.active ≠ none ∨ s.rpe.queue = []) : exec .decision s = .next s := by
  show execDecision s = _
  unfold execDecision
  split
  · next idle waiting => exact (h.elim (· idle) fun empty => by simp [empty] at waiting).elim
  · rfl

theorem exec_decision_head {rest : List FrameRef} (idle : s.rpe.active = none) (head : s.rpe.queue = f :: rest) :
    exec .decision s = .next ((s.modRpe fun e => { e with queue := rest }).decideHead f) := by
  show execDecision s = _
  simp only [execDecision, idle, head]

end

/-- Settles O56: the head is dropped (decideHead_dropped), or decided by the first rule that matches (decision_unmatched, decision_matched) and
counted (countDecision_eq). -/
theorem decisionFollowsR112ToR118 : Obligations.DecisionFollowsR112ToR118 := by
  intro s
  refine ⟨exec_decision_keeps, ?_⟩
  intro f rest idle head k
  rw [exec_decision_head idle head]
  refine ⟨fun gone => congrArg _ (decideHead_dropped gone), ?_⟩
  intro r sh codes classes rule action found analyzed shot coded kept splice choice up c
  have number : r.number = f.frame := find_number found
  rw [← number] at splice choice
  have final : k.finalClasses r = classes := finalClasses_eq kept splice
  have decided : k.decision s.rpe.rules r = ⟨classes, rule, action⟩ := by
    rcases choice with ⟨rfl, rfl, unmatched⟩ | ⟨i, rfl, matched, first, chosen, choice, applied⟩
    · exact decision_unmatched final coded unmatched
    · rw [decision_matched final coded matched first, chosen_eq choice, applied_eq shot applied]
  rw [decideHead_analyzed (s := s.modRpe fun e => { e with queue := rest }) (k := k) rfl found analyzed decided, countDecision_eq]
  rfl

end Sys2Proof.Machine
end

section
namespace Sys2Proof.Machine

/-! ### The tile of a sample -/

section
variable {size i : Nat}

/-- One eighth of a frame's lines, or of a line's samples, holds a given place (R93). -/
theorem exists_eighth (inside : i < size) : ∃ k, k < 8 ∧ k * size / 8 ≤ i ∧ i < (k + 1) * size / 8 := by
  have last : ∃ k, i < (k + 1) * size / 8 := ⟨7, by omega⟩
  have below : Nat.find last ≤ 7 := Nat.find_min' last (by omega)
  refine ⟨Nat.find last, by omega, ?_, Nat.find_spec last⟩
  cases first : Nat.find last with
  | zero => simp
  | succ k => exact not_lt.1 (Nat.find_min last (by omega : k < Nat.find last))

theorem eighth_le {k l : Nat} (start : k * size / 8 ≤ i) (stop : i < (l + 1) * size / 8) : k ≤ l := by
  by_contra later
  have next : l + 1 ≤ k := not_le.1 later
  have := Nat.div_le_div_right (c := 8) (Nat.mul_le_mul_right size next)
  omega

/-- The search over the eighths finds the one that holds the place (R93). -/
theorem eighth_eq_iff (inside : i < size) (k : Nat) :
    ((List.range 8).find? fun r => decide (r * size / 8 ≤ i) && decide (i < (r + 1) * size / 8)).getD 0 = k ↔
      k < 8 ∧ k * size / 8 ≤ i ∧ i < (k + 1) * size / 8 := by
  have found {l : Nat} (room : l < 8) (start : l * size / 8 ≤ i) (stop : i < (l + 1) * size / 8) :
      (List.range 8).find? (fun r => decide (r * size / 8 ≤ i) && decide (i < (r + 1) * size / 8)) = some l := by
    refine List.find?_range_eq_some.2 ⟨by simp [start, stop], List.mem_range.2 room, fun j before => ?_⟩
    have passed : ¬ i < (j + 1) * size / 8 := fun early => absurd (eighth_le start early) (by omega)
    simp [passed]
  constructor
  · rintro rfl
    obtain ⟨l, room, start, stop⟩ := exists_eighth inside
    rw [found room start stop, Option.getD_some]
    exact ⟨room, start, stop⟩
  · rintro ⟨room, start, stop⟩
    rw [found room start stop, Option.getD_some]

end

theorem rowOf_eq_iff (g : TileGeometry) {i : Nat} (inside : i < g.lines) (r : Nat) :
    g.rowOf i = r ↔ r < 8 ∧ r * g.lines / 8 ≤ i ∧ i < (r + 1) * g.lines / 8 := eighth_eq_iff inside r

theorem columnOf_eq_iff (g : TileGeometry) {j : Nat} (inside : j < g.width) (c : Nat) :
    g.columnOf j = c ↔ c < 8 ∧ c * g.width / 8 ≤ j ∧ j < (c + 1) * g.width / 8 := eighth_eq_iff inside c

theorem getD_flags (g : TileGeometry) (m : SlotMem) {r c : Nat} (row : r < 8) (column : c < 8) :
    ((g.flags (g.areas m)).getD r []).getD c false = decide (g.flagLimit ≤ g.area m r c) := by
  simp [TileGeometry.flags, TileGeometry.areas, row, column, List.getD_eq_getElem?_getD]

/-- What a concealment asks of a sample: that it is dark and lies in a flagged tile (R120). -/
theorem damagedAt_iff (pf : Profile) (m : SlotMem) {lines i j : Nat} (line : i < lines) (place : j < pf.lineWidth) :
    let g := tileGeometry pf lines
    damagedAt pf m lines i j ↔ darkSample pf.irLimit (sampleAt m pf.lineWidth i j) = true
      ∧ ((g.flags (g.areas m)).getD (g.rowOf i) []).getD (g.columnOf j) false = true := by
  intro g
  obtain ⟨row, above, below⟩ := (rowOf_eq_iff g line _).1 rfl
  obtain ⟨column, left, right⟩ := (columnOf_eq_iff g place _).1 rfl
  rw [getD_flags g m row column, darkSample, decide_eq_true_eq, decide_eq_true_eq]
  refine and_congr_right fun _ => ⟨?_, fun flagged => ⟨_, _, row, column, ⟨above, below, left, right⟩, flagged⟩⟩
  rintro ⟨r, c, hr, hc, ⟨rowStart, rowStop, columnStart, columnStop⟩, flagged⟩
  rw [(rowOf_eq_iff g line r).2 ⟨hr, rowStart, rowStop⟩, (columnOf_eq_iff g place c).2 ⟨hc, columnStart, columnStop⟩]
  exact flagged

/-! ### A content concealed -/

theorem sampleAt_eq_getElem {m : SlotMem} {w j : Nat} (i : Nat) (h : j < (SlotMem.line m w i).length) :
    sampleAt m w i j = (SlotMem.line m w i)[j] := by
  rw [sampleAt, List.getD_eq_getElem?_getD, List.getElem?_eq_getElem h, Option.getD_some]

theorem blend_eq_mixed : blend = mixed := by
  funext irLimit own a b
  cases a <;> cases b <;> rfl

theorem length_concealLine (g : TileGeometry) (flags : List Bool) (own : Line) (a b : List (Option Sample)) :
    (concealLine g flags own a b).length = own.length := by simp [concealLine]

theorem getD_concealLine (g : TileGeometry) (flags : List Bool) {own : Line} (a b : List (Option Sample)) {j : Nat}
    (place : j < own.length) (fallback : Sample) : (concealLine g flags own a b).getD j fallback =
      if darkSample g.irLimit (own.getD j fallback) = true ∧ flags.getD (g.columnOf j) false = true then
        mixed g.irLimit (own.getD j fallback) ((a[j]?).getD none) ((b[j]?).getD none)
      else own.getD j fallback := by
  simp [concealLine, place, List.getD_eq_getElem?_getD, blend_eq_mixed]

/-- Line i of a content concealed over its lines, from its two sources (R120). -/
def concealedLine (pf : Profile) (m : SlotMem) (lines : Nat)
    (sources : Nat → Line → List (Option Sample) × List (Option Sample)) (i : Nat) : Line :=
  let g := tileGeometry pf lines
  let own := SlotMem.line m pf.lineWidth i
  concealLine g ((g.flags (g.areas m)).getD (g.rowOf i) []) own (sources i own).1 (sources i own).2

/-- What the lines of a content read after several are written. -/
theorem line_foldl_write {w : Nat} {f : Nat → Line} (width : ∀ i, (f i).length = w) (rows : List Nat) {m : SlotMem}
    (wf : SlotMem.wf m = true) (x : Nat) :
    SlotMem.line (rows.foldl (fun acc i => SlotMem.write acc i (f i)) m) w x = if x ∈ rows then f x else SlotMem.line m w x := by
  induction rows generalizing m with
  | nil => rfl
  | cons i rest ih =>
    rw [List.foldl_cons, ih (write_wf i _ wf), line_write wf (width i)]
    by_cases later : x ∈ rest
    · rw [if_pos later, if_pos (List.mem_cons_of_mem _ later)]
    · by_cases first : x = i
      · rw [if_neg later, if_pos first, if_pos (List.mem_cons.2 (.inl first)), first]
      · rw [if_neg later, if_neg first, if_neg (by simp [first, later])]

section
variable {pf : Profile} {m : SlotMem} (wf : SlotMem.wf m = true) (even : evenLines m pf.lineWidth) (lines : Nat)
  (sources : Nat → Line → List (Option Sample) × List (Option Sample))
include wf even

theorem line_conceal (i : Nat) : SlotMem.line (conceal (tileGeometry pf lines) m sources) pf.lineWidth i =
    if i < lines then concealedLine pf m lines sources i else SlotMem.line m pf.lineWidth i := by
  have width (i : Nat) : (concealedLine pf m lines sources i).length = pf.lineWidth :=
    (length_concealLine ..).trans (length_line even i)
  refine (line_foldl_write width (List.range lines) wf i).trans ?_
  simp only [List.mem_range]

/-- A concealment changes the dark samples of flagged tiles alone, each to the mixture of its two sources (R120). -/
theorem concealedFrom_conceal {a b : Nat → Nat → Option Sample → Prop}
    (left : ∀ i j x, j < pf.lineWidth → a i j x → ((sources i (SlotMem.line m pf.lineWidth i)).1[j]?).getD none = x)
    (right : ∀ i j y, j < pf.lineWidth → b i j y → ((sources i (SlotMem.line m pf.lineWidth i)).2[j]?).getD none = y) :
    concealedFrom pf m (conceal (tileGeometry pf lines) m sources) lines a b := by
  intro i j place
  rw [sampleAt, line_conceal wf even]
  by_cases inside : i < lines
  · have damaged := damagedAt_iff pf m inside place
    rw [if_pos inside, concealedLine, getD_concealLine _ _ _ _ (place.trans_eq (length_line even i).symm)]
    refine ⟨fun intact => if_neg (mt damaged.2 fun hurt => intact ⟨inside, hurt⟩), fun x y _ hurt hx hy => ?_⟩
    rw [← left i j x place hx, ← right i j y place hy]
    exact if_pos (damaged.1 hurt)
  · rw [if_neg inside]
    exact ⟨fun _ => rfl, fun x y below => absurd below inside⟩

end

/-! ### The two sources of a concealed sample -/

/-- The nearest clean sample before each place of a line, found from the place backwards (R122). -/
theorem getElem?_nearestBefore (irLimit : Nat) (near : Option Sample) (l : Line) {j : Nat} (h : j < l.length) :
    (nearestBefore irLimit near l)[j]? = some (((l.take j).reverse.find? fun x => !darkSample irLimit x).or near) := by
  induction l generalizing near j with
  | nil => exact absurd h (Nat.not_lt_zero j)
  | cons x rest ih =>
    cases j with
    | zero => simp [nearestBefore]
    | succ j =>
      rw [nearestBefore, List.getElem?_cons_succ, ih _ (Nat.lt_of_succ_lt_succ h), List.take_succ_cons, List.reverse_cons,
        List.find?_append, Option.or_assoc]
      congr 2
      by_cases dark : darkSample irLimit x = true <;> simp [dark]

theorem length_nearestBefore (irLimit : Nat) (near : Option Sample) (l : Line) :
    (nearestBefore irLimit near l).length = l.length := by
  induction l generalizing near with
  | nil => rfl
  | cons x rest ih => simp [nearestBefore, ih]

/-- The nearest clean sample after each place of a line, found from the place forwards (R122). -/
theorem getElem?_nearestAfter (irLimit : Nat) (l : Line) {j : Nat} (h : j < l.length) :
    (nearestAfter irLimit l)[j]? = some ((l.drop (j + 1)).find? fun x => !darkSample irLimit x) := by
  have place : l.length - (l.length - 1 - j) = j + 1 := by omega
  rw [nearestAfter, List.getElem?_reverse (by simpa [length_nearestBefore] using h), length_nearestBefore, List.length_reverse,
    getElem?_nearestBefore _ _ _ (by rw [List.length_reverse]; omega), List.take_reverse, List.reverse_reverse, Option.or_none,
    place]

section
variable {pf : Profile} {m : SlotMem} {i j : Nat}

theorem clean_iff (x : Sample) : (!darkSample pf.irLimit x) = true ↔ pf.irLimit ≤ x.ir.toNat := by simp [darkSample]

section
variable {xs : Line} {place : Nat → Nat}
  (reads : ∀ (t : Nat) (h : t < xs.length), xs[t] = sampleAt m pf.lineWidth i (place t))
include reads

/-- The first clean sample of a list whose samples are read at given places of line i. -/
theorem find_clean_some {t : Nat} (inside : t < xs.length)
    (clean : pf.irLimit ≤ (sampleAt m pf.lineWidth i (place t)).ir.toNat)
    (first : ∀ u, u < t → ¬ pf.irLimit ≤ (sampleAt m pf.lineWidth i (place u)).ir.toNat) :
    (xs.find? fun x => !darkSample pf.irLimit x) = some (sampleAt m pf.lineWidth i (place t)) := by
  refine List.find?_eq_some_iff_getElem.2 ⟨(clean_iff _).2 clean, t, inside, reads t inside, fun u before => ?_⟩
  rw [reads u (before.trans inside), Bool.not_eq_true', Bool.eq_false_iff]
  exact mt (clean_iff _).1 (first u before)

theorem find_clean_none (dark : ∀ t, t < xs.length → ¬ pf.irLimit ≤ (sampleAt m pf.lineWidth i (place t)).ir.toNat) :
    (xs.find? fun x => !darkSample pf.irLimit x) = none := by
  refine List.find?_eq_none.2 (List.forall_mem_iff_forall_getElem.2 fun t inside => ?_)
  rw [reads t inside]
  exact mt (clean_iff _).1 (dark t inside)

end

theorem nearestBefore_of_nearestLeft (even : evenLines m pf.lineWidth) (inside : j < pf.lineWidth) {x : Option Sample}
    (h : nearestLeft pf m i j x) :
    ((nearestBefore pf.irLimit none (SlotMem.line m pf.lineWidth i))[j]?).getD none = x := by
  have width := length_line even i
  have length : ((SlotMem.line m pf.lineWidth i).take j).reverse.length = j := by simp [width, inside.le]
  have reads (t : Nat) (below : t < ((SlotMem.line m pf.lineWidth i).take j).reverse.length) :
      ((SlotMem.line m pf.lineWidth i).take j).reverse[t] = sampleAt m pf.lineWidth i (j - 1 - t) := by
    rw [sampleAt_eq_getElem i (by omega)]
    simp [width, inside.le]
  rw [getElem?_nearestBefore _ _ _ (by omega), Option.or_none, Option.getD_some]
  rcases h with ⟨l, before, clean, between, rfl⟩ | ⟨dark, rfl⟩
  · obtain ⟨t, below, rfl⟩ : ∃ t, t < j ∧ l = j - 1 - t := ⟨j - 1 - l, by omega, by omega⟩
    exact find_clean_some reads (below.trans_eq length.symm) clean fun u nearer => between _ (by omega) (by omega)
  · exact find_clean_none reads fun t below => dark _ (by omega)

theorem nearestAfter_of_nearestRight (even : evenLines m pf.lineWidth) (inside : j < pf.lineWidth) {x : Option Sample}
    (h : nearestRight pf m i j x) : ((nearestAfter pf.irLimit (SlotMem.line m pf.lineWidth i))[j]?).getD none = x := by
  have width := length_line even i
  have length : ((SlotMem.line m pf.lineWidth i).drop (j + 1)).length = pf.lineWidth - (j + 1) := by rw [List.length_drop, width]
  have reads (t : Nat) (below : t < ((SlotMem.line m pf.lineWidth i).drop (j + 1)).length) :
      ((SlotMem.line m pf.lineWidth i).drop (j + 1))[t] = sampleAt m pf.lineWidth i (j + 1 + t) := by
    rw [sampleAt_eq_getElem i (by omega), List.getElem_drop]
  rw [getElem?_nearestAfter _ _ (by omega), Option.getD_some]
  rcases h with ⟨l, after, ⟨within, clean⟩, between, rfl⟩ | ⟨dark, rfl⟩
  · obtain ⟨t, rfl⟩ := Nat.exists_eq_add_of_le (Nat.succ_le_of_lt after)
    exact find_clean_some reads (by omega) clean fun u nearer clean => between _ (by omega) (by omega) ⟨by omega, clean⟩
  · exact find_clean_none reads fun t below clean => dark _ (by omega) ⟨by omega, clean⟩

theorem neighbourLine_of_neighbourAt {k : DeckStore} {n : Option FrameRecord}
    (even : ∀ q, n = some q → evenLines (k.content q) pf.lineWidth) (place : j < pf.lineWidth) {x : Option Sample}
    (h : neighbourAt pf k n i j x) :
    ((neighbourLine pf.lineWidth (n.map fun q => (k.content q, q.lines)) i)[j]?).getD none = x := by
  cases n with
  | none => exact h.symm
  | some q =>
    subst h
    rw [Option.map_some, neighbourLine]
    by_cases below : i < q.lines
    · have inside : j < (SlotMem.line (k.content q) pf.lineWidth i).length := place.trans_eq (length_line (even q rfl) i).symm
      rw [if_pos below, if_pos below, List.getElem?_map, List.getElem?_eq_getElem inside, sampleAt_eq_getElem i inside]
      rfl
    · rw [if_neg below, if_neg below]
      rfl

end

/-! ### The content of the previous frame held -/

theorem find_filter_index (m : SlotMem) (p : Nat → Bool) (x : Nat) :
    SlotMem.find (m.filter fun e => p e.1) x = if p x = true then SlotMem.find m x else none := by
  rw [SlotMem.find, List.find?_filter]
  by_cases kept : p x = true
  · rw [if_pos kept, SlotMem.find]
    congr 2
    funext e
    by_cases here : e.1 = x <;> simp [here, kept]
  · rw [if_neg kept, Option.map_eq_none_iff, List.find?_eq_none]
    rintro e - here
    simp only [decide_eq_true_eq, beq_iff_eq] at here
    exact kept (here.2 ▸ here.1)

/-- The lines below the previous frame's count are its lines, the others are as they were (R123). -/
theorem line_holdPrevious (m prev : SlotMem) (lines w x : Nat) :
    SlotMem.line (holdPrevious m prev lines) w x = if x < lines then SlotMem.line prev w x else SlotMem.line m w x := by
  have found : SlotMem.find (holdPrevious m prev lines) x = if x < lines then SlotMem.find prev x else SlotMem.find m x := by
    have append (a b : SlotMem) : SlotMem.find (a ++ b) x = (SlotMem.find a x).or (SlotMem.find b x) := by
      rw [SlotMem.find, List.find?_append, Option.map_or, SlotMem.find, SlotMem.find]
    rw [holdPrevious, append, find_filter_index prev fun i => decide (i < lines),
      find_filter_index m fun i => decide (lines ≤ i)]
    by_cases below : x < lines
    · simp [below, not_le.2 below]
    · simp [below, not_lt.1 below]
  rw [SlotMem.line, found, apply_ite (Option.getD · _), SlotMem.line, SlotMem.line]

/-! ### The end of a repair -/

theorem pictureBefore_eq (k : DeckStore) (n : Nat) :
    k.pictureBefore n = (if n = 0 then none else k.find (n - 1)).map fun q => (k.content q, q.lines) := by
  rw [DeckStore.pictureBefore, apply_ite (Option.map _)]
  rfl

section
variable {k : DeckStore} {pf : Profile} {r : FrameRecord} {own : SlotMem} (content : k.content r = own)
include content

/-- PASS and MARK leave the slot and the line count (R119). -/
theorem repaired_unchanged (action : r.action = some .pass ∨ r.action = some .mark) : k.repaired pf r = (own, r.lines) := by
  rcases action with action | action <;> simp only [DeckStore.repaired, action, content]

theorem repaired_concealSpatial (action : r.action = some .concealSpatial) :
    k.repaired pf r = (concealSpatial (tileGeometry pf r.lines) own, r.lines) := by
  simp only [DeckStore.repaired, action, content]

theorem repaired_concealTemporal (action : r.action = some .concealTemporal) : k.repaired pf r =
    (concealTemporal (tileGeometry pf r.lines) own (k.pictureBefore r.number) (k.picture (r.number + 1)), r.lines) := by
  simp only [DeckStore.repaired, action, content]

theorem repaired_holdPrevious (action : r.action = some .holdPrevious) {q : FrameRecord}
    (previous : (if r.number = 0 then none else k.find (r.number - 1)) = some q) :
    k.repaired pf r = (holdPrevious own (k.content q) q.lines, q.lines) := by
  simp only [DeckStore.repaired, action, content, pictureBefore_eq, previous, Option.map_some]

end

theorem concealSpatial_conceals {pf : Profile} {m : SlotMem} (wf : SlotMem.wf m = true) (even : evenLines m pf.lineWidth)
    (lines : Nat) :
    concealedFrom pf m (concealSpatial (tileGeometry pf lines) m) lines (nearestLeft pf m) (nearestRight pf m) :=
  concealedFrom_conceal wf even lines _ (fun _ _ _ place near => nearestBefore_of_nearestLeft even place near)
    fun _ _ _ place near => nearestAfter_of_nearestRight even place near

theorem concealTemporal_conceals {pf : Profile} {k : DeckStore} {m : SlotMem} {previous next : Option FrameRecord}
    (wf : SlotMem.wf m = true) (even : evenLines m pf.lineWidth) (lines : Nat)
    (evenPrevious : ∀ q, previous = some q → evenLines (k.content q) pf.lineWidth)
    (evenNext : ∀ q, next = some q → evenLines (k.content q) pf.lineWidth) :
    concealedFrom pf m (concealTemporal (tileGeometry pf lines) m (previous.map fun q => (k.content q, q.lines))
      (next.map fun q => (k.content q, q.lines))) lines (neighbourAt pf k previous) (neighbourAt pf k next) :=
  concealedFrom_conceal wf even lines _ (fun _ _ _ place near => neighbourLine_of_neighbourAt evenPrevious place near)
    fun _ _ _ place near => neighbourLine_of_neighbourAt evenNext place near

/-- The repair of a record that holds a slot: the slot's content, the line count and READY (R119). -/
theorem finishRepair_eq (k : DeckStore) (pf : Profile) {r : FrameRecord} {i : Fin 8} (slot : r.slot = some i) :
    k.finishRepair pf r = { k with
      slots := k.slots.set i.val { k.slots[i] with mem := (k.repaired pf r).1 } i.isLt
      records := k.records.map fun q =>
        if q.number = r.number then { q with phase := .ready, lines := (k.repaired pf r).2 } else q } := by
  simp only [DeckStore.finishRepair, slot, DeckStore.modSlot, DeckStore.update, beq_iff_eq]

section
variable {s : State}

theorem exec_repairEnd_idle (idle : s.rpe.active = none) : exec .repairEnd s = .next s := by
  show execRepairEnd s = _
  rw [execRepairEnd, idle]

variable {f : FrameRef} {pf : Profile} (active : s.rpe.active = some f) (profile : s.profileOf f.deck = some pf)
include active profile

/-- The end of a repair whose record has gone leaves the engine idle, and nothing more (R119). -/
theorem exec_repairEnd_gone (gone : ∀ r, (s.deck f.deck).store.find f.frame = some r → r.phase ≠ .repairing) :
    exec .repairEnd s = .next (s.modRpe fun e => { e with active := none }) := by
  show execRepairEnd s = _
  simp only [execRepairEnd, active, profile, deck_modRpe]
  split
  · next r found => exact if_neg (gone r found)
  · rfl

theorem exec_repairEnd_repairing {r : FrameRecord} (found : (s.deck f.deck).store.find f.frame = some r)
    (repairing : r.phase = .repairing) : exec .repairEnd s = .next (((s.modRpe fun e => { e with active := none }).modStore
      f.deck fun k => k.finishRepair pf r).releaseExamBefore f.deck f.frame) := by
  show execRepairEnd s = _
  simp only [execRepairEnd, active, profile, deck_modRpe, found, repairing, if_true]

end

/-- Settles O57: the record READY (finishRepair_eq), with the content of its action (repaired_unchanged, concealSpatial_conceals,
concealTemporal_conceals, line_holdPrevious). -/
theorem repairEndFollowsR119ToR123 : Obligations.RepairEndFollowsR119ToR123 := by
  intro s
  refine ⟨exec_repairEnd_idle, ?_⟩
  intro f pf active profile k idle
  refine ⟨exec_repairEnd_gone active profile, ?_⟩
  intro r i found repairing slot own previous wf even
  have number : r.number = f.frame := find_number found
  have content : k.store.content r = own := by rw [DeckStore.content, slot]
  refine ⟨(k.store.repaired pf r).1, (k.store.repaired pf r).2, ?_, fun action => ?_, fun action => ?_, fun action => ?_,
    fun q action before => ?_⟩
  · rw [exec_repairEnd_repairing active profile found repairing, ← number, modStore_eq, State.modDeck, finishRepair_eq _ pf slot]
    rfl
  · rw [repaired_unchanged content action]
    exact ⟨rfl, rfl⟩
  · rw [repaired_concealSpatial content action]
    exact ⟨rfl, concealSpatial_conceals wf even r.lines⟩
  · rw [repaired_concealTemporal content action, number, pictureBefore_eq]
    exact ⟨rfl, concealTemporal_conceals wf even r.lines⟩
  · rw [repaired_holdPrevious content action (by rw [number]; exact before)]
    exact ⟨rfl, line_holdPrevious own (k.store.content q) q.lines pf.lineWidth⟩

end Sys2Proof.Machine
end

section
namespace Sys2Proof.Machine

/-! ### LOAD_GRADE -/

/-- The curve index of LOAD_GRADE: 0xFF for none, else 0..15 (section 10.3). -/
def readCurveIndex (v : Nat) : Option (Option (Fin 16)) := if v = 255 then some none else (asIndex 16 v).map some

theorem readCurveIndex_eq_some {b : Byte} {c : Option (Fin 16)}
    (h : b = 0xFF ∧ c = none ∨ ∃ i : Fin 16, b.toNat = i.val ∧ c = some i) : readCurveIndex b.toNat = some c := by
  rcases h with ⟨rfl, rfl⟩ | ⟨i, field, rfl⟩
  · rfl
  · have named : b.toNat ≠ 255 := by omega
    rw [readCurveIndex, if_neg named, field, asIndex_of_lt i.isLt, Option.map_some]

theorem bounds_of_readCurveIndex {b : Byte} {c : Option (Fin 16)} (h : readCurveIndex b.toNat = some c) :
    b = 0xFF ∨ b.toNat ≤ 15 := by
  unfold readCurveIndex at h
  split at h
  · next none => exact .inl (BitVec.eq_of_toNat_eq none)
  · obtain ⟨i, read, -⟩ := Option.map_eq_some_iff.1 h
    exact .inr (Nat.le_of_lt_succ (asIndex_val read).2)

/-- The eight bytes of a channel are read as the channel they load, when its fields are in range (R131). -/
theorem readChannel_bytes (f : GradeFields) : readChannel f.bytes 0 = if f.inRange then some f.loaded else none := by
  have mantissa : le16 f.bytes 0 = f.mantissa.toNat := le16_bytes16 f.mantissa _
  have mode : byteAt f.bytes 2 = f.mode.toNat := rfl
  have lift : BitVec.ofNat 16 (le16 f.bytes 4) = f.lift := le16_bytes16_zero f.lift [0, 0]
  unfold readChannel
  simp only [Nat.zero_add, mantissa, mode, lift]
  rfl

section
variable {index curve : Byte} {clipLimit : Word32} {r g b : GradeFields}

/-- The body of LOAD_GRADE (section 10.3). -/
abbrev gradeBody (index curve : Byte) (clipLimit : Word32) (r g b : GradeFields) : List Byte :=
  [index, curve, 0, 0] ++ bytes32 clipLimit ++ r.bytes ++ g.bytes ++ b.bytes

/-- The fields of LOAD_GRADE, read one after another (section 10.3). -/
theorem readGradeRecord_fields : readGradeRecord (gradeBody index curve clipLimit r g b) =
    (asIndex 64 index.toNat).bind fun i => (readCurveIndex curve.toNat).bind fun c =>
      (asIndex (Config.max24 + 1) clipLimit.toNat).bind fun l => (readChannel r.bytes 0).bind fun cr =>
        (readChannel g.bytes 0).bind fun cg => (readChannel b.bytes 0).bind fun cb =>
          some (i, ⟨cr, cg, cb, c, l.val⟩) := by
  have curveField : byteAt (gradeBody index curve clipLimit r g b) 1 = curve.toNat := rfl
  have limitField : le32 (gradeBody index curve clipLimit r g b) 4 = clipLimit.toNat := le32_bytes32 clipLimit []
  have red : readChannel (gradeBody index curve clipLimit r g b) 8 = readChannel r.bytes 0 := rfl
  have green : readChannel (gradeBody index curve clipLimit r g b) 16 = readChannel g.bytes 0 := rfl
  have blue : readChannel (gradeBody index curve clipLimit r g b) 24 = readChannel b.bytes 0 := rfl
  unfold readGradeRecord readCurveIndex
  rw [curveField, limitField, red, green, blue]
  by_cases absent : curve.toNat = 255
  · simp only [absent, if_true]
    rfl
  · simp only [absent, if_false]
    rfl

theorem readGradeRecord_eq_some {c : Option (Fin 16)} (room : index.toNat < 64)
    (curveField : curve = 0xFF ∧ c = none ∨ ∃ i : Fin 16, curve.toNat = i.val ∧ c = some i)
    (bound : clipLimit.toNat ≤ 16777215) (red : r.inRange) (green : g.inRange) (blue : b.inRange) :
    readGradeRecord (gradeBody index curve clipLimit r g b)
      = some (⟨index.toNat, room⟩, ⟨r.loaded, g.loaded, b.loaded, c, clipLimit.toNat⟩) := by
  rw [readGradeRecord_fields, asIndex_of_lt room, readCurveIndex_eq_some curveField,
    asIndex_of_lt (show clipLimit.toNat < Config.max24 + 1 from Nat.lt_succ_of_le bound), readChannel_bytes, readChannel_bytes,
    readChannel_bytes, if_pos red, if_pos green, if_pos blue]
  rfl

/-- A body of LOAD_GRADE that is read has every field in its range (R131). -/
theorem bounds_of_readGradeRecord {x : Fin 64 × GradeRecord} (h : readGradeRecord (gradeBody index curve clipLimit r g b) = some x) :
    index.toNat ≤ 63 ∧ (curve = 0xFF ∨ curve.toNat ≤ 15) ∧ clipLimit.toNat ≤ 16777215 ∧ r.inRange ∧ g.inRange ∧ b.inRange := by
  simp only [readGradeRecord_fields, readChannel_bytes, Option.bind_eq_some_iff, Option.ite_none_right_eq_some] at h
  obtain ⟨i, indexField, c, curveField, l, limitField, cr, ⟨red, -⟩, cg, ⟨green, -⟩, cb, ⟨blue, -⟩, -⟩ := h
  exact ⟨Nat.le_of_lt_succ (asIndex_val indexField).2, bounds_of_readCurveIndex curveField,
    Nat.le_of_lt_succ (asIndex_val limitField).2, red, green, blue⟩

theorem readGradeRecord_eq_none (bad : 63 < index.toNat ∨ (15 < curve.toNat ∧ curve ≠ 0xFF) ∨ 16777215 < clipLimit.toNat
    ∨ ¬ r.inRange ∨ ¬ g.inRange ∨ ¬ b.inRange) : readGradeRecord (gradeBody index curve clipLimit r g b) = none := by
  refine Option.eq_none_iff_forall_ne_some.2 fun x read => ?_
  obtain ⟨room, curveField, bound, red, green, blue⟩ := bounds_of_readGradeRecord read
  rcases bad with high | ⟨high, named⟩ | high | out | out | out
  · omega
  · exact absurd (curveField.resolve_left named) (Nat.not_le.2 high)
  · omega
  · exact out red
  · exact out green
  · exact out blue

/-- The take of LOAD_GRADE: refused when a field is out of range, else the record is replaced (R131). -/
theorem exec_loadGrade {s : State} {deck tag : Byte} {rest : List ControlParcel} :
    let p : ControlParcel := ⟨deck, tag, 0x13, gradeBody index curve clipLimit r g b⟩
    s.takeable p rest → exec .loadGrade s = .next ((readGradeRecord p.body).elim (s.refused p rest .range) fun x =>
      (s.answered p rest .ok .none).modGre fun e => { e with grades := e.grades.set x.1.val x.2 x.1.isLt }) := by
  intro p h
  show execLoadGrade s = _
  rw [execLoadGrade, takeRequest_delivers h rfl rfl rfl]
  cases readGradeRecord p.body with
  | none => exact congrArg _ (refuse_afterTake s p rest .range)
  | some x => rw [replyOk_afterTake]; rfl

end

/-- Settles O17: a field out of range is not read (readGradeRecord_eq_none), and the fields in range are the record, its trims 8
(readGradeRecord_eq_some). -/
theorem loadGradeFollowsR131 : Obligations.LoadGradeFollowsR131 := by
  intro s deck tag index curve clipLimit r g b rest p h
  refine ⟨fun bad => ?_, fun room c curveField bound red green blue => ?_⟩
  · rw [exec_loadGrade h, readGradeRecord_eq_none bad]
    rfl
  · rw [exec_loadGrade h, readGradeRecord_eq_some room curveField bound red green blue]
    rfl

end Sys2Proof.Machine
end

section
namespace Sys2Proof.Machine

/-! ### LOAD_CURVE -/

theorem length_flatMap_bytes16 (words : List Word16) : (words.flatMap bytes16).length = 2 * words.length := by
  induction words with
  | nil => rfl
  | cons w later ih =>
    rw [List.flatMap_cons, List.length_append, ih, List.length_cons]
    show 2 + _ = _
    omega

/-- Word k of a list of words stands at offset 2 k of their bytes (R194). -/
theorem le16_flatMap_bytes16 {words : List Word16} {k : Nat} (h : k < words.length) :
    le16 (words.flatMap bytes16) (2 * k) = words[k].toNat := by
  induction words generalizing k with
  | nil => exact absurd h (Nat.not_lt_zero k)
  | cons w later ih =>
    cases k with
    | zero => exact le16_bytes16 w _
    | succ k => exact ih (Nat.lt_of_succ_lt_succ h)

/-- The body of LOAD_CURVE (section 10.3). -/
abbrev curveBody (index : Byte) (knots : Curve) : List Byte := [index, 0] ++ knots.toList.flatMap bytes16

theorem readCurve_curveBody (index : Byte) (knots : Curve) : readCurve (curveBody index knots) = knots := by
  ext1 k bound
  have offset : le16 (curveBody index knots) (2 + 2 * k) = le16 (knots.toList.flatMap bytes16) (2 * k) := by
    rw [Nat.add_comm 2 (2 * k)]
    rfl
  have word : le16 (knots.toList.flatMap bytes16) (2 * k) = knots[k].toNat := by
    rw [le16_flatMap_bytes16 (by simpa using bound), Vector.getElem_toList]
  rw [readCurve, Vector.getElem_ofFn, offset, word, BitVec.ofNat_toNat, BitVec.setWidth_eq]

/-- A request of no deck passes the checks of R196 by its length and its clear reserved bytes. -/
theorem takeChecks_noDeck {form : RequestForm} {p : ControlParcel} (noDeck : form.deckScoped = false)
    (length : p.body.length = form.length) (reserved : form.reservedZero p.body = true) : takeChecks form p = none := by
  simp [takeChecks, noDeck, length, reserved]

theorem takeChecks_loadCurve (deck tag index : Byte) (knots : Curve) :
    takeChecks ⟨false, 68, zeroAt [1]⟩ ⟨deck, tag, 0x14, curveBody index knots⟩ = none := by
  refine takeChecks_noDeck rfl ?_ rfl
  rw [List.length_append, length_flatMap_bytes16, Vector.length_toList]
  rfl

/-- The take of LOAD_CURVE: refused when its index is out of range, else the curve is replaced (R133). -/
theorem exec_loadCurve {s : State} {deck tag index : Byte} {knots : Curve} {rest : List ControlParcel} :
    let p : ControlParcel := ⟨deck, tag, 0x14, curveBody index knots⟩
    s.takeable p rest → exec .loadCurve s = .next ((asIndex 16 index.toNat).elim (s.refused p rest .range) fun i =>
      (s.answered p rest .ok .none).modGre fun e => { e with curves := e.curves.set i.val knots i.isLt }) := by
  intro p h
  have indexField : byteAt p.body 0 = index.toNat := rfl
  show execLoadCurve s = _
  rw [execLoadCurve, takeRequest_delivers h rfl rfl (takeChecks_loadCurve deck tag index knots), indexField,
    readCurve_curveBody]
  cases asIndex 16 index.toNat with
  | none => exact congrArg _ (refuse_afterTake s p rest .range)
  | some i => rw [replyOk_afterTake]; rfl

/-! ### LOAD_POLICY -/

section
variable {index enabled shrink cls : Byte} {score : Word16}

/-- The body of LOAD_POLICY (section 10.3). -/
abbrev policyBody (index enabled : Byte) (score : Word16) (shrink cls : Byte) : List Byte :=
  [index, enabled] ++ bytes16 score ++ [shrink, cls, 0, 0]

/-- The fields of LOAD_POLICY, read one after another (section 10.3). -/
theorem readPolicy_fields : readPolicy (policyBody index enabled score shrink cls) =
    (asIndex 8 index.toNat).bind fun i => (readFlag enabled.toNat).bind fun e => (asIndex 1001 score.toNat).bind fun m =>
      (asIndex 100 shrink.toNat).bind fun t => (asIndex 7 cls.toNat).bind fun c =>
        some (i, ⟨e, m.val, t.val, c.castSucc⟩) := by
  have scoreField : le16 (policyBody index enabled score shrink cls) 2 = score.toNat := le16_bytes16 score [shrink, cls, 0, 0]
  rw [← scoreField]
  rfl

theorem readPolicy_eq_some (room : index.toNat < 8) (flag : enabled.toNat ≤ 1) (scoreField : score.toNat ≤ 1000)
    (shrinkField : shrink.toNat ≤ 99) (classField : cls.toNat ≤ 6) :
    readPolicy (policyBody index enabled score shrink cls) = some (⟨index.toNat, room⟩,
      ⟨enabled.toNat == 1, score.toNat, shrink.toNat, ⟨cls.toNat, Nat.lt_succ_of_le (Nat.le_succ_of_le classField)⟩⟩) := by
  rw [readPolicy_fields, asIndex_of_lt room, readFlag_eq_some_iff.2 ⟨flag, rfl⟩, asIndex_of_lt (Nat.lt_succ_of_le scoreField),
    asIndex_of_lt (Nat.lt_succ_of_le shrinkField), asIndex_of_lt (Nat.lt_succ_of_le classField)]
  rfl

/-- A body of LOAD_POLICY that is read has every field in its range (R156). -/
theorem bounds_of_readPolicy {x : Fin 8 × PolicyRow} (h : readPolicy (policyBody index enabled score shrink cls) = some x) :
    index.toNat < 8 ∧ enabled.toNat ≤ 1 ∧ score.toNat < 1001 ∧ shrink.toNat < 100 ∧ cls.toNat < 7 := by
  simp only [readPolicy_fields, Option.bind_eq_some_iff] at h
  obtain ⟨i, indexField, e, flagField, m, scoreField, t, shrinkField, c, classField, -⟩ := h
  exact ⟨(asIndex_val indexField).2, (readFlag_eq_some_iff.1 flagField).1, (asIndex_val scoreField).2,
    (asIndex_val shrinkField).2, (asIndex_val classField).2⟩

theorem readPolicy_eq_none (bad : 7 < index.toNat ∨ 1 < enabled.toNat ∨ 1000 < score.toNat ∨ 99 < shrink.toNat
    ∨ 6 < cls.toNat) : readPolicy (policyBody index enabled score shrink cls) = none :=
  Option.eq_none_iff_forall_ne_some.2 fun x read => by
    have := bounds_of_readPolicy read
    omega

/-- The take of LOAD_POLICY: refused when a field is out of range, else the row is replaced (R156). -/
theorem exec_loadPolicy {s : State} {deck tag : Byte} {rest : List ControlParcel} :
    let p : ControlParcel := ⟨deck, tag, 0x15, policyBody index enabled score shrink cls⟩
    s.takeable p rest → exec .loadPolicy s = .next ((readPolicy p.body).elim (s.refused p rest .range) fun x =>
      (s.answered p rest .ok .none).modShp fun e => { e with policies := e.policies.set x.1.val x.2 x.1.isLt }) := by
  intro p h
  show execLoadPolicy s = _
  rw [execLoadPolicy, takeRequest_delivers h rfl rfl rfl]
  cases readPolicy p.body with
  | none => exact congrArg _ (refuse_afterTake s p rest .range)
  | some x => rw [replyOk_afterTake]; rfl

end

/-- Settles O18: the knots are read as they were written (readCurve_curveBody), and a row's fields are read only in their ranges
(readPolicy_eq_some, readPolicy_eq_none). -/
theorem loadCurveAndPolicyStoreTheEntry : Obligations.LoadCurveAndPolicyStoreTheEntry := by
  intro s deck tag index rest
  refine ⟨?_, ?_⟩
  · intro knots p h
    refine ⟨fun high => ?_, fun room => ?_⟩
    · rw [exec_loadCurve h, asIndex_of_le high]
      rfl
    · rw [exec_loadCurve h, asIndex_of_lt room]
      rfl
  · intro enabled shrink cls score p h
    refine ⟨fun bad => ?_, fun room classField flag scoreField shrinkField => ?_⟩
    · rw [exec_loadPolicy h, readPolicy_eq_none bad]
      rfl
    · rw [exec_loadPolicy h, readPolicy_eq_some room flag scoreField shrinkField classField]
      rfl

end Sys2Proof.Machine
end

section
namespace Sys2Proof.Machine

/-! ### TRIM -/

section
variable {index set code : Byte}

/-- The channel set and the four symbols of a TRIM as its two bytes give them (section 10.3). -/
def trimOperands (set code : Byte) : TrimOperands :=
  ⟨set.getLsbD 0, set.getLsbD 1, set.getLsbD 2, code.getLsbD 3, code.getLsbD 2, code.getLsbD 1, code.getLsbD 0⟩

/-- The operands of TRIM that R151 refuses: no channel, or two opposite steps. -/
def trimRefused (set code : Byte) : Prop :=
  set = 0 ∨ (code.getLsbD 0 = true ∧ code.getLsbD 1 = true) ∨ (code.getLsbD 2 = true ∧ code.getLsbD 3 = true)

theorem readTrim_fields : readTrim [index, set, code, 0] = (asIndex 64 index.toNat).bind fun i =>
    if (decide (set.toNat = 0) || (code.getLsbD 1 && code.getLsbD 0) || (code.getLsbD 3 && code.getLsbD 2)) = true then none
    else some (i, trimOperands set code) := rfl

theorem trimRefused_iff : (decide (set.toNat = 0) || (code.getLsbD 1 && code.getLsbD 0)
    || (code.getLsbD 3 && code.getLsbD 2)) = true ↔ trimRefused set code := by
  have empty : set.toNat = 0 ↔ set = 0 := BitVec.toNat_inj (x := set) (y := 0)
  simp only [Bool.or_eq_true, Bool.and_eq_true, decide_eq_true_eq, empty, trimRefused]
  tauto

theorem readTrim_eq_some (room : index.toNat < 64) (kept : ¬ trimRefused set code) :
    readTrim [index, set, code, 0] = some (⟨index.toNat, room⟩, trimOperands set code) := by
  rw [readTrim_fields, asIndex_of_lt room]
  exact if_neg (mt trimRefused_iff.1 kept)

theorem readTrim_eq_none (bad : 63 < index.toNat ∨ trimRefused set code) : readTrim [index, set, code, 0] = none := by
  rw [readTrim_fields]
  rcases bad with high | refused
  · rw [asIndex_of_le high]
    rfl
  · simp only [trimRefused_iff.2 refused, if_true]
    exact Option.bind_fun_none _

/-- The reserved bits of TRIM are clear in a set of three channels and a code of four symbols (section 10.3). -/
theorem takeChecks_trim (deck tag : Byte) (channels : set.toNat < 8) (symbols : code.toNat < 16) :
    takeChecks ⟨false, 4, fun b => zeroAt [3] b && byteAt b 1 / 8 == 0 && byteAt b 2 / 16 == 0⟩
      ⟨deck, tag, 0x24, [index, set, code, 0]⟩ = none := by
  refine takeChecks_noDeck rfl rfl ?_
  simp [zeroAt, Nat.div_eq_of_lt channels, Nat.div_eq_of_lt symbols]

/-- The take of TRIM: refused by R151, else the named record's trims move and the reply carries the six (R152). -/
theorem exec_trim {s : State} {deck tag : Byte} {rest : List ControlParcel} (channels : set.toNat < 8)
    (symbols : code.toNat < 16) :
    let p : ControlParcel := ⟨deck, tag, 0x24, [index, set, code, 0]⟩
    s.takeable p rest → exec .trim s = .next ((readTrim p.body).elim (s.refused p rest .range) fun x =>
      (s.answered p rest .ok (s.gre.grades[x.1].trim x.2).trims).modGre fun e =>
        { e with grades := e.grades.set x.1.val (s.gre.grades[x.1].trim x.2) x.1.isLt }) := by
  intro p h
  show execTrim s = _
  rw [execTrim, takeRequest_delivers h rfl rfl (takeChecks_trim deck tag channels symbols)]
  cases readTrim p.body with
  | none => exact congrArg _ (refuse_afterTake s p rest .range)
  | some x =>
    rw [Option.elim_some, ← reply_afterTake]
    rfl

end

theorem stepTrim_eq (up down : Bool) (t : Nat) :
    stepTrim up down t = if up = true then min 15 (t + 1) else if down = true then t - 1 else t := by
  rw [stepTrim, Nat.min_comm]

/-- Settles O19: what R151 refuses is not read (readTrim_eq_none), and each named channel's trims step within 0 to 15 (stepTrim_eq). -/
theorem trimFollowsR151AndR152 : Obligations.TrimFollowsR151AndR152 := by
  intro s deck tag index set code rest p h channels symbols
  refine ⟨fun bad => ?_, fun named lift gain room => ?_⟩
  · rw [exec_trim channels symbols h, readTrim_eq_none bad]
    rfl
  · have kept : ¬ trimRefused set code := by
      rintro (none | ⟨up, down⟩ | ⟨up, down⟩)
      · exact named none
      · rw [up, down] at lift
        simp at lift
      · rw [up, down] at gain
        simp at gain
    rw [exec_trim channels symbols h, readTrim_eq_some room kept]
    simp only [Option.elim_some, GradeRecord.trims, GradeRecord.trim, ChannelGrade.trim, trimOperands, stepTrim_eq]
    rfl

end Sys2Proof.Machine
end

section
namespace Sys2Proof.Machine

/-! ### The arithmetic of the Grade Engine -/

/-- The floor of a quotient by its two inequalities (00_scope section 4). -/
theorem floorDiv_spec (a : Int) {b : Nat} (h : 0 < b) : b * floorDiv a b ≤ a ∧ a < b * (floorDiv a b + 1) := by
  have floor : floorDiv a b = a / b := Int.fdiv_eq_ediv_of_nonneg a (Int.natCast_nonneg b)
  have positive : (0 : Int) < b := Int.natCast_pos.2 h
  rw [floor, mul_comm, mul_comm (b : Int)]
  exact ⟨Int.ediv_mul_le a positive.ne', Int.lt_ediv_add_one_mul_self a positive⟩

/-- The clamped sample as the manual bounds it (R145). -/
theorem clampSample_eq (g : Int) : (clampSample g : Int) = max 0 (min 65535 g) :=
  Int.toNat_of_nonneg (le_max_left 0 _)

theorem clampSample_le (g : Int) : clampSample g ≤ 65535 := by
  have := clampSample_eq g
  omega

/-- The gained sample is the rounded product of the lifted sample and the effective gain (R141 to R144). -/
theorem gained_spec (c : ChannelGrade) (x : Nat) :
    let lifted : Int := x + c.lift + ((c.liftTrim : Int) - 8) * 64
    let gain : Int := max 0 (min 4095 (c.mantissa + ((c.gainTrim : Int) - 8) * 16))
    2 ^ (8 + c.mode) * c.gained x ≤ lifted * gain + 2 ^ (7 + c.mode)
      ∧ lifted * gain + 2 ^ (7 + c.mode) < 2 ^ (8 + c.mode) * (c.gained x + 1) := by
  intro lifted gain
  have half : c.shift - 1 = 7 + c.mode := by
    rw [ChannelGrade.shift]
    omega
  have rounded : c.gained x = floorDiv (lifted * gain + 2 ^ (7 + c.mode)) (2 ^ (8 + c.mode)) := by
    rw [ChannelGrade.gained, half, ChannelGrade.effectiveLift, ← add_assoc, Nat.cast_pow]
    rfl
  have spec := floorDiv_spec (lifted * gain + 2 ^ (7 + c.mode)) (Nat.two_pow_pos (8 + c.mode))
  rw [← rounded, Nat.cast_pow] at spec
  exact spec

/-! ### The curve -/

/-- A fraction of a step of the curve, rounded, lies between no step and the whole (R147). -/
theorem curveStep_between {d f step : Int} (f_nonneg : 0 ≤ f) (f_lt : f < 2048) (lower : 2048 * step ≤ d * f + 1024)
    (upper : d * f + 1024 < 2048 * (step + 1)) : min 0 d ≤ step ∧ step ≤ max 0 d := by
  rcases le_total 0 d with rising | falling
  · have low : 0 ≤ d * f := mul_nonneg rising f_nonneg
    have high : d * f ≤ d * 2047 := mul_le_mul_of_nonneg_left (by omega) rising
    omega
  · have low : d * 2047 ≤ d * f := mul_le_mul_of_nonpos_left (by omega) falling
    have high : d * f ≤ 0 := mul_nonpos_of_nonpos_of_nonneg falling f_nonneg
    omega

/-- The output of a curve at a clamped sample: the knot of its segment and the rounded fraction of the step to the next (R147). -/
theorem curveOutput_eq (knots : Curve) {v : Nat} (h : v / 2048 < 32) :
    Curve.output knots v = knots[v / 2048].toNat
      + floorDiv (((knots[v / 2048 + 1].toNat : Int) - knots[v / 2048].toNat) * (v % 2048 : Nat) + 1024) 2048 := by
  have fraction : v - 2048 * (v / 2048) = v % 2048 := by omega
  have first : knots[v / 2048]? = some knots[v / 2048] := Vector.getElem?_eq_getElem (by omega)
  have second : knots[v / 2048 + 1]? = some knots[v / 2048 + 1] := Vector.getElem?_eq_getElem (by omega)
  simp only [Curve.output, fraction, first, second, Option.map_some, Option.getD_some]

/-- The code that a curve gives a clamped sample, by the inequalities of R147; it lies between the two knots of its segment. -/
theorem finish_curve (knots : Curve) {v : Nat} (h : v ≤ 65535) :
    ∃ (segment fraction : Nat) (h : segment < 32) (step : Int),
      2048 * segment + fraction = v ∧ fraction < 2048
      ∧ 2048 * step ≤ ((knots[segment + 1].toNat : Int) - knots[segment].toNat) * fraction + 1024
      ∧ ((knots[segment + 1].toNat : Int) - knots[segment].toNat) * fraction + 1024 < 2048 * (step + 1)
      ∧ ((finish (some knots) v).toNat : Int) = knots[segment].toNat + step
      ∧ min knots[segment].toNat knots[segment + 1].toNat ≤ (finish (some knots) v).toNat
      ∧ (finish (some knots) v).toNat ≤ max knots[segment].toNat knots[segment + 1].toNat := by
  have inTable : v / 2048 < 32 := by omega
  have output := curveOutput_eq knots inTable
  obtain ⟨lower, upper⟩ := floorDiv_spec
    (((knots[v / 2048 + 1].toNat : Int) - knots[v / 2048].toNat) * (v % 2048 : Nat) + 1024) (b := 2048) (by decide)
  generalize floorDiv _ 2048 = step at output lower upper
  have short : v % 2048 < 2048 := Nat.mod_lt v (by decide)
  obtain ⟨least, greatest⟩ := curveStep_between (Int.natCast_nonneg _) (Int.ofNat_lt.2 short) lower upper
  have first := knots[v / 2048].isLt
  have second := knots[v / 2048 + 1].isLt
  have code : ((finish (some knots) v).toNat : Int) = knots[v / 2048].toNat + step := by
    rw [← output]
    show ((BitVec.ofInt 16 (Curve.output knots v)).toNat : Int) = _
    rw [BitVec.toNat_ofInt]
    omega
  refine ⟨v / 2048, v % 2048, inTable, step, Nat.div_add_mod v 2048, short, lower, upper, code, ?_, ?_⟩ <;> omega

/-- A sample that no curve maps goes out as it was clamped (R148). -/
theorem toNat_finish_none {v : Nat} (h : v ≤ 65535) : (finish none v).toNat = v :=
  (BitVec.toNat_ofNat v 16).trans (Nat.mod_eq_of_lt (Nat.lt_succ_of_le h))

/-! ### One channel value -/

/-- A channel at its power-on values passes every value unchanged and clips none (R130). -/
theorem grade_powerOn (x : Word16) : (⟨1024, 2, 0, 8, 8⟩ : ChannelGrade).grade none x = ⟨x, 0, 0⟩ := by
  have bound := x.isLt
  have gained : (⟨1024, 2, 0, 8, 8⟩ : ChannelGrade).gained x.toNat = x.toNat := by
    have spec : 1024 * _ ≤ ((x.toNat : Int) + 0 + 0) * 1024 + 512 ∧ ((x.toNat : Int) + 0 + 0) * 1024 + 512 < 1024 * (_ + 1) :=
      gained_spec ⟨1024, 2, 0, 8, 8⟩ x.toNat
    omega
  have clamped : clampSample x.toNat = x.toNat := by
    have := clampSample_eq x.toNat
    omega
  have passed : finish none x.toNat = x := BitVec.eq_of_toNat_eq (toNat_finish_none (by omega))
  rw [ChannelGrade.grade]
  simp only [gained, clamped, passed]
  rw [if_neg (by omega), if_neg (by omega)]

/-- Settles O58: the rounded product (gained_spec), its clamp (clampSample_eq), and the curve's output between its knots (finish_curve). -/
theorem gradingFollowsR141ToR148 : Obligations.GradingFollowsR141ToR148 := by
  refine ⟨grade_powerOn, ?_⟩
  intro c curve x _ out lifted gain
  obtain ⟨lower, upper⟩ := gained_spec c x.toNat
  have clamped := clampSample_eq (c.gained x.toNat)
  refine ⟨c.gained x.toNat, lower, upper, rfl, rfl, ?_, ?_⟩
  · rintro rfl
    rw [← clamped]
    exact congrArg Nat.cast (toNat_finish_none (clampSample_le _))
  · rintro knots rfl
    obtain ⟨segment, fraction, inTable, step, whole, rest⟩ := finish_curve knots (clampSample_le (c.gained x.toNat))
    refine ⟨segment, fraction, inTable, step, ?_, rest⟩
    rw [← clamped, ← whole]
    exact Nat.cast_add _ _

end Sys2Proof.Machine
end

section
namespace Sys2Proof.Machine

/-! ### The lines of a picture parcel -/

theorem length_pictureLines (m : SlotMem) (width lines k : Nat) :
    (pictureLines m width lines k).length = min 16 (lines - 16 * k) := by
  rw [pictureLines, List.length_map, List.length_range']
  rfl

theorem getElem?_pictureLines {m : SlotMem} {width lines k j : Nat} (h : j < (pictureLines m width lines k).length) :
    (pictureLines m width lines k)[j]? = some (SlotMem.line m width (16 * k + j)) := by
  have inRange : j < min Config.bandLines (lines - Config.bandLines * k) := length_pictureLines m width lines k ▸ h
  rw [pictureLines, List.getElem?_map, List.getElem?_range' inRange, Nat.one_mul]
  rfl

/-- The lines of a parcel graded: their codes, and the clips of all their samples added to the running counts (R145, R188). -/
theorem gradeLines_eq (n : Snapshot) (lines : List Line) : n.gradeLines lines =
    (lines.map fun l => l.map fun x => (n.gradeSample x).1,
      n.count (lines.flatten.map fun x => (n.gradeSample x).2.1).sum (lines.flatten.map fun x => (n.gradeSample x).2.2).sum) := by
  simp only [Snapshot.gradeLines, List.map_map, ← List.map_flatten]
  congr 1
  simp only [Function.comp_def, List.map_map]

/-! ### When the next frame parcel begins -/

theorem frameMayBegin_iff (a : Ali) : a.frameMayBegin = true ↔ a.frameFree := by
  simp only [Ali.frameMayBegin, Ali.suspended, Bool.and_eq_true, Bool.not_eq_true', Bool.or_eq_false_iff, bne_eq_false_iff_eq,
    Option.isNone_iff_eq_none, List.isEmpty_iff, Ali.frameFree]
  tauto

theorem beginFrameParcel_keeps {s : State} (h : ¬ s.ali.frameFree ∨ (s.ali.aborted = none ∧ s.ali.emission = none)) :
    s.beginFrameParcel = s := by
  unfold State.beginFrameParcel
  rcases h with held | ⟨noAborted, noEmission⟩
  · exact if_neg (mt (frameMayBegin_iff s.ali).1 held)
  · rw [noAborted, noEmission, ite_self]

theorem beginFrameParcel_aborted {s : State} {w : AbortedWait} (free : s.ali.frameFree) (waits : s.ali.aborted = some w) :
    s.beginFrameParcel = { s with ali := { s.ali with
      wire := some (.trailer (.aborted w.deck w.reel w.record w.linesSent)), aborted := none } } := by
  rw [State.beginFrameParcel, if_pos ((frameMayBegin_iff s.ali).2 free), waits]
  rfl

theorem beginFrameParcel_emission {s : State} {e : Emission} (free : s.ali.frameFree) (noAborted : s.ali.aborted = none)
    (emission : s.ali.emission = some e) : s.beginFrameParcel = s.beginNext e := by
  rw [State.beginFrameParcel, if_pos ((frameMayBegin_iff s.ali).2 free), noAborted, emission]

section
variable {s : State} {e : Emission} {r : FrameRecord} (idle : e.sending = false)
  (found : (s.deck e.deck).store.find e.frame = some r)
include idle found

theorem beginNext_overrun (overrun : e.overrun = true) :
    s.beginNext e = s.beginTrailer e (.overrun e.deck (s.deck e.deck).ctx.reel r) := by
  unfold State.beginNext
  simp only [idle, found, overrun, if_true, Bool.false_eq_true, if_false]
  cases s.gre.snapshot <;> rfl

theorem beginNext_full {n : Snapshot} (full : e.overrun = false) (snapshot : s.gre.snapshot = some n) :
    s.beginNext e = if 16 * e.next < e.lines then s.beginPicture e n
      else s.beginTrailer e (.full e.deck (s.deck e.deck).ctx.reel r n.index) := by
  unfold State.beginNext
  simp only [idle, found, full, snapshot, Bool.false_eq_true, if_false]
  rfl

end

/-- The picture parcel that begins, its lines read from the record's slot and graded (R139, R188). -/
theorem beginPicture_eq {s : State} {e : Emission} {r : FrameRecord} {pf : Profile} (n : Snapshot)
    (found : (s.deck e.deck).store.find e.frame = some r) (profile : s.profileOf e.deck = some pf) :
    let graded := n.gradeLines (pictureLines ((s.deck e.deck).store.content r) pf.lineWidth e.lines e.next)
    s.beginPicture e n = { s with
      gre := { s.gre with snapshot := some graded.2 }
      ali := { s.ali with
        wire := some (.picture ⟨e.deck, e.frame, 16 * e.next, graded.1⟩)
        emission := some { e with next := e.next + 1, sending := true } } } := by
  simp only [State.beginPicture, found, profile, Option.map_some, Option.getD_some]
  rfl

/-! ### The bytes of frame parcels (section 10.5) -/

theorem putWord16_eq (v : Word16) : put16 v.toNat = bytes16 v := by
  rw [put16_eq, field16, BitVec.ofNat_toNat, BitVec.setWidth_eq]

theorem rgbBytes_eq (x : Rgb) : x.bytes = bytes16 x.r ++ bytes16 x.g ++ bytes16 x.b := by
  simp only [Rgb.bytes, putWord16_eq]

/-- The bytes of a picture parcel are those of its layout. -/
theorem bytes_picture (p : Picture) : UpParcel.bytes (.picture p) = pictureLayout p := by
  show parcelBytes 2 (deckByte p.deck) 0 0 p.payload = _
  rw [parcelBytes_eq, Picture.payload, put32_eq, put16_eq, put16_eq, funext rgbBytes_eq]
  rfl

theorem zeros_eq (n : Nat) : zeros n = blank n := rfl

theorem actionByte_eq (r : FrameRecord) : actionByte r = actionField r.action := by
  rw [actionByte]
  cases r.action with
  | none => rfl
  | some a => cases a <;> rfl

theorem fateByte_eq (f : Fate) : put8 f.code = [codeIn [.none, .slotted, .overrun, .unrecorded, .discarded] f] := by
  cases f <;> rfl

theorem trailerHead_eq (reel : Option ReelId) (r : FrameRecord) :
    trailerHead reel r = putReel reel ++ put32 r.number ++ put32 r.boundary.toNat := by
  rw [trailerHead, putReel_eq, put32_eq, putWord32_eq]

theorem bytes_trailer (t : Trailer) : UpParcel.bytes (.trailer t)
    = wireParcel 3 (BitVec.ofNat 8 t.deck.val) 0 (BitVec.ofNat 8 t.code) t.payload := parcelBytes_eq ..

/-- The payload of a FULL trailer of a record with its measures and codes (R189). -/
theorem payload_full {d : DeckId} {reel : Option ReelId} {r : FrameRecord} {g : Fin 64} {m : Measures} {codes : Byte}
    (measures : r.measures = some m) (conditions : r.codes = some codes) :
    (Trailer.full d reel r g).payload = fullTrailerLayout reel r g m codes := by
  -- `delta`, since making the equation lemma of this long layout times out.
  delta fullTrailerLayout
  simp only [Trailer.payload, measureBytes, measures, conditions, Option.getD_some, trailerHead_eq,
    ← putSigned16_eq, ← put8_eq, ← put16_eq, ← put32_eq, ← putIndex_eq, ← putClasses_eq, ← putFrameFlags_eq, ← actionByte_eq,
    zeros_eq, ← List.append_assoc]

theorem payload_overrun (d : DeckId) (reel : Option ReelId) (r : FrameRecord) :
    (Trailer.overrun d reel r).payload = overrunTrailerLayout reel r := by
  simp only [Trailer.payload, overrunTrailerLayout, trailerHead_eq, ← putSigned16_eq, ← put8_eq, ← put16_eq, ← put32_eq,
    ← putClasses_eq, ← fateByte_eq, List.append_assoc]
  rfl

theorem payload_aborted (d : DeckId) (reel : Option ReelId) (r : FrameRecord) (sent : Nat) :
    (Trailer.aborted d reel r sent).payload = abortedTrailerLayout reel r sent := by
  simp only [Trailer.payload, abortedTrailerLayout, trailerHead_eq, ← put8_eq, ← put16_eq, ← putIndex_eq, ← putClasses_eq,
    ← putFrameFlags_eq, ← actionByte_eq, zeros_eq]

/-- Settles O36: what begins, by the aborted trailer, the kind of record and the lines left (beginNext_overrun, beginNext_full,
beginPicture_eq), and the bytes of each parcel. -/
theorem nextFrameParcelFollowsR187ToR191 : Obligations.NextFrameParcelFollowsR187ToR191 := by
  intro s
  refine ⟨beginFrameParcel_keeps, fun w => beginFrameParcel_aborted, ?_, bytes_picture, fun d reel r => ?_⟩
  · intro e r free noAborted emission idle found k
    rw [beginFrameParcel_emission free noAborted emission]
    refine ⟨fun overrun => beginNext_overrun idle found overrun, fun n full snapshot done => ?_, ?_⟩
    · rw [beginNext_full idle found full snapshot, if_neg (Nat.not_lt.2 done)]
      rfl
    · intro n pf full snapshot more profile
      refine ⟨pictureLines (k.store.content r) pf.lineWidth e.lines e.next, length_pictureLines .., fun j => getElem?_pictureLines, ?_⟩
      rw [beginNext_full idle found full snapshot, if_pos more, beginPicture_eq n found profile, gradeLines_eq]
      rfl
  · intro trailer
    refine ⟨fun g m codes measures conditions => ?_, ?_, fun n => ?_⟩
    · rw [bytes_trailer, payload_full measures conditions]
      rfl
    · rw [bytes_trailer, payload_overrun]
      rfl
    · rw [bytes_trailer, payload_aborted]
      rfl

end Sys2Proof.Machine
end

section
namespace Sys2Proof.Machine

/-! ### The end of a picture parcel's sending -/

theorem exec_pictureParcelSent_idle {s : State} (h : s.ali.link ≠ .up ∨ ∀ p, s.ali.wire ≠ some (.picture p)) :
    exec .pictureParcelSent s = .next s := by
  show execPictureParcelSent s = _
  unfold execPictureParcelSent
  split
  · next p wire => exact if_neg (h.resolve_right fun other => other p wire)
  · rfl

/-- The row with a picture parcel on the wire: the wire idle, its lines counted, and after the last parcel the clip counts (R149, R188). -/
theorem exec_pictureParcelSent {s : State} {p : Picture} (up : s.ali.link = .up) (wire : s.ali.wire = some (.picture p)) :
    exec .pictureParcelSent s = .next (((s.modAli fun a => (a.completeParcel (.picture p)).countLines p.lines.length).afterPicture
      s.ali.emission).beginFrameParcel) := by
  show execPictureParcelSent s = _
  rw [execPictureParcelSent, wire]
  exact if_pos up

section
variable {a : Ali} {e : Emission} (lines : Nat)

theorem countLines_sending (emission : a.emission = some e) (sending : e.sending = true) :
    a.countLines lines = { a with emission := some { e with linesSent := e.linesSent + lines, sending := false } } := by
  simp only [Ali.countLines, emission, sending, if_true]

theorem countLines_idle (emission : a.emission = some e) (idle : e.sending = false) : a.countLines lines = a := by
  simp only [Ali.countLines, emission, idle, Bool.false_eq_true, if_false]

/-- A cut-off frame's waiting aborted trailer counts the lines that were being sent (R198). -/
theorem countLines_cutOff (ended : a.emission = none) : a.countLines lines = { a with
    aborted := a.aborted.map fun w => { w with linesSent := w.linesSent + w.inFlight.getD 0, inFlight := none } } := by
  obtain ⟨link, rx, input, upstreamHalt, workstationHalt, queue, dropFlag, readouts, wire, emission, aborted, lastGranted, sent⟩ := a
  subst ended
  rcases aborted with - | ⟨deck, reel, record, linesSent, - | inFlight⟩ <;> rfl

end

/-- After the last parcel the running counts go into the record (R149). -/
theorem afterPicture_sending {s : State} {e : Emission} {n : Snapshot} (sending : e.sending = true)
    (snapshot : s.gre.snapshot = some n) : s.afterPicture (some e) =
      if e.lines ≤ 16 * e.next then
        s.setDeck e.deck { s.deck e.deck with store := (s.deck e.deck).store.update e.frame fun r =>
          { r with clipHigh := n.high, clipLow := n.low } }
      else s := by
  simp only [State.afterPicture, sending, Bool.true_and, decide_eq_true_eq, State.writeClipCounts, snapshot]
  rfl

theorem afterPicture_idle (s : State) {e : Emission} (idle : e.sending = false) : s.afterPicture (some e) = s := by
  simp only [State.afterPicture, idle, Bool.false_and, Bool.false_eq_true, if_false]

/-- Settles O37: by the emission, what is counted (countLines_sending, countLines_idle, countLines_cutOff) and what is written
(afterPicture_sending). -/
theorem pictureParcelSentFollowsR188 : Obligations.PictureParcelSentFollowsR188 := by
  intro s
  refine ⟨exec_pictureParcelSent_idle, fun p up wire => ?_⟩
  intro done
  have counted : (s.modAli fun a => (a.completeParcel (.picture p)).countLines p.lines.length)
      = { s with ali := done.countLines p.lines.length } := rfl
  rw [exec_pictureParcelSent up wire, counted]
  refine ⟨fun e n emission sending snapshot => ?_, fun e emission idle => ?_, fun ended => ?_⟩
  · intro k t
    rw [countLines_sending (a := done) _ emission sending, emission]
    exact congrArg (fun u : State => (.next u.beginFrameParcel : StepResult)) (afterPicture_sending (s := t) sending snapshot)
  · rw [countLines_idle (a := done) _ emission idle, emission, afterPicture_idle _ idle]
  · rw [countLines_cutOff (a := done) _ ended, ended]
    rfl

end Sys2Proof.Machine
end

section
namespace Sys2Proof.Machine

/-! ### Planning the head of the waiting list -/

/-- The directive of a planning is the one that the rules for its class and its position determine (R157, R164). -/
theorem newDirective_eq {s : State} {d : DeckId} {score : Nat} {cls : Fin 8} {position : Option (Fin 2048)}
    (scored : (s.deck d).ctx.score = some score) (classed : classRule s.shp.policies score (s.deck d).ctx.maxShrink cls)
    (place : positionRule s.shp.shelf cls position) :
    s.newDirective d = ⟨none, d, cls, position, score, (s.deck d).ctx.maxShrink, (s.deck d).ctx.interrupted, .onDeck⟩ := by
  have chosen : chooseClass s.shp.policies score (s.deck d).ctx.maxShrink = cls :=
    classRule_unique (chooseClass_rule ..) classed
  have lowest : lowestFreePosition cls s.shp.shelf = position := positionRule_unique (lowestFreePosition_rule ..) place
  simp only [State.newDirective, scored, Option.getD_some, chosen, lowest]

/-- Settles O27: a planning in one piece (plan_eq) with the directive that the rules determine (newDirective_eq). -/
theorem planHeadFollowsR164AndR165 : Obligations.PlanHeadFollowsR164AndR165 := by
  intro s d waiting score cls position k dir
  refine ⟨planHead_none, fun head scored classed place => ?_⟩
  have made : (s.modShp fun p => { p with waiting := waiting }).newDirective d = dir := newDirective_eq scored classed place
  rw [planHead_next head, plan_eq, made]
  rfl

end Sys2Proof.Machine
end

section
namespace Sys2Proof.Machine

/-! ### The leave of a directive -/

theorem directiveReel_eq_some_iff (s : State) (dir : Directive) (reel : ReelId) :
    s.directiveReel dir = some reel ↔ s.carries dir reel := by
  unfold State.directiveReel State.carries
  cases dir.phase <;> simp

theorem findDirective_eq_none {s : State} {reel : ReelId} (absent : ∀ e ∈ s.shp.directives, ¬ s.carries e reel) :
    s.findDirective reel = none := by
  simpa [State.findDirective, List.findIdx?_eq_none_iff, directiveReel_eq_some_iff] using absent

section
variable {s : State} {reel : ReelId} {before after : List Directive} {dir : Directive}

theorem findDirective_first (queue : s.shp.directives = before ++ dir :: after) (carried : s.carries dir reel)
    (first : ∀ e ∈ before, ¬ s.carries e reel) : s.findDirective reel = some before.length := by
  have none : before.findIdx? (fun dir => s.directiveReel dir == some reel) = none := by
    simpa [List.findIdx?_eq_none_iff, directiveReel_eq_some_iff] using first
  simp [State.findDirective, queue, List.findIdx?_append, none, List.findIdx?_cons, (directiveReel_eq_some_iff ..).2 carried]

theorem getElem?_middle (queue : s.shp.directives = before ++ dir :: after) : s.shp.directives[before.length]? = some dir := by
  simp [queue]

theorem eraseIdx_middle (queue : s.shp.directives = before ++ dir :: after) :
    s.shp.directives.eraseIdx before.length = before ++ after := by
  simp [queue, List.eraseIdx_append]

/-- A directive is cancelled: its position is free again for a pass, then the notice and the plan (R170). -/
theorem leaveQueue_cancelled (queue : s.shp.directives = before ++ dir :: after) :
    let left : State :=
      { s with shp := { s.shp with directives := before ++ after, shelf := Shelf.freed s.shp.shelf dir.position } }
    s.leaveQueue before.length dir none .cancelled =
      ((if dir.position = none then left else left.assignmentPass).notify dir.source
        (.directive .cancelled dir (s.directiveReel dir))).planHead := by
  have held : (dir.position.isSome && (none : Option ReelId).isNone) = true ↔ ¬ dir.position = none := by
    simp [Option.isSome_iff_ne_none]
  simp only [State.leaveQueue, State.notifyDirective, State.modShp, vacate_freed, eraseIdx_middle queue, if_congr held rfl rfl,
    ite_not]

/-- A reel is shelved: its position becomes OCCUPIED, and no position is free for a pass (R170). -/
theorem leaveQueue_shelved (queue : s.shp.directives = before ++ dir :: after) {i : Fin 2048} (position : dir.position = some i) :
    s.leaveQueue before.length dir (some reel) .shelved =
      (({ s with shp := { s.shp with
          directives := before ++ after
          shelf := s.shp.shelf.set i.val { s.shp.shelf[i] with state := .occupied, occupant := some reel } } } : State).notify
        dir.source (.directive .shelved dir (s.directiveReel dir))).planHead := by
  simp only [State.leaveQueue, State.notifyDirective, State.modShp, vacate, position, eraseIdx_middle queue, Option.isNone_some,
    Bool.and_false, Bool.false_eq_true, if_false, Shelf.put]

end

/-- A deck's place in the plan waiting list is taken away (R171). -/
theorem unlistPlan_eq (s : State) (d : DeckId) : s.unlistPlan d =
    if d ∈ s.shp.waiting then
      ({ s with shp := { s.shp with waiting := s.shp.waiting.filter fun e => e ≠ d } } : State).setDeck d
        { s.deck d with ctx := { (s.deck d).ctx with planPending := false } }
    else s := by
  unfold State.unlistPlan
  simp only [ne_eq, decide_not, bne, State.modShp, modCtx_eq, State.modDeck]
  rfl

theorem cancelPlan_undirected {s : State} {d : DeckId} (undirected : (s.deck d).ctx.hasDirective = false) : s.cancelPlan d = s :=
  if_neg (by rw [undirected]; decide)

/-- The ON_DECK directive that a context names is cancelled (R171). -/
theorem cancelPlan_directed {s : State} {d : DeckId} {before after : List Directive} {dir : Directive}
    (directed : (s.deck d).ctx.hasDirective = true) (queue : s.shp.directives = before ++ dir :: after)
    (onDeck : dir.phase = .onDeck) (source : dir.source = d) (first : ∀ e ∈ before, ¬ (e.phase = .onDeck ∧ e.source = d)) :
    s.cancelPlan d = (s.leaveQueue before.length dir none .cancelled).modCtx d fun c => { c with hasDirective := false } := by
  have place : s.shp.directives.findIdx? (Directive.isOnDeck d) = some before.length := by
    rw [queue]; exact findIdx?_isOnDeck onDeck source first
  simp only [State.cancelPlan, directed, if_true, place, getElem?_middle queue]

/-! ### SHELVED and CANCEL_DIRECTIVE -/

/-- How SHELVED and CANCEL_DIRECTIVE look their directive up: RANGE without one, BAD_STATE while it is ON_DECK (R168, R169). -/
def State.serveDirective (s : State) (p : ControlParcel) (reel : ReelId) (serve : Nat → Directive → State) : State :=
  match if reel = 0 then none else s.findDirective reel with
  | none => s.refuse p .range
  | some i =>
    match s.shp.directives[i]? with
    | none => s.refuse p .range
    | some dir => if dir.phase = .onDeck then s.refuse p .badState else serve i dir

theorem serveDirective_absent {s : State} {reel : ReelId}
    (absent : reel = 0 ∨ ∀ e ∈ s.shp.directives, ¬ s.carries e reel) (p : ControlParcel) (serve : Nat → Directive → State) :
    s.serveDirective p reel serve = s.refuse p .range := by
  have unfound : (if reel = 0 then none else s.findDirective reel) = none := by
    rcases absent with zero | absent
    · exact if_pos zero
    · rw [findDirective_eq_none absent, ite_self]
  rw [State.serveDirective, unfound]

theorem serveDirective_first {s : State} {reel : ReelId} {before after : List Directive} {dir : Directive} (named : reel ≠ 0)
    (queue : s.shp.directives = before ++ dir :: after) (carried : s.carries dir reel) (first : ∀ e ∈ before, ¬ s.carries e reel)
    (p : ControlParcel) (serve : Nat → Directive → State) :
    s.serveDirective p reel serve =
      if dir.phase = .onDeck then s.refuse p .badState else serve before.length dir := by
  have found : (if reel = 0 then none else s.findDirective reel) = some before.length :=
    (if_neg named).trans (findDirective_first queue carried first)
  simp only [State.serveDirective, found, getElem?_middle queue]

section
variable {s : State} {deck tag : Byte} {reel : ReelId} {rest : List ControlParcel}

theorem exec_shelved (h : s.takeable ⟨deck, tag, 0x30, bytes32 reel⟩ rest) :
    let p : ControlParcel := ⟨deck, tag, 0x30, bytes32 reel⟩
    exec .shelved s = .next ((s.modAli fun a => a.afterTake rest).serveDirective p reel fun i dir =>
      if dir.position.isNone then s.refused p rest .noPosition
      else (s.answered p rest .ok .none).leaveQueue i dir (some reel) .shelved) := by
  intro p
  have field : BitVec.ofNat 32 (le32 p.body 0) = reel := le32_bytes32_zero reel []
  show execShelved s = _
  rw [execShelved, takeRequest_delivers h rfl rfl rfl, field, ← refuse_afterTake, ← replyOk_afterTake]
  rfl

theorem exec_cancelDirective (h : s.takeable ⟨deck, tag, 0x32, bytes32 reel⟩ rest) :
    let p : ControlParcel := ⟨deck, tag, 0x32, bytes32 reel⟩
    exec .cancelDirective s = .next ((s.modAli fun a => a.afterTake rest).serveDirective p reel fun i dir =>
      (s.answered p rest .ok .none).leaveQueue i dir none .cancelled) := by
  intro p
  have field : BitVec.ofNat 32 (le32 p.body 0) = reel := le32_bytes32_zero reel []
  show execCancelDirective s = _
  rw [execCancelDirective, takeRequest_delivers h rfl rfl rfl, field, ← replyOk_afterTake]
  rfl

end

/-- Settles O26: the look-up of the directive (serveDirective_absent, serveDirective_first) and its leave in one piece
(leaveQueue_shelved, leaveQueue_cancelled), which an abort makes too (cancelPlan_directed). -/
theorem directivesLeaveAsR168ToR170Say : Obligations.DirectivesLeaveAsR168ToR170Say := by
  intro s deck tag reel rest before after dir shelved cancel
  refine ⟨fun absent => ?_, fun named queue carried first => ?_, fun d => ?_⟩
  · have unserved := serveDirective_absent (s := s.modAli fun a => a.afterTake rest) absent
    refine ⟨fun h => ?_, fun h => ?_⟩
    · rw [exec_shelved h, unserved, refuse_afterTake]
    · rw [exec_cancelDirective h, unserved, refuse_afterTake]
  · have served := serveDirective_first (s := s.modAli fun a => a.afterTake rest) named queue carried first
    refine ⟨fun h => ?_, fun h => ?_⟩
    · rw [exec_shelved h, served, refuse_afterTake]
      refine congrArg _ (if_congr Iff.rfl rfl ?_)
      cases position : dir.position with
      | none => rfl
      | some i =>
        have reelOf : (s.answered shelved rest .ok .none).directiveReel dir = some reel :=
          (directiveReel_eq_some_iff ..).2 carried
        exact (leaveQueue_shelved (s := s.answered shelved rest .ok .none) queue position).trans (by rw [reelOf]; rfl)
    · have reelOf : (s.answered cancel rest .ok .none).directiveReel dir = some reel :=
        (directiveReel_eq_some_iff ..).2 carried
      rw [exec_cancelDirective h, served, refuse_afterTake]
      refine congrArg _ (if_congr Iff.rfl rfl ?_)
      exact (leaveQueue_cancelled (s := s.answered cancel rest .ok .none) queue).trans (by rw [reelOf]; rfl)
  · intro k unlisted
    refine ⟨fun undirected => ?_, fun directed queue onDeck source first => ?_⟩
    · rw [abortPlan_eq, cancelPlan_undirected undirected]
      exact unlistPlan_eq s d
    · intro left cancelled
      have reelOf : s.directiveReel dir = k.ctx.reel := by
        rw [State.directiveReel, onDeck, source]
      rw [abortPlan_eq, cancelPlan_directed directed queue onDeck source first, leaveQueue_cancelled queue, reelOf, source]
      exact unlistPlan_eq _ d

end Sys2Proof.Machine
end

section
namespace Sys2Proof.Machine

/-! ### What a pass gives -/

/-- Position p is FREE and of the class (R163). -/
def Shelf.offers (shelf : Shelf) (cls : Fin 8) (p : Fin 2048) : Prop := shelf[p].state = .free ∧ shelf[p].storageClass = cls

/-- The awaiting directive at place i of the queue has got position p. -/
def Takes (old new : List Directive) (i : Nat) (p : Fin 2048) : Prop :=
  ∃ x y, old[i]? = some x ∧ x.position = none ∧ new[i]? = some y ∧ y.position = some p

theorem takes_succ {x y : Directive} {old new : List Directive} {i : Nat} {p : Fin 2048} :
    Takes (x :: old) (y :: new) (i + 1) p ↔ Takes old new i p := Iff.rfl

theorem gains_eq_some {dir : Directive} {shelf : Shelf} {p : Fin 2048} (h : dir.gains shelf = some p) :
    dir.position = none ∧ shelf.offers dir.storageClass p ∧ ∀ q, q < p → ¬ shelf.offers dir.storageClass q := by
  unfold Directive.gains at h
  rw [Option.ite_none_right_eq_some, Option.isNone_iff_eq_none] at h
  obtain ⟨awaits, lowest⟩ := h
  have rule := lowestFreePosition_rule shelf dir.storageClass
  rw [lowest] at rule
  rcases rule with ⟨i, free, least, same⟩ | ⟨-, no⟩
  · cases same
    exact ⟨awaits, free, least⟩
  · cases no

theorem gains_eq_none {dir : Directive} {shelf : Shelf} (h : dir.gains shelf = none) (awaits : dir.position = none)
    (q : Fin 2048) : ¬ shelf.offers dir.storageClass q := by
  have rule := lowestFreePosition_rule shelf dir.storageClass
  rw [Directive.gains, awaits] at h
  rw [show lowestFreePosition dir.storageClass shelf = none from h] at rule
  rcases rule with ⟨i, -, -, no⟩ | ⟨none, -⟩
  · cases no
  · exact none q

theorem reserve_getElem (shelf : Shelf) (g : Option (Fin 2048)) (p : Fin 2048) :
    (Shelf.reserve shelf g)[p] = if g = some p then { shelf[p] with state := .reserved, occupant := none } else shelf[p] := by
  cases g with
  | none => rfl
  | some i =>
    simp only [Shelf.reserve, Fin.getElem_fin, Vector.getElem_set, Option.some.injEq, Fin.ext_iff]
    split
    · next same => simp only [same]
    · rfl

theorem offers_reserve {shelf : Shelf} {g : Option (Fin 2048)} {cls : Fin 8} {q : Fin 2048} :
    (Shelf.reserve shelf g).offers cls q ↔ shelf.offers cls q ∧ g ≠ some q := by
  unfold Shelf.offers
  rw [reserve_getElem]
  split
  · next taken => simp [taken]
  · next free => simp [free]

/-- The directive after the pass has come to it, given what it gains (R163). -/
def Directive.given (dir : Directive) (g : Option (Fin 2048)) : Directive := { dir with position := dir.position.or g }

/-- A pass takes one directive after another (R163). -/
theorem assign_cons (dir : Directive) (rest : List Directive) (shelf : Shelf) :
    let g := dir.gains shelf
    let a := assign rest (Shelf.reserve shelf g)
    assign (dir :: rest) shelf =
      ⟨dir.given g :: a.directives, a.shelf, if g = none then a.gained else dir.given g :: a.gained⟩ := by
  intro g a
  cases h : dir.gains shelf with
  | none =>
    have kept : dir.given g = dir := by simp [g, h, Directive.given]
    have same : a = assign rest shelf := by simp only [a, g, h, Shelf.reserve]
    rw [kept, if_pos h, same, assign, h]
  | some p =>
    have taken : dir.given g = { dir with position := some p } := by
      simp [g, h, Directive.given, (gains_eq_some h).1]
    have same : a = assign rest (Shelf.put shelf p .reserved none) := by simp only [a, g, h, Shelf.reserve]; rfl
    rw [taken, if_neg (by simp [g, h]), same, assign, h]

theorem takes_zero {dir : Directive} {shelf : Shelf} {old new : List Directive} {p : Fin 2048} :
    Takes (dir :: old) (dir.given (dir.gains shelf) :: new) 0 p ↔ dir.gains shelf = some p := by
  simp only [Takes, List.getElem?_cons_zero, Option.some.injEq, exists_and_left, existsAndEq, true_and, Directive.given]
  constructor
  · rintro ⟨awaits, gained⟩
    simpa [awaits] using gained
  · intro gained
    obtain ⟨awaits, -⟩ := gains_eq_some gained
    simp [awaits, gained]

/-- What a pass over a queue makes of it and of the map (R163). -/
structure Assigns (old : List Directive) (shelf : Shelf) (a : Assignment) : Prop where
  length : a.directives.length = old.length
  entry : ∀ (i : Nat) x, old[i]? = some x → ∃ y, a.directives[i]? = some y ∧ { y with position := x.position } = x
    ∧ (x.position ≠ none → y = x)
    ∧ (∀ p, Takes old a.directives i p → shelf.offers x.storageClass p
      ∧ ∀ q, q < p → shelf.offers x.storageClass q → ∃ j, j < i ∧ Takes old a.directives j q)
    ∧ (y.position = none → ∀ q, shelf.offers x.storageClass q → ∃ j, j < i ∧ Takes old a.directives j q)
  once : ∀ i j p, Takes old a.directives i p → Takes old a.directives j p → i = j
  map : ∀ p : Fin 2048, a.shelf[p] = shelf[p] ∧ (∀ i, ¬ Takes old a.directives i p)
    ∨ (∃ i, Takes old a.directives i p) ∧ a.shelf[p] = { shelf[p] with state := .reserved, occupant := none }
  gained : a.gained = (old.zip a.directives).filterMap fun x =>
    if x.1.position = none ∧ x.2.position ≠ none then some x.2 else none

theorem Assigns.takes_offered {old : List Directive} {shelf : Shelf} {a : Assignment} (h : Assigns old shelf a) {i : Nat}
    {p : Fin 2048} (taken : Takes old a.directives i p) : ∃ cls, shelf.offers cls p := by
  have ⟨x, _, place, _⟩ := taken
  obtain ⟨_, -, -, -, served, -⟩ := h.entry i x place
  exact ⟨_, (served p taken).1⟩

theorem assigns_nil (shelf : Shelf) : Assigns [] shelf ⟨[], shelf, []⟩ where
  length := rfl
  entry _ _ h := by simp at h
  once _ _ _ h := by obtain ⟨_, _, h, -⟩ := h; simp at h
  map p := .inl ⟨rfl, fun _ ⟨_, _, h, _⟩ => by simp at h⟩
  gained := rfl

/-- The first directive takes what it gains, and what it leaves FREE is offered to the later ones (R163). -/
theorem assigns_cons {dir : Directive} {rest : List Directive} {shelf : Shelf} {a : Assignment}
    (later : Assigns rest (Shelf.reserve shelf (dir.gains shelf)) a) :
    Assigns (dir :: rest) shelf ⟨dir.given (dir.gains shelf) :: a.directives, a.shelf,
      if dir.gains shelf = none then a.gained else dir.given (dir.gains shelf) :: a.gained⟩ := by
  have earlier {i : Nat} {cls : Fin 8} {q : Fin 2048} (free : shelf.offers cls q)
      (ih : (Shelf.reserve shelf (dir.gains shelf)).offers cls q → ∃ j, j < i ∧ Takes rest a.directives j q) :
      ∃ j, j < i + 1 ∧ Takes (dir :: rest) (dir.given (dir.gains shelf) :: a.directives) j q := by
    by_cases first : dir.gains shelf = some q
    · exact ⟨0, Nat.succ_pos i, takes_zero.2 first⟩
    · obtain ⟨j, before, taken⟩ := ih (offers_reserve.2 ⟨free, first⟩)
      exact ⟨j + 1, Nat.succ_lt_succ before, takes_succ.2 taken⟩
  have apart {i : Nat} {p : Fin 2048} (first : dir.gains shelf = some p) : ¬ Takes rest a.directives i p := fun taken =>
    have ⟨_, free⟩ := later.takes_offered taken
    (offers_reserve.1 free).2 first
  constructor
  case length => exact congrArg (· + 1) later.length
  case entry =>
    rintro (_ | i) x place
    · obtain rfl : dir = x := by simpa using place
      refine ⟨_, rfl, rfl, fun has => ?_, fun p taken => ?_, fun without q free => absurd free ?_⟩
      · cases position : dir.position with
        | none => exact absurd position has
        | some p =>
          have kept : dir.position.or (dir.gains shelf) = dir.position := by rw [position, Option.some_or]
          rw [Directive.given, kept]
      · obtain ⟨-, free, least⟩ := gains_eq_some (takes_zero.1 taken)
        exact ⟨free, fun q below other => absurd other (least q below)⟩
      · obtain ⟨awaits, none⟩ := Option.or_eq_none_iff.1 without
        exact gains_eq_none none awaits q
    · obtain ⟨y, found, fields, kept, served, left⟩ := later.entry i x place
      refine ⟨y, found, fields, kept, fun p taken => ?_, fun without q free => earlier free (left without q)⟩
      obtain ⟨free, least⟩ := served p taken
      exact ⟨(offers_reserve.1 free).1, fun q below other => earlier other (least q below)⟩
  case once =>
    rintro (_ | i) (_ | j) p first second
    · rfl
    · exact absurd second (apart (takes_zero.1 first))
    · exact absurd first (apart (takes_zero.1 second))
    · exact congrArg (· + 1) (later.once i j p first second)
  case map =>
    intro p
    have position := reserve_getElem shelf (dir.gains shelf) p
    by_cases first : dir.gains shelf = some p
    · rw [if_pos first] at position
      refine .inr ⟨⟨0, takes_zero.2 first⟩, ?_⟩
      rcases later.map p with ⟨same, -⟩ | ⟨⟨i, taken⟩, -⟩
      · exact same.trans position
      · exact absurd taken (apart first)
    · rw [if_neg first] at position
      rcases later.map p with ⟨same, free⟩ | ⟨⟨i, taken⟩, reserved⟩
      · refine .inl ⟨same.trans position, ?_⟩
        rintro (_ | i) taken
        · exact first (takes_zero.1 taken)
        · exact free i taken
      · exact .inr ⟨⟨i + 1, taken⟩, reserved.trans (by rw [position])⟩
  case gained =>
    have gains : (dir.position = none ∧ (dir.given (dir.gains shelf)).position ≠ none) ↔ dir.gains shelf ≠ none := by
      constructor
      · rintro ⟨awaits, has⟩
        simpa [Directive.given, awaits] using has
      · intro has
        obtain ⟨p, gained⟩ := Option.ne_none_iff_exists'.1 has
        obtain ⟨awaits, -⟩ := gains_eq_some gained
        exact ⟨awaits, by simp [Directive.given, gained]⟩
    simp only [List.zip_cons_cons, List.filterMap_cons, gains]
    by_cases none : dir.gains shelf = none
    · simp [none, later.gained]
    · simp [none, later.gained]

theorem assign_assigns (ds : List Directive) (shelf : Shelf) : Assigns ds shelf (assign ds shelf) := by
  induction ds generalizing shelf with
  | nil => exact assigns_nil shelf
  | cons dir rest ih =>
    rw [assign_cons]
    exact assigns_cons (ih _)

/-! ### The notices of a pass -/

theorem directiveReel_eq (s : State) (dir : Directive) :
    s.directiveReel dir = if dir.phase = .onDeck then (s.deck dir.source).ctx.reel else dir.reel := by
  unfold State.directiveReel
  cases dir.phase <;> rfl

/-- A POSITIONED notice for each directive, with the reel that the directive has in s (R163, R166). -/
def State.tellPositioned (s u : State) (gained : List Directive) : State :=
  gained.foldl (fun u dir => u.notify dir.source (.directive .positioned dir
    (if dir.phase = .onDeck then (s.deck dir.source).ctx.reel else dir.reel))) u

/-- A notice leaves the decks as they are, so every reel is the one from before the pass. -/
theorem tellPositioned_eq_foldl (s u : State) (gained : List Directive) (decks : ∀ d, u.deck d = s.deck d) :
    gained.foldl (fun u dir => u.notifyDirective .positioned dir (u.directiveReel dir)) u = s.tellPositioned u gained := by
  induction gained generalizing u with
  | nil => rfl
  | cons dir rest ih =>
    have told : u.notifyDirective .positioned dir (u.directiveReel dir) = u.notify dir.source (.directive .positioned dir
        (if dir.phase = .onDeck then (s.deck dir.source).ctx.reel else dir.reel)) := by
      rw [State.notifyDirective, directiveReel_eq, decks]
    rw [List.foldl_cons, told]
    exact ih _ fun d => by rw [deck_notify, decks]

theorem tellPositioned_interface (s u : State) (gained : List Directive) :
    ∃ a, s.tellPositioned u gained = { u with ali := a } ∧ u.ali.sameButNotices a := by
  induction gained generalizing u with
  | nil => exact ⟨u.ali, rfl, rfl⟩
  | cons dir rest ih =>
    obtain ⟨a, told, same⟩ := ih (u.notify dir.source (.directive .positioned dir
      (if dir.phase = .onDeck then (s.deck dir.source).ctx.reel else dir.reel)))
    refine ⟨a, told.trans ?_, sameButNotices_trans (sameButNotices_notify ..) same⟩
    rw [notify_eq]

/-- A pass in one piece: the queue and the map as `assign` gives them, then the notices (R163). -/
theorem assignmentPass_eq (s : State) : s.assignmentPass =
    s.tellPositioned { s with shp := s.assignmentPass.shp } (assign s.shp.directives s.shp.shelf).gained := by
  rw [shp_assignmentPass]
  exact tellPositioned_eq_foldl s _ _ fun _ => rfl

/-- Settles O25: what the pass gives to the queue and the map is by induction on the queue (assign_assigns), and its notices change the
interface alone (tellPositioned_interface). -/
theorem assignmentPassFollowsR163 : Obligations.AssignmentPassFollowsR163 := by
  intro s t old takes free gained reelOf
  have rule := assign_assigns s.shp.directives s.shp.shelf
  have planner : t.shp = { s.shp with
      directives := (assign s.shp.directives s.shp.shelf).directives, shelf := (assign s.shp.directives s.shp.shelf).shelf } :=
    shp_assignmentPass s
  have directives : (assign s.shp.directives s.shp.shelf).directives = t.shp.directives := by rw [planner]
  have shelf : (assign s.shp.directives s.shp.shelf).shelf = t.shp.shelf := by rw [planner]
  have pass := assignmentPass_eq s
  obtain ⟨length, entry, once, map, gains⟩ := rule
  rw [gains, directives] at pass
  rw [directives] at length entry once map
  rw [shelf] at map
  obtain ⟨a, told, same⟩ := tellPositioned_interface s { s with shp := t.shp } gained
  have interface : t = { s with shp := t.shp, ali := a } := pass.trans told
  have ali : t.ali = a := by rw [interface]
  refine ⟨length, entry, once, map, by rw [planner], by rw [planner], pass, by rw [interface], ?_⟩
  rw [ali]
  exact same

end Sys2Proof.Machine
end

section
namespace Sys2Proof.Machine

/-! ### The planner's read requests -/

/-- The only directive that names a position is the one the readout finds (R161). -/
theorem find?_position {directives : List Directive} {dir : Directive} {i : Fin 2048} (queued : dir ∈ directives)
    (place : dir.position = some i) (only : ∀ e ∈ directives, e.position = some i → e = dir) :
    (directives.find? fun e => e.position.map Fin.val == some i.val) = some dir := by
  have names : (fun e : Directive => e.position.map Fin.val == some i.val) = fun e => decide (e.position = some i) := by
    funext e
    rw [Bool.eq_iff_iff]
    cases e.position <;> simp [Fin.ext_iff]
  rw [names]
  cases found : directives.find? fun e => decide (e.position = some i) with
  | none => exact absurd place (by simpa using List.find?_eq_none.1 found dir queued)
  | some e => rw [only e (List.mem_of_find?_eq_some found) (by simpa using List.find?_some found)]

section
variable (s : State) (i : Fin 2048)

theorem shelfEntry_position :
    (s.shelfEntry i).storageClass = s.shp.shelf[i].storageClass ∧ (s.shelfEntry i).state = s.shp.shelf[i].state := by
  simp only [State.shelfEntry, Fin.getElem_fin, Vector.getElem?_eq_getElem i.isLt, and_self]

variable {s i}

theorem shelfEntry_occupied (h : s.shp.shelf[i].state = .occupied) : (s.shelfEntry i).reel = s.shp.shelf[i].occupant := by
  simp only [Fin.getElem_fin] at h
  simp only [State.shelfEntry, Fin.getElem_fin, Vector.getElem?_eq_getElem i.isLt, h]

theorem shelfEntry_empty (h : s.shp.shelf[i].state = .free ∨ s.shp.shelf[i].state = .unavailable) : (s.shelfEntry i).reel = none := by
  simp only [Fin.getElem_fin] at h
  rcases h with h | h <;> simp only [State.shelfEntry, Vector.getElem?_eq_getElem i.isLt, h]

theorem shelfEntry_reserved {dir : Directive} (queued : dir ∈ s.shp.directives) (place : dir.position = some i)
    (only : ∀ e ∈ s.shp.directives, e.position = some i → e = dir) (h : s.shp.shelf[i].state = .reserved) :
    (s.shelfEntry i).reel = s.directiveReel dir := by
  simp only [Fin.getElem_fin] at h
  simp only [State.shelfEntry, Vector.getElem?_eq_getElem i.isLt, h, find?_position queued place only, Option.bind_some]

end

/-- Settles O23: the entries by the state of their position (the shelfEntry lemmas), and the queue's readouts in its order. -/
theorem plannerReadsFollowR161AndR172 : Obligations.PlannerReadsFollowR161AndR172 := by
  intro s deck tag rest reelOf
  have reels : s.directiveReel = reelOf := funext (directiveReel_eq s)
  refine ⟨fun page => ?_, ?_⟩ <;> intro p h
  · have field : byteAt p.body 0 = page.toNat := rfl
    have run : exec .readShelf s = .next (if 32 ≤ page.toNat then s.refused p rest .range
        else s.answeredWith p rest ((List.range 4).map fun q => (noDeck, s.shelfReadout (64 * page.toNat + 16 * q)))) := by
      show execReadShelf s = _
      rw [execReadShelf, takeRequest_delivers h rfl rfl rfl, field]
      exact congrArg _ (if_congr Iff.rfl (refuse_afterTake ..) (replyReadouts_afterTake ..))
    refine ⟨fun high => by rw [run, if_pos (show 32 ≤ page.toNat from high)], fun low => ⟨s.shelfEntry, ?_, fun i => ?_⟩⟩
    · rw [run, if_neg (by omega)]
      rfl
    · rw [← reels]
      obtain ⟨cls, state⟩ := shelfEntry_position s i
      exact ⟨cls, state, shelfEntry_occupied, shelfEntry_empty, fun dir queued place only => shelfEntry_reserved queued place only⟩
  · show execReadQueue s = _
    rw [execReadQueue, takeRequest_delivers h rfl rfl rfl, replyReadouts_afterTake, ← reels]
    rfl

end Sys2Proof.Machine
end

section
namespace Sys2Proof.Machine

/-! ### LOAD_SHELF and RELEASE_POSITION -/

/-- The numbers of a page among those of the map. -/
theorem filter_range_page {page : Nat} (low : page ≤ 31) :
    (List.range 2048).filter (fun i => i / 64 = page) = (List.range 64).map fun k => 64 * page + k := by
  have rising : ((List.range 64).map fun k => 64 * page + k).Pairwise (· < ·) :=
    List.pairwise_map.2 (List.pairwise_lt_range.imp fun h => Nat.add_lt_add_left h _)
  refine (List.pairwise_lt_range.filter _).eq_of_mem_iff rising fun i => ?_
  simp only [List.mem_filter, List.mem_range, decide_eq_true_eq, List.mem_map]
  constructor
  · rintro ⟨-, same⟩
    exact ⟨i % 64, Nat.mod_lt _ (by decide), by omega⟩
  · rintro ⟨k, inPage, rfl⟩
    omega

theorem skipped_iff (x : ShelfPosition) : x.skipped = true ↔ x.state = .reserved ∨ x.state = .occupied := by
  simp [ShelfPosition.skipped]

/-- The positions that a page load skips, counted over the whole map (R159). -/
theorem skippedCount_eq (shelf : Shelf) {page : Nat} (low : page ≤ 31) :
    skippedCount shelf page = (List.finRange 2048).countP fun i : Fin 2048 =>
      i.val / 64 = page ∧ (shelf[i].state = PositionState.reserved ∨ shelf[i].state = PositionState.occupied) := by
  have test : (fun i : Fin 2048 => decide
        (i.val / 64 = page ∧ (shelf[i].state = PositionState.reserved ∨ shelf[i].state = PositionState.occupied)))
      = (fun n => (shelf[n]?.map ShelfPosition.skipped).getD false && decide (n / 64 = page)) ∘ Fin.val := by
    funext i
    simp [Bool.and_comm, ← skipped_iff]
  rw [test, ← List.countP_map, List.map_coe_finRange_eq_range, ← List.countP_filter, filter_range_page low, List.countP_map]
  rfl

section
variable {deck tag page : Byte} {entries : Vector Byte 64}

/-- The body of LOAD_SHELF (section 10.3). -/
abbrev shelfBody (page : Byte) (entries : Vector Byte 64) : List Byte := [page, 0] ++ entries.toList

theorem byteAt_shelfBody (k : Nat) (room : k < 64) : byteAt (shelfBody page entries) (2 + k) = entries[k].toNat := by
  rw [Nat.add_comm]
  simp [byteAt, room]

/-- The reserved bits of an entry are bits 3 to 6 (section 10.3). -/
theorem reservedBits_of_mask (b : Byte) (clear : b &&& 0x78 = 0) : b.toNat / 8 % 16 = 0 := by
  revert b
  decide

theorem takeChecks_loadShelf (clear : ∀ k : Fin 64, entries[k] &&& 0x78 = 0) :
    takeChecks ⟨false, 66, fun b => zeroAt [1] b && (List.range 64).all fun i => byteAt b (2 + i) / 8 % 16 == 0⟩
      ⟨deck, tag, 0x16, shelfBody page entries⟩ = none := by
  have zero : zeroAt [1] (shelfBody page entries) = true := rfl
  have bits : ((List.range 64).all fun i => byteAt (shelfBody page entries) (2 + i) / 8 % 16 == 0) = true := by
    refine List.all_eq_true.2 fun k inPage => beq_iff_eq.2 ?_
    have room : k < 64 := List.mem_range.1 inPage
    rw [byteAt_shelfBody k room]
    exact reservedBits_of_mask _ (clear ⟨k, room⟩)
  exact takeChecks_noDeck rfl (by simp) (by simp only [zero, bits, Bool.and_self])

theorem exec_loadShelf {s : State} {rest : List ControlParcel} (clear : ∀ k : Fin 64, entries[k] &&& 0x78 = 0) :
    let p : ControlParcel := ⟨deck, tag, 0x16, shelfBody page entries⟩
    s.takeable p rest → exec .loadShelf s = .next (if 32 ≤ page.toNat then s.refused p rest .range
      else { s.answered p rest .ok (.skipped (skippedCount s.shp.shelf page.toNat)) with
        shp := { s.shp with shelf := loadPage s.shp.shelf page.toNat p.body } }.assignmentPass) := by
  intro p h
  have field : byteAt p.body 0 = page.toNat := rfl
  show execLoadShelf s = _
  rw [execLoadShelf, takeRequest_delivers h rfl rfl (takeChecks_loadShelf clear), field]
  refine congrArg _ (if_congr Iff.rfl (refuse_afterTake ..) ?_)
  rw [reply_afterTake]
  rfl

end

theorem load_skipped {x : ShelfPosition} (held : x.state = .reserved ∨ x.state = .occupied) (entry : Fin 8 × PositionState) :
    x.load entry = x := by
  rcases held with held | held <;> simp only [ShelfPosition.load, held]

theorem load_written {x : ShelfPosition} (loads : ¬ (x.state = .reserved ∨ x.state = .occupied)) (entry : Fin 8 × PositionState) :
    x.load entry = { x with storageClass := entry.1, state := entry.2 } := by
  unfold ShelfPosition.load
  cases state : x.state with
  | unavailable | free => rfl
  | reserved => exact absurd (.inl state) loads
  | occupied => exact absurd (.inr state) loads

theorem loadPage_kept {shelf : Shelf} {page : Nat} {i : Fin 2048}
    (kept : i.val / 64 ≠ page ∨ shelf[i].state = .reserved ∨ shelf[i].state = .occupied) (body : List Byte) :
    (loadPage shelf page body)[i] = shelf[i] := by
  simp only [loadPage, Fin.getElem_fin, Vector.getElem_ofFn]
  rcases kept with outside | held
  · exact if_neg outside
  · split
    · exact load_skipped held _
    · rfl

theorem loadPage_written {shelf : Shelf} {page : Nat} {i : Fin 2048} {k : Nat} (room : k < 64) (place : i.val = 64 * page + k)
    (loads : ¬ (shelf[i].state = .reserved ∨ shelf[i].state = .occupied)) (body : List Byte) :
    (loadPage shelf page body)[i] =
      { shelf[i] with storageClass := (readShelfEntry body k).1, state := (readShelfEntry body k).2 } := by
  have inPage : i.val / Config.pageSize = page := by simp only [Config.pageSize]; omega
  have inside : i.val % Config.pageSize = k := by simp only [Config.pageSize]; omega
  simp only [loadPage, Fin.getElem_fin, Vector.getElem_ofFn, inPage, if_true, inside]
  exact load_written loads _

/-- Settles O24: the skipped positions counted over the map (skippedCount_eq) and each position of the page by its state (loadPage_kept,
loadPage_written). -/
theorem shelfRequestsFollowR159AndR160 : Obligations.ShelfRequestsFollowR159AndR160 := by
  intro s deck tag rest
  refine ⟨fun page entries => ?_, fun position => ?_⟩
  · intro p held h clear
    refine ⟨fun high => ?_, fun low => ⟨loadPage s.shp.shelf page.toNat p.body, ?_, fun i kept => loadPage_kept kept _, ?_⟩⟩
    · rw [exec_loadShelf clear h, if_pos (show 32 ≤ page.toNat from high)]
    · rw [exec_loadShelf clear h, if_neg (by omega), skippedCount_eq _ low]
    · intro i k place written
      have position := loadPage_written k.isLt place written p.body
      have entry : byteAt p.body (2 + k) = entries[k].toNat := byteAt_shelfBody k.val k.isLt
      rw [position]
      refine ⟨?_, ?_, rfl⟩
      · simp only [readShelfEntry, entry]
      · simp only [readShelfEntry, entry, BitVec.msb_eq_decide, decide_eq_true_eq]
  · intro p h
    have field : le16 p.body 0 = position.toNat := le16_bytes16 position [0, 0]
    show execReleasePosition s = _
    rw [execReleasePosition, takeRequest_delivers h rfl rfl rfl, field]
    refine congrArg _ ?_
    by_cases high : 2047 < position.toNat
    · rw [asIndex_of_le high, dif_pos high]
      exact refuse_afterTake s p rest .range
    · rw [asIndex_of_lt (show position.toNat < 2048 by omega), dif_neg high, replyOk_afterTake]
      exact if_congr Iff.rfl (refuse_afterTake s p rest .badState) rfl

end Sys2Proof.Machine
end

section
namespace Sys2Proof.Machine

/-! ### The rows of the request table -/

/-- The row of a request that names no deck is the take of its code (R178, section 10.3). -/
theorem exec_partRow {c : Instr} {code : Byte} {length : Nat} (h : requestRow c = some (code, length, false)) :
    ∃ deliver, ∀ s, exec c s = takeRequest code deliver s := by
  cases c <;> cases h <;> exact ⟨_, fun s => by simp only [exec]; rfl⟩

/-- The row of a deck-scoped request is the deck-scoped take of its code (R178, section 10.3). -/
theorem exec_deckRow {c : Instr} {code : Byte} {length : Nat} (h : requestRow c = some (code, length, true)) :
    ∃ deliver, ∀ s, exec c s = takeDeckRequest code deliver s := by
  cases c <;> cases h <;> exact ⟨_, fun s => by simp only [exec]; rfl⟩

theorem exec_requestRow_waits {c : Instr} {code : Byte} {length : Nat} {deckScoped : Bool} {s : State}
    (row : requestRow c = some (code, length, deckScoped)) (h : ∀ p rest, s.takeable p rest → p.code ≠ code) :
    exec c s = .next s := by
  cases deckScoped with
  | false =>
    obtain ⟨deliver, take⟩ := exec_partRow row
    rw [take]
    exact takeRequest_waits h
  | true =>
    obtain ⟨deliver, take⟩ := exec_deckRow row
    rw [take]
    exact takeRequest_waits h

/-- The code of a request row names a request (R179, section 10.3). -/
theorem requestForm_of_requestRow {c : Instr} {row : Byte × Nat × Bool} (h : requestRow c = some row) :
    (requestForm row.1).isSome = true := by
  cases c <;> cases h <;> rfl

theorem takeable_of_canTake {s : State} {p : ControlParcel} {rest : List ControlParcel} (input : s.ali.input = p :: rest)
    (can : s.ali.canTake = true) : s.takeable p rest := by
  obtain ⟨room, noReadouts⟩ := Bool.and_eq_true_iff.1 can
  exact ⟨input, of_decide_eq_true room, List.isEmpty_iff.1 noReadouts⟩

/-- UNKNOWN_REQUEST waits while the head cannot be taken, and while its code names a request (R178, R179; log 2, log 3). -/
theorem exec_unknownRequest_waits {s : State} (h : ∀ p rest, s.takeable p rest → (requestForm p.code).isSome = true) :
    exec .unknownRequest s = .next s := by
  show execUnknownRequest s = _
  unfold execUnknownRequest
  split
  · rfl
  · next p rest input =>
    refine if_neg fun ⟨unknown, can⟩ => ?_
    have known := h p rest (takeable_of_canTake input can)
    rw [Option.isNone_iff_eq_none.1 unknown] at known
    cases known

/-- Settles O4: every request row is one take (exec_partRow, exec_deckRow), which waits when its parcel is not there to be taken. -/
theorem takesWait : Obligations.TakesWait := by
  intro s
  refine ⟨fun c code length deckScoped row => exec_requestRow_waits row, fun known => ?_⟩
  refine exec_unknownRequest_waits fun p rest head => ?_
  obtain ⟨c, row, hrow, code⟩ := known p rest head
  rw [code]
  exact requestForm_of_requestRow hrow

end Sys2Proof.Machine
end

section
namespace Sys2Proof.Machine

/-! ### What a reset leaves -/

/-- A deck as power-on reset leaves it, with what has arrived on its lane, has the values of R27, R34, R71, R72, R81 and R128. -/
theorem deckReset_initial (levels : Sensors) (lane : LaneState) (intake : List Byte) :
    DeckReset { deckInitial levels lane with intake := intake } levels lane intake where
  sensors := rfl
  outstanding := rfl
  waiting := rfl
  motion := rfl
  timeout := rfl
  mask := rfl
  state := by simp only [deckInitial, contextInitial, contextCleared, Bool.and_eq_true]
  context := rfl
  mirrors := ⟨rfl, rfl⟩
  lane := ⟨rfl, rfl⟩
  registration := ⟨rfl, rfl⟩
  slots := slots_initial
  records := rfl
  fate := rfl
  flow := rfl
  table := rfl
  map := rfl

theorem getElem_curveInitial (k : Fin 33) : curveInitial[k].toNat = min (k.val * 2048) 65535 := by
  have fits : min (k.val * 2048) 65535 < 2 ^ 16 := by omega
  simp only [curveInitial, Fin.getElem_fin, Vector.getElem_ofFn, BitVec.toNat_ofNat, Nat.mod_eq_of_lt fits]

/-- The values that both resets give the shared tables and queues. -/
theorem enginesReset_initial {t : State} (profiles : t.profiles = Vector.replicate 8 none) (dan : t.dan = danInitial)
    (rpe : t.rpe = rpeInitial) (gre : t.gre = greInitial) (shp : t.shp = shpInitial) : EnginesReset t where
  profiles i := by rw [profiles]; exact Vector.getElem_replicate ..
  analysis := by rw [dan]; exact ⟨rfl, rfl⟩
  comparators i := by rw [dan]; exact Vector.getElem_replicate ..
  repair := by rw [rpe]; exact ⟨rfl, rfl⟩
  rules i := by rw [rpe]; exact Vector.getElem_replicate ..
  grades i := by rw [gre]; exact Vector.getElem_replicate ..
  curves i k := by
    have curve : greInitial.curves[i] = curveInitial := Vector.getElem_replicate ..
    rw [gre, curve]
    exact getElem_curveInitial k
  snapshot := by rw [gre]; rfl
  policies i := by rw [shp]; exact Vector.getElem_replicate ..
  shelf i := by rw [shp]; exact Vector.getElem_replicate ..
  directives := by rw [shp]; exact ⟨rfl, rfl⟩

theorem deck_softReset (s : State) (p : ControlParcel) (d : DeckId) : (s.softReset p).deck d = (s.deck d).softReset := by
  simp only [State.softReset, State.deck, Fin.getElem_fin, Vector.getElem_map]

theorem deck_powerOn (s : State) (pins : ResetPins) (d : DeckId) :
    (s.powerOn pins).deck d = deckInitial pins.sensors[d] (laneInitial pins.laneSignal[d]) := by
  simp only [State.powerOn, State.deck, Fin.getElem_fin, Vector.getElem_ofFn]

/-- The interface after the take of SOFT_RESET and its effect: the answered take with an emptied queue that holds the reply (R192). -/
theorem ali_softReset_afterTake (s : State) (p : ControlParcel) (rest : List ControlParcel) :
    (s.ali.afterTake rest).softReset p = { s.ali.answered p rest .ok .none with
      queue := [.reply ⟨p.deck, p.tag, p.code, .ok, .none⟩], dropFlag := false, readouts := [], emission := none
      aborted := none, lastGranted := 3 } := by
  have replied : ((s.modAli fun a => a.afterTake rest).reply p .ok .none).ali = s.ali.answered p rest .ok .none :=
    congrArg State.ali (reply_afterTake s p rest .ok .none)
  rw [← replied]
  rfl

/-- Settles O28: the take delivers the request, and what it leaves of the decks, the engines and the interface. -/
theorem softResetFollowsR192 : Obligations.SoftResetFollowsR192 := by
  intro s deck tag rest p h
  have taken : exec .softReset s = .next ((s.modAli fun a => a.afterTake rest).softReset p) := by
    show execSoftReset s = _
    exact takeRequest_delivers h rfl rfl rfl
  refine ⟨_, taken, fun d => ?_, enginesReset_initial rfl rfl rfl rfl rfl, ali_softReset_afterTake s p rest, rfl⟩
  rw [deck_softReset, deck_modAli]
  exact deckReset_initial ..

/-- Settles O29: the values of a reset in every deck and engine, with the levels and signals found. -/
theorem powerOnResetFollowsR193 : Obligations.PowerOnResetFollowsR193 := by
  intro s pins
  refine ⟨_, rfl, fun d => ?_, enginesReset_initial rfl rfl rfl rfl rfl, rfl, rfl⟩
  rw [deck_powerOn]
  exact deckReset_initial ..

end Sys2Proof.Machine
end

section
namespace Sys2Proof.Machine

/-! ### The hunt for a sync word -/

/-- The hunt of a stream may begin again where it stood when its next bytes arrive. -/
theorem hunt_append (x y : Byte) (bytes more : List Byte) : hunt x y (hunt x y bytes ++ more) = hunt x y (bytes ++ more) := by
  induction bytes with
  | nil => rfl
  | cons a rest ih =>
    rcases rest with - | ⟨b, rest⟩
    · by_cases first : a = x
      · rw [hunt, if_pos first]
      · rw [hunt, if_neg first]
        rcases more with - | ⟨b, more⟩
        · exact (if_neg first).symm
        · exact (if_neg fun sync => first sync.1).symm
    · by_cases sync : a = x ∧ b = y
      · rw [hunt, if_pos sync]
      · have skipped (tail : List Byte) : hunt x y (a :: b :: tail) = hunt x y (b :: tail) := if_neg sync
        rw [skipped, ih]
        exact (skipped (rest ++ more)).symm

/-- A hunt that has found a sync word stands at it, whatever arrives behind. -/
theorem hunt_found {x y : Byte} {bytes : List Byte} (found : 2 ≤ (hunt x y bytes).length) (more : List Byte) :
    hunt x y (bytes ++ more) = hunt x y bytes ++ more := by
  induction bytes with
  | nil => exact absurd found (by simp [hunt])
  | cons a rest ih =>
    rcases rest with - | ⟨b, rest⟩
    · rw [hunt] at found
      split at found <;> simp at found
    · by_cases sync : a = x ∧ b = y
      · rw [hunt, if_pos sync]
        exact if_pos sync
      · have skipped (tail : List Byte) : hunt x y (a :: b :: tail) = hunt x y (b :: tail) := if_neg sync
        rw [skipped] at found ⊢
        rw [← ih found]
        exact skipped (rest ++ more)

/-! ### The head of the stream -/

/-- How many bytes the head of a stream takes; absent when it waits for more. -/
def Framed.consumed : Framed → Option Nat
  | .more => none
  | .discard _ n => some n
  | .parcel _ n => some n

/-- What the head of a stream does to the part, beside taking its bytes (R174, R177, R195). -/
def Framed.effect : Framed → State → State
  | .more, s => s
  | .discard cause _, s => s.linkError cause
  | .parcel p _, s => s.offer p

theorem getD_append {bytes : List Byte} {i : Nat} (h : i < bytes.length) (more : List Byte) :
    (bytes ++ more).getD i 0 = bytes.getD i 0 := by
  simp only [List.getD_eq_getElem?_getD, List.getElem?_append_left h]

theorem le16_append {bytes : List Byte} {i : Nat} (h : i + 2 ≤ bytes.length) (more : List Byte) :
    le16 (bytes ++ more) i = le16 bytes i := by
  simp only [le16, byteAt, getD_append (show i < bytes.length by omega), getD_append (show i + 1 < bytes.length by omega)]

theorem payloadLength_append {rx : List Byte} (h : 10 ≤ rx.length) (more : List Byte) :
    payloadLength (rx ++ more) = payloadLength rx := by
  simp only [payloadLength, le32, le16_append (show 6 + 2 ≤ rx.length by omega), le16_append (show 6 + 2 + 2 ≤ rx.length by omega)]

theorem parcelCrc_append {rx : List Byte} (h : 10 + payloadLength rx ≤ rx.length) (more : List Byte) :
    parcelCrc (rx ++ more) = parcelCrc rx := by
  have inside : 8 + payloadLength rx ≤ (rx.drop 2).length := by rw [List.length_drop]; omega
  rw [parcelCrc, payloadLength_append (by omega), List.drop_append_of_le_length (by omega), List.take_append_of_le_length inside,
    parcelCrc]

/-- A head that is found lies in the bytes it was found in. -/
theorem consumed_bounds {rx : List Byte} {n : Nat} (h : (frameHead rx).consumed = some n) :
    2 ≤ n ∧ n ≤ rx.length ∧ 10 ≤ rx.length := by
  unfold frameHead at h
  dsimp only at h
  split at h
  · cases h
  · split at h
    · cases h; omega
    · split at h
      · cases h
      · split at h
        · cases h; omega
        · split at h <;> cases h <;> omega

/-- A header that announces more than 1024 bytes is discarded as soon as it is there (R195). -/
theorem frameHead_overlong {rx : List Byte} (header : 10 ≤ rx.length) (long : 1024 < payloadLength rx) :
    frameHead rx = .discard (.length (rx.getD 4 0)) 10 := by
  unfold frameHead
  dsimp only
  rw [if_neg (by omega), if_pos (show Config.maxPayload < payloadLength rx from long)]

/-- A parcel whose last byte is there is judged by its CRC, then by its kind (R174). -/
theorem frameHead_whole {rx : List Byte} (fits : payloadLength rx ≤ 1024) (whole : 12 + payloadLength rx ≤ rx.length) :
    frameHead rx =
      if BitVec.ofNat 16 (le16 rx (10 + payloadLength rx)) ≠ parcelCrc rx then .discard (.crc (rx.getD 4 0)) 2
      else if byteAt rx 2 ≠ 1 then .discard (.kind (rx.getD 4 0)) (12 + payloadLength rx)
      else .parcel ⟨rx.getD 3 0, rx.getD 4 0, rx.getD 5 0, (rx.drop 10).take (payloadLength rx)⟩ (12 + payloadLength rx) := by
  unfold frameHead
  dsimp only
  rw [if_neg (by omega), if_neg (show ¬ Config.maxPayload < payloadLength rx from Nat.not_lt.2 fits), if_neg (by omega)]

theorem frameHead_part {rx : List Byte} (fits : payloadLength rx ≤ 1024) (part : rx.length < 12 + payloadLength rx) :
    frameHead rx = .more := by
  unfold frameHead
  dsimp only
  rw [if_neg (show ¬ Config.maxPayload < payloadLength rx from Nat.not_lt.2 fits), if_pos part, ite_self]

/-- A head that is found is the same when further bytes have arrived. -/
theorem frameHead_append {rx : List Byte} {n : Nat} (h : (frameHead rx).consumed = some n) (more : List Byte) :
    frameHead (rx ++ more) = frameHead rx := by
  obtain ⟨-, -, header⟩ := consumed_bounds h
  have size : (rx ++ more).length = rx.length + more.length := List.length_append
  have length := payloadLength_append header more
  by_cases long : 1024 < payloadLength rx
  · rw [frameHead_overlong header long, frameHead_overlong (by omega) (length ▸ long), getD_append (by omega)]
  · have whole : 12 + payloadLength rx ≤ rx.length := by
      by_contra part
      rw [frameHead_part (by omega) (by omega)] at h
      cases h
    have payload : ((rx ++ more).drop 10).take (payloadLength rx) = (rx.drop 10).take (payloadLength rx) := by
      rw [List.drop_append_of_le_length header, List.take_append_of_le_length (by rw [List.length_drop]; omega)]
    rw [frameHead_whole (by omega) whole, frameHead_whole (rx := rx ++ more) (by omega) (by omega), length,
      parcelCrc_append (by omega), payload, le16_append (by omega), getD_append (by omega), getD_append (by omega),
      getD_append (by omega), byteAt, getD_append (by omega), ← byteAt]

/-! ### Framing, one head after the other -/

/-- The part with the bytes not yet framed as given. -/
def State.withRx (s : State) (bytes : List Byte) : State := { s with ali := { s.ali with rx := bytes } }

theorem withRx_self {s : State} {bytes : List Byte} (h : s.ali.rx = bytes) : s.withRx bytes = s := by subst h; rfl

theorem join_withRx (a : Ali) (bytes : List Byte) (deck : Option DeckId) (body : NoticeBody) :
    ({ a with rx := bytes } : Ali).join deck body = { a.join deck body with rx := bytes } := by
  unfold Ali.join
  dsimp only
  split
  · rfl
  · split <;> rfl

theorem linkError_withRx (s : State) (bytes : List Byte) (cause : LinkErrorCause) :
    (s.withRx bytes).linkError cause = (s.linkError cause).withRx bytes :=
  congrArg (fun a => ({ s with ali := a } : State)) (join_withRx s.ali bytes none (.linkError cause))

theorem offer_withRx (s : State) (bytes : List Byte) (p : ControlParcel) :
    (s.withRx bytes).offer p = (s.offer p).withRx bytes := by
  unfold State.offer
  by_cases room : s.ali.input.length < Config.inputRoom
  · rw [if_pos room, if_pos (show (s.withRx bytes).ali.input.length < Config.inputRoom from room)]
    unfold Ali.haltAtMark State.modAli State.withRx
    dsimp only
    split <;> rfl
  · rw [if_neg room, if_neg (show ¬ (s.withRx bytes).ali.input.length < Config.inputRoom from room), linkError_withRx]

/-- The effect of a head and the bytes not yet framed do not touch each other. -/
theorem effect_withRx (f : Framed) (s : State) (bytes : List Byte) : f.effect (s.withRx bytes) = (f.effect s).withRx bytes := by
  cases f with
  | more => rfl
  | discard cause n => exact linkError_withRx s bytes cause
  | parcel p n => exact offer_withRx s bytes p

/-- The part with the given bytes framed as far as they go. -/
def State.frame (s : State) (bytes : List Byte) : State := frameAll (bytes.length + 1) (s.withRx bytes)

theorem receive_eq (s : State) (bytes : List Byte) : s.receive bytes = s.frame (s.ali.rx ++ bytes) := rfl

theorem frameAll_succ (fuel : Nat) (s : State) (bytes : List Byte) : frameAll (fuel + 1) (s.withRx bytes) =
    match (frameHead (huntSync bytes)).consumed with
    | none => s.withRx (huntSync bytes)
    | some n => frameAll fuel (((frameHead (huntSync bytes)).effect s).withRx ((huntSync bytes).drop n)) := by
  have rx : huntSync (s.withRx bytes).ali.rx = huntSync bytes := rfl
  rw [frameAll, rx]
  cases frameHead (huntSync bytes) with
  | more => rfl
  | discard cause n => exact congrArg (frameAll fuel) (linkError_withRx s ((huntSync bytes).drop n) cause)
  | parcel p n => exact congrArg (frameAll fuel) (offer_withRx s ((huntSync bytes).drop n) p)

theorem length_behind_head {bytes : List Byte} {n : Nat} (h : (frameHead (huntSync bytes)).consumed = some n) :
    ((huntSync bytes).drop n).length + 2 ≤ bytes.length := by
  obtain ⟨progress, inside, -⟩ := consumed_bounds h
  have : (huntSync bytes).length ≤ bytes.length := hunt_length ..
  rw [List.length_drop]
  omega

/-- Every head takes bytes, so more fuel than bytes makes no difference. -/
theorem frameAll_fuel {fuel : Nat} {bytes : List Byte} (s : State) (h : bytes.length < fuel) :
    frameAll fuel (s.withRx bytes) = s.frame bytes := by
  induction fuel using Nat.strong_induction_on generalizing s bytes with
  | _ fuel ih =>
    obtain ⟨fuel, rfl⟩ : ∃ m, fuel = m + 1 := ⟨fuel - 1, by omega⟩
    rw [State.frame, frameAll_succ, frameAll_succ]
    cases head : (frameHead (huntSync bytes)).consumed with
    | none => rfl
    | some n =>
      have shorter := length_behind_head head
      dsimp only
      rw [ih fuel (by omega) _ (by omega)]
      by_cases same : bytes.length = fuel
      · rw [same, ih fuel (by omega) _ (by omega)]
      · rw [ih bytes.length (by omega) _ (by omega)]

/-- A head that waits for more bytes stays, and what comes before it is dropped. -/
theorem frame_waits {bytes : List Byte} (s : State) (h : (frameHead (huntSync bytes)).consumed = none) :
    s.frame bytes = s.withRx (huntSync bytes) := by
  rw [State.frame, frameAll_succ, h]

/-- A head that is found has its effect, and the framing goes on behind it. -/
theorem frame_takes {bytes : List Byte} {n : Nat} (s : State) (h : (frameHead (huntSync bytes)).consumed = some n) :
    s.frame bytes = ((frameHead (huntSync bytes)).effect s).frame ((huntSync bytes).drop n) := by
  have shorter := length_behind_head h
  rw [State.frame, frameAll_succ, h]
  exact frameAll_fuel _ (by omega)

/-- What holds of a stream whose head waits, and of one whose head is taken when it holds of what comes behind, holds of every stream. -/
theorem frame_induction {motive : State → List Byte → Prop}
    (waits : ∀ s bytes, (frameHead (huntSync bytes)).consumed = none → motive s bytes)
    (takes : ∀ s bytes n, (frameHead (huntSync bytes)).consumed = some n →
      motive ((frameHead (huntSync bytes)).effect s) ((huntSync bytes).drop n) → motive s bytes)
    (s : State) (bytes : List Byte) : motive s bytes := by
  induction size : bytes.length using Nat.strong_induction_on generalizing s bytes with
  | _ size ih =>
    cases head : (frameHead (huntSync bytes)).consumed with
    | none => exact waits s bytes head
    | some n =>
      have shorter := length_behind_head head
      exact takes s bytes n head (ih _ (by omega) _ _ rfl)

/-- Streams that the hunt leads to the same place are framed alike. -/
theorem frame_of_hunt {a b : List Byte} (s : State) (h : huntSync a = huntSync b) : s.frame a = s.frame b := by
  cases head : (frameHead (huntSync b)).consumed with
  | none => rw [frame_waits s head, frame_waits s (h ▸ head), h]
  | some n => rw [frame_takes s head, frame_takes s (h ▸ head), h]

theorem frame_withRx (s : State) (old bytes : List Byte) : (s.withRx old).frame bytes = s.frame bytes := rfl

/-- Bytes framed in two parts come to what they come to in one (R174). -/
theorem frame_append (s : State) (bytes more : List Byte) :
    s.frame (bytes ++ more) = (s.frame bytes).frame ((s.frame bytes).ali.rx ++ more) := by
  induction s, bytes using frame_induction with
  | waits s bytes head =>
    rw [frame_waits s head, frame_withRx]
    exact frame_of_hunt s (hunt_append ..).symm
  | takes s bytes n head ih =>
    obtain ⟨-, inside, header⟩ := consumed_bounds head
    have found : huntSync (bytes ++ more) = huntSync bytes ++ more :=
      hunt_found (show 2 ≤ (huntSync bytes).length by omega) more
    have same := frameHead_append head more
    rw [frame_takes s head, frame_takes s (n := n) (by rw [found, same]; exact head), found, same,
      List.drop_append_of_le_length inside]
    exact ih

theorem linkError_sameButNotices (s : State) (cause : LinkErrorCause) : s.ali.sameButNotices (s.linkError cause).ali :=
  sameButNotices_join ..

theorem link_linkError (s : State) (cause : LinkErrorCause) : (s.linkError cause).ali.link = s.ali.link :=
  (congrArg Ali.link (linkError_sameButNotices s cause) :)

theorem rx_linkError (s : State) (cause : LinkErrorCause) : (s.linkError cause).ali.rx = s.ali.rx :=
  (congrArg Ali.rx (linkError_sameButNotices s cause) :)

/-- HALT leaves at the mark unless the upstream halt is already yes (R177). -/
theorem haltAtMark_eq (a : Ali) : a.haltAtMark = { a with
    upstreamHalt := a.upstreamHalt || decide (6 ≤ a.input.length)
    sent := if a.upstreamHalt = false ∧ 6 ≤ a.input.length then .symbol .halt :: a.sent else a.sent } := by
  obtain ⟨link, rx, input, halted, workstationHalt, queue, dropFlag, readouts, wire, emission, aborted, lastGranted, sent⟩ := a
  unfold Ali.haltAtMark Ali.sendSymbol Config.inputHaltMark
  by_cases mark : 6 ≤ input.length <;> cases halted <;> simp [mark]

/-- A parcel offered to the buffer joins it, or is discarded when it is full (R177). -/
theorem offer_eq (s : State) (p : ControlParcel) : s.offer p =
    if s.ali.input.length < 8 then
      { s with ali := { s.ali with
        input := s.ali.input ++ [p]
        upstreamHalt := s.ali.upstreamHalt || decide (5 ≤ s.ali.input.length)
        sent := if s.ali.upstreamHalt = false ∧ 5 ≤ s.ali.input.length then .symbol .halt :: s.ali.sent else s.ali.sent } }
    else s.linkError (.overflow p.tag) := by
  have mark : 6 ≤ (s.ali.input ++ [p]).length ↔ 5 ≤ s.ali.input.length := by
    rw [List.length_append, List.length_singleton, Nat.succ_le_succ_iff]
  refine if_congr Iff.rfl ?_ rfl
  simp only [State.modAli, haltAtMark_eq, mark]

theorem link_effect (f : Framed) (s : State) : (f.effect s).ali.link = s.ali.link := by
  cases f with
  | more => rfl
  | discard cause n => exact link_linkError s cause
  | parcel p n =>
    show (s.offer p).ali.link = _
    rw [offer_eq]
    split
    · rfl
    · exact link_linkError ..

theorem link_frame (s : State) (bytes : List Byte) : (s.frame bytes).ali.link = s.ali.link := by
  induction s, bytes using frame_induction with
  | waits s bytes head => rw [frame_waits s head]; rfl
  | takes s bytes n head ih => rw [frame_takes s head, ih, link_effect]

end Sys2Proof.Machine
end

section
namespace Sys2Proof.Machine

/-! ### Parcels as a sender writes them -/

theorem length_coveredBytes (kind deck tag code : Byte) (body : List Byte) :
    (coveredBytes kind deck tag code body).length = 8 + body.length := by
  simp [coveredBytes, bytes32]; omega

/-- The announced length of a header (section 10.2). -/
theorem payloadLength_header (a b kind deck tag code : Byte) (length : Word32) (rest : List Byte) :
    payloadLength ([a, b, kind, deck, tag, code] ++ bytes32 length ++ rest) = length.toNat := le32_bytes32 length rest

section
variable (kind deck tag code : Byte) {body : List Byte} (fits : body.length ≤ 1024) (crc : Word16) (rest : List Byte)
include fits

theorem payloadLength_parcel :
    payloadLength ([0x3C, 0xE1] ++ (coveredBytes kind deck tag code body ++ bytes16 crc ++ rest)) = body.length := by
  have field : (BitVec.ofNat 32 body.length).toNat = body.length := by rw [BitVec.toNat_ofNat]; omega
  rw [← field, ← payloadLength_header 0x3C 0xE1 kind deck tag code _ (body ++ bytes16 crc ++ rest)]
  simp only [coveredBytes, List.append_assoc, List.cons_append, List.nil_append]

/-- A whole parcel at the head of the stream, by its CRC and its kind (R174). -/
theorem frameHead_parcel :
    frameHead ([0x3C, 0xE1] ++ (coveredBytes kind deck tag code body ++ bytes16 crc ++ rest)) =
      if crc ≠ crcOf (coveredBytes kind deck tag code body) then .discard (.crc tag) 2
      else if kind ≠ 1 then .discard (.kind tag) (12 + body.length)
      else .parcel ⟨deck, tag, code, body⟩ (12 + body.length) := by
  have length := payloadLength_parcel kind deck tag code fits crc rest
  have size := length_coveredBytes kind deck tag code body
  have field : BitVec.ofNat 16 (le16 ([0x3C, 0xE1] ++ (coveredBytes kind deck tag code body ++ bytes16 crc ++ rest))
      (10 + body.length)) = crc := by
    have start : ([0x3C, 0xE1] ++ coveredBytes kind deck tag code body : List Byte).length = 10 + body.length := by
      rw [List.length_append, size]; simp only [List.length_cons, List.length_nil]; omega
    rw [← start, List.append_assoc, ← List.append_assoc, ← List.append_assoc, le16_at, BitVec.ofNat_toNat, BitVec.setWidth_eq]
  have own : parcelCrc ([0x3C, 0xE1] ++ (coveredBytes kind deck tag code body ++ bytes16 crc ++ rest))
      = crcOf (coveredBytes kind deck tag code body) := by
    have behind : ([0x3C, 0xE1] ++ (coveredBytes kind deck tag code body ++ bytes16 crc ++ rest) : List Byte).drop 2
      = coveredBytes kind deck tag code body ++ (bytes16 crc ++ rest) := by
        rw [List.append_assoc]; rfl
    rw [parcelCrc, length, crc16_eq, behind, ← size, List.take_left]
  have payload : (([0x3C, 0xE1] ++ (coveredBytes kind deck tag code body ++ bytes16 crc ++ rest) : List Byte).drop 10).take
      body.length = body := by
    simp [coveredBytes, bytes32]
  have kindField : byteAt ([0x3C, 0xE1] ++ (coveredBytes kind deck tag code body ++ bytes16 crc ++ rest)) 2 = kind.toNat := rfl
  have total : 12 + body.length ≤ ([0x3C, 0xE1] ++ (coveredBytes kind deck tag code body ++ bytes16 crc ++ rest)).length := by
    simp only [List.length_append, size, bytes16, List.length_cons, List.length_nil]; omega
  rw [frameHead_whole (by rw [length]; exact fits) (by rw [length]; exact total), length, field, own, payload, kindField]
  have isControl : kind.toNat ≠ 1 ↔ kind ≠ 1 := not_congr (BitVec.toNat_inj (y := (1 : Byte)))
  exact if_congr Iff.rfl rfl (if_congr isControl rfl rfl)

end

/-! ### Arrivals on a link that is UP -/

section
variable {s : State} (up : s.ali.link = .up)
include up

theorem exec_received (bytes : List Byte) : exec (.controlParcelReceived bytes) s = .next (s.frame (s.ali.rx ++ bytes)) :=
  if_pos up

variable (empty : s.ali.rx = [])
include empty

theorem exec_received_empty (bytes : List Byte) : exec (.controlParcelReceived bytes) s = .next (s.frame bytes) := by
  rw [exec_received up, empty, List.nil_append]

theorem exec_received_linkError (cause : LinkErrorCause) (bytes : List Byte) :
    exec (.controlParcelReceived bytes) (s.linkError cause) = .next ((s.linkError cause).frame bytes) :=
  exec_received_empty ((link_linkError s cause).trans up) ((rx_linkError s cause).trans empty) bytes

end

theorem frame_nothing {s : State} (empty : s.ali.rx = []) : s.frame [] = s := by
  rw [frame_waits s rfl]
  exact withRx_self empty

theorem rx_offer (s : State) (p : ControlParcel) : (s.offer p).ali.rx = s.ali.rx := by
  rw [offer_eq]
  split
  · rfl
  · exact rx_linkError ..

/-- The head of a stream that stands at a sync word has its effect, and the framing goes on behind what it takes. -/
theorem frame_at_head {bytes : List Byte} {head : Framed} {n : Nat} (s : State) (sync : huntSync bytes = bytes)
    (found : frameHead bytes = head) (takes : head.consumed = some n) : s.frame bytes = (head.effect s).frame (bytes.drop n) := by
  subst found
  have taken := frame_takes (bytes := bytes) s (n := n) (by rw [sync]; exact takes)
  rwa [sync] at taken

end Sys2Proof.Machine
end

section
namespace Sys2Proof.Machine

/-! ### What a whole parcel and an overlong header come to -/

/-- A parcel with a wrong CRC is discarded, and the hunt goes on behind its sync word (R174). -/
theorem frame_wrongCrc (s : State) (kind deck tag code : Byte) {body : List Byte} (fits : body.length ≤ 1024) {crc : Word16}
    (wrong : crc ≠ crcOf (coveredBytes kind deck tag code body)) (rest : List Byte) :
    let covered := coveredBytes kind deck tag code body ++ bytes16 crc ++ rest
    s.frame ([0x3C, 0xE1] ++ covered) = (s.linkError (.crc tag)).frame covered := by
  have head := frameHead_parcel kind deck tag code fits crc rest
  rw [if_pos wrong] at head
  exact frame_at_head s (hunt_at_sync ..) head rfl

/-- A header that announces more than 1024 bytes is discarded, and the hunt goes on behind it (R195). -/
theorem frame_overlong (s : State) (kind deck tag code : Byte) {length : Word32} (long : 1024 < length.toNat) (rest : List Byte) :
    s.frame ([0x3C, 0xE1, kind, deck, tag, code] ++ bytes32 length ++ rest) = (s.linkError (.length tag)).frame rest := by
  have announced := payloadLength_header 0x3C 0xE1 kind deck tag code length rest
  have header : 10 ≤ ([0x3C, 0xE1, kind, deck, tag, code] ++ bytes32 length ++ rest).length := by simp [bytes32]
  exact frame_at_head s (hunt_at_sync ..) (frameHead_overlong header (announced ▸ long)) rfl

theorem huntSync_wireParcel (kind deck tag code : Byte) (body rest : List Byte) :
    huntSync (wireParcel kind deck tag code body ++ rest) = wireParcel kind deck tag code body ++ rest := hunt_at_sync ..

theorem drop_wireParcel (kind deck tag code : Byte) (body rest : List Byte) :
    (wireParcel kind deck tag code body ++ rest).drop (12 + body.length) = rest := by
  have size : (wireParcel kind deck tag code body).length = 12 + body.length := by
    rw [wireParcel, List.length_append, List.length_append, length_coveredBytes]
    simp only [bytes16, List.length_cons, List.length_nil]
    omega
  rw [← size, List.drop_left]

section
variable (s : State) (kind deck tag code : Byte) {body : List Byte} (fits : body.length ≤ 1024) (rest : List Byte)
include fits

theorem frameHead_wireParcel : frameHead (wireParcel kind deck tag code body ++ rest) =
    if kind ≠ 1 then .discard (.kind tag) (12 + body.length) else .parcel ⟨deck, tag, code, body⟩ (12 + body.length) := by
  have head := frameHead_parcel kind deck tag code fits (crcOf (coveredBytes kind deck tag code body)) rest
  rw [if_neg (not_not.2 rfl)] at head
  rw [← head, wireParcel]
  simp only [List.append_assoc]

/-- A parcel of another kind is discarded, and the hunt goes on behind its CRC (R174). -/
theorem frame_otherKind (other : kind ≠ 1) :
    s.frame (wireParcel kind deck tag code body ++ rest) = (s.linkError (.kind tag)).frame rest := by
  have head := frameHead_wireParcel kind deck tag code fits rest
  rw [if_pos other] at head
  rw [frame_at_head s (huntSync_wireParcel ..) head rfl, drop_wireParcel]
  rfl

/-- A control parcel is offered to the input buffer as it was written (R174, R194). -/
theorem frame_controlParcel :
    s.frame (wireParcel 1 deck tag code body ++ rest) = (s.offer ⟨deck, tag, code, body⟩).frame rest := by
  have head := frameHead_wireParcel 1 deck tag code fits rest
  rw [if_neg (not_not.2 rfl)] at head
  rw [frame_at_head s (huntSync_wireParcel ..) head rfl, drop_wireParcel]
  rfl

end

/-- Settles O30: the parcel is the whole of what is framed (frame_controlParcel), and is offered to the buffer (offer_eq). -/
theorem controlParcelRoundTrip : Obligations.ControlParcelRoundTrip := by
  intro s p up empty fits
  have framed : s.frame (wireParcel 1 p.deck p.tag p.code p.body) = s.offer p := by
    rw [← List.append_nil (wireParcel ..), frame_controlParcel s _ _ _ fits, frame_nothing]
    exact (rx_offer s p).trans empty
  rw [exec_received_empty up empty, framed, offer_eq]

/-- Settles O31: arrivals one after the other (frame_append), stray bytes (frame_of_hunt), and what is discarded (frame_wrongCrc,
frame_otherKind, frame_overlong). -/
theorem framingFollowsR174AndR195 : Obligations.FramingFollowsR174AndR195 := by
  intro s
  refine ⟨fun first second => ⟨rfl, fun up => ?_, fun down => ⟨if_neg down, if_neg down⟩⟩, fun up empty => ⟨?_, ?_, ?_, ?_⟩⟩
  · refine ⟨_, _, exec_received up first, exec_received ((link_frame ..).trans up) second, ?_⟩
    rw [exec_received up, ← List.append_assoc, frame_append]
  · intro a b rest other
    have skipped : huntSync (a :: b :: rest) = huntSync (b :: rest) := if_neg other
    rw [exec_received_empty up empty, exec_received_empty up empty, frame_of_hunt s skipped]
  · intro kind deck tag code body rest crc fits wrong covered
    rw [exec_received_empty up empty, exec_received_linkError up empty, frame_wrongCrc s kind deck tag code fits wrong]
  · intro kind deck tag code body rest fits other
    rw [exec_received_empty up empty, exec_received_linkError up empty, frame_otherKind s kind deck tag code fits rest other]
  · intro kind deck tag code length rest long header
    refine ⟨?_, ?_⟩
    · show exec (.controlParcelReceived header) s = _
      have alone := frame_overlong s kind deck tag code long []
      rw [List.append_nil] at alone
      rw [exec_received_empty up empty, alone, frame_nothing ((rx_linkError ..).trans empty)]
    · rw [exec_received_empty up empty, exec_received_linkError up empty, frame_overlong s kind deck tag code long]

end Sys2Proof.Machine
end

section
namespace Sys2Proof.Machine

/-! ### Notices join, coalesce or are dropped -/

/-- A notice finds room (R183). -/
abbrev Ali.noticeFits (a : Ali) : Prop := a.queue.length < 32 ∧ (a.queue.filter Report.isNotice).length < 24

theorem noticeFits_iff (a : Ali) :
    (noticeCount a.queue < Config.noticeRoom ∧ a.queue.length < Config.reportRoom) ↔ a.noticeFits := by
  rw [noticeCount, List.countP_eq_length_filter]
  exact and_comm

theorem sameKind_iff (deck : Option DeckId) (kind : Nat) (r : Report) :
    r.sameKind deck kind = true ↔ ∃ n, r = .notice n ∧ n.deck = deck ∧ n.body.kind = kind := by
  cases r <;> simp [Report.sameKind]

theorem coalesce_eq_none {deck : Option DeckId} {body : NoticeBody} {q : List Report}
    (h : ∀ n, .notice n ∈ q → ¬ (n.deck = deck ∧ n.body.kind = body.kind)) : coalesce deck body q = none := by
  induction q with
  | nil => rfl
  | cons r rest ih =>
    have other : ¬ r.sameKind deck body.kind = true := fun same => by
      obtain ⟨n, rfl, alike⟩ := (sameKind_iff ..).1 same
      exact h n (List.mem_cons_self ..) alike
    rw [coalesce, ih fun n hn => h n (List.mem_cons_of_mem _ hn)]
    exact if_neg other

/-- The youngest notice of the kind and deck takes the new content in; nothing else of the queue changes (R184). -/
theorem coalesce_youngest {deck : Option DeckId} {body : NoticeBody} {n : Notice} {after : List Report} (before : List Report)
    (same : n.deck = deck ∧ n.body.kind = body.kind)
    (youngest : ∀ m, .notice m ∈ after → ¬ (m.deck = deck ∧ m.body.kind = body.kind)) :
    coalesce deck body (before ++ .notice n :: after)
      = some (before ++ .notice { n with body := body, repeats := min (n.repeats + 1) 255 } :: after) := by
  induction before with
  | nil =>
    rw [List.nil_append, coalesce, coalesce_eq_none youngest]
    exact if_pos ((sameKind_iff ..).2 ⟨n, rfl, same⟩)
  | cons r rest ih => rw [List.cons_append, coalesce, ih]; rfl

section
variable {a : Ali} {deck : Option DeckId} {body : NoticeBody}

theorem join_fits (room : a.noticeFits) : a.join deck body =
    { a with queue := a.queue ++ [.notice ⟨deck, body, 1, a.dropFlag⟩], dropFlag := false } :=
  if_pos ((noticeFits_iff a).2 room)

theorem join_full (full : ¬ a.noticeFits) : a.join deck body =
    match coalesce deck body a.queue with
    | some q => { a with queue := q }
    | none => { a with dropFlag := true } := if_neg (mt (noticeFits_iff a).1 full)

theorem join_dropped (full : ¬ a.noticeFits) (h : ∀ n, .notice n ∈ a.queue → ¬ (n.deck = deck ∧ n.body.kind = body.kind)) :
    a.join deck body = { a with dropFlag := true } := by
  rw [join_full full, coalesce_eq_none h]

theorem join_coalesced {before after : List Report} {n : Notice} (full : ¬ a.noticeFits)
    (queue : a.queue = before ++ .notice n :: after) (same : n.deck = deck ∧ n.body.kind = body.kind)
    (youngest : ∀ m, .notice m ∈ after → ¬ (m.deck = deck ∧ m.body.kind = body.kind)) :
    a.join deck body = { a with
      queue := before ++ .notice { n with body := body, repeats := min (n.repeats + 1) 255 } :: after } := by
  rw [join_full full, queue, coalesce_youngest before same youngest]

end

theorem notify_admitted {s : State} {d : DeckId} {body : NoticeBody}
    (admitted : (s.deck d).chan.mask.getLsbD (body.kind - 1) = true) :
    s.notify d body = { s with ali := s.ali.join (some d) body } := if_pos admitted

theorem notify_masked {s : State} {d : DeckId} {body : NoticeBody}
    (masked : (s.deck d).chan.mask.getLsbD (body.kind - 1) = false) : s.notify d body = s := if_neg (by simp [admits, masked])

theorem linkError_eq (s : State) (cause : LinkErrorCause) :
    s.linkError cause = { s with ali := s.ali.join none (.linkError cause) } := rfl

/-- Settles O33: an admitted notice joins (join_fits), is dropped (join_dropped) or coalesces (join_coalesced); a LINK_ERROR likewise. -/
theorem noticesFollowR183AndR184 : Obligations.NoticesFollowR183AndR184 := by
  intro s d body cause kind room joined
  refine ⟨notify_masked, fun admitted => ⟨fun fits => ?_, fun full others => ?_, ?_⟩, fun fits => ?_, fun full others => ?_, ?_⟩
  · rw [notify_admitted admitted, join_fits fits]
  · rw [notify_admitted admitted, join_dropped full others]
  · intro before after n full queue deck sameKind youngest
    rw [notify_admitted admitted, join_coalesced full queue ⟨deck, sameKind⟩ youngest]
  · rw [linkError_eq, join_fits fits]
  · rw [linkError_eq, join_dropped full others]
  · intro before after n full queue deck sameKind youngest
    rw [linkError_eq, join_coalesced (body := .linkError cause) full queue ⟨deck, sameKind⟩ youngest]

end Sys2Proof.Machine
end

section
namespace Sys2Proof.Machine

/-! ### Flow symbols and the states of the link -/

/-- A row that answers one of two states answers the state chosen. -/
theorem next_ite {p : Prop} [Decidable p] (t u : State) :
    (if p then .next t else .next u : StepResult) = .next (if p then t else u) := (apply_ite _ p t u).symm

/-- Settles O32: each row answers one of two states, by its condition. -/
theorem linkStatesAndFlowFollowR175AndR176 : Obligations.LinkStatesAndFlowFollowR175AndR176 := fun s =>
  ⟨next_ite (p := s.ali.link = .up) _ s, next_ite (p := s.ali.link = .up ∧ s.ali.workstationHalt = true) _ s,
    next_ite (p := s.ali.link = .down) _ s, next_ite (p := s.ali.link = .training) _ s, next_ite (p := s.ali.link = .down) s _⟩

end Sys2Proof.Machine
end

section
namespace Sys2Proof.Machine

/-! ### The codes of section 10.1, each the place of its value in the list -/

theorem contextByte_eq (x : ContextState) : put8 x.code = [codeIn contextCodes x] := by cases x <;> rfl

theorem commandByte_eq (x : SlotCommand) : put8 (commandCode x) = [codeIn commandCodes x] := by cases x <;> rfl

theorem originByte_eq (x : Origin) : put8 x.code = [codeIn originCodes x] := by cases x <;> rfl

theorem resultByte_eq (x : CommandResult) : put8 x.code = [codeIn [.done, .fault, .failed] x] := by cases x <;> rfl

theorem motionByte_eq (x : Motion) : put8 x.code = [codeIn [.stopped, .paused, .running] x] := by cases x <;> rfl

theorem sensorByte_eq (x : Sensor) : put8 x.code = [codeIn [.present, .gateClosed, .attention, .powerFault] x] := by
  cases x <;> rfl

theorem laneByte_eq (x : LaneState) : put8 x.code = [codeIn [.down, .training, .up] x] := by cases x <;> rfl

theorem laneCauseByte_eq (x : LaneCause) : put8 x.code = [codeIn [.signalFound, .trained, .signalLost, .retrain] x] := by
  cases x <;> rfl

theorem registrationByte_eq (x : RegistrationEvent) : put8 x.code = [codeIn [.lock, .loss, .splice] x] := by cases x <;> rfl

theorem lossByte_eq (x : LossCause) : put8 x.code = [codeIn [.none, .coast, .lane, .numbers] x] := by cases x <;> rfl

theorem shotOriginByte_eq (x : ShotOrigin) : put8 x.code = [codeIn shotOriginCodes x] := by cases x <;> rfl

theorem shotStateByte_eq (x : ShotState) : put8 x.code = [codeIn [.opened, .closed, .complete] x] := by cases x <;> rfl

theorem positionByte_eq (x : PositionState) : put8 x.code = [codeIn [.unavailable, .free, .reserved, .occupied] x] := by
  cases x <;> rfl

theorem directivePhaseByte_eq (x : DirectivePhase) : put8 x.code = [codeIn [.onDeck, .inTransit] x] := by cases x <;> rfl

theorem directiveEventByte_eq (x : DirectiveEvent) :
    put8 x.code = [codeIn [.created, .positioned, .inTransit, .shelved, .cancelled] x] := by cases x <;> rfl

theorem statusByte_eq (x : Status) : put8 x.code = [codeIn statusCodes x] := by cases x <;> rfl

theorem runActionByte_eq (x : Action) : put8 x.code = actionField (some x) := by cases x <;> rfl

theorem commandField_eq (c : Option Command) : putCommand c = commandField c := by
  cases c with
  | none => rfl
  | some c =>
    show put8 (commandCode c.cmd) ++ put8 c.origin.code = _
    rw [commandByte_eq, originByte_eq]
    rfl

/-! ### The bytes of reports (section 10.4) -/

theorem valueBytes_eq (v : ReplyValues) : v.bytes = valueLayout v := by
  cases v with
  | none => rfl
  | count n => exact put16_eq n
  | skipped n => exact put8_eq n
  | trims a b c d e f => simp only [ReplyValues.bytes, put8_eq]; rfl

theorem noticeKind_eq (b : NoticeBody) : b.kind = (noticeLayout b).1 := by cases b <;> rfl

theorem putPosition_eq (p : Option FilmPos) : put32 ((p.map BitVec.toNat).getD 0) = bytes32 (p.getD 0) := putReel_eq p

/-- What the DIRECTIVE notice and readout share, from the storage class to the greatest shrinkage. -/
theorem directiveBytes_eq (dir : Directive) (reel : Option ReelId) :
    put8 dir.storageClass.val ++ put8 dir.phase.code ++ putFlag dir.interrupted ++ putReel reel
      ++ putWord (dir.position.map Fin.val) ++ put16 dir.score ++ put8 dir.maxShrink = directiveFields dir reel := by
  simp only [directiveFields, put8_eq dir.storageClass.val, directivePhaseByte_eq, putFlag_eq, putReel_eq, putWord_eq, put16_eq,
    put8_eq dir.maxShrink]

theorem noticeBytes_eq (b : NoticeBody) : b.bytes = (noticeLayout b).2 := by
  cases b with
  | slotEvent sensor level => simp only [NoticeBody.bytes, noticeLayout, sensorByte_eq, putFlag_eq]
  | slotCommandDone cmd origin result =>
    simp only [NoticeBody.bytes, noticeLayout, commandByte_eq, originByte_eq, resultByte_eq]; rfl
  | contextState state reel => simp only [NoticeBody.bytes, noticeLayout, contextByte_eq, putReel_eq, zeros_eq]
  | laneState state cause => simp only [NoticeBody.bytes, noticeLayout, laneByte_eq, laneCauseByte_eq]; rfl
  | registration event cause position next =>
    rw [NoticeBody.bytes, registrationByte_eq, lossByte_eq, putFlag_eq, putPosition_eq, put32_eq, zeros_eq]
    rfl
  | shotClosed index shot reel =>
    rw [NoticeBody.bytes, put8_eq, shotOriginByte_eq, putIndex_eq, putSigned8_eq, putReel_eq, putLast_eq, put32_eq, put32_eq]
    rfl
  | shotTableFull opening frame => simp only [NoticeBody.bytes, noticeLayout, shotOriginByte_eq, put32_eq, zeros_eq]
  | overrun recorded frame count => cases recorded <;> simp only [NoticeBody.bytes, noticeLayout, put32_eq, zeros_eq] <;> rfl
  | directive event dir reel =>
    rw [noticeLayout, ← directiveBytes_eq, ← directiveEventByte_eq]
    simp only [NoticeBody.bytes, zeros_eq, List.append_assoc]
  | linkError cause => cases cause <;> simp only [NoticeBody.bytes, LinkErrorCause.code, LinkErrorCause.tagBytes, put8_eq] <;> rfl

theorem readoutCode_eq (b : ReadoutBody) : b.code = (readoutLayout b).1 := by cases b <;> rfl

theorem levelBits_eq (c : ContextReadout) : put8 c.levelBits = setField [c.ctx.gateLocked, c.ctx.powerOn, c.ctx.interrupted,
    c.ctx.planPending, c.sensors.present, c.sensors.gateClosed, c.sensors.attention, c.sensors.powerFault] := by
  rw [put8_eq, field8, setField, ContextReadout.levelBits]
  congr 2
  simp only [List.foldr_cons, List.foldr_nil]
  omega

theorem placeByte_eq (place : Option Nat) : put8 (place.getD 255) = match place with
    | some n => field8 n
    | none => [0xFF] := by
  cases place with
  | none => rfl
  | some n => exact put8_eq n

theorem contextBytes_eq (c : ContextReadout) : c.bytes = (readoutLayout (.context c)).2 := by
  -- `delta`, since making the equation lemma of this long layout times out.
  delta ContextReadout.bytes
  rw [contextByte_eq, levelBits_eq, placeByte_eq, motionByte_eq, putWord16_eq]
  simp only [putIndex_eq, putReel_eq, put32_eq, putWord_eq, commandField_eq, put8_eq, zeros_eq]
  rfl

theorem cueBytes_eq (c : Cue) : c.bytes = field32 c.frame ++ indexField c.grade ++ blank 3 := by
  simp only [Cue.bytes, put32_eq, putIndex_eq, zeros_eq]

theorem shelfBytes_eq (e : ShelfEntry) : e.bytes = field8 e.storageClass.val
    ++ [codeIn [.unavailable, .free, .reserved, .occupied] e.state] ++ blank 2 ++ reelField e.reel := by
  rw [ShelfEntry.bytes, positionByte_eq, put8_eq, putReel_eq, zeros_eq]

theorem waitingBytes_eq (e : WaitingEntry) : e.bytes = field8 e.deck.val ++ blank 1 ++ wordField e.score ++ reelField e.reel := by
  simp only [WaitingEntry.bytes, put8_eq, putWord_eq, putReel_eq, zeros_eq]

theorem readoutBytes_eq (b : ReadoutBody) : b.bytes = (readoutLayout b).2 := by
  cases b with
  | context c => exact contextBytes_eq c
  | shotList shots full cues =>
    simp only [ReadoutBody.bytes, readoutLayout, put16_eq, putFlag_eq, put8_eq, funext cueBytes_eq]
  | shot index sh =>
    rw [ReadoutBody.bytes, put8_eq, shotOriginByte_eq, shotStateByte_eq, putIndex_eq, putSigned8_eq, putLast_eq, put32_eq, put32_eq]
    rfl
  | map reel runs full => simp only [ReadoutBody.bytes, readoutLayout, putReel_eq, put16_eq, putFlag_eq, zeros_eq]
  | run index r =>
    simp only [ReadoutBody.bytes, readoutLayout, put16_eq, putClasses_eq, runActionByte_eq, put32_eq, zeros_eq]
  | shelf first entries => simp only [ReadoutBody.bytes, readoutLayout, put16_eq, zeros_eq, funext shelfBytes_eq]
  | queue directives waiting => simp only [ReadoutBody.bytes, readoutLayout, put8_eq, zeros_eq, funext waitingBytes_eq]
  | directive place dir reel =>
    rw [readoutLayout, ← directiveBytes_eq, ← put8_eq]
    simp only [ReadoutBody.bytes, zeros_eq, List.append_assoc]

theorem deckField_eq (deck : Option DeckId) : (deck.map deckByte).getD noDeck = match deck with
    | some d => BitVec.ofNat 8 d.val
    | none => 0xFF := by cases deck <;> rfl

/-- The bytes of a report are those of its layout. -/
theorem bytes_report (r : Report) : UpParcel.bytes (.report r) = reportLayout r := by
  show r.bytes = _
  cases r with
  | reply r => simp only [Report.bytes, reportLayout, parcelBytes_eq, statusByte_eq, valueBytes_eq, zeros_eq]; rfl
  | notice n =>
    simp only [Report.bytes, reportLayout, parcelBytes_eq, deckField_eq, noticeKind_eq, noticeBytes_eq, put8_eq, putFlag_eq,
      zeros_eq]
    rfl
  | readout r => simp only [Report.bytes, reportLayout, parcelBytes_eq, readoutCode_eq, readoutBytes_eq, put8_eq, zeros_eq]; rfl

end Sys2Proof.Machine
end

section
namespace Sys2Proof.Machine

/-! ### The rows of the upstream wire -/

theorem exec_readoutJoin (s : State) : exec .readoutJoin s = .next (
    match s.ali.readouts with
    | [] => s
    | r :: rest =>
      if s.ali.queue.length < 32 then { s with ali := { s.ali with queue := s.ali.queue ++ [.readout r], readouts := rest } }
      else s) := by
  show execReadoutJoin s = _
  unfold execReadoutJoin
  cases s.ali.readouts with
  | nil => rfl
  | cons r rest => exact next_ite (p := s.ali.queue.length < 32) _ s

theorem exec_reportSend (s : State) : exec .reportSend s = .next (
    match s.ali.queue, s.ali.wire with
    | r :: rest, none =>
      if s.ali.link = .up then { s with ali := { s.ali with queue := rest, wire := some (.report r) } } else s
    | _, _ => s) := by
  show execReportSend s = _
  unfold execReportSend
  rcases s.ali.queue with - | ⟨r, rest⟩
  · rfl
  · cases s.ali.wire with
    | some p => rfl
    | none => exact next_ite (p := s.ali.link = .up) _ s

theorem exec_reportParcelSent (s : State) : exec .reportParcelSent s = .next (
    match s.ali.wire with
    | some (.report r) =>
      if s.ali.link = .up then
        ({ s with ali := { s.ali with wire := none, sent := .parcel (.report r) :: s.ali.sent } } : State).beginFrameParcel
      else s
    | _ => s) := by
  show execReportParcelSent s = _
  unfold execReportParcelSent
  rcases s.ali.wire with - | (r | p | t)
  · rfl
  · exact next_ite (p := s.ali.link = .up) _ s
  · rfl
  · rfl

/-- Settles O34: the three rows (exec_readoutJoin, exec_reportSend, exec_reportParcelSent), and the bytes of each report (bytes_report). -/
theorem reportsFollowR180AndR182 : Obligations.ReportsFollowR180AndR182 := fun s =>
  ⟨exec_readoutJoin s, exec_reportSend s, exec_reportParcelSent s, bytes_report⟩

end Sys2Proof.Machine
end

section
namespace Sys2Proof.Machine

/-! ### The end of an OVERRUN trailer's sending -/

theorem exec_overrunTrailerSent_absent {s : State}
    (h : s.ali.link ≠ .up ∨ ∀ d reel r, s.ali.wire ≠ some (.trailer (.overrun d reel r))) :
    exec .overrunTrailerSent s = .next s := by
  show execOverrunTrailerSent s = _
  unfold execOverrunTrailerSent
  split
  · next d reel r wire => exact if_neg (h.resolve_right fun absent => absent d reel r wire)
  · rfl

theorem exec_abortedTrailerSent_absent {s : State}
    (h : s.ali.link ≠ .up ∨ ∀ d reel r n, s.ali.wire ≠ some (.trailer (.aborted d reel r n))) :
    exec .abortedTrailerSent s = .next s := by
  show execAbortedTrailerSent s = _
  unfold execAbortedTrailerSent
  split
  · next d reel r n wire => exact if_neg (h.resolve_right fun absent => absent d reel r n wire)
  · rfl

/-- An aborted trailer hands nothing on (R191). -/
theorem exec_abortedTrailerSent {s : State} {d : DeckId} {reel : Option ReelId} {r : FrameRecord} {n : Nat}
    (up : s.ali.link = .up) (wire : s.ali.wire = some (.trailer (.aborted d reel r n))) :
    exec .abortedTrailerSent s
      = .next ({ s with ali := s.ali.completeParcel (.trailer (.aborted d reel r n)) } : State).beginFrameParcel := by
  show execAbortedTrailerSent s = _
  rw [execAbortedTrailerSent, wire]
  exact if_pos up

section
variable {s : State} {d : DeckId} {reel : Option ReelId} {r : FrameRecord}

/-- The part with its OVERRUN trailer sent whole. -/
def State.overrunGone (s : State) (d : DeckId) (reel : Option ReelId) (r : FrameRecord) : State :=
  { s with ali := s.ali.completeParcel (.trailer (.overrun d reel r)) }

variable (up : s.ali.link = .up) (wire : s.ali.wire = some (.trailer (.overrun d reel r)))
include up wire

/-- A trailer that outlived a soft reset hands nothing on (R192). -/
theorem exec_overrunTrailerSent_without (h : s.ali.emission = none ∨ ∃ e, s.ali.emission = some e ∧ e.sending = false) :
    exec .overrunTrailerSent s = .next (s.overrunGone d reel r).beginFrameParcel := by
  show execOverrunTrailerSent s = _
  rcases h with none | ⟨e, emission, idle⟩
  · simp only [execOverrunTrailerSent, wire, up, none, if_true]
    rfl
  · simp only [execOverrunTrailerSent, wire, up, emission, idle, if_true, Bool.not_false]
    rfl

variable {e : Emission} (emission : s.ali.emission = some e) (sending : e.sending = true)
include emission sending

/-- A voided trailer hands nothing on, and its emission ends (R191). -/
theorem exec_overrunTrailerSent_voided (voided : e.voided = true) :
    exec .overrunTrailerSent s
      = .next ((s.overrunGone d reel r).modAli fun a => { a with emission := none }).beginFrameParcel := by
  show execOverrunTrailerSent s = _
  simp only [execOverrunTrailerSent, wire, up, emission, sending, voided, if_true, Bool.not_true, Bool.false_eq_true, if_false]
  rfl

theorem exec_overrunTrailerSent_sending (voided : e.voided = false) :
    exec .overrunTrailerSent s = .next ((s.overrunGone d reel r).overrunSent e).beginFrameParcel := by
  show execOverrunTrailerSent s = _
  simp only [execOverrunTrailerSent, wire, up, emission, sending, voided, if_true, Bool.not_true, Bool.false_eq_true, if_false]
  rfl

end

/-! ### What follows the going of an OVERRUN trailer -/

/-- The part with the record of frame n of deck d gone and a drained reel handed over (R190 step 1). -/
def State.overrunLeft (s : State) (d : DeckId) (n : Nat) : State := (s.dropRecord d n).emptyHandoff d

/-- The part after R190 but for the end of the emission: record r of frame n gone, the frame LOST in the defect map, its shot examined. -/
def State.overrunTold (s : State) (d : DeckId) (n : Nat) (r : FrameRecord) : State :=
  let left := s.overrunLeft d n
  (left.setDeck d { left.deck d with
    map := (left.deck d).map.entered r.number ⟨false, false, false, false, false, true⟩ .lost }).completeExam d r.shot

theorem overrunSent_eq {s : State} {e : Emission} {r : FrameRecord} (found : (s.deck e.deck).store.find e.frame = some r) :
    s.overrunSent e = (s.overrunTold e.deck e.frame r).modAli fun a => { a with emission := none } := by
  simp only [State.overrunSent, found, modMap_eq, State.modDeck, enter_eq_entered]
  rfl

/-- The emission over with the snapshot as it is, which R190 does not speak of. -/
theorem emissionOver_keepsSnapshot (t : State) :
    t.emissionOver t.gre.snapshot = (t.modAli fun a => { a with emission := none }).beginFrameParcel := rfl

section
variable (s : State) (d : DeckId) (n : Nat)

theorem table_overrunLeft : ((s.overrunLeft d n).deck d).table = (s.deck d).table := by
  obtain ⟨_, _, dropped⟩ := deck_dropRecord s d n
  obtain ⟨_, handed⟩ := deck_emptyHandoff (s.dropRecord d n) d
  rw [State.overrunLeft, handed, dropped]

theorem map_overrunLeft : ((s.overrunLeft d n).deck d).map = (s.deck d).map :=
  ((leaveFrame_dropRecord s d n).trans (leaveFrame_emptyHandoff _ d)).map

theorem records_overrunLeft :
    ((s.overrunLeft d n).deck d).store.records = (s.deck d).store.records.filter fun q => q.number ≠ n := by
  rw [State.overrunLeft, store_emptyHandoff, records_dropRecord]

variable (r : FrameRecord)

theorem trailerFrame_overrunTold : TrailerFrame d s (s.overrunTold d n r) :=
  ((trailerFrame_leave d s n).trans (trailerFrame_setDeck _ d _ _)).trans (trailerFrame_completeExam d _ r.shot)

theorem records_overrunTold :
    ((s.overrunTold d n r).deck d).store.records = (s.deck d).store.records.filter fun q => q.number ≠ n := by
  rw [State.overrunTold, store_completeExam, deck_setDeck_same, records_overrunLeft]

theorem map_overrunTold : ((s.overrunTold d n r).deck d).map
    = (s.deck d).map.entered r.number ⟨false, false, false, false, false, true⟩ .lost := by
  rw [State.overrunTold, (leaveFrame_completeExam ..).map, deck_setDeck_same, map_overrunLeft]

end

/-- The examination settles the record's shot and leaves the others (R78, R190). -/
theorem shots_overrunTold {s : State} {d : DeckId} {r : FrameRecord} {sh : Shot}
    (shot : (s.deck d).table.shots[r.shot]? = some sh) (n : Nat) :
    ((s.overrunTold d n r).deck d).shotSettled r.shot sh
    ∧ ∀ i, i ≠ r.shot → ((s.overrunTold d n r).deck d).table.shots[i]? = (s.deck d).table.shots[i]? := by
  have table := table_overrunLeft s d n
  refine ⟨shotSettled_completeExam ?_, fun i other => ?_⟩
  · rw [deck_setDeck_same, table]
    exact shot
  · rw [State.overrunTold, shots_completeExam_ne _ _ other, deck_setDeck_same, table]

/-- Settles O39: a trailer that hands nothing on, and the steps of R190 (overrunSent_eq) with what each leaves. -/
theorem overrunAndAbortedTrailersFollowR190AndR191 : Obligations.OverrunAndAbortedTrailersFollowR190AndR191 := by
  intro s
  refine ⟨exec_overrunTrailerSent_absent, exec_abortedTrailerSent_absent, fun d reel r n => exec_abortedTrailerSent,
    fun d reel r0 up wire => ?_⟩
  intro parcel done
  refine ⟨exec_overrunTrailerSent_without up wire, fun e => exec_overrunTrailerSent_voided up wire, ?_⟩
  intro e r sh emission sending unvoided found shot k left l lost told
  have gone : s.trailerGone e.deck parcel k.store.records = s.overrunGone d reel r0 := setDeck_deck ..
  have toldEq : (s.overrunGone d reel r0).overrunTold e.deck e.frame r = told := rfl
  have ran : exec .overrunTrailerSent s = .next (told.emissionOver told.gre.snapshot) := by
    rw [exec_overrunTrailerSent_sending up wire emission sending unvoided, overrunSent_eq (s := s.overrunGone d reel r0) found,
      emissionOver_keepsSnapshot, toldEq]
  have queued : k.store.records ≠ [] := fun empty => by
    rw [find_none_of_empty empty] at found
    cases found
  have frame := trailerFrame_overrunTold (s.overrunGone d reel r0) e.deck e.frame r
  have records := records_overrunTold (s.overrunGone d reel r0) e.deck e.frame r
  have map := map_overrunTold (s.overrunGone d reel r0) e.deck e.frame r
  obtain ⟨settled, others⟩ := shots_overrunTold (s := s.overrunGone d reel r0) shot e.frame
  rw [toldEq] at frame records map settled others
  rw [← gone] at frame
  clear_value told
  obtain ⟨_, _, ended⟩ := emissionOver_eq told told.gre.snapshot
  have deck : (told.emissionOver told.gre.snapshot).deck e.deck = told.deck e.deck := by rw [ended]; rfl
  refine ⟨_, ran, rfl, emissionEnded_of_trailerFrame frame queued _, ?_, ?_, ?_, ?_⟩ <;> rw [deck]
  · exact records
  · exact settled
  · exact others
  · exact map

end Sys2Proof.Machine
end

section
namespace Sys2Proof.Machine

/-! ### Reserved bytes and bits (section 10.3) -/

theorem zeroAt_iff {offsets : List Nat} {body : List Byte} :
    zeroAt offsets body = true ↔ ∀ i ∈ offsets, body.getD i 0 = 0 := by
  have byte (i : Nat) : byteAt body i = 0 ↔ body.getD i 0 = 0 := BitVec.toNat_inj (y := 0)
  simp only [zeroAt, List.all_eq_true, beq_iff_eq, byte]

theorem and_fullMask (b : Byte) : b &&& 0xFF = b := BitVec.and_allOnes

theorem reservedClear_iff {code : Byte} (notRule : code ≠ 0x12) (body : List Byte) :
    reservedClear code body ↔ ∀ x ∈ reservedBits code, body.getD x.1 0 &&& x.2 = 0 :=
  and_iff_left fun rule => absurd rule notRule

/-- A request with whole reserved bytes alone. -/
theorem zeroAt_iff_reservedClear {code : Byte} {offsets : List Nat}
    (reserved : reservedBits code = offsets.map fun i => (i, 0xFF)) (notRule : code ≠ 0x12) (body : List Byte) :
    zeroAt offsets body = true ↔ reservedClear code body := by
  simp only [zeroAt_iff, reservedClear_iff notRule, reserved, List.forall_mem_map, and_fullMask]

/-- The reserved bits of SET_DECK_EVENTS are bits 9 to 15 of its mask: all but the lowest bit of the mask's second byte. -/
theorem le16_div_512 (body : List Byte) : le16 body 0 / 512 = 0 ↔ body.getD 1 0 &&& 0xFE = 0 := by
  have mask : ∀ b : Byte, b &&& 0xFE = 0 ↔ b.toNat / 2 = 0 := by decide
  have low : byteAt body 0 < 256 := (body.getD 0 0).isLt
  rw [mask]
  show (byteAt body 0 + 256 * byteAt body 1) / 512 = 0 ↔ byteAt body 1 / 2 = 0
  omega

theorem setDeckEvents_reserved (body : List Byte) :
    (zeroAt [3] body && le16 body 0 / 512 == 0) = true ↔ reservedClear 0x08 body := by
  have bits : reservedBits 0x08 = [(1, 0xFE), (3, 0xFF)] := rfl
  rw [reservedClear_iff (by decide), bits, List.forall_mem_cons, List.forall_mem_singleton, and_fullMask, Bool.and_eq_true,
    beq_iff_eq, zeroAt_iff, List.forall_mem_singleton, le16_div_512, and_comm]

/-- The test byte of LOAD_RULE names a test by its bit 7, and is 0 otherwise. -/
theorem loadRule_reserved (body : List Byte) :
    (zeroAt [7] body && (128 ≤ byteAt body 3 || byteAt body 3 == 0)) = true ↔ reservedClear 0x12 body := by
  have bits : reservedBits 0x12 = [(7, 0xFF)] := rfl
  have zero : byteAt body 3 = 0 ↔ body.getD 3 0 = 0 := BitVec.toNat_inj (y := 0)
  have present : 128 ≤ byteAt body 3 ↔ ¬ (body.getD 3 0).msb = false := by
    rw [BitVec.msb_eq_decide]
    simp [byteAt]
  rw [reservedClear, bits, List.forall_mem_singleton, and_fullMask, Bool.and_eq_true, zeroAt_iff, List.forall_mem_singleton,
    Bool.or_eq_true, decide_eq_true_eq, beq_iff_eq, zero, present, ← imp_iff_not_or, imp_iff_right rfl]

theorem loadShelf_reserved (body : List Byte) :
    (zeroAt [1] body && (List.range 64).all fun i => byteAt body (2 + i) / 8 % 16 == 0) = true ↔ reservedClear 0x16 body := by
  have bits : reservedBits 0x16 = (1, 0xFF) :: (List.range 64).map fun i => (2 + i, 0x78) := rfl
  have mask : ∀ b : Byte, b &&& 0x78 = 0 ↔ b.toNat / 8 % 16 = 0 := by decide
  rw [reservedClear_iff (by decide), bits, List.forall_mem_cons, List.forall_mem_map, and_fullMask, Bool.and_eq_true, zeroAt_iff,
    List.forall_mem_singleton, List.all_eq_true]
  simp only [beq_iff_eq, mask, byteAt]

theorem trim_reserved (body : List Byte) :
    (zeroAt [3] body && byteAt body 1 / 8 == 0 && byteAt body 2 / 16 == 0) = true ↔ reservedClear 0x24 body := by
  have bits : reservedBits 0x24 = [(1, 0xF8), (2, 0xF0), (3, 0xFF)] := rfl
  have set : ∀ b : Byte, b &&& 0xF8 = 0 ↔ b.toNat / 8 = 0 := by decide
  have code : ∀ b : Byte, b &&& 0xF0 = 0 ↔ b.toNat / 16 = 0 := by decide
  rw [reservedClear_iff (by decide), bits, List.forall_mem_cons, List.forall_mem_cons, List.forall_mem_singleton, set, code,
    and_fullMask, Bool.and_eq_true, Bool.and_eq_true, beq_iff_eq, beq_iff_eq, zeroAt_iff, List.forall_mem_singleton, and_assoc,
    and_rotate]
  rfl

/-! ### The checks at the take (R196) -/

/-- The model's row of a request is the table's: its scope, its length and its reserved bytes and bits (section 10.3). -/
theorem exists_requestForm {c : Instr} {code : Byte} {length : Nat} {deckScoped : Bool}
    (row : requestRow c = some (code, length, deckScoped)) :
    ∃ form, requestForm code = some form ∧ form.length = length ∧ form.deckScoped = deckScoped
      ∧ ∀ body, form.reservedZero body = true ↔ reservedClear code body := by
  cases c with
  | setDeckEvents => cases row; exact ⟨_, rfl, rfl, rfl, setDeckEvents_reserved⟩
  | loadRule => cases row; exact ⟨_, rfl, rfl, rfl, loadRule_reserved⟩
  | loadShelf => cases row; exact ⟨_, rfl, rfl, rfl, loadShelf_reserved⟩
  | trim => cases row; exact ⟨_, rfl, rfl, rfl, trim_reserved⟩
  | _ => cases row <;> exact ⟨_, rfl, rfl, rfl, zeroAt_iff_reservedClear rfl (by decide)⟩

theorem parcelDeck_eq_none {p : ControlParcel} (high : 3 < p.deck.toNat) : parcelDeck p = none := asIndex_of_le high

/-- Steps 2 to 4 of R196 give the one status RANGE, whichever applies first. -/
theorem takeChecks_eq_range {form : RequestForm} {p : ControlParcel}
    (bad : p.body.length ≠ form.length ∨ (form.deckScoped = true ∧ parcelDeck p = none) ∨ form.reservedZero p.body = false) :
    takeChecks form p = some .range := by
  rcases bad with length | ⟨named, deck⟩ | reserved
  · exact if_pos length
  · simp [takeChecks, named, deck]
  · simp [takeChecks, reserved]

/-- The row of a request is the take of its code, deck-scoped or not (R178, section 10.3). -/
theorem exec_requestRow {c : Instr} {code : Byte} {length : Nat} {deckScoped : Bool}
    (row : requestRow c = some (code, length, deckScoped)) : ∃ deliver, ∀ s, exec c s = takeRequest code deliver s := by
  cases deckScoped with
  | false => exact exec_partRow row
  | true =>
    obtain ⟨deliver, take⟩ := exec_deckRow row
    exact ⟨_, take⟩

/-- Steps 2 to 4 of R196: a wrong length, a deck above 3 and a reserved bit that is not zero. -/
theorem exec_requestRow_range {c : Instr} {code : Byte} {length : Nat} {deckScoped : Bool} {s : State} {p : ControlParcel}
    {rest : List ControlParcel} (head : s.takeable p rest) (row : requestRow c = some (code, length, deckScoped))
    (hcode : p.code = code)
    (bad : p.body.length ≠ length ∨ (deckScoped = true ∧ 3 < p.deck.toNat) ∨ ¬ reservedClear code p.body) :
    exec c s = .next (s.refused p rest .range) := by
  obtain ⟨deliver, take⟩ := exec_requestRow row
  obtain ⟨form, hform, rfl, rfl, reserved⟩ := exists_requestForm row
  rw [take]
  refine takeRequest_refuses head hcode hform (takeChecks_eq_range ?_)
  refine bad.imp_right (Or.imp (And.imp_right parcelDeck_eq_none) fun unclear => ?_)
  exact Bool.eq_false_iff.2 (mt (reserved p.body).1 unclear)

/-! ### Unknown codes (R179) -/

/-- The requests of the table of section 10.3. -/
def requests : List Instr :=
  [.bindReel, .unbindReel, .startScan, .endScan, .abortDeck, .releaseReel, .deckCommand, .setDeckEvents, .retrainLane,
    .readContext, .loadProfile, .loadComparator, .loadRule, .loadGrade, .loadCurve, .loadPolicy, .loadShelf, .addCue, .dropCue,
    .bindGrade, .setDefaultGrade, .trim, .shelved, .releasePosition, .cancelDirective, .readShots, .readDefectMap, .readShelf,
    .readQueue, .softReset]

/-- A code that the model knows is the code of a row of the table. -/
theorem code_mem_requests {code : Byte} (known : (requestForm code).isSome = true) :
    code ∈ (requests.filterMap requestRow).map Prod.fst := by
  revert code
  decide

theorem requestForm_eq_none {code : Byte} (unknown : ∀ c row, requestRow c = some row → code ≠ row.1) :
    requestForm code = none := by
  refine Option.not_isSome_iff_eq_none.1 fun known => ?_
  obtain ⟨row, mem, same⟩ := List.mem_map.1 (code_mem_requests known)
  obtain ⟨c, -, hrow⟩ := List.mem_filterMap.1 mem
  exact unknown c row hrow same.symm

/-- Step 1 of R196. -/
theorem exec_unknownRequest_refuses {s : State} {p : ControlParcel} {rest : List ControlParcel} (head : s.takeable p rest)
    (unknown : requestForm p.code = none) : exec .unknownRequest s = .next (s.refused p rest .unknown) := by
  show execUnknownRequest s = _
  simp only [execUnknownRequest, head.1, unknown, Option.isNone_none, canTake_of head, and_self, if_true, refuse_afterTake]

/-- Settles O3: a code of no row names no form (requestForm_eq_none), and the form of a row refuses what the table refuses
(exists_requestForm, takeChecks_eq_range). -/
theorem takeChecksRefuse : Obligations.TakeChecksRefuse := by
  intro s p rest head
  refine ⟨fun unknown => ?_, fun c code length deckScoped row => ?_⟩
  · exact exec_unknownRequest_refuses head (requestForm_eq_none unknown)
  · exact exec_requestRow_range head row

end Sys2Proof.Machine
end

section
namespace Sys2Proof.Machine

/-! ### What a step is, by the commands waiting -/

theorem step_of_idle {s : State} (idle : s.pending = []) : step s = .next s := by
  simp only [step, idle]

theorem step_of_waiting {c : Instr} {rest : List Instr} {s : State} (waiting : s.pending = c :: rest) :
    step s = exec c { s with pending := rest } := by
  simp only [step, waiting]

/-- Settles O1: the equation of a step with commands waiting. -/
theorem stepRunsTheFrontCommand : Obligations.StepRunsTheFrontCommand :=
  fun _ _ _ => step_of_waiting

/-- Settles O2: a step idles or carries out one command, and every command answers a next state (answers_exec). -/
theorem stepNeverStops : Obligations.StepNeverStops := by
  refine ⟨fun s => ?_, fun _ => step_of_idle⟩
  cases hq : s.pending with
  | nil => exact ⟨s, step_of_idle hq⟩
  | cons c rest =>
    obtain ⟨t, ran, -⟩ := answers_exec c { s with pending := rest }
    exact ⟨t, (step_of_waiting hq).trans ran⟩

end Sys2Proof.Machine
end
